-- ==== Sys2Proof/Word.lean ====
section
/-! DEFINITION. The plain types of the part: bytes, tick counts, table indices. -/

namespace Sys2Proof

/-- A byte of a cell or of a management frame (00_scope.md 6.2: bit 7 is the most significant). -/
abbrev Byte := BitVec 8

/-- A tick count or timestamp: 32 bits, wraps (R138, R140). -/
abbrev Tick := BitVec 32

/-- A cell index, 0..268,435,455 (1.1). -/
abbrev CellIndex := Fin 268435456

/-- A tag, 0..255, that pairs a read request with its response (1.1). -/
abbrev Tag := Fin 256

/-- An egress queue number, 0..511 (R38). -/
abbrev QueueId := Fin 512

/-- A flow record index, 0..8,191 (R55). -/
abbrev FlowId := Fin 8192

/-- A group record index, 0..127 (R80). -/
abbrev GroupId := Fin 128

/-- A policy class number, 0..7 (R40). -/
abbrev ClassId := Fin 8

/-- A ramp sequence number, 0..3 (R142). -/
abbrev RampId := Fin 4

/-- An IP address as an unsigned number. An IPv4 address stands in the low 32 bits, which changes
neither its comparisons (R54) nor its fold (R55): DESIGN CHOICE, log 15. -/
abbrev Address := BitVec 128

/-- A TCP port (R54). -/
abbrev Port := BitVec 16

end Sys2Proof
end

