-- ==== Sys2Proof/Syntax.lean ====
section
/-! DEFINITION. The commands of the part: one constructor per row of spec/opcode_table.json. -/

namespace Sys2Proof

/-- The data of a link transaction (1.1): 256 cell bytes (word w holds bytes 8w..8w+7) and 32 check
bytes, one per word. `WellFormed` checks the lengths. -/
structure Cell where
  data : List Byte
  check : List Byte
  deriving DecidableEq, Repr

/-- The two streams of the link (R2). -/
inductive Direction where
  /-- S-side to M-side: writes and read requests. -/
  | sToM
  /-- M-side to S-side: read responses. -/
  | mToS
  deriving DecidableEq, Repr

/-- When a cell handed at its arrival is parsed (R14, R136, DESIGN CHOICE, log 4). -/
inductive ParseTime where
  /-- With the arrival, no other event between, when no earlier cell of its stream still waits. -/
  | atArrival
  /-- At a later HANDED_CELL_PARSE, or when it leaves. -/
  | later
  deriving DecidableEq, Repr

/-- How far a HANDED_CELL_PARSE takes a cell (R26, R36, R129, DEDUCED, log 5). -/
inductive ParseStage where
  /-- Through the cell header stage and the accounting event (R22 to R26). -/
  | accounting
  /-- Through the frame stage, and the Flow Table's handling or lookup (R27, R36, R58, R74). -/
  | record
  /-- Through the Rewrite Unit's decisions, the end of the parse (R122). -/
  | decision
  deriving DecidableEq, Repr

/-- One command. `arrivesAt` is the arrival time in ns on the sender's clock (R3). `body` is the
request frame's whole bytes after the command code: the parameter length, then the parameters, as
received (R173), so ill-framed requests are commands too. -/
inductive Instr where
  /-- FULL_CELL_WRITE (R4). -/
  | fullCellWrite (arrivesAt : Nat) (index : CellIndex) (cell : Cell) (parse : ParseTime)
  /-- MASKED_WRITE (R15). -/
  | maskedWrite (arrivesAt : Nat) (index : CellIndex) (mask : BitVec 32) (cell : Cell)
  /-- READ_REQUEST (R8). -/
  | readRequest (arrivesAt : Nat) (index : CellIndex) (tag : Tag)
  /-- READ_RESPONSE (R10). -/
  | readResponse (arrivesAt : Nat) (tag : Tag) (cell : Cell) (memError : Bool) (parse : ParseTime)
  /-- HARDWARE_RESET (R16): assertion of RST_N. -/
  | hardwareReset
  /-- RESET_RELEASE (R138): release of RST_N. -/
  | resetRelease
  /-- TICK (R138). -/
  | tick
  /-- QUIET_EXPIRY (R48) of one queue. -/
  | quietExpiry (queue : QueueId)
  /-- SWEEP_VISIT (R72) of one flow record. -/
  | sweepVisit (record : FlowId)
  /-- SWEEP_PASS_END (R71). -/
  | sweepPassEnd
  /-- LINGER_EXPIRY (R90) of one group. -/
  | lingerExpiry (group : GroupId)
  /-- HOLD_EXPIRY (R99) of one group. -/
  | holdExpiry (group : GroupId)
  /-- ENTRY_EXPIRY (R146) of one group. -/
  | entryExpiry (group : GroupId)
  /-- HOLD_END (R148) of one group. -/
  | holdEnd (group : GroupId)
  /-- DRAIN_END_REPORT (R104). -/
  | drainEndReport
  /-- QUEUE_TABLE_CLEAR (R53). -/
  | queueTableClear
  /-- FLOW_GROUP_CLEAR (R106). -/
  | flowGroupClear
  /-- CLEAR_FLOWS_WALK_STEP (R76). -/
  | clearFlowsWalkStep
  /-- IDENTIFY, code 0x01 (R178). -/
  | identify (body : List Byte)
  /-- SENSE, code 0x02 (R177). -/
  | sense (body : List Byte)
  /-- SOFT_RESET, code 0x03 (R180). -/
  | softReset (body : List Byte)
  /-- SET_LATENCY, code 0x10 (R5). -/
  | setLatency (body : List Byte)
  /-- LOAD_PROFILE, code 0x11 (R19). -/
  | loadProfile (body : List Byte)
  /-- SET_CLASS, code 0x12 (R41). -/
  | setClass (body : List Byte)
  /-- SET_QUEUE_CLASS, code 0x13 (R39). -/
  | setQueueClass (body : List Byte)
  /-- SET_RAMP, code 0x14 (R143). -/
  | setRamp (body : List Byte)
  /-- SET_TICK, code 0x15 (R139). -/
  | setTick (body : List Byte)
  /-- SET_TIMERS, code 0x16 (R179). -/
  | setTimers (body : List Byte)
  /-- SET_ALERT, code 0x17 (R167). -/
  | setAlert (body : List Byte)
  /-- START_OBSERVE, code 0x20 (R153). -/
  | startObserve (body : List Byte)
  /-- ENFORCE, code 0x21 (R154). -/
  | enforce (body : List Byte)
  /-- RELEASE, code 0x22, of kind GRACEFUL (R156). -/
  | releaseGraceful (body : List Byte)
  /-- RELEASE, code 0x22, of kind ABRUPT (R159). -/
  | releaseAbrupt (body : List Byte)
  /-- STOP, code 0x23 (R160). -/
  | stop (body : List Byte)
  /-- READ_QUEUE, code 0x30 (R51). -/
  | readQueue (body : List Byte)
  /-- READ_GROUP, code 0x31 (R107). -/
  | readGroup (body : List Byte)
  /-- READ_FLOW, code 0x32 (R78). -/
  | readFlow (body : List Byte)
  /-- FIND_FLOW, code 0x33 (R79). -/
  | findFlow (body : List Byte)
  /-- CLEAR_FLOWS, code 0x34 (R75). -/
  | clearFlows (body : List Byte)
  /-- LOG_PEEK, code 0x40 (R166). -/
  | logPeek (body : List Byte)
  /-- LOG_POP, code 0x41 (R166). -/
  | logPop (body : List Byte)
  /-- COUNTERS_READ, code 0x42 (R172). -/
  | countersRead (body : List Byte)
  /-- CLEAR_ALERT, code 0x43 (R170). -/
  | clearAlert (body : List Byte)
  /-- A request frame with an unknown code (R176). -/
  | invalidCommand (code : Byte) (body : List Byte)
  /-- HANDED_CELL_PARSE (R14): the oldest handed cell of one stream that has not gone through a stage
  goes through it, and through any stage before it. -/
  | handedCellParse (direction : Direction) (stage : ParseStage)
  /-- TRANSACTION_LEAVES (R3): the oldest transaction of one stream leaves. -/
  | transactionLeaves (direction : Direction)
  deriving DecidableEq, Repr

end Sys2Proof
end

