-- ==== Sys2Proof/WellFormed.lean ====
section
/-! DEFINITION. Which commands can reach the part: cells of 256 and 32 bytes (1.1), an unknown code
for INVALID_COMMAND (R176), and the RELEASE kind that the row names (R155). -/

namespace Sys2Proof

/-- A cell as the link carries it: 32 words of 8 bytes and 32 check bytes (1.1). -/
def Cell.wellFormed (c : Cell) : Bool :=
  c.data.length == 256 && c.check.length == 32

/-- The command codes of 11.5. -/
def knownCodes : List Byte :=
  [0x01, 0x02, 0x03, 0x10, 0x11, 0x12, 0x13, 0x14, 0x15, 0x16, 0x17, 0x20, 0x21, 0x22, 0x23,
   0x30, 0x31, 0x32, 0x33, 0x34, 0x40, 0x41, 0x42, 0x43]

/-- The first byte of a result frame, which is no request (R173). -/
def resultFrameCode : Byte := 0xF0

/-- Whether a RELEASE frame's first parameter byte asks for the kind ABRUPT: bit 0 (R155). A frame
without a parameter byte names no kind, and counts as GRACEFUL. -/
def releaseIsAbrupt (body : List Byte) : Bool :=
  ((body.drop 1).headD 0).getLsbD 0

/-- The checks a command must pass to be one that the part can receive (DESIGN CHOICE, log 12). -/
def Instr.wellFormed : Instr → Bool
  | .fullCellWrite _ _ c _ => c.wellFormed
  | .maskedWrite _ _ _ c => c.wellFormed
  | .readResponse _ _ c _ _ => c.wellFormed
  | .invalidCommand code _ => !(knownCodes.contains code) && code != resultFrameCode
  | .releaseGraceful body => !(releaseIsAbrupt body)
  | .releaseAbrupt body => releaseIsAbrupt body
  | .readRequest _ _ _ | .hardwareReset | .resetRelease | .tick | .quietExpiry _ | .sweepVisit _
  | .sweepPassEnd | .lingerExpiry _ | .holdExpiry _ | .entryExpiry _ | .holdEnd _ | .drainEndReport
  | .queueTableClear | .flowGroupClear | .clearFlowsWalkStep | .identify _ | .sense _ | .softReset _
  | .setLatency _ | .loadProfile _ | .setClass _ | .setQueueClass _ | .setRamp _ | .setTick _
  | .setTimers _ | .setAlert _ | .startObserve _ | .enforce _ | .stop _ | .readQueue _
  | .readGroup _ | .readFlow _ | .findFlow _ | .clearFlows _ | .logPeek _ | .logPop _
  | .countersRead _ | .clearAlert _ | .handedCellParse _ _ | .transactionLeaves _ => true

end Sys2Proof
end

