-- ==== Sys2Proof/Decode.lean ====
section
/-! DEFINITION. From bits and bytes to commands. spec/opcode_table.json gives no row any bits, so
`decodeTableWord` reads no command from a word. A request frame of the management port (R173, 11.5)
does spell its command: `decodeFrame`, and back: `frameOf`. -/

namespace Sys2Proof

/-- No row of the table has bits: a word spells no command. -/
def decodeTableWord (_nbits _w : Nat) : Option Instr := none

/-- The bits of one byte, most significant first (11.1). -/
def byteOfBits (bits : List Bool) : Byte :=
  BitVec.ofNat 8 (bits.foldl (fun acc b => 2 * acc + b.toNat) 0)

/-- The whole bytes of a frame from the bits clocked while CS_N was low, MSB first: a byte of which
fewer than eight bits were clocked is discarded (R173). `fuel` bounds the number of bytes. -/
def wholeBytesAux : Nat → List Bool → List Byte
  | 0, _ => []
  | fuel + 1, bits =>
    if bits.length < 8 then [] else byteOfBits (bits.take 8) :: wholeBytesAux fuel (bits.drop 8)

/-- The whole bytes of a frame (R173). -/
def wholeBytes (bits : List Bool) : List Byte :=
  wholeBytesAux (bits.length / 8) bits

/-- The command that a request with this code and these following bytes is (11.5, R155, R176). -/
def requestOf (code : Byte) (body : List Byte) : Instr :=
  match code.toNat with
  | 0x01 => .identify body
  | 0x02 => .sense body
  | 0x03 => .softReset body
  | 0x10 => .setLatency body
  | 0x11 => .loadProfile body
  | 0x12 => .setClass body
  | 0x13 => .setQueueClass body
  | 0x14 => .setRamp body
  | 0x15 => .setTick body
  | 0x16 => .setTimers body
  | 0x17 => .setAlert body
  | 0x20 => .startObserve body
  | 0x21 => .enforce body
  | 0x22 => if releaseIsAbrupt body then .releaseAbrupt body else .releaseGraceful body
  | 0x23 => .stop body
  | 0x30 => .readQueue body
  | 0x31 => .readGroup body
  | 0x32 => .readFlow body
  | 0x33 => .findFlow body
  | 0x34 => .clearFlows body
  | 0x40 => .logPeek body
  | 0x41 => .logPop body
  | 0x42 => .countersRead body
  | 0x43 => .clearAlert body
  | _ => .invalidCommand code body

/-- The command that a frame's whole bytes spell (R173): none for a frame with no whole byte, which
is ignored, and none for a result frame, which changes nothing (R174). -/
def decodeFrame : List Byte → Option Instr
  | [] => none
  | code :: body => if code = resultFrameCode then none else some (requestOf code body)

/-- The whole bytes of the request frame that carries a management command (11.5); none for a
command that is no request. -/
def frameOf : Instr → Option (List Byte)
  | .identify body => some (0x01 :: body)
  | .sense body => some (0x02 :: body)
  | .softReset body => some (0x03 :: body)
  | .setLatency body => some (0x10 :: body)
  | .loadProfile body => some (0x11 :: body)
  | .setClass body => some (0x12 :: body)
  | .setQueueClass body => some (0x13 :: body)
  | .setRamp body => some (0x14 :: body)
  | .setTick body => some (0x15 :: body)
  | .setTimers body => some (0x16 :: body)
  | .setAlert body => some (0x17 :: body)
  | .startObserve body => some (0x20 :: body)
  | .enforce body => some (0x21 :: body)
  | .releaseGraceful body => some (0x22 :: body)
  | .releaseAbrupt body => some (0x22 :: body)
  | .stop body => some (0x23 :: body)
  | .readQueue body => some (0x30 :: body)
  | .readGroup body => some (0x31 :: body)
  | .readFlow body => some (0x32 :: body)
  | .findFlow body => some (0x33 :: body)
  | .clearFlows body => some (0x34 :: body)
  | .logPeek body => some (0x40 :: body)
  | .logPop body => some (0x41 :: body)
  | .countersRead body => some (0x42 :: body)
  | .clearAlert body => some (0x43 :: body)
  | .invalidCommand code body => some (code :: body)
  | .fullCellWrite _ _ _ _ | .maskedWrite _ _ _ _ | .readRequest _ _ _ | .readResponse _ _ _ _ _
  | .hardwareReset | .resetRelease | .tick | .quietExpiry _ | .sweepVisit _ | .sweepPassEnd
  | .lingerExpiry _ | .holdExpiry _ | .entryExpiry _ | .holdEnd _ | .drainEndReport
  | .queueTableClear | .flowGroupClear | .clearFlowsWalkStep | .handedCellParse _ _
  | .transactionLeaves _ => none

end Sys2Proof
end

