-- ==== Sys2Proof/Config.lean ====
section
/-! DEFINITION. What the part fixes, and the free values: the values the spec leaves unstated. -/

namespace Sys2Proof.Config

/-- Added latency under SHORT, in ns (R3). -/
def shortLatencyNs : Nat := 48

/-- Added latency under LONG, in ns (R3). -/
def longLatencyNs : Nat := 80

/-- Parse window under SHORT, in bytes (R3, R7). -/
def shortWindow : Nat := 128

/-- Parse window under LONG, in bytes (R3, R7). -/
def longWindow : Nat := 256

/-- The greatest value of a 32-bit count or estimate: it saturates there (00_scope.md 6.3). -/
def countMax : Nat := 4294967295

/-- How many entries the episode log holds (R163). -/
def logCapacity : Nat := 256

/-- The greatest member count of a group (R82). -/
def memberMax : Nat := 255

/-- FREE VALUE (DESIGN CHOICE, log 10): the active member total that READ_GROUP returns for a FREE group, which has
no queue; the argument is a fresh draw number. -/
opaque freeGroupTotal : Nat → BitVec 16

/-- FREE VALUE (DESIGN CHOICE, log 10): the queue estimate that READ_GROUP returns for a FREE group; the argument
is a fresh draw number. -/
opaque freeGroupEstimate : Nat → BitVec 32

/-- FREE VALUE (DESIGN CHOICE, log 11): the base share for this headroom when the active member total is 0 in an
episode state, for which R109 says that the part makes no test. -/
opaque baseShareOfNone : Nat → Nat

/-- FREE VALUE (DESIGN CHOICE, log 19): byte `i` on MISO, none for high impedance, of a frame that the
part does not take, once RST_N has been asserted in it or where it begins while RST_N is asserted. -/
opaque ignoredFrameMiso : Nat → Option Byte

end Sys2Proof.Config
end

