-- ==== Sys2Proof/Machine/State.lean ====
section
/-! DEFINITION. The state of the part as plain data, grouped by the block that owns it (00_scope.md
3.2), its value after reset, and why a step can stop. -/

namespace Sys2Proof.Machine

/-- A table of `n` values: the entries that differ from the table's reset value, by rising index. -/
abbrev Table (n : Nat) (α : Type) := List (Fin n × α)

/-- The latency setting (R5). -/
inductive Latency where
  | short
  | long
  deriving DecidableEq, Repr

/-- The state of an outstanding read table entry (1.4). -/
inductive EntryState where
  | empty
  | eligible
  | ineligible
  deriving DecidableEq, Repr

/-- The operating mode (R152). -/
inductive Mode where
  | transparent
  | observe
  | enforce
  | draining
  deriving DecidableEq, Repr

/-- An IP version (R54). -/
inductive IpVersion where
  | v4
  | v6
  deriving DecidableEq, Repr

/-- The position of one flag in the cell header (R18). -/
structure BitPosition where
  byte : Nat
  bit : Nat
  deriving DecidableEq, Repr

/-- One cell range of the profile (R18, R21). -/
structure CellRange where
  enabled : Bool
  base : Nat
  limit : Nat
  deriving DecidableEq, Repr

/-- The cell header profile (R18). -/
structure Profile where
  frameOffset : Nat
  sop : BitPosition
  multicast : Option BitPosition
  queueByte : Nat
  queueLsb : Nat
  queueWidth : Nat
  queueOffset : Nat
  lengthByte : Nat
  ranges : List CellRange
  deriving DecidableEq, Repr

/-- A transaction of the link with the fields of 1.1, which are all that the part reads. The other bits of a
transaction, which pass as they arrived and which the spec does not name, are left out (DESIGN CHOICE, log 21). -/
inductive LinkTransaction where
  | fullWrite (index : CellIndex) (cell : Cell)
  | maskedWrite (index : CellIndex) (mask : BitVec 32) (cell : Cell)
  | readRequest (index : CellIndex) (tag : Tag)
  | readResponse (tag : Tag) (cell : Cell) (memError : Bool)
  deriving DecidableEq, Repr

/-- One record of the queue table (R38), in bytes and ticks. -/
structure QueueRecord where
  estimate : Nat
  peak : Nat
  marks : Nat
  lastActivity : Tick
  deriving DecidableEq, Repr

/-- The ramp end mode (R40). -/
inductive EndMode where
  | ends
  | holds
  deriving DecidableEq, Repr

/-- One policy class record (R40). -/
structure ClassRecord where
  onsetDepth : Nat
  releaseDepth : Nat
  fanIn : Nat
  holdTime : Nat
  targetDepth : Nat
  pathAllowance : Nat
  windowFloor : Nat
  windowCeiling : Nat
  assumedScale : Option Nat
  rewriteEnable : Bool
  markDepth : Nat
  ramp : RampId
  endMode : EndMode
  deriving DecidableEq, Repr

/-- The Depth Accounting Unit (Chapter 3). -/
structure Depths where
  queues : Table 512 QueueRecord
  classOf : Table 512 ClassId
  classes : Table 8 ClassRecord
  quietTime : Nat
  deriving DecidableEq, Repr

/-- The state of a flow record (R57). -/
inductive FlowState where
  | free
  | handshake
  | opened
  | closing
  deriving DecidableEq, Repr

/-- Which endpoint of a flow: E1 or E2 (R54). -/
inductive Side where
  | e1
  | e2
  deriving DecidableEq, Repr

/-- An endpoint: an (address, port) pair (R54). -/
structure Endpoint where
  address : Address
  port : Port
  deriving DecidableEq, Repr

/-- The canonical key of a flow (R54): `first` is E1, the lesser, and `second` E2. -/
structure FlowKey where
  version : IpVersion
  first : Endpoint
  second : Endpoint
  deriving DecidableEq, Repr

/-- An initiator offer that has been seen (R57 note 1). -/
inductive Offer where
  | noneOffered
  | scale (value : Nat)
  deriving DecidableEq, Repr

/-- One flow record (R57). `none` is the spec's "absent", and for the initiator "unknown". -/
structure FlowRecord where
  state : FlowState
  key : Option FlowKey
  initiator : Option Side
  offer : Option Offer
  scale1 : Option Nat
  scale2 : Option Nat
  responder : Option Side
  group : Option GroupId
  prev : Option FlowId
  next : Option FlowId
  joinedQueue : Option QueueId
  fin1 : Bool
  fin2 : Bool
  lastSeen : Tick
  deriving DecidableEq, Repr

/-- The sweep pass in progress (R71): its first tick, its period, and the lowest record that it has
not yet visited. -/
structure SweepPass where
  start : Tick
  period : Nat
  nextRecord : Nat
  deriving DecidableEq, Repr

/-- The Flow Table (Chapter 4). -/
structure FlowTable where
  flows : Table 8192 FlowRecord
  idleTime : Nat
  handshakeTime : Nat
  sweepPeriod : Nat
  seed : BitVec 16
  sweep : Option SweepPass
  deriving DecidableEq, Repr

/-- The Flow Table's answer to a lookup that hits (R74). `scale` is the scale of the endpoint that is
not the responder. -/
structure FlowAnswer where
  record : FlowId
  state : FlowState
  sender : Side
  group : Option GroupId
  responder : Option Side
  scale : Option Nat
  deriving DecidableEq, Repr

/-- How far the parse of a handed cell has come (R26, R36, R129). -/
inductive Progress where
  /-- Handed, nothing done. -/
  | handed
  /-- The accounting event is taken, or the cell counted as one that gives none: the queue of the
  event and, on the read path, the departure depth; 0 on the write path. -/
  | accounted (start : Option (QueueId × Nat))
  /-- On the read path, the Flow Table has answered: the queue and departure depth, and the answer,
  none for a miss and for a record without a TCP part. -/
  | answered (departed : Option (QueueId × Nat)) (answer : Option FlowAnswer)
  deriving DecidableEq, Repr

/-- What travels with a cell handed to the parser: the profile and the mode at its arrival
(R18 note 1, R10), and how far its parse has come. -/
structure Handed where
  profile : Profile
  mode : Mode
  progress : Progress
  deriving DecidableEq, Repr

/-- A transaction inside the part: when it arrived (ns), under which latency setting (R6, R7), and,
while it is handed and its parse has not ended, what travels with it. -/
structure Transit where
  transaction : LinkTransaction
  arrivedAt : Nat
  latency : Latency
  awaiting : Option Handed
  deriving DecidableEq, Repr

/-- A transaction that has left the far side, and when (ns, R3). -/
structure Departed where
  transaction : LinkTransaction
  leftAt : Nat
  deriving DecidableEq, Repr

/-- The Link Forwarder (Chapter 1). `toMemory` and `toSwitch` are the two ordered streams, oldest
first. `memoryPins` and `switchPins` are the transactions last presented on the M-side and S-side
transmit lanes (DESIGN CHOICE, log 6). -/
structure Link where
  latency : Latency
  locked : Bool
  outstanding : Table 256 EntryState
  toMemory : List Transit
  toSwitch : List Transit
  memoryPins : Option Departed
  switchPins : Option Departed
  deriving DecidableEq, Repr

/-- The state of a group record (R80). -/
inductive GroupState where
  | free
  | watch
  | active
  | settle
  | ramp
  deriving DecidableEq, Repr

/-- The key of a group (R80). -/
structure GroupKey where
  queue : QueueId
  version : IpVersion
  address : Address
  deriving DecidableEq, Repr

/-- One group record (R80). A group in RAMP whose `rampStart` is absent holds (R147). -/
structure GroupRecord where
  state : GroupState
  key : Option GroupKey
  count : Nat
  head : Option FlowId
  tail : Option FlowId
  onsetAt : Option Tick
  peak : Option Nat
  deadline : Option Tick
  rampEntry : Option Nat
  rampStart : Option Tick
  lingerStart : Option Tick
  overflow : Bool
  deriving DecidableEq, Repr

/-- The Group Controller (Chapter 5): groups, active member totals by queue, linger time. -/
structure Groups where
  groups : Table 128 GroupRecord
  totals : Table 512 Nat
  lingerTime : Nat
  deriving DecidableEq, Repr

/-- One entry of a ramp sequence (R142). -/
structure RampEntry where
  duration : Nat
  multiplier : Nat
  deriving DecidableEq, Repr

/-- The expiry of one timer (R141): of a queue (R48), or of a group (R90, R99, R146, R148). -/
inductive TimedEvent where
  | quiet (queue : QueueId)
  | linger (group : GroupId)
  | hold (group : GroupId)
  | entry (group : GroupId)
  | holdEnd (group : GroupId)
  deriving DecidableEq, Repr

/-- The Time Base (Chapter 8). `refclkCount` is the count of REFCLK periods toward the next tick; `due`
holds the expiries that fall on the present tick and have not been taken yet (R141); `refclk`, the
model's own, is the periods since the release of RST_N (DESIGN CHOICE, log 7). -/
structure TimeBase where
  prescaler : Nat
  tick : Tick
  refclkCount : Nat
  ramps : Table 4 (List RampEntry)
  due : List TimedEvent
  refclk : Nat
  deriving DecidableEq, Repr

/-- The kind of a log entry (R165), numbered in 10.2. -/
inductive LogKind where
  | onset
  | settle
  | resume
  | ramp
  | ended
  | collapse
  deriving DecidableEq, Repr

/-- The cause of a log entry (R165). -/
inductive LogCause where
  | none
  | sequence
  | release
  deriving DecidableEq, Repr

/-- One entry of the episode log (R165). -/
structure LogEntry where
  kind : LogKind
  cause : LogCause
  timestamp : Tick
  group : GroupId
  key : GroupKey
  count : Nat
  depth : Nat
  peak : Nat
  duration : Nat
  deriving DecidableEq, Repr

/-- The episode log (R163), oldest entry first. Bit i of the kind mask enables the kind numbered
i + 1 in 10.2. -/
structure EpisodeLog where
  entries : List LogEntry
  kindMask : BitVec 6
  level : Nat
  deriving DecidableEq, Repr

/-- The five sticky alert flags and the alert mask (R167, R168). -/
structure Alerts where
  logOverflow : Bool
  onset : Bool
  flowFull : Bool
  groupFull : Bool
  linkCheck : Bool
  mask : BitVec 6
  deriving DecidableEq, Repr

/-- The status of a result record (11.1). -/
inductive Status where
  | good
  | pending
  | busy
  | check
  deriving DecidableEq, Repr

/-- The result record (R174); its length is the number of bytes it holds. -/
structure ResultRecord where
  status : Status
  code : Byte
  bytes : List Byte
  deriving DecidableEq, Repr

/-- The sense codes (R177). -/
inductive SenseCode where
  | none
  | invalidCommand
  | badLength
  | reservedSet
  | outOfRange
  | wrongMode
  | noProfile
  | locked
  | logEmpty
  | indexRange
  deriving DecidableEq, Repr

/-- The sense record (R177). -/
structure SenseRecord where
  code : SenseCode
  offset : Nat
  deriving DecidableEq, Repr

/-- A pending command (R174): STOP or SOFT_RESET with which of its clears are done (R53, R106), or
CLEAR_FLOWS with the record its walk reaches next (R76). -/
inductive PendingCommand where
  | clears (soft : Bool) (queuesDone : Bool) (flowsDone : Bool)
  | walk (next : FlowId)
  deriving DecidableEq, Repr

/-- The Management Port (Chapter 11). -/
structure ManagementPort where
  result : ResultRecord
  sense : SenseRecord
  command : Option PendingCommand
  deriving DecidableEq, Repr

/-- The whole state of the part. `running` is the RST_N pin: true when released (R16). `draws`
counts the free values taken (DESIGN CHOICE, log 10); `pending` is the queue of waiting commands. -/
structure State where
  running : Bool
  link : Link
  profile : Option Profile
  depths : Depths
  ft : FlowTable
  gc : Groups
  time : TimeBase
  mode : Mode
  log : EpisodeLog
  counters : Table 25 Nat
  alerts : Alerts
  port : ManagementPort
  draws : Nat
  pending : List Instr
  deriving DecidableEq, Repr

/-- The part raises no fault: every command has an effect, and what goes wrong is reported in State
(the result record, the counters, the alert flags). -/
inductive Fault where
  deriving DecidableEq, Repr

/-- Why a command has no meaning in the model. -/
inductive Refusal where
  /-- Raised by an arm of `exec` whose command has no meaning yet; no arm raises it. Safe. -/
  | notModelled (mnemonic : String)
  deriving DecidableEq, Repr

/-- The Link Forwarder after hardware reset (R5, R8, R16). The pins present nothing (DESIGN CHOICE, log 6). -/
def Link.reset : Link :=
  { latency := .short, locked := false, outstanding := [], toMemory := [], toSwitch := [],
    memoryPins := none, switchPins := none }

/-- The Depth Accounting Unit after hardware reset (R38, R39, R40, R48). -/
def Depths.reset : Depths :=
  { queues := [], classOf := [], classes := [], quietTime := 0 }

/-- The Flow Table after hardware reset (R56, R77). -/
def FlowTable.reset : FlowTable :=
  { flows := [], idleTime := 200000, handshakeTime := 1000000, sweepPeriod := 50000, seed := 0,
    sweep := none }

/-- The Group Controller after hardware reset (R106). -/
def Groups.reset : Groups :=
  { groups := [], totals := [], lingerTime := 100000 }

/-- The Time Base after hardware reset (R138, R142). -/
def TimeBase.reset : TimeBase :=
  { prescaler := 100, tick := 0, refclkCount := 0, ramps := [], due := [], refclk := 0 }

/-- The episode log after hardware reset (R163). -/
def EpisodeLog.reset : EpisodeLog :=
  { entries := [], kindMask := 63, level := 192 }

/-- The alert flags and mask after hardware reset (R167, R168). -/
def Alerts.reset : Alerts :=
  { logOverflow := false, onset := false, flowFull := false, groupFull := false,
    linkCheck := false, mask := 0 }

/-- The sense record NONE, 0 (R177). -/
def SenseRecord.reset : SenseRecord := { code := .none, offset := 0 }

/-- The Management Port after hardware reset (R181). -/
def ManagementPort.reset : ManagementPort :=
  { result := { status := .good, code := 0, bytes := [] }, sense := .reset, command := none }

/-- The machine right after reset: RST_N just released, every setting and table at the value of
11.7 (DESIGN CHOICE, log 1), no command waiting. -/
def State.reset : State :=
  { running := true, link := .reset, profile := none, depths := .reset, ft := .reset,
    gc := .reset, time := .reset, mode := .transparent, log := .reset, counters := [],
    alerts := .reset, port := .reset, draws := 0, pending := [] }

end Sys2Proof.Machine
end

