-- ==== Sys2Proof/Machine/Ops.lean ====
section
/-! DEFINITION. The named operations over the tables and registers of the part: reads, writes,
saturating counts, elapsed ticks, events over the group table. -/

namespace Sys2Proof.Machine

/-! ### Tables

A table lists what differs from one reset value `d`. Reads and writes never depend on the order of
the list; writes keep the canonical form `TableWf`. -/

/-- What index `k` holds: its entry, or the reset value. -/
def tableGet {n : Nat} {α : Type} (d : α) (t : Table n α) (k : Fin n) : α :=
  match t with
  | [] => d
  | e :: rest => if e.1 = k then e.2 else tableGet d rest k

/-- The table without an entry for `k`. -/
def tableErase {n : Nat} {α : Type} (t : Table n α) (k : Fin n) : Table n α :=
  t.filter (fun e => decide (e.1 ≠ k))

/-- The table with a new entry before the first larger index. -/
def tableInsert {n : Nat} {α : Type} (t : Table n α) (k : Fin n) (v : α) : Table n α :=
  match t with
  | [] => [(k, v)]
  | e :: rest => if k < e.1 then (k, v) :: e :: rest else e :: tableInsert rest k v

/-- Index `k` now holds `v`. Writing the reset value removes the entry. -/
def tableSet {n : Nat} {α : Type} [DecidableEq α] (d : α) (t : Table n α) (k : Fin n) (v : α) :
    Table n α :=
  if v = d then tableErase t k else tableInsert (tableErase t k) k v

/-- Every index now holds `f` of what it held; `f` must keep the reset value. -/
def tableMap {n : Nat} {α : Type} [DecidableEq α] (d : α) (f : α → α) (t : Table n α) : Table n α :=
  t.foldr (fun e acc => tableSet d acc e.1 (f e.2)) []

/-- Every index now holds `v`. -/
def tableFill {n : Nat} {α : Type} [DecidableEq α] (d : α) (v : α) : Table n α :=
  if v = d then [] else (List.finRange n).map (fun k => (k, v))

/-- Whether every index holds a value that passes `p`; the reset value must pass it. -/
def tableAll {n : Nat} {α : Type} (d : α) (p : α → Bool) (t : Table n α) : Bool :=
  t.all (fun e => p (tableGet d t e.1))

/-- The canonical form: indices strictly rising, no entry equal to the reset value. -/
abbrev TableWf {n : Nat} {α : Type} (d : α) (t : Table n α) : Prop :=
  t.Pairwise (fun a b => a.1 < b.1) ∧ ∀ e ∈ t, e.2 ≠ d

/-! ### Reset values of table entries -/

/-- A queue record after hardware reset (R38). -/
def queueReset : QueueRecord := { estimate := 0, peak := 0, marks := 0, lastActivity := 0 }

/-- The class defaults (R40). -/
def classReset : ClassRecord :=
  { onsetDepth := 262144, releaseDepth := 65536, fanIn := 0, holdTime := 2000,
    targetDepth := 131072, pathAllowance := 32768, windowFloor := 2920, windowCeiling := 1048576,
    assumedScale := none, rewriteEnable := false, markDepth := 0, ramp := 0, endMode := .ends }

/-- A FREE flow record with this last-seen timestamp (R57). -/
def freeFlow (lastSeen : Tick) : FlowRecord :=
  { state := .free, key := none, initiator := none, offer := none, scale1 := none, scale2 := none,
    responder := none, group := none, prev := none, next := none, joinedQueue := none,
    fin1 := false, fin2 := false, lastSeen := lastSeen }

/-- A flow record after hardware reset (R57). -/
def flowReset : FlowRecord := freeFlow 0

/-- A FREE group record (R80). -/
def freeGroup : GroupRecord :=
  { state := .free, key := none, count := 0, head := none, tail := none, onsetAt := none,
    peak := none, deadline := none, rampEntry := none, rampStart := none, lingerStart := none,
    overflow := false }

/-! ### Reads and writes of the tables of State -/

/-- The outstanding read table entry of a tag (R8). -/
def State.entry (s : State) (t : Tag) : EntryState := tableGet .empty s.link.outstanding t

/-- Writes the outstanding read table entry of a tag (R8). -/
def State.setEntry (s : State) (t : Tag) (e : EntryState) : State :=
  { s with link := { s.link with outstanding := tableSet .empty s.link.outstanding t e } }

/-- The record of a queue (R38). -/
def State.queue (s : State) (q : QueueId) : QueueRecord := tableGet queueReset s.depths.queues q

/-- Writes the record of a queue. -/
def State.setQueue (s : State) (q : QueueId) (r : QueueRecord) : State :=
  { s with depths := { s.depths with queues := tableSet queueReset s.depths.queues q r } }

/-- The class number of a queue (R39). -/
def State.classNumber (s : State) (q : QueueId) : ClassId := tableGet 0 s.depths.classOf q

/-- A policy class record (R40). -/
def State.classRecord (s : State) (c : ClassId) : ClassRecord :=
  tableGet classReset s.depths.classes c

/-- The class record that a queue maps to, as it stands (R42). -/
def State.queueClass (s : State) (q : QueueId) : ClassRecord := s.classRecord (s.classNumber q)

/-- A flow record (R57). -/
def State.flow (s : State) (i : FlowId) : FlowRecord := tableGet flowReset s.ft.flows i

/-- Writes a flow record. -/
def State.setFlow (s : State) (i : FlowId) (r : FlowRecord) : State :=
  { s with ft := { s.ft with flows := tableSet flowReset s.ft.flows i r } }

/-- A group record (R80). -/
def State.group (s : State) (g : GroupId) : GroupRecord := tableGet freeGroup s.gc.groups g

/-- Writes a group record. -/
def State.setGroup (s : State) (g : GroupId) (r : GroupRecord) : State :=
  { s with gc := { s.gc with groups := tableSet freeGroup s.gc.groups g r } }

/-- The active member total of a queue (R83). -/
def State.total (s : State) (q : QueueId) : Nat := tableGet 0 s.gc.totals q

/-- Writes the active member total of a queue. -/
def State.setTotal (s : State) (q : QueueId) (n : Nat) : State :=
  { s with gc := { s.gc with totals := tableSet 0 s.gc.totals q n } }

/-- A ramp sequence (R142). -/
def State.ramp (s : State) (r : RampId) : List RampEntry := tableGet [] s.time.ramps r

/-- The tick count. -/
abbrev State.now (s : State) : Tick := s.time.tick

/-! ### Counters (R171): 32 bits, saturating -/

/-- A global counter number (R171). -/
abbrev CounterId := Fin 25

/-- A 32-bit count that holds at its greatest value (00_scope.md 6.3). -/
def saturate (n : Nat) : Nat := min n Config.countMax

/-- The value of a global counter. -/
def State.counter (s : State) (c : CounterId) : Nat := tableGet 0 s.counters c

/-- A global counter increments (R171). -/
def State.bump (s : State) (c : CounterId) : State :=
  { s with counters := tableSet 0 s.counters c (saturate (s.counter c + 1)) }

namespace Counter
def parseOther : CounterId := 0
def parseIpOther : CounterId := 1
def parseMalformed : CounterId := 2
def parseTruncated : CounterId := 3
def parseTcp : CounterId := 4
def badQueue : CounterId := 5
def badLength : CounterId := 6
def multicastSkipped : CounterId := 7
def maskedInRange : CounterId := 8
def tagReuse : CounterId := 9
def orphanResponse : CounterId := 10
def linkCheckError : CounterId := 11
def depthUnderflow : CounterId := 12
def quietReconcile : CounterId := 13
def flowIneligible : CounterId := 14
def flowAllocFail : CounterId := 15
def groupAllocFail : CounterId := 16
def memberOverflow : CounterId := 17
def joins : CounterId := 18
def onsets : CounterId := 19
def windowsRewritten : CounterId := 20
def rewriteSkipScale : CounterId := 21
def marksSet : CounterId := 22
def unmarkable : CounterId := 23
def logDiscard : CounterId := 24
end Counter

/-! ### Ticks -/

/-- The elapsed time: now minus the timestamp, modulo 2^32 (R140). -/
def elapsed (now stamp : Tick) : Nat := (now - stamp).toNat

/-- A deadline: a start plus an interval, modulo 2^32 (R140). -/
def deadlineAfter (start : Tick) (interval : Nat) : Tick := start + BitVec.ofNat 32 interval

/-! ### Events -/

/-- While RST_N is asserted the part takes nothing (R16, R138, R181): DESIGN CHOICE, log 1. -/
def whenRunning (s : State) (f : State → State) : State := if s.running then f s else s

/-- An event that reaches the groups acts on one group at a time in ascending index (R96). -/
def forGroups (s : State) (f : GroupId → State → State) : State :=
  (List.finRange 128).foldl (fun s g => f g s) s

/-- The same event on the groups of one queue alone (R96). A FREE group is on no queue. -/
def forGroupsOn (q : QueueId) (s : State) (f : GroupId → State → State) : State :=
  forGroups s (fun g s => if (s.group g).key.map GroupKey.queue = some q then f g s else s)

/-- ACTIVE, SETTLE and RAMP are the episode states (R80). -/
def GroupState.isEpisode : GroupState → Bool
  | .active | .settle | .ramp => true
  | .free | .watch => false

/-- Whether some group of the table is in an episode state (R104). -/
def State.anyEpisode (s : State) : Bool :=
  (List.finRange 128).any (fun g => (s.group g).state.isEpisode)

/-- The profile's range test on a cell index (R21). -/
def State.inRange (s : State) (index : CellIndex) : Bool :=
  match s.profile with
  | none => false
  | some p =>
    p.ranges.any (fun r => r.enabled && decide (r.base ≤ index.val) && decide (index.val ≤ r.limit))

end Sys2Proof.Machine
end

