-- ==== Sys2Proof/Machine/Flags.lean ====
section
/-! DEFINITION. The six alert flags, ALERT_N, and the check bytes and checksums: every flag and
parity the part computes (R12, R133, R168, R169). -/

namespace Sys2Proof.Machine

/-! ### Alert flags -/

/-- LOG_LEVEL: set while the log count is at least the log level (R168). -/
def State.logLevelFlag (s : State) : Bool := decide (s.log.level ≤ s.log.entries.length)

/-- The six flags in the bit order of R168. -/
def State.flags (s : State) : BitVec 6 :=
  BitVec.ofNat 6 (s.logLevelFlag.toNat + 2 * s.alerts.logOverflow.toNat + 4 * s.alerts.onset.toNat
    + 8 * s.alerts.flowFull.toNat + 16 * s.alerts.groupFull.toNat + 32 * s.alerts.linkCheck.toNat)

/-- Whether ALERT_N is driven low; it is released otherwise, and while RST_N is asserted (R169). -/
def State.alertLow (s : State) : Bool := s.running && decide (s.flags &&& s.alerts.mask ≠ 0)

/-- Sets the LOG_OVERFLOW flag (R164). -/
def State.flagLogOverflow (s : State) : State := { s with alerts := { s.alerts with logOverflow := true } }

/-- Sets the ONSET flag (R94). -/
def State.flagOnset (s : State) : State := { s with alerts := { s.alerts with onset := true } }

/-- Sets the FLOW_FULL flag (R60). -/
def State.flagFlowFull (s : State) : State := { s with alerts := { s.alerts with flowFull := true } }

/-- Sets the GROUP_FULL flag (R86). -/
def State.flagGroupFull (s : State) : State := { s with alerts := { s.alerts with groupFull := true } }

/-- Sets the LINK_CHECK flag (R13). -/
def State.flagLinkCheck (s : State) : State := { s with alerts := { s.alerts with linkCheck := true } }

/-- Clears the sticky flags that bits 5..1 of a clear mask name (R170). -/
def Alerts.clear (a : Alerts) (clearMask : Byte) : Alerts :=
  { a with
    logOverflow := a.logOverflow && !clearMask.getLsbD 1
    onset := a.onset && !clearMask.getLsbD 2
    flowFull := a.flowFull && !clearMask.getLsbD 3
    groupFull := a.groupFull && !clearMask.getLsbD 4
    linkCheck := a.linkCheck && !clearMask.getLsbD 5 }

/-! ### Check bytes (R12) -/

/-- The exclusive-OR of the eight bits of a byte. -/
def parity (b : Byte) : Bool :=
  (b.getLsbD 0 ^^ b.getLsbD 1) ^^ (b.getLsbD 2 ^^ b.getLsbD 3)
    ^^ ((b.getLsbD 4 ^^ b.getLsbD 5) ^^ (b.getLsbD 6 ^^ b.getLsbD 7))

/-- Byte `i` of a cell. -/
def cellByte (c : Cell) (i : Nat) : Byte := c.data.getD i 0

/-- The check byte of word `w` as its eight bytes give it: bit i is the parity of byte i (R12). -/
def computedCheck (c : Cell) (w : Nat) : Byte :=
  BitVec.ofNat 8 ((List.range 8).foldl
    (fun acc i => acc + 2 ^ i * (parity (cellByte c (8 * w + i))).toNat) 0)

/-- Whether word `w` is clean (R12). -/
def wordClean (c : Cell) (w : Nat) : Bool := c.check.getD w 0 == computedCheck c w

/-- The check-byte test: all 32 words are clean (R12). -/
def cellClean (c : Cell) : Bool := (List.range 32).all (wordClean c)

/-- Whether byte `i` agrees with its own check bit (R13). -/
def byteClean (c : Cell) (i : Nat) : Bool :=
  (c.check.getD (i / 8) 0).getLsbD (i % 8) == parity (cellByte c i)

/-- One bit of a cell. -/
def cellBit (c : Cell) (p : BitPosition) : Bool := (cellByte c p.byte).getLsbD p.bit

/-! ### Checksums (R133) -/

/-- One fold of a ones'-complement sum: the carry out of bit 15 added back into bit 0. -/
def foldCarry (n : Nat) : Nat := n % 65536 + n / 65536

/-- The checksum `c` updated for a 16-bit word that changes from `w` to `w'` (R133). Two folds are
enough for three 16-bit summands. -/
def updateChecksum (c w w' : Nat) : Nat :=
  65535 - foldCarry (foldCarry ((65535 - c) + (65535 - w) + w'))

end Sys2Proof.Machine
end

