-- ==== Sys2Proof/Machine/Operands.lean ====
section
/-! DEFINITION. Every operand form of the management commands: framing (R173), byte order (00_scope.md
6.2), the parameter layouts of 2.2 and 11.6 with their reserved bits, and the range limits of the
owning rules with the sense offset each is reported at. -/

namespace Sys2Proof.Machine

/-! ### Byte order: most significant byte first -/

/-- The number that bytes spell, most significant byte first. -/
def beNat (bytes : List Byte) : Nat := bytes.foldl (fun acc b => acc * 256 + b.toNat) 0

/-- The low `n` bytes of a number, most significant byte first. -/
def toBytes : Nat → Nat → List Byte
  | 0, _ => []
  | n + 1, v => toBytes n (v / 256) ++ [BitVec.ofNat 8 v]

/-- Parameter byte `o`. -/
def paramByte (ps : List Byte) (o : Nat) : Byte := ps.getD o 0

/-- The `n`-byte parameter field at offset `o`. -/
def paramNat (ps : List Byte) (o n : Nat) : Nat := beNat ((ps.drop o).take n)

/-! ### Framing -/

/-- The parameters of a well-framed request (R173): at least 2 bytes, parameter length 60 or less,
byte count 2 plus the parameter length. `body` starts at the parameter length byte. -/
def framed : List Byte → Option (List Byte)
  | [] => none
  | len :: ps => if len.toNat ≤ 60 ∧ ps.length = len.toNat then some ps else none

/-- The parameters of a well-framed request of exactly `n` parameter bytes: the framing test and
the command's own length test together. -/
def framedAs (n : Nat) (body : List Byte) : Option (List Byte) :=
  match framed body with
  | some ps => if ps.length = n then some ps else none
  | none => none

/-! ### Reserved bits -/

/-- The lowest parameter byte that holds a set reserved bit (R176); `layout` pairs each byte that
has reserved bits with their mask, in rising order. -/
def reservedAt (layout : List (Nat × Byte)) (ps : List Byte) : Option Nat :=
  (layout.find? (fun e => paramByte ps e.1 &&& e.2 != 0)).map Prod.fst

/-- SET_LATENCY and RELEASE: bits 7..1 (R5, R155). -/
def bitZeroReserved : List (Nat × Byte) := [(0, 0xFE)]

/-- LOAD_PROFILE (2.2); with no multicast flag, offset 3 and bits 2..0 of offset 4 as well (2.2
note 2). -/
def profileReserved (ps : List Byte) : List (Nat × Byte) :=
  let absent := !(paramByte ps 4).getLsbD 7
  [(1, 0xC0), (2, 0xF8), (3, if absent then 0xFF else 0xC0), (4, if absent then 0x7F else 0x78),
   (5, 0xC0), (6, 0x08), (7, 0xC0), (8, 0xFE),
   (10, 0x70), (14, 0xF0), (18, 0x70), (22, 0xF0), (26, 0x70), (30, 0xF0), (34, 0x70), (38, 0xF0)]

/-- SET_CLASS (11.6). -/
def classReserved : List (Nat × Byte) :=
  [(12, 0xC0), (16, 0xC0), (20, 0xFF), (21, 0xF0), (24, 0x80), (29, 0x7F), (34, 0x7C)]

/-- SET_QUEUE_CLASS (11.6). -/
def queueClassReserved : List (Nat × Byte) := [(0, 0xFC), (2, 0xF0)]

/-- SET_TIMERS (11.6). -/
def timersReserved : List (Nat × Byte) :=
  [(0, 0xFF), (1, 0xF0), (4, 0xFF), (5, 0xF0), (10, 0xFF), (11, 0xF0), (14, 0xFF), (15, 0xF0)]

/-- SET_ALERT (11.6). -/
def alertReserved : List (Nat × Byte) := [(0, 0xC0), (1, 0xFE), (3, 0xC0)]

/-- READ_QUEUE (11.6). -/
def readQueueReserved : List (Nat × Byte) := [(0, 0xFC), (2, 0xFE)]

/-- FIND_FLOW (11.6). -/
def findFlowReserved : List (Nat × Byte) := [(0, 0xF0)]

/-- COUNTERS_READ (11.6). -/
def countersReserved : List (Nat × Byte) := [(2, 0xFE)]

/-- CLEAR_ALERT (R170). -/
def clearAlertReserved : List (Nat × Byte) := [(0, 0xC1)]

/-- SET_RAMP with `k` entries: 4 bits after the last multiplier when `k` is odd (11.6). -/
def rampReserved (k : Nat) : List (Nat × Byte) :=
  if k % 2 = 1 then [(2 + 2 * k + (3 * k) / 2, 0x0F)] else []

/-! ### Fields and limits

A limit list gives, in rising order of offset, each offset with whether its limit is broken; the
lowest broken one is reported (R176). -/

/-- The offset of the lowest broken limit. -/
def brokenAt (limits : List (Nat × Bool)) : Option Nat := (limits.find? Prod.snd).map Prod.fst

/-- Range descriptor `k` of LOAD_PROFILE (2.2). -/
def rangeField (ps : List Byte) (k : Nat) : CellRange :=
  { enabled := (paramByte ps (10 + 8 * k)).getLsbD 7
    base := paramNat ps (10 + 8 * k) 4 % 268435456
    limit := paramNat ps (14 + 8 * k) 4 % 268435456 }

/-- The profile that 42 parameter bytes spell (2.2). -/
def profileField (ps : List Byte) : Profile :=
  { frameOffset := (paramByte ps 0).toNat
    sop := { byte := (paramByte ps 1).toNat % 64, bit := (paramByte ps 2).toNat % 8 }
    multicast :=
      if (paramByte ps 4).getLsbD 7 then
        some { byte := (paramByte ps 3).toNat % 64, bit := (paramByte ps 4).toNat % 8 }
      else none
    queueByte := (paramByte ps 5).toNat % 64
    queueLsb := (paramByte ps 6).toNat % 8
    queueWidth := (paramByte ps 6).toNat / 16
    queueOffset := paramNat ps 8 2 % 512
    lengthByte := (paramByte ps 7).toNat % 64
    ranges := [rangeField ps 0, rangeField ps 1, rangeField ps 2, rangeField ps 3] }

/-- The limits of LOAD_PROFILE (R20). -/
def profileLimits (p : Profile) : List (Nat × Bool) :=
  [(0, decide (64 < p.frameOffset)),
   (5, decide (8 < p.queueLsb + p.queueWidth) && p.queueByte == 0),
   (6, p.queueWidth == 0 || decide (9 < p.queueWidth)),
   (7, p.lengthByte == 63)]
  ++ p.ranges.zipIdx.map (fun e => (10 + 8 * e.2, decide (e.1.limit < e.1.base)))

/-- The class record that 35 parameter bytes spell (11.6). Byte 28 is read by `classLimits` too. -/
def classField (ps : List Byte) : ClassRecord :=
  { onsetDepth := paramNat ps 1 4
    releaseDepth := paramNat ps 5 4
    fanIn := paramNat ps 9 1
    holdTime := paramNat ps 10 2
    targetDepth := paramNat ps 12 4
    pathAllowance := paramNat ps 16 4
    windowFloor := paramNat ps 20 4
    windowCeiling := paramNat ps 24 4
    assumedScale := if paramByte ps 28 = 0xFF then none else some (paramByte ps 28).toNat
    rewriteEnable := (paramByte ps 29).getLsbD 7
    markDepth := paramNat ps 30 4
    ramp := ⟨(paramByte ps 34).toNat % 4, Nat.mod_lt _ (by decide)⟩
    endMode := if (paramByte ps 34).getLsbD 7 then .holds else .ends }

/-- The range test of SET_CLASS (R41); a relation is reported at the later of its two fields. -/
def classLimits (c : ClassRecord) : List (Nat × Bool) :=
  [(1, c.onsetDepth == 0),
   (5, decide (c.onsetDepth ≤ c.releaseDepth)),
   (9, c.fanIn == 1),
   (10, c.holdTime == 0),
   (12, decide (1073741823 < c.targetDepth)),
   (16, decide (1073741823 < c.pathAllowance)),
   (20, c.windowFloor == 0 || decide (1048575 < c.windowFloor)),
   (24, decide (c.windowCeiling < c.windowFloor) || decide (1073741824 < c.windowCeiling)),
   (28, match c.assumedScale with | none => false | some v => decide (14 < v))]

/-- The parameter length of SET_RAMP with `k` entries (11.5). -/
def rampLength (k : Nat) : Nat := 2 + 2 * k + (3 * k + 1) / 2

/-- The duration of entry `i` in SET_RAMP (11.6). -/
def rampDuration (ps : List Byte) (i : Nat) : Nat := paramNat ps (2 + 2 * i) 2

/-- The offset of the first byte of multiplier `i` of `k` in SET_RAMP (11.6). -/
def multiplierOffset (k i : Nat) : Nat := 2 + 2 * k + (3 * i) / 2

/-- Multiplier `i` of `k` in SET_RAMP: 12 bits, packed one after another MSB first (11.6). -/
def rampMultiplier (ps : List Byte) (k i : Nat) : Nat :=
  let pair := paramNat ps (multiplierOffset k i) 2
  if i % 2 = 0 then pair / 16 else pair % 4096

/-- The entries that SET_RAMP parameters spell. -/
def rampField (ps : List Byte) (k : Nat) : List RampEntry :=
  (List.range k).map (fun i => { duration := rampDuration ps i, multiplier := rampMultiplier ps k i })

/-- Test 7 of SET_RAMP: a duration or multiplier of 0, at its own offset (R143). -/
def rampLimits (ps : List Byte) (k : Nat) : List (Nat × Bool) :=
  (List.range k).map (fun i => (2 + 2 * i, rampDuration ps i == 0))
  ++ (List.range k).map (fun i => (multiplierOffset k i, rampMultiplier ps k i == 0))

/-- The six settings of SET_TIMERS (11.6). -/
structure TimersField where
  idle : Nat
  handshake : Nat
  sweep : Nat
  linger : Nat
  quiet : Nat
  seed : BitVec 16
  deriving DecidableEq, Repr

/-- The settings that 20 parameter bytes spell (11.6). -/
def timersField (ps : List Byte) : TimersField :=
  { idle := paramNat ps 0 4, handshake := paramNat ps 4 4, sweep := paramNat ps 8 2,
    linger := paramNat ps 10 4, quiet := paramNat ps 14 4,
    seed := BitVec.ofNat 16 (paramNat ps 18 2) }

/-- Test 4 of SET_TIMERS (R179). -/
def timersLimits (f : TimersField) : List (Nat × Bool) :=
  [(0, f.idle == 0), (4, f.handshake == 0), (8, decide (f.sweep < 1024)), (10, f.linger == 0)]

/-- The IP version that a version nibble names (R79). -/
def versionField (b : Byte) : Option IpVersion :=
  if b.toNat % 16 = 4 then some .v4 else if b.toNat % 16 = 6 then some .v6 else none

/-- How many bytes an address of a version takes. -/
def addressBytes : IpVersion → Nat
  | .v4 => 4
  | .v6 => 16

/-- The endpoint at offset `o` of FIND_FLOW parameters (11.6). -/
def endpointField (ps : List Byte) (v : IpVersion) (o : Nat) : Endpoint :=
  { address := BitVec.ofNat 128 (paramNat ps o (addressBytes v))
    port := BitVec.ofNat 16 (paramNat ps (o + addressBytes v) 2) }

end Sys2Proof.Machine
end

