-- ==== Sys2Proof/Machine/Log.lean ====
section
/-! DEFINITION. The episode log: offers, and the layout of an entry (Chapter 10). -/

namespace Sys2Proof.Machine

/-- The number of a kind (10.2). -/
def kindNumber : LogKind → Nat
  | .onset => 1
  | .settle => 2
  | .resume => 3
  | .ramp => 4
  | .ended => 5
  | .collapse => 6

/-- The number of a cause (10.2). -/
def causeNumber : LogCause → Nat
  | .none => 0
  | .sequence => 1
  | .release => 2

/-- The number of an IP version in a result (10.2, 11.6). -/
def versionNumber : IpVersion → Nat
  | .v4 => 4
  | .v6 => 6

/-- The log takes an offer: discarded in TRANSPARENT, then by the kind mask, then at a full log with
log_discard and LOG_OVERFLOW; otherwise appended at the tail (R164). -/
def offer (e : LogEntry) (s : State) : State :=
  if s.mode = .transparent then s
  else if s.log.kindMask.getLsbD (kindNumber e.kind - 1) = false then s
  else if Config.logCapacity ≤ s.log.entries.length then (s.bump Counter.logDiscard).flagLogOverflow
  else { s with log := { s.log with entries := s.log.entries ++ [e] } }

/-- Offers the entry of a transition of group `g` (R92): the tick, the group's key and member count,
the estimate of its queue, and, for END and COLLAPSE (`final`), the episode's peak and duration. -/
def offerFor (g : GroupId) (kind : LogKind) (cause : LogCause) (final : Bool) (s : State) : State :=
  let r := s.group g
  match r.key with
  | none => s
  | some key =>
    offer
      { kind := kind, cause := cause, timestamp := s.now, group := g, key := key, count := r.count
        depth := (s.queue key.queue).estimate
        peak := if final then r.peak.getD 0 else 0
        duration := if final then (r.onsetAt.map (elapsed s.now)).getD 0 else 0 } s

/-- The 40 bytes of an entry (10.2). -/
def logEntryBytes (e : LogEntry) : List Byte :=
  toBytes 1 (kindNumber e.kind) ++ toBytes 1 (causeNumber e.cause)
  ++ toBytes 1 (versionNumber e.key.version) ++ toBytes 1 e.group.val
  ++ toBytes 2 e.key.queue.val ++ toBytes 1 0 ++ toBytes 1 e.count
  ++ toBytes 4 e.timestamp.toNat ++ toBytes 4 e.depth ++ toBytes 4 e.peak
  ++ toBytes 4 e.duration ++ toBytes 16 e.key.address.toNat

end Sys2Proof.Machine
end

