-- ==== Sys2Proof/Machine/Groups.lean ====
section
/-! DEFINITION. The Group Controller (Chapter 5): membership, onset, the episode states, crossings. -/

namespace Sys2Proof.Machine

/-! ### Active member totals (R83) -/

/-- The active member total of a group's queue rises by `n`. A group without a key is on no queue. -/
def addTotal (g : GroupId) (n : Nat) (s : State) : State :=
  match (s.group g).key with
  | none => s
  | some key => s.setTotal key.queue (s.total key.queue + n)

/-- The active member total of a group's queue falls by `n`. -/
def subTotal (g : GroupId) (n : Nat) (s : State) : State :=
  match (s.group g).key with
  | none => s
  | some key => s.setTotal key.queue (s.total key.queue - n)

/-! ### Onset (R93, R94) -/

/-- The onset condition of group `g`, each part read as it stands (R93). -/
def onsetHolds (s : State) (g : GroupId) : Bool :=
  let r := s.group g
  match r.key with
  | none => false
  | some key =>
    let c := s.queueClass key.queue
    decide (r.state = .watch) && decide (c.fanIn ≠ 0) && decide (c.fanIn ≤ r.count)
      && decide (c.onsetDepth ≤ (s.queue key.queue).estimate)
      && (decide (s.mode = .observe) || decide (s.mode = .enforce))

/-- WATCH to ACTIVE (R94). -/
def onset (g : GroupId) (s : State) : State :=
  let r := s.group g
  let estimate := (r.key.map (fun key => (s.queue key.queue).estimate)).getD 0
  let s := s.setGroup g { r with state := .active, onsetAt := some s.now, peak := some estimate }
  ((offerFor g .onset .none false (addTotal g r.count s)).bump Counter.onsets).flagOnset

/-- The onset test of one group (R93). -/
def testOnset (g : GroupId) (s : State) : State := if onsetHolds s g then onset g s else s

/-! ### The end of an episode -/

/-- A group record back in WATCH, its episode fields absent (R89, R100, R105). -/
def GroupRecord.toWatch (r : GroupRecord) : GroupRecord :=
  { r with state := .watch, onsetAt := none, peak := none, deadline := none, rampEntry := none,
           rampStart := none }

/-- An episode ends with an END entry; the total falls by the member count (R100, R105). -/
def endEpisode (g : GroupId) (cause : LogCause) (s : State) : State :=
  let s := offerFor g .ended cause true s
  let s := subTotal g (s.group g).count s
  s.setGroup g (s.group g).toWatch

/-- The Time Base reports the end of a group's sequence (R100). -/
def sequenceEnd (g : GroupId) (s : State) : State := testOnset g (endEpisode g .sequence s)

/-- The last leave collapses a group in an episode state (R89); the total has already lost the
member. -/
def collapse (g : GroupId) (s : State) : State :=
  let s := offerFor g .collapse .none true s
  s.setGroup g { (s.group g).toWatch with lingerStart := some s.now }

/-! ### Leaves (R82, R88) -/

/-- Removes flow record `f` from the list of group `g` at its position (R82, R88). -/
def removeMember (f : FlowId) (g : GroupId) (s : State) : State :=
  let r := s.flow f
  let gr := s.group g
  let s := match r.prev with
    | none => s
    | some p => s.setFlow p { s.flow p with next := r.next }
  let s := match r.next with
    | none => s
    | some n => s.setFlow n { s.flow n with prev := r.prev }
  let s := s.setFlow f { s.flow f with group := none, prev := none, next := none }
  s.setGroup g
    { gr with count := gr.count - 1
              head := if r.prev.isNone then r.next else gr.head
              tail := if r.next.isNone then r.prev else gr.tail }

/-- What a removal means for the group (R88, R89, R90). -/
def afterRemoval (g : GroupId) (s : State) : State :=
  let r := s.group g
  if r.state.isEpisode then
    if r.count = 0 then collapse g (subTotal g 1 s) else subTotal g 1 s
  else if r.state = .watch ∧ r.count = 0 then s.setGroup g { r with lingerStart := some s.now }
  else s

/-- The leave of a flow record that is a member; a record with no group is left as it is (R88). -/
def leave (f : FlowId) (s : State) : State :=
  match (s.flow f).group with
  | none => s
  | some g => afterRemoval g (removeMember f g s)

/-! ### Joins (R82, R84 to R87) -/

/-- The group with this key (R81). -/
def findGroup (s : State) (key : GroupKey) : Option GroupId :=
  (List.finRange 128).find?
    (fun g => decide ((s.group g).state ≠ .free) && decide ((s.group g).key = some key))

/-- The record that group allocation takes: the lowest FREE, else the lowest lingering (R86). -/
def groupSlot (s : State) : Option GroupId :=
  match (List.finRange 128).find? (fun g => decide ((s.group g).state = .free)) with
  | some g => some g
  | none => (List.finRange 128).find?
      (fun g => decide ((s.group g).state = .watch) && decide ((s.group g).count = 0))

/-- A group just allocated (R86). -/
def newGroup (key : GroupKey) : GroupRecord := { freeGroup with state := .watch, key := some key }

/-- Appends flow record `f` at the tail of the list of group `g` (R82, R85 steps 5 and 7). -/
def appendMember (f : FlowId) (g : GroupId) (s : State) : State :=
  let gr := s.group g
  let s := match gr.tail with
    | none => s
    | some t => s.setFlow t { s.flow t with next := some f }
  let s := s.setFlow f { s.flow f with group := some g, prev := gr.tail, next := none }
  s.setGroup g
    { gr with count := gr.count + 1
              head := if gr.head.isNone then some f else gr.head
              tail := some f
              lingerStart := if gr.state = .watch ∧ gr.count = 0 then none else gr.lingerStart }

/-- Steps 4 to 8 of a join to a group that stands in the table (R85, R87). -/
def joinGroup (f : FlowId) (g : GroupId) (s : State) : State :=
  let gr := s.group g
  if Config.memberMax ≤ gr.count then
    (s.bump Counter.memberOverflow).setGroup g { gr with overflow := true }
  else
    let s := (appendMember f g s).bump Counter.joins
    if gr.state.isEpisode then addTotal g 1 s
    else if gr.state = .watch then testOnset g s
    else s

/-- Steps 2 to 8 of a join (R85). -/
def join (f : FlowId) (sender : Side) (key : GroupKey) (s : State) : State :=
  let s := s.setFlow f { s.flow f with responder := some sender, joinedQueue := some key.queue }
  match findGroup s key with
  | some g => joinGroup f g s
  | none =>
    match groupSlot s with
    | some g => joinGroup f g (s.setGroup g (newGroup key))
    | none => (s.bump Counter.groupAllocFail).flagGroupFull

/-- A join request: a join, a refresh, or a move, which leaves and then joins (R84, R85 step 1). -/
def joinRequest (f : FlowId) (sender : Side) (key : GroupKey) (s : State) : State :=
  match (s.flow f).group with
  | none => join f sender key s
  | some g =>
    if (s.flow f).responder ≠ some sender then s
    else if (s.group g).key = some key then s
    else join f sender key (leave f s)

/-! ### Crossings and notices (R95, R97, R98) -/

/-- SETTLE or RAMP back to ACTIVE (R98). -/
def resume (g : GroupId) (s : State) : State :=
  let s := s.setGroup g
    { s.group g with state := .active, deadline := none, rampEntry := none, rampStart := none }
  offerFor g .resume .none false s

/-- What an upward crossing does to one group of the queue (R98). In DRAINING a SETTLE group cannot
arise (DESIGN CHOICE, log 12). -/
def upwardOn (g : GroupId) (s : State) : State :=
  match (s.group g).state with
  | .watch => testOnset g s
  | .settle | .ramp => if s.mode = .observe ∨ s.mode = .enforce then resume g s else s
  | .active | .free => s

/-- An upward crossing on a queue (R98). -/
def upwardCrossing (q : QueueId) (s : State) : State := forGroupsOn q s upwardOn

/-- ACTIVE to SETTLE, with the hold time of the class at the crossing (R97). -/
def settle (hold : Nat) (g : GroupId) (s : State) : State :=
  match (s.group g).state with
  | .active =>
    let s := s.setGroup g
      { s.group g with state := .settle, deadline := some (deadlineAfter s.now hold) }
    offerFor g .settle .none false s
  | .free | .watch | .settle | .ramp => s

/-- A downward crossing on a queue (R97). -/
def downwardCrossing (q : QueueId) (s : State) : State :=
  forGroupsOn q s (settle (s.queueClass q).holdTime)

/-- A group in an episode state takes the greater of its peak and the new estimate (R95). -/
def raisePeak (estimate : Nat) (g : GroupId) (s : State) : State :=
  let r := s.group g
  if r.state.isEpisode then s.setGroup g { r with peak := some (max (r.peak.getD 0) estimate) }
  else s

/-- An enqueue notice on a queue (R95). -/
def enqueueNotice (q : QueueId) (estimate : Nat) (s : State) : State :=
  forGroupsOn q s (raisePeak estimate)

/-! ### The drain-end report (R104, R158) -/

/-- In DRAINING with no group left in an episode state: the mode becomes OBSERVE and every WATCH
group is tested for onset, as one event (R104, R158). Made at the end of every event that can leave
that state (DEDUCED, log 9). -/
def drainEnd (s : State) : State :=
  if s.mode = .draining ∧ s.anyEpisode = false then forGroups { s with mode := .observe } testOnset
  else s

end Sys2Proof.Machine
end

