-- ==== Sys2Proof/Machine/TimeBase.lean ====
section
/-! DEFINITION. The Time Base: REFCLK, ramp stepping, the hold, linger and entry expiries, the releases
(Chapter 8, R90, R99, R103, R105). The tick stands in Events.lean. -/

namespace Sys2Proof.Machine

/-! ### Ramp sequences (R142 to R149) -/

/-- The class record of a group's queue (R42, R102). A group without a key reads the defaults. -/
def groupClass (s : State) (g : GroupId) : ClassRecord :=
  ((s.group g).key.map (fun key => s.queueClass key.queue)).getD classReset

/-- The ramp sequence in force for a group (8.4). -/
def groupRamp (s : State) (g : GroupId) : List RampEntry := s.ramp (groupClass s g).ramp

/-- A sequence is in use while a group in RAMP maps to a class that names it (R144). -/
def rampInUse (s : State) (r : RampId) : Bool :=
  (List.finRange 128).any (fun g =>
    decide ((s.group g).state = .ramp) && decide ((groupClass s g).ramp = r))

/-- The end of a group's sequence is reached: reported under END, and in DRAINING; otherwise the
group holds (R147). -/
def reachEnd (g : GroupId) (s : State) : State :=
  if (groupClass s g).endMode = .ends ∨ s.mode = .draining then sequenceEnd g s
  else s.setGroup g
    { s.group g with rampEntry := some ((groupRamp s g).length - 1), rampStart := none }

/-- Whether the position of a group in RAMP has expired: its entry lies beyond the sequence, or the
entry's duration has passed. A group that holds has no entry start and takes no entry expiry (R146,
R147). -/
def entryDue (s : State) (g : GroupId) : Bool :=
  let r := s.group g
  let seq := groupRamp s g
  let i := r.rampEntry.getD 0
  match r.rampStart with
  | none => false
  | some start =>
    decide (r.state = .ramp) &&
      (decide (seq.length ≤ i) || decide ((seq.getD i ⟨0, 0⟩).duration ≤ elapsed s.now start))

/-- What an expired position does: a step to the next entry, or the end of the sequence (R146). -/
def advanceEntry (g : GroupId) (s : State) : State :=
  let r := s.group g
  let i := r.rampEntry.getD 0
  if i + 1 < (groupRamp s g).length then
    s.setGroup g { r with rampEntry := some (i + 1), rampStart := some s.now }
  else reachEnd g s

/-- The test of a ramp position (R145, R146). -/
def testEntry (g : GroupId) (s : State) : State := if entryDue s g then advanceEntry g s else s

/-- A group enters RAMP at entry 0, offers its RAMP entry, and its position is tested within the
same event (R99, R103, R145). -/
def enterRamp (g : GroupId) (s : State) : State :=
  let s := s.setGroup g
    { s.group g with state := .ramp, deadline := none, rampEntry := some 0, rampStart := some s.now }
  testEntry g (offerFor g .ramp .none false s)

/-- The multiplier that the Time Base gives for a ramp position (R149). -/
def rampMultiplierOf (seq : List RampEntry) (entry : Option Nat) (start : Option Tick) : Nat :=
  match seq.getLast? with
  | none => 256
  | some last =>
    match entry, start with
    | some i, some _ => ((seq[i]?).getD last).multiplier
    | _, _ => last.multiplier

/-- The multiplier of a group in an episode state (R110). -/
def groupMultiplier (s : State) (g : GroupId) : Nat :=
  let r := s.group g
  match r.state with
  | .ramp => rampMultiplierOf (groupRamp s g) r.rampEntry r.rampStart
  | .active | .settle | .watch | .free => 256

/-! ### REFCLK (R138) -/

/-- One REFCLK period passes (R76, R138; DESIGN CHOICE, log 7). -/
def refclkPeriod (s : State) : State :=
  { s with time := { s.time with refclkCount := s.time.refclkCount + 1
                                 refclk := s.time.refclk + 1 } }

/-! ### Expiries of groups: their conditions, and what each does when its condition holds -/

/-- The condition of a hold expiry: SETTLE, at the tick that equals the deadline (R99, R140). -/
def holdDue (s : State) (g : GroupId) : Bool :=
  decide ((s.group g).state = .settle) && decide ((s.group g).deadline = some s.now)

/-- The hold expiry of a group (R99). -/
def holdExpiry (g : GroupId) (s : State) : State :=
  if holdDue s g then drainEnd (enterRamp g s) else s

/-- The entry expiry of a group in RAMP (R146). -/
def entryExpiry (g : GroupId) (s : State) : State :=
  if entryDue s g then drainEnd (advanceEntry g s) else s

/-- The condition of a hold end: the group holds, and its class's end mode is END (R148). -/
def holdEndDue (s : State) (g : GroupId) : Bool :=
  decide ((s.group g).state = .ramp) && decide ((s.group g).rampStart = none)
    && decide ((groupClass s g).endMode = .ends)

/-- The hold end of a group (R148). -/
def holdEnd (g : GroupId) (s : State) : State :=
  if holdEndDue s g then drainEnd (sequenceEnd g s) else s

/-- The condition of a linger expiry: WATCH with no member, for the linger time (R90). -/
def lingerDue (s : State) (g : GroupId) : Bool :=
  match (s.group g).lingerStart with
  | none => false
  | some start =>
    decide ((s.group g).state = .watch) && decide ((s.group g).count = 0)
      && decide (s.gc.lingerTime ≤ elapsed s.now start)

/-- The linger expiry of a group (R90). -/
def lingerExpiry (g : GroupId) (s : State) : State :=
  if lingerDue s g then s.setGroup g freeGroup else s

/-! ### The drain request (R103) -/

/-- What a graceful release does to one group: ACTIVE and SETTLE enter RAMP; a group that holds ends
at once, since HOLD is taken as END in DRAINING; any other is left (R103). So a group that steps keeps
its position also when its class was just given an empty or shorter sequence, and ends at its entry
expiry (DESIGN CHOICE, log 17). -/
def drainOn (g : GroupId) (s : State) : State :=
  match (s.group g).state with
  | .active | .settle => enterRamp g s
  | .ramp => if (s.group g).rampStart = none then sequenceEnd g s else s
  | .watch | .free => s

/-- The graceful release: DRAINING, the drain request, and the drain-end report when it leaves no
episode (R103, R104, R156). -/
def drain (s : State) : State := drainEnd (forGroups { s with mode := .draining } drainOn)

/-- What an abrupt release does to one group (R105). -/
def releaseOn (g : GroupId) (s : State) : State :=
  if (s.group g).state.isEpisode then endEpisode g .release s else s

/-- The abrupt release: every episode ends, every total becomes 0, and the mode becomes OBSERVE,
with no onset test (R105, R159). -/
def releaseAll (s : State) : State :=
  let s := forGroups s releaseOn
  { s with gc := { s.gc with totals := [] }, mode := .observe }

end Sys2Proof.Machine
end

