-- ==== Sys2Proof/Machine/Depths.lean ====
section
/-! DEFINITION. The Depth Accounting Unit (Chapter 3): enqueue, departure, quiet expiry, marks. -/

namespace Sys2Proof.Machine

/-- An enqueue of length `n` on queue `q` (R43, R46); discarded in TRANSPARENT (R52). -/
def enqueue (q : QueueId) (n : Nat) (s : State) : State :=
  if s.mode = .transparent then s
  else
    let r := s.queue q
    let c := s.queueClass q
    let estimate := saturate (r.estimate + n)
    let s := s.setQueue q
      { r with estimate := estimate, peak := max r.peak estimate, lastActivity := s.now }
    let s :=
      if r.estimate < c.onsetDepth ∧ c.onsetDepth ≤ estimate then upwardCrossing q s else s
    enqueueNotice q estimate s

/-- The downward crossing that a fall of the estimate of `q` from `before` to `after` signals (R47). -/
def signalFall (q : QueueId) (before after : Nat) (s : State) : State :=
  let l := (s.queueClass q).releaseDepth
  if l < before ∧ after ≤ l then downwardCrossing q s else s

/-- A departure of length `n` on queue `q` (R44, R47); discarded in TRANSPARENT (R52). The departure
depth is `departureDepth` of the state before. -/
def departure (q : QueueId) (n : Nat) (s : State) : State :=
  if s.mode = .transparent then s
  else
    let r := s.queue q
    let s := s.setQueue q { r with estimate := r.estimate - n, lastActivity := s.now }
    let s := if r.estimate < n then s.bump Counter.depthUnderflow else s
    signalFall q r.estimate (r.estimate - n) s

/-- The departure depth: the estimate just before the subtraction, and in TRANSPARENT as it stands
(R44, R52). -/
def departureDepth (s : State) (q : QueueId) : Nat := (s.queue q).estimate

/-- The conditions of a quiet expiry (R48). -/
def quietDue (s : State) (q : QueueId) : Bool :=
  decide (s.depths.quietTime ≠ 0) && decide (s.mode ≠ .transparent)
    && decide ((s.queue q).estimate ≠ 0)
    && decide (s.depths.quietTime ≤ elapsed s.now (s.queue q).lastActivity)

/-- The quiet expiry of queue `q` (R48). -/
def quietExpiry (q : QueueId) (s : State) : State :=
  if quietDue s q then
    let r := s.queue q
    signalFall q r.estimate 0
      ((s.setQueue q { r with estimate := 0 }).bump Counter.quietReconcile)
  else s

/-- A mark of a departing start cell of `q` reaches the queue record (R50); none in TRANSPARENT
(R52). -/
def countMark (q : QueueId) (s : State) : State :=
  if s.mode = .transparent then s
  else s.setQueue q { s.queue q with marks := saturate ((s.queue q).marks + 1) }

/-- The clear of the queue table: timestamps at the tick count of the clear (R53). -/
def clearQueues (s : State) : State :=
  { s with depths :=
    { s.depths with queues := tableFill queueReset { queueReset with lastActivity := s.now } } }

end Sys2Proof.Machine
end

