-- ==== Sys2Proof/Machine/Parser.lean ====
section
/-! DEFINITION. The Start-Cell Parser (Chapter 2): the cell header stage, the frame stage, and the
parse record, as functions of the profile and the cell. -/

namespace Sys2Proof.Machine

/-- The parse window of a latency setting, in bytes (R3, R7). -/
def parseWindow : Latency → Nat
  | .short => Config.shortWindow
  | .long => Config.longWindow

/-- The two bytes of a cell at `i`, most significant first. -/
def cellWord (c : Cell) (i : Nat) : Nat := (cellByte c i).toNat * 256 + (cellByte c (i + 1)).toNat

/-- The `n`-byte address at cell byte `i`. -/
def cellAddress (c : Cell) (i n : Nat) : Address := BitVec.ofNat 128 (beNat ((c.data.drop i).take n))

/-! ### The cell header stage (R22 to R25) -/

/-- Bit `j` of the queue field: in byte b, or carried up into byte b − 1 (R23). -/
def queueFieldBit (p : Profile) (c : Cell) (j : Nat) : Bool :=
  if p.queueLsb + j ≤ 7 then (cellByte c p.queueByte).getLsbD (p.queueLsb + j)
  else (cellByte c (p.queueByte - 1)).getLsbD (p.queueLsb + j - 8)

/-- The queue number: the field value plus the queue offset (R23). -/
def queueNumber (p : Profile) (c : Cell) : Nat :=
  (List.range p.queueWidth).foldl (fun acc j => acc + 2 ^ j * (queueFieldBit p c j).toNat) 0
    + p.queueOffset

/-- The packet length (R24). -/
def packetLength (p : Profile) (c : Cell) : Nat := cellWord c p.lengthByte

/-- The multicast flag, 0 where its position is absent (R24). -/
def multicastFlag (p : Profile) (c : Cell) : Bool :=
  match p.multicast with
  | none => false
  | some pos => cellBit c pos

/-- The outcomes of the cell header stage (R22, R25). -/
inductive HeaderOutcome where
  | notStart
  | badQueue
  | badLength
  | multicast
  | accepted (queue : QueueId) (length : Nat)
  deriving DecidableEq, Repr

/-- The cell header stage: the SOP flag, then the three tests in order (R22, R25). -/
def headerStage (p : Profile) (c : Cell) : HeaderOutcome :=
  if cellBit c p.sop = false then .notStart
  else if h : queueNumber p c < 512 then
    if packetLength p c = 0 ∨ 16383 < packetLength p c then .badLength
    else if multicastFlag p c then .multicast
    else .accepted ⟨queueNumber p c, h⟩ (packetLength p c)
  else .badQueue

/-! ### The parse record (R35) -/

/-- The parse categories (2.4). -/
inductive Category where
  | other
  | ipOther
  | malformed
  | truncated
  | tcp
  deriving DecidableEq, Repr

/-- The sub-kind sets (R34): DATA and FIN are the only two that stand together. -/
inductive SubKind where
  | rst
  | syn
  | synAck
  | dataFin
  | fin
  | data
  | pureAck
  | empty
  deriving DecidableEq, Repr

/-- The IP part: `ecnAt` is the cell byte and `ecnShift` the lower of the two bits that hold the ECN
field; `checksumAt` the cell position of the IPv4 header checksum. -/
structure IpPart where
  version : IpVersion
  source : Address
  destination : Address
  ecn : Nat
  ecnAt : Nat
  ecnShift : Nat
  checksumAt : Option Nat
  deriving DecidableEq, Repr

/-- The TCP part; `windowAt` and `checksumAt` are cell positions. -/
structure TcpPart where
  sourcePort : Port
  destinationPort : Port
  fin : Bool
  syn : Bool
  rst : Bool
  ack : Bool
  kind : SubKind
  payload : Nat
  window : Nat
  windowAt : Nat
  checksumAt : Nat
  scale : Option Nat
  deriving DecidableEq, Repr

/-- What the frame stage yields: the category and the parts it provides (R35). -/
structure FrameRecord where
  category : Category
  ip : Option IpPart
  tcp : Option TcpPart
  deriving DecidableEq, Repr

/-! ### The frame stage (R27 to R34) -/

/-- The TCP option walk (R33): `none` when the options are unsound, else the first window scale
stepped over, if any. `fuel` above the number of option bytes is never used up. -/
def optionWalk : Nat → List Byte → Option Nat → Option (Option Nat)
  | 0, _, found => some found
  | _ + 1, [], found => some found
  | fuel + 1, kind :: rest, found =>
    if kind = 0 then some found
    else if kind = 1 then optionWalk fuel rest found
    else
      match rest with
      | [] => none
      | len :: value =>
        if len.toNat < 2 ∨ value.length < len.toNat - 2 then none
        else
          let found :=
            if kind = 3 ∧ len = 3 ∧ found = none then some (min 14 (value.headD 0).toNat) else found
          optionWalk fuel (value.drop (len.toNat - 2)) found

/-- The scale that option bytes offer: none when they are unsound (R33). -/
def offeredScale (options : List Byte) : Option Nat :=
  (optionWalk (options.length + 1) options none).getD none

/-- The sub-kind set (R34). -/
def subKind (fin syn rst ack : Bool) (payload : Nat) : SubKind :=
  if rst then .rst
  else if syn then (if ack then .synAck else .syn)
  else if fin then (if 0 < payload then .dataFin else .fin)
  else if 0 < payload then .data
  else if ack then .pureAck
  else .empty

/-- A record of this category that holds the IP part but no TCP part. -/
def ipRecord (category : Category) (ip : IpPart) : FrameRecord :=
  { category := category, ip := some ip, tcp := none }

/-- The walk at a TCP header that starts at cell byte `t` (R31 to R33). `ipLength` is the length of
the IP header's own field and `ipHeader` how much of it the IP header takes. -/
def tcpWalk (window : Nat) (c : Cell) (ip : IpPart) (t ipLength ipHeader : Nat) : FrameRecord :=
  if window ≤ t + 19 then ipRecord .truncated ip
  else
    let words := (cellByte c (t + 12)).toNat / 16
    let flags := cellByte c (t + 13)
    if words < 5 then ipRecord .malformed ip
    else if ipLength < ipHeader + 4 * words then ipRecord .malformed ip
    else
      let payload := ipLength - ipHeader - 4 * words
      let syn := flags.getLsbD 1
      if syn ∧ window < t + 4 * words then ipRecord .truncated ip
      else
        { category := .tcp
          ip := some ip
          tcp := some
            { sourcePort := BitVec.ofNat 16 (cellWord c t)
              destinationPort := BitVec.ofNat 16 (cellWord c (t + 2))
              fin := flags.getLsbD 0
              syn := syn
              rst := flags.getLsbD 2
              ack := flags.getLsbD 4
              kind := subKind (flags.getLsbD 0) syn (flags.getLsbD 2) (flags.getLsbD 4) payload
              payload := payload
              window := cellWord c (t + 14)
              windowAt := t + 14
              checksumAt := t + 16
              scale :=
                if syn then offeredScale ((c.data.drop (t + 20)).take (4 * words - 20)) else none } }

/-- The walk at an IPv4 header that starts at cell byte `i` (R29). -/
def ipv4Walk (window : Nat) (c : Cell) (i : Nat) : FrameRecord :=
  let first := (cellByte c i).toNat
  let ihl := first % 16
  if first / 16 ≠ 4 ∨ ihl < 5 then { category := .malformed, ip := none, tcp := none }
  else
    let ip : IpPart :=
      { version := .v4, source := cellAddress c (i + 12) 4, destination := cellAddress c (i + 16) 4
        ecn := (cellByte c (i + 1)).toNat % 4, ecnAt := i + 1, ecnShift := 0
        checksumAt := some (i + 10) }
    if (cellByte c (i + 6)).getLsbD 5 ∨ cellWord c (i + 6) % 8192 ≠ 0 then ipRecord .ipOther ip
    else if (cellByte c (i + 9)).toNat ≠ 6 then ipRecord .ipOther ip
    else tcpWalk window c ip (i + 4 * ihl) (cellWord c (i + 2)) (4 * ihl)

/-- The walk at an IPv6 header that starts at cell byte `i` (R30). -/
def ipv6Walk (window : Nat) (c : Cell) (i : Nat) : FrameRecord :=
  if (cellByte c i).toNat / 16 ≠ 6 then { category := .malformed, ip := none, tcp := none }
  else
    let ip : IpPart :=
      { version := .v6, source := cellAddress c (i + 8) 16, destination := cellAddress c (i + 24) 16
        ecn := (cellByte c (i + 1)).toNat / 16 % 4, ecnAt := i + 1, ecnShift := 4
        checksumAt := none }
    if (cellByte c (i + 6)).toNat ≠ 6 then ipRecord .ipOther ip
    else tcpWalk window c ip (i + 40) (cellWord c (i + 4)) 0

/-- Whether an Ethernet type opens a VLAN tag (R28). -/
def isVlanType (t : Nat) : Bool := t == 0x8100 || t == 0x88A8

/-- The type after at most two VLAN tags, and the cell byte after it, for a frame at `f` (R28). -/
def etherType (c : Cell) (f : Nat) : Nat × Nat :=
  if !(isVlanType (cellWord c (f + 12))) then (cellWord c (f + 12), f + 14)
  else if !(isVlanType (cellWord c (f + 16))) then (cellWord c (f + 16), f + 18)
  else (cellWord c (f + 20), f + 22)

/-- The frame stage (R27, R28). -/
def frameStage (p : Profile) (window : Nat) (c : Cell) : FrameRecord :=
  let t := etherType c p.frameOffset
  if t.1 = 0x0800 then ipv4Walk window c t.2
  else if t.1 = 0x86DD then ipv6Walk window c t.2
  else { category := .other, ip := none, tcp := none }

/-- The parse category counter of a category (R37). -/
def categoryCounter : Category → CounterId
  | .other => Counter.parseOther
  | .ipOther => Counter.parseIpOther
  | .malformed => Counter.parseMalformed
  | .truncated => Counter.parseTruncated
  | .tcp => Counter.parseTcp

end Sys2Proof.Machine
end

