-- ==== Sys2Proof/Machine/Flows.lean ====
section
/-! DEFINITION. The Flow Table (Chapter 4): keys and sets, lookup, allocation, learning, teardown,
the sweep, the CLEAR_FLOWS walk. -/

namespace Sys2Proof.Machine

/-! ### Keys and sets (R54, R55) -/

/-- Whether an endpoint is the lesser: by address, then by port, both unsigned (R54). -/
def endpointLt (a b : Endpoint) : Bool :=
  decide (a.address < b.address) || (decide (a.address = b.address) && decide (a.port < b.port))

/-- The canonical key of two endpoints, and which of E1 and E2 the first one is; none when they are
equal (R54). -/
def canonicalKey (v : IpVersion) (a b : Endpoint) : Option (FlowKey × Side) :=
  if a = b then none
  else if endpointLt a b then some ({ version := v, first := a, second := b }, .e1)
  else some ({ version := v, first := b, second := a }, .e2)

/-- The exclusive-OR of the 16-bit words of an address. The upper words of an IPv4 address are 0. -/
def addressFold (a : Address) : BitVec 16 :=
  (List.range 8).foldl (fun acc i => acc ^^^ a.extractLsb' (16 * i) 16) 0

/-- F after the seed (R55, R56). -/
def seededFold (seed : BitVec 16) (key : FlowKey) : BitVec 16 :=
  addressFold key.first.address ^^^ key.first.port ^^^ addressFold key.second.address
    ^^^ key.second.port ^^^ seed

/-- The set index of a key (R55). -/
def setIndex (seed : BitVec 16) (key : FlowKey) : Nat :=
  (seededFold seed key ^^^ (seededFold seed key >>> 5)).toNat % 2048

/-- The record at way `w` of set `set` (R55). -/
def wayRecord (set w : Nat) : FlowId := ⟨(4 * set + w) % 8192, Nat.mod_lt _ (by decide)⟩

/-- The four ways of a set, lowest first. -/
def waysOf (set : Nat) : List FlowId := (List.range 4).map (wayRecord set)

/-- The set of a key under the seed in force. -/
def keyWays (s : State) (key : FlowKey) : List FlowId := waysOf (setIndex s.ft.seed key)

/-- The lookup: the way that is not FREE and holds the key (R59). -/
def findFlowRecord (s : State) (key : FlowKey) : Option FlowId :=
  (keyWays s key).find?
    (fun i => decide ((s.flow i).state ≠ .free) && decide ((s.flow i).key = some key))

/-! ### Idleness, freeing, allocation (R60, R68, R70) -/

/-- A record in use whose silence has reached the idle time (R70). -/
def isIdle (s : State) (i : FlowId) : Bool :=
  decide ((s.flow i).state ≠ .free) && decide (s.ft.idleTime ≤ elapsed s.now (s.flow i).lastSeen)

/-- The record leaves its group, if it is a member, and is then FREE, keeping its last-seen (R57,
R61, R68). -/
def freeRecord (i : FlowId) (s : State) : State :=
  let s := leave i s
  s.setFlow i (freeFlow (s.flow i).lastSeen)

/-- A way that may be evicted: idle, or in CLOSING (R60). -/
def isCandidate (s : State) (i : FlowId) : Bool :=
  isIdle s i || decide ((s.flow i).state = .closing)

/-- The candidate with the oldest last-seen; of equally old ones the first of the list (R60). -/
def oldestCandidate (s : State) : List FlowId → Option FlowId
  | [] => none
  | i :: rest =>
    match oldestCandidate s rest with
    | none => if isCandidate s i then some i else none
    | some j =>
      if isCandidate s i
          ∧ elapsed s.now (s.flow j).lastSeen ≤ elapsed s.now (s.flow i).lastSeen then some i
      else some j

/-- The way that an allocation takes in a set: the lowest FREE, else the oldest candidate (R60). -/
def allocationWay (s : State) (ways : List FlowId) : Option FlowId :=
  match ways.find? (fun i => decide ((s.flow i).state = .free)) with
  | some i => some i
  | none => oldestCandidate s ways

/-! ### Sub-kinds and sides -/

/-- The other endpoint. -/
def Side.other : Side → Side
  | .e1 => .e2
  | .e2 => .e1

/-- Whether the sub-kind set holds DATA (R34). -/
def SubKind.holdsData : SubKind → Bool
  | .data | .dataFin => true
  | .rst | .syn | .synAck | .fin | .pureAck | .empty => false

/-- Whether the sub-kind set holds FIN (R34). -/
def SubKind.holdsFin : SubKind → Bool
  | .fin | .dataFin => true
  | .rst | .syn | .synAck | .data | .pureAck | .empty => false

/-- Whether a miss of this sub-kind set asks for a record (R59). -/
def SubKind.creates : SubKind → Bool
  | .syn | .synAck | .data | .dataFin => true
  | .rst | .fin | .pureAck | .empty => false

/-- The scale of an endpoint. -/
def FlowRecord.scaleOf (r : FlowRecord) : Side → Option Nat
  | .e1 => r.scale1
  | .e2 => r.scale2

/-- Writes the scale of an endpoint. -/
def FlowRecord.setScale (r : FlowRecord) (side : Side) (v : Option Nat) : FlowRecord :=
  match side with
  | .e1 => { r with scale1 := v }
  | .e2 => { r with scale2 := v }

/-- The FIN flag of an endpoint. -/
def FlowRecord.finOf (r : FlowRecord) : Side → Bool
  | .e1 => r.fin1
  | .e2 => r.fin2

/-- Sets the FIN flag of an endpoint (R64). -/
def FlowRecord.setFin (r : FlowRecord) (side : Side) : FlowRecord :=
  match side with
  | .e1 => { r with fin1 := true }
  | .e2 => { r with fin2 := true }

/-! ### Learning and state moves on one record (R61 to R63, 4.2.1) -/

/-- The first values of a record created by this sub-kind set from `sender` (R59). -/
def newFlow (key : FlowKey) (kind : SubKind) (sender : Side) : FlowRecord :=
  { freeFlow 0 with
    state := .handshake
    key := some key
    initiator :=
      match kind with
      | .syn => some sender
      | .synAck => some sender.other
      | .rst | .dataFin | .fin | .data | .pureAck | .empty => none }

/-- SYN learning (R62). -/
def learnSyn (sender : Side) (scale : Option Nat) (r : FlowRecord) : FlowRecord :=
  { r with initiator := some sender
           offer := some (match scale with | none => .noneOffered | some v => .scale v) }

/-- SYN-ACK learning: the two scales settle (R63). `sender` is Y and the other endpoint X. -/
def learnSynAck (sender : Side) (scale : Option Nat) (r : FlowRecord) : FlowRecord :=
  let seen := if r.initiator = some sender.other then r.offer else none
  match seen, scale with
  | some (.scale a), some b => (r.setScale sender.other (some a)).setScale sender (some b)
  | none, some b => r.setScale sender (some b)
  | some .noneOffered, _ | some (.scale _), none | none, none =>
    (r.setScale sender.other (some 0)).setScale sender (some 0)

/-- The state after a SYN-ACK (4.2.1): OPEN, and from CLOSING with both FIN flags cleared. -/
def moveSynAck (r : FlowRecord) : FlowRecord :=
  match r.state with
  | .handshake => { r with state := .opened }
  | .closing => { r with state := .opened, fin1 := false, fin2 := false }
  | .free | .opened => r

/-- The state after DATA (4.2.1). -/
def moveData (r : FlowRecord) : FlowRecord :=
  match r.state with
  | .handshake => { r with state := .opened }
  | .free | .opened | .closing => r

/-- Steps 5 to 7 of a write-path segment on its record (R58): last-seen, learning, the state. -/
def learn (now : Tick) (sender : Side) (tcp : TcpPart) (r : FlowRecord) : FlowRecord :=
  let r := { r with lastSeen := now }
  match tcp.kind with
  | .syn => learnSyn sender tcp.scale r
  | .synAck => moveSynAck (learnSynAck sender tcp.scale r)
  | .data | .dataFin => moveData r
  | .rst | .fin | .pureAck | .empty => r

/-- FIN teardown (R64): the sender's flag, then CLOSING, or freed when the other flag is set. -/
def finTeardown (i : FlowId) (sender : Side) (s : State) : State :=
  let r := (s.flow i).setFin sender
  if r.finOf sender.other then freeRecord i (s.setFlow i r)
  else s.setFlow i { r with state := .closing }

/-- Step 8 of a write-path segment: the join request of a DATA segment with a queue (R66). -/
def requestJoin (i : FlowId) (sender : Side) (ip : IpPart) (tcp : TcpPart) (queue : Option QueueId)
    (s : State) : State :=
  match queue with
  | none => s
  | some q =>
    if tcp.kind.holdsData then
      joinRequest i sender { queue := q, version := ip.version, address := ip.destination } s
    else s

/-- Step 9 of a write-path segment: RST and FIN teardown (R64, R65). -/
def teardown (i : FlowId) (sender : Side) (tcp : TcpPart) (s : State) : State :=
  if tcp.kind = .rst then freeRecord i s
  else if tcp.kind.holdsFin then finTeardown i sender s
  else s

/-- Steps 5 to 9 of a write-path segment of a tracked flow (R58). -/
def trackSegment (i : FlowId) (sender : Side) (ip : IpPart) (tcp : TcpPart)
    (queue : Option QueueId) (s : State) : State :=
  teardown i sender tcp
    (requestJoin i sender ip tcp queue (s.setFlow i (learn s.now sender tcp (s.flow i))))

/-- The two endpoints of a segment: source and destination (R54). -/
def sourceOf (ip : IpPart) (tcp : TcpPart) : Endpoint := { address := ip.source, port := tcp.sourcePort }

/-- The destination endpoint of a segment (R54). -/
def destinationOf (ip : IpPart) (tcp : TcpPart) : Endpoint :=
  { address := ip.destination, port := tcp.destinationPort }

/-- Steps 2 to 9 of a write-path TCP record (R58 to R60). -/
def takeSegment (ip : IpPart) (tcp : TcpPart) (queue : Option QueueId) (s : State) : State :=
  match canonicalKey ip.version (sourceOf ip tcp) (destinationOf ip tcp) with
  | none => s.bump Counter.flowIneligible
  | some (key, sender) =>
    match findFlowRecord s key with
    | some i => trackSegment i sender ip tcp queue s
    | none =>
      if tcp.kind.creates then
        match allocationWay s (keyWays s key) with
        | some i =>
          trackSegment i sender ip tcp queue
            ((freeRecord i s).setFlow i (newFlow key tcp.kind sender))
        | none => (s.bump Counter.flowAllocFail).flagFlowFull
      else s

/-- A write-path TCP record, taken whole, with the drain-end report at its end (R58, R104); discarded
in TRANSPARENT. -/
def writeSegment (ip : IpPart) (tcp : TcpPart) (queue : Option QueueId) (s : State) : State :=
  if s.mode = .transparent then s else drainEnd (takeSegment ip tcp queue s)

/-! ### The read-path lookup (R74) -/

/-- The lookup of a read-path TCP record: none is a miss (R74). The answer for a record without a responder
gives no scale (DESIGN CHOICE, log 12). -/
def readLookup (ip : IpPart) (tcp : TcpPart) (s : State) : Option FlowAnswer :=
  if s.mode = .transparent then none
  else
    match canonicalKey ip.version (sourceOf ip tcp) (destinationOf ip tcp) with
    | none => none
    | some (key, sender) =>
      (findFlowRecord s key).map (fun i =>
        let r := s.flow i
        { record := i, state := r.state, sender := sender, group := r.group
          responder := r.responder
          scale := match r.responder with | none => none | some side => r.scaleOf side.other })

/-- What the lookup leaves: flow_ineligible for two equal endpoints, but not in TRANSPARENT (R54,
R74). -/
def afterLookup (ip : IpPart) (tcp : TcpPart) (s : State) : State :=
  if s.mode ≠ .transparent ∧ sourceOf ip tcp = destinationOf ip tcp then
    s.bump Counter.flowIneligible
  else s

/-! ### The sweep (R71, R72) -/

/-- How many ticks into a pass of period `period` record `i` is visited (R71). -/
def visitDelay (i period : Nat) : Nat := i * period / 8192

/-- Whether the visit to record `i` is the next: a pass is in progress, has visited the records below
`i` and no other, and has run for the visit's delay (R71, DEDUCED, log 16). -/
def visitDue (s : State) (i : FlowId) : Bool :=
  match s.ft.sweep with
  | none => false
  | some pass =>
    decide (pass.nextRecord = i.val) &&
      decide (elapsed s.now pass.start = visitDelay i.val pass.period)

/-- What a visit does to its record (R72). -/
def visitRecord (i : FlowId) (s : State) : State :=
  match (s.flow i).state with
  | .free => s
  | .handshake =>
    if s.ft.handshakeTime ≤ elapsed s.now (s.flow i).lastSeen then freeRecord i s else s
  | .opened | .closing => if isIdle s i then leave i s else s

/-- The pass moves past record `i` (R71). -/
def passVisited (i : FlowId) (s : State) : State :=
  { s with ft :=
    { s.ft with sweep := s.ft.sweep.map (fun pass => { pass with nextRecord := i.val + 1 }) } }

/-- The sweep's visit to record `i`, with the drain-end report at its end (R72, R104). -/
def sweepVisit (i : FlowId) (s : State) : State :=
  if visitDue s i then drainEnd (passVisited i (visitRecord i s)) else s

/-- A pass that begins now, under the sweep period in force (R71). -/
def beginPass (s : State) : State :=
  { s with ft :=
    { s.ft with sweep := some { start := s.now, period := s.ft.sweepPeriod, nextRecord := 0 } } }

/-- Whether the pass in progress ends at this tick, one sweep period after it began (R71). -/
def passEndDue (s : State) : Bool :=
  match s.ft.sweep with
  | none => false
  | some pass => decide (elapsed s.now pass.start = pass.period)

/-- The end of a pass: the next begins at that tick (R71). -/
def sweepPassEnd (s : State) : State := if passEndDue s then beginPass s else s

/-- The visits that fall on this tick and are still to come, in ascending order; `fuel` bounds their
number. -/
def sweepVisits : Nat → State → State
  | 0, s => s
  | fuel + 1, s =>
    match s.ft.sweep with
    | none => s
    | some pass =>
      if h : pass.nextRecord < 8192 then
        if visitDue s ⟨pass.nextRecord, h⟩ then sweepVisits fuel (sweepVisit ⟨pass.nextRecord, h⟩ s)
        else s
      else s

/-- All that the sweep still has to do at this tick: visits, the end of the pass, and the first visits
of the next (R71). -/
def sweepRest (s : State) : State := sweepVisits 8192 (sweepPassEnd (sweepVisits 8192 s))

/-- The sweep stops (R71). -/
def stopSweep (s : State) : State := { s with ft := { s.ft with sweep := none } }

/-! ### Clears (R77, R106) -/

/-- Whether every record of the table is FREE (R56). -/
def allFlowsFree (s : State) : Bool :=
  tableAll flowReset (fun r => decide (r.state = .free)) s.ft.flows

/-- Every flow record and group record becomes FREE and every active member total 0, in one step
and without log entries; last-seen timestamps stay (R57, R77, R106). -/
def clearFlowsAndGroups (s : State) : State :=
  { s with
    ft := { s.ft with flows := tableMap flowReset (fun r => freeFlow r.lastSeen) s.ft.flows }
    gc := { s.gc with groups := [], totals := [] } }

end Sys2Proof.Machine
end

