-- ==== Sys2Proof/Machine/Share.lean ====
section
/-! DEFINITION. The Share Calculator (Chapter 6): exact integer arithmetic, every division a floor. -/

namespace Sys2Proof.Machine

/-- Stage 1, the excess of depth `d` over target `t` (R111). -/
def excess (d t : Nat) : Nat := d - t

/-- Stage 2, the headroom, 0 when the excess uses up the budget (R111). -/
def headroom (d t p : Nat) : Nat := t + p - excess d t

/-- Stage 3, the base share of `h` among `n` members (R112). R109 says that `n` is never 0 here; for
0 the value is free (DESIGN CHOICE, log 11). -/
def baseShare (h n : Nat) : Nat := if n = 0 then Config.baseShareOfNone h else h / n

/-- Stage 4, the ramped share (R113). -/
def rampedShare (b m : Nat) : Nat := b * m / 256

/-- Stage 5, the share within floor and ceiling (R114). -/
def boundedShare (r floor ceiling : Nat) : Nat :=
  if r < floor then floor else if ceiling < r then ceiling else r

/-- Stages 1 to 5 for a group in an episode state; none in FREE and WATCH (R109, R119). -/
def shareOf (s : State) (g : GroupId) : Option Nat :=
  let r := s.group g
  match r.key with
  | none => none
  | some key =>
    if r.state.isEpisode then
      let c := s.queueClass key.queue
      let h := headroom (s.queue key.queue).estimate c.targetDepth c.pathAllowance
      some (boundedShare (rampedShare (baseShare h (s.total key.queue)) (groupMultiplier s g))
        c.windowFloor c.windowCeiling)
    else none

/-- Stage 6, the window field of a share at a scale, in 1..65,535 (R116). -/
def fieldValue (share scale : Nat) : Nat :=
  if share / 2 ^ scale = 0 then 1
  else if 65535 < share / 2 ^ scale then 65535
  else share / 2 ^ scale

/-- The answer to a rewrite request (R108). -/
inductive ShareAnswer where
  | notApplicable
  | rewrite (field : Nat)
  | pass (field : Nat)
  deriving DecidableEq, Repr

/-- A rewrite request for group `g` with scale `scale` and original field `original`: stage 7
lowers the field only (R108, R117). -/
def rewriteRequest (s : State) (g : GroupId) (scale original : Nat) : ShareAnswer :=
  match shareOf s g with
  | none => .notApplicable
  | some share =>
    if fieldValue share scale < original then .rewrite (fieldValue share scale)
    else .pass (fieldValue share scale)

/-- A report request: the share, or 0 outside an episode state (R119). -/
def reportRequest (s : State) (g : GroupId) : Nat := (shareOf s g).getD 0

end Sys2Proof.Machine
end

