-- ==== Sys2Proof/Machine/Rewrite.lean ====
section
/-! DEFINITION. The Rewrite Unit (Chapter 7): the window decision, the mark decision, and the changes
they make to a cell, with the check bytes of the altered words regenerated (R14). -/

namespace Sys2Proof.Machine

/-! ### The window decision (R124 to R128) -/

/-- The outcomes of the window decision (R137). -/
inductive WindowOutcome where
  | unaltered
  | skipScale
  | rewrite (field : Nat)
  deriving DecidableEq, Repr

/-- A window candidate: ACK set, SYN and RST clear (R124). -/
def isWindowCandidate (tcp : TcpPart) : Bool := tcp.ack && !tcp.syn && !tcp.rst

/-- The group gate and the scale gate, then the rewrite request (R126, R127, R128). -/
def groupDecision (s : State) (ip : IpPart) (tcp : TcpPart) (answer : FlowAnswer) (g : GroupId) :
    WindowOutcome :=
  match (s.group g).key with
  | none => .unaltered
  | some key =>
    let c := s.queueClass key.queue
    if key.version ≠ ip.version ∨ key.address ≠ ip.source then .unaltered
    else if (s.group g).state.isEpisode = false then .unaltered
    else if c.rewriteEnable = false then .unaltered
    else
      match answer.scale.or c.assumedScale with
      | none => .skipScale
      | some scale =>
        match rewriteRequest s g scale tcp.window with
        | .rewrite field => .rewrite field
        | .pass _ | .notApplicable => .unaltered

/-- The window decision on a parse record and the Flow Table's answer (R124, R125). -/
def windowDecision (s : State) (record : FrameRecord) (answer : Option FlowAnswer) : WindowOutcome :=
  match record.ip, record.tcp, answer with
  | some ip, some tcp, some a =>
    if isWindowCandidate tcp = false then .unaltered
    else
      match a.group with
      | none => .unaltered
      | some g => if a.responder = some a.sender then .unaltered else groupDecision s ip tcp a g
  | _, _, _ => .unaltered

/-! ### The mark decision (R130 to R132) -/

/-- The outcomes of the mark decision (R137). -/
inductive MarkOutcome where
  | unaltered
  | unmarkable
  | setCe
  deriving DecidableEq, Repr

/-- The mark condition of queue `q` at departure depth `depth` (R131). -/
def markCondition (s : State) (q : QueueId) (depth : Nat) : Bool :=
  let k := (s.queueClass q).markDepth
  decide (1 ≤ s.total q) && decide (k ≠ 0) && decide (k ≤ depth)

/-- The mark decision; `departed` is the queue and departure depth of a cell that issued a departure
(R130, R131, R132). -/
def markDecision (s : State) (record : FrameRecord) (departed : Option (QueueId × Nat)) :
    MarkOutcome :=
  match record.ip, departed with
  | some ip, some (q, depth) =>
    if markCondition s q depth then
      if ip.ecn = 0 then .unmarkable else if ip.ecn = 3 then .unaltered else .setCe
    else .unaltered
  | _, _ => .unaltered

/-! ### The changes to the cell (R133, R135, R14) -/

/-- Writes a 16-bit field at cell byte `i`, most significant byte first. -/
def writeWord (data : List Byte) (i v : Nat) : List Byte :=
  (data.set i (BitVec.ofNat 8 (v / 256))).set (i + 1) (BitVec.ofNat 8 v)

/-- The window field and the TCP checksum of a window rewrite (R128, R133, R135). -/
def writeWindow (c : Cell) (tcp : TcpPart) (field : Nat) (data : List Byte) : List Byte :=
  writeWord (writeWord data tcp.windowAt field) tcp.checksumAt
    (updateChecksum (cellWord c tcp.checksumAt) tcp.window field)

/-- The byte that holds the ECN field with CE set: both bits 1, the others as they were (R132). -/
def markedByte (c : Cell) (ip : IpPart) : Byte :=
  cellByte c ip.ecnAt ||| (3 <<< ip.ecnShift : Byte)

/-- The ECN byte, and for IPv4 the header checksum, of a mark (R132, R133, R135). -/
def writeMark (c : Cell) (ip : IpPart) (data : List Byte) : List Byte :=
  let marked := data.set ip.ecnAt (markedByte c ip)
  match ip.checksumAt with
  | none => marked
  | some i =>
    writeWord marked i
      (updateChecksum (cellWord c i) (cellWord c (ip.ecnAt - 1))
        ((cellByte c (ip.ecnAt - 1)).toNat * 256 + (markedByte c ip).toNat))

/-- The eight bytes of word `w`. -/
def wordBytes (data : List Byte) (w : Nat) : List Byte := (data.drop (8 * w)).take 8

/-- The cell with new data: the check byte of every altered word is computed anew, every other check
byte stays (R14, R135). -/
def withData (c : Cell) (data : List Byte) : Cell :=
  { data := data
    check := c.check.zipIdx.map (fun e =>
      if wordBytes data e.2 = wordBytes c.data e.2 then e.1
      else computedCheck { c with data := data } e.2) }

/-- The cell after both decisions: the changes are applied together (R123, R135). -/
def rewriteCell (c : Cell) (record : FrameRecord) (window : WindowOutcome) (mark : MarkOutcome) :
    Cell :=
  let data := match window, record.tcp with
    | .rewrite field, some tcp => writeWindow c tcp field c.data
    | _, _ => c.data
  let data := match mark, record.ip with
    | .setCe, some ip => writeMark c ip data
    | _, _ => data
  withData c data

/-- The counters that the window decision moves (R127, R128). -/
def countWindow (window : WindowOutcome) (s : State) : State :=
  match window with
  | .unaltered => s
  | .skipScale => s.bump Counter.rewriteSkipScale
  | .rewrite _ => s.bump Counter.windowsRewritten

/-- The counters that the mark decision moves (R132, R50). -/
def countMarks (mark : MarkOutcome) (queue : Option QueueId) (s : State) : State :=
  match mark, queue with
  | .unmarkable, _ => s.bump Counter.unmarkable
  | .setCe, some q => countMark q (s.bump Counter.marksSet)
  | .setCe, none | .unaltered, _ => s

/-- The counters that the two decisions move (R137). -/
def countDecisions (window : WindowOutcome) (mark : MarkOutcome) (queue : Option QueueId)
    (s : State) : State :=
  countMarks mark queue (countWindow window s)

/-! ### One handed cell, stage by stage (R14, R26, R36) -/

/-- What the cell header stage leaves to the frame stage: none when the parse ends there, else the
queue of an accepted cell with its departure depth (0 on the write path); and the state, the
accounting event taken or the refused cell counted (R22, R25, R26). -/
abbrev Accounting := Option (Option (QueueId × Nat)) × State

/-- The cell header stage of a full-cell write, and its enqueue (R22 to R26). -/
def accountWrite (p : Profile) (c : Cell) (s : State) : Accounting :=
  match headerStage p c with
  | .notStart => (none, s)
  | .badQueue => (none, s.bump Counter.badQueue)
  | .badLength => (some none, s.bump Counter.badLength)
  | .multicast => (some none, s.bump Counter.multicastSkipped)
  | .accepted q n => (some (some (q, 0)), enqueue q n s)

/-- The cell header stage of a read response, and its departure (R22 to R26). -/
def accountRead (p : Profile) (c : Cell) (s : State) : Accounting :=
  match headerStage p c with
  | .notStart => (none, s)
  | .badQueue => (none, s.bump Counter.badQueue)
  | .badLength => (some none, s.bump Counter.badLength)
  | .multicast => (some none, s.bump Counter.multicastSkipped)
  | .accepted q n => (some (some (q, departureDepth s q)), departure q n s)

/-- A write-path parse record: its category counts, and a TCP record goes to the Flow Table (R36,
R37). -/
def takeWriteRecord (record : FrameRecord) (queue : Option QueueId) (s : State) : State :=
  let s := s.bump (categoryCounter record.category)
  match record.ip, record.tcp with
  | some ip, some tcp => writeSegment ip tcp queue s
  | _, _ => s

/-- A read-path parse record: its category counts, and a TCP record is looked up; the answer, and
the state it leaves (R36, R37, R74). -/
def takeReadRecord (record : FrameRecord) (s : State) : Option FlowAnswer × State :=
  let s := s.bump (categoryCounter record.category)
  match record.ip, record.tcp with
  | some ip, some tcp => (readLookup ip tcp s, afterLookup ip tcp s)
  | _, _ => (none, s)

/-- Whether the Rewrite Unit decides on a cell that arrived in this mode (R122). -/
def Mode.rewrites : Mode → Bool
  | .enforce | .draining => true
  | .transparent | .observe => false

/-- The Rewrite Unit decides by the mode at arrival, both decisions from one reading of the state as
it stands, and from the Flow Table's answer as it was given (R122, R123, R129). So a cell that arrived
in ENFORCE or DRAINING and is decided after the drain's end, a release or a STOP may still be altered when
an onset in OBSERVE has opened an episode in between (R136, R158, R159; DESIGN CHOICE, log 18). -/
def decideRead (record : FrameRecord) (mode : Mode) (departed : Option (QueueId × Nat))
    (answer : Option FlowAnswer) (c : Cell) (s : State) : State × Cell :=
  if mode.rewrites then
    let window := windowDecision s record answer
    let mark := markDecision s record departed
    (countDecisions window mark (departed.map Prod.fst) s, rewriteCell c record window mark)
  else (s, c)

end Sys2Proof.Machine
end

