-- ==== Sys2Proof/Machine/Link.lean ====
section
/-! DEFINITION. The Link Forwarder (Chapter 1) and the meanings of the link's commands: arrivals, the
parse of a handed cell, leaving, and the two edges of RST_N. -/

namespace Sys2Proof.Machine

/-- What one step answers. -/
abbrev StepOutcome := Host.Outcome State Fault Refusal

/-- The added latency of a setting, in ns (R3). -/
def latencyNs : Latency → Nat
  | .short => Config.shortLatencyNs
  | .long => Config.longLatencyNs

/-- One stream of the link, oldest first (R2). -/
def State.stream (s : State) : Direction → List Transit
  | .sToM => s.link.toMemory
  | .mToS => s.link.toSwitch

/-- Writes one stream of the link. -/
def State.setStream (s : State) (d : Direction) (ts : List Transit) : State :=
  match d with
  | .sToM => { s with link := { s.link with toMemory := ts } }
  | .mToS => { s with link := { s.link with toSwitch := ts } }

/-- What a far side now presents (R2, DESIGN CHOICE, log 6). -/
def State.setPins (s : State) (d : Direction) (p : Departed) : State :=
  match d with
  | .sToM => { s with link := { s.link with memoryPins := some p } }
  | .mToS => { s with link := { s.link with switchPins := some p } }

/-- A transaction that arrives now joins the tail of its stream under the setting in force (R2, R6). -/
def arrive (d : Direction) (arrivesAt : Nat) (t : LinkTransaction) (awaiting : Option Handed)
    (s : State) : State :=
  s.setStream d (s.stream d ++
    [{ transaction := t, arrivedAt := arrivesAt, latency := s.link.latency, awaiting := awaiting }])

/-! ### The parse of a handed cell (R14, R26, R36, R129)

Only full-cell writes and read responses are handed (R4, R10); an operation below does nothing else to
another transaction than end its wait. -/

/-- The record that the frame stage forms of a handed cell (R27, R7, R18 note 1). -/
def handedRecord (t : Transit) (h : Handed) (c : Cell) : FrameRecord :=
  frameStage h.profile (parseWindow t.latency) c

/-- The first stage: the cell header stage and the accounting event. -/
def accountTransit (t : Transit) (h : Handed) (s : State) : Transit × State :=
  let onward (start : Option (QueueId × Nat)) : Handed := { h with progress := .accounted start }
  match t.transaction with
  | .fullWrite _ c =>
    ({ t with awaiting := (accountWrite h.profile c s).1.map onward }, (accountWrite h.profile c s).2)
  | .readResponse _ c _ =>
    ({ t with awaiting := (accountRead h.profile c s).1.map onward }, (accountRead h.profile c s).2)
  | .maskedWrite _ _ _ | .readRequest _ _ => ({ t with awaiting := none }, s)

/-- The second stage: the frame stage, and the Flow Table's handling of a write or its answer to a
read response. The parse of a write ends here (R36). -/
def recordTransit (t : Transit) (h : Handed) (start : Option (QueueId × Nat)) (s : State) :
    Transit × State :=
  match t.transaction with
  | .fullWrite _ c =>
    ({ t with awaiting := none }, takeWriteRecord (handedRecord t h c) (start.map Prod.fst) s)
  | .readResponse _ c _ =>
    let r := takeReadRecord (handedRecord t h c) s
    ({ t with awaiting := some { h with progress := .answered start r.1 } }, r.2)
  | .maskedWrite _ _ _ | .readRequest _ _ => ({ t with awaiting := none }, s)

/-- The third stage: the Rewrite Unit's decisions on a read response. -/
def decideTransit (t : Transit) (h : Handed) (departed : Option (QueueId × Nat))
    (answer : Option FlowAnswer) (s : State) : Transit × State :=
  match t.transaction with
  | .readResponse tag c e =>
    let r := decideRead (handedRecord t h c) h.mode departed answer c s
    ({ t with awaiting := none, transaction := .readResponse tag r.2 e }, r.1)
  | .fullWrite _ _ | .maskedWrite _ _ _ | .readRequest _ _ => ({ t with awaiting := none }, s)

/-- How many stages a handed cell has gone through. -/
def Progress.number : Progress → Nat
  | .handed => 0
  | .accounted _ => 1
  | .answered _ _ => 2

/-- The number of a stage. -/
def stageNumber : ParseStage → Nat
  | .accounting => 1
  | .record => 2
  | .decision => 3

/-- Whether a transaction is handed and has still to go through a stage. -/
def Transit.isBefore (t : Transit) (stage : ParseStage) : Bool :=
  match t.awaiting with
  | none => false
  | some h => decide (h.progress.number < stageNumber stage)

/-- A handed cell goes through its next stage. -/
def nextStage (t : Transit) (s : State) : Transit × State :=
  match t.awaiting with
  | none => (t, s)
  | some h =>
    match h.progress with
    | .handed => accountTransit t h s
    | .accounted start => recordTransit t h start s
    | .answered departed answer => decideTransit t h departed answer s

/-- A handed cell goes through its next stage when that is not past `stage`. -/
def stageUpTo (stage : ParseStage) (r : Transit × State) : Transit × State :=
  if r.1.isBefore stage then nextStage r.1 r.2 else r

/-- A handed cell goes through `stage` and every stage before it that it has still to go through. -/
def parseTransit (stage : ParseStage) (t : Transit) (s : State) : Transit × State :=
  stageUpTo stage (stageUpTo stage (stageUpTo stage (t, s)))

/-- The oldest transaction of a stream that has still to go through a stage does so (R58: in arrival
order). -/
def parseFirst (stage : ParseStage) : List Transit → State → List Transit × State
  | [], s => ([], s)
  | t :: rest, s =>
    if t.isBefore stage then ((parseTransit stage t s).1 :: rest, (parseTransit stage t s).2)
    else (t :: (parseFirst stage rest s).1, (parseFirst stage rest s).2)

/-- `parseFirst` on one stream of the link; none left to go through the stage, nothing changes. -/
def parseWaiting (d : Direction) (stage : ParseStage) (s : State) : State :=
  (parseFirst stage (s.stream d) s).2.setStream d (parseFirst stage (s.stream d) s).1

/-- Whether the parse of some cell of a stream has still to end. -/
def State.waiting (s : State) (d : Direction) : Bool := (s.stream d).any (fun t => t.awaiting.isSome)

/-- A handed cell arrives; it is parsed with its arrival when the sender says so and no earlier cell
of the stream waits (DESIGN CHOICE, log 4). -/
def arriveHanded (d : Direction) (arrivesAt : Nat) (t : LinkTransaction) (h : Handed)
    (parse : ParseTime) (s : State) : State :=
  if parse = .atArrival ∧ s.waiting d = false then
    parseWaiting d .decision (arrive d arrivesAt t (some h) s)
  else arrive d arrivesAt t (some h) s

/-! ### The hand-off (R4, R10, R12, R13) -/

/-- Whether a cell that fails the check-byte test counts as a check error: its flag byte reads set,
or itself carries the error (R13). -/
def isCountedCheckError (p : Profile) (c : Cell) : Bool :=
  !(byteClean c p.sop.byte) || cellBit c p.sop

/-- A cell that fails the check-byte test (R13). -/
def checkFailure (p : Profile) (c : Cell) (s : State) : State :=
  if isCountedCheckError p c then (s.bump Counter.linkCheckError).flagLinkCheck else s

/-- A transaction whose cell meets the hand-off conditions: the check-byte test decides (R12). -/
def handOff (d : Direction) (arrivesAt : Nat) (t : LinkTransaction) (c : Cell) (p : Profile)
    (parse : ParseTime) (s : State) : State :=
  if cellClean c then
    arriveHanded d arrivesAt t { profile := p, mode := s.mode, progress := .handed } parse s
  else arrive d arrivesAt t none (checkFailure p c s)

/-- The transaction kind of a full-cell write at its arrival (R4). -/
def arriveWrite (arrivesAt : Nat) (index : CellIndex) (c : Cell) (parse : ParseTime) (s : State) :
    State :=
  match s.profile with
  | none => arrive .sToM arrivesAt (.fullWrite index c) none s
  | some p =>
    if s.mode ≠ .transparent ∧ s.inRange index then
      handOff .sToM arrivesAt (.fullWrite index c) c p parse s
    else arrive .sToM arrivesAt (.fullWrite index c) none s

/-- A masked write at its arrival (R15). -/
def arriveMasked (arrivesAt : Nat) (index : CellIndex) (mask : BitVec 32) (c : Cell) (s : State) :
    State :=
  arrive .sToM arrivesAt (.maskedWrite index mask c) none
    (if s.mode ≠ .transparent ∧ s.inRange index then s.bump Counter.maskedInRange else s)

/-- The state of an entry written by a request for this cell (R8). -/
def requestEntry (s : State) (index : CellIndex) : EntryState :=
  if s.mode ≠ .transparent ∧ s.inRange index then .eligible else .ineligible

/-- A read request at its arrival (R8, R9). -/
def arriveRequest (arrivesAt : Nat) (index : CellIndex) (tag : Tag) (s : State) : State :=
  let entry := requestEntry s index
  let s := if s.entry tag = .empty then s else s.bump Counter.tagReuse
  arrive .sToM arrivesAt (.readRequest index tag) none (s.setEntry tag entry)

/-- A read response at its arrival (R10, R11). An ELIGIBLE entry with no profile loaded cannot
arise (R8, R19); such a response is not handed (DESIGN CHOICE, log 12). -/
def arriveResponse (arrivesAt : Nat) (tag : Tag) (c : Cell) (memError : Bool) (parse : ParseTime)
    (s : State) : State :=
  let t := LinkTransaction.readResponse tag c memError
  match s.entry tag, s.profile with
  | .empty, _ => arrive .mToS arrivesAt t none (s.bump Counter.orphanResponse)
  | .eligible, some p =>
    if s.mode ≠ .transparent ∧ memError = false then
      handOff .mToS arrivesAt t c p parse (s.setEntry tag .empty)
    else arrive .mToS arrivesAt t none (s.setEntry tag .empty)
  | .eligible, none | .ineligible, _ => arrive .mToS arrivesAt t none (s.setEntry tag .empty)

/-! ### Leaving (R2, R3) -/

/-- The oldest transaction of one stream leaves at its arrival time plus its latency (R3, R6). A
handed cell whose parse has not ended is parsed first, within its latency (R14, DESIGN CHOICE, log 4). -/
def leaveStream (d : Direction) (s : State) : State :=
  match s.stream d with
  | [] => s
  | t :: rest =>
    ((parseTransit .decision t s).2.setStream d rest).setPins d
      { transaction := (parseTransit .decision t s).1.transaction
        leftAt := t.arrivedAt + latencyNs t.latency }

/-- A link-level flow-control exchange that begins to pass now: its content unaltered, and the time at
which the far side sees it, one added latency later (R3 note 2). One that begins while RST_N is asserted does
not pass, as nothing does then (R16), and the time is that of one over which RST_N stays released: what becomes
of one inside the part at an assertion is not said. Exchanges are no command of the table. All three: DESIGN
CHOICE, log 14. -/
def State.passesExchange {α : Type} (s : State) (arrivesAt : Nat) (exchange : α) : Option (α × Nat) :=
  if s.running then some (exchange, arrivesAt + latencyNs s.link.latency) else none

/-! ### RST_N (R16, R138, R181) -/

/-- Assertion of RST_N: all state at its hardware reset values, every transaction inside lost. The
free-value counter and the queue of waiting commands are the model's and stay. -/
def assertReset (s : State) : State :=
  { State.reset with running := false, draws := s.draws, pending := s.pending }

/-- Release of RST_N: the count of REFCLK periods begins (R138). Nothing while already released. -/
def releaseReset (s : State) : State :=
  if s.running then s
  else { s with running := true, time := { s.time with refclkCount := 0, refclk := 0 } }

/-! ### Meanings -/

/-- FULL_CELL_WRITE (R1, R4). -/
def execFullCellWrite (arrivesAt : Nat) (index : CellIndex) (cell : Cell) (parse : ParseTime)
    (s : State) : StepOutcome :=
  .next (whenRunning s (arriveWrite arrivesAt index cell parse))

/-- MASKED_WRITE (R15). -/
def execMaskedWrite (arrivesAt : Nat) (index : CellIndex) (mask : BitVec 32) (cell : Cell)
    (s : State) : StepOutcome :=
  .next (whenRunning s (arriveMasked arrivesAt index mask cell))

/-- READ_REQUEST (R8, R9). -/
def execReadRequest (arrivesAt : Nat) (index : CellIndex) (tag : Tag) (s : State) : StepOutcome :=
  .next (whenRunning s (arriveRequest arrivesAt index tag))

/-- READ_RESPONSE (R10, R11). -/
def execReadResponse (arrivesAt : Nat) (tag : Tag) (cell : Cell) (memError : Bool)
    (parse : ParseTime) (s : State) : StepOutcome :=
  .next (whenRunning s (arriveResponse arrivesAt tag cell memError parse))

/-- HANDED_CELL_PARSE (R14). -/
def execHandedCellParse (direction : Direction) (stage : ParseStage) (s : State) : StepOutcome :=
  .next (whenRunning s (parseWaiting direction stage))

/-- TRANSACTION_LEAVES (R3). -/
def execTransactionLeaves (direction : Direction) (s : State) : StepOutcome :=
  .next (whenRunning s (leaveStream direction))

/-- HARDWARE_RESET (R16). -/
def execHardwareReset (s : State) : StepOutcome := .next (assertReset s)

/-- RESET_RELEASE (R138). -/
def execResetRelease (s : State) : StepOutcome := .next (releaseReset s)

end Sys2Proof.Machine
end

