-- ==== Sys2Proof/Machine/Port.lean ====
section
/-! DEFINITION. The Management Port (Chapter 11): the records, BUSY, how a request is answered, and
the layouts of the results. -/

namespace Sys2Proof.Machine

/-! ### Records (R174, R177) -/

/-- Replaces the result record (R174). -/
def State.setResult (s : State) (status : Status) (code : Byte) (bytes : List Byte) : State :=
  { s with port := { s.port with result := { status := status, code := code, bytes := bytes } } }

/-- Writes the sense record (R177). -/
def State.setSense (s : State) (code : SenseCode) (offset : Nat) : State :=
  { s with port := { s.port with sense := { code := code, offset := offset } } }

/-- Writes the pending command. -/
def State.setCommand (s : State) (c : Option PendingCommand) : State :=
  { s with port := { s.port with command := c } }

/-- The number of a status (11.1). -/
def statusNumber : Status → Nat
  | .good => 0
  | .pending => 1
  | .busy => 2
  | .check => 3

/-- The number of a sense code (R177). -/
def senseNumber : SenseCode → Nat
  | .none => 0
  | .invalidCommand => 1
  | .badLength => 2
  | .reservedSet => 3
  | .outOfRange => 4
  | .wrongMode => 5
  | .noProfile => 6
  | .locked => 7
  | .logEmpty => 8
  | .indexRange => 9

/-- The number of a mode (R178). -/
def modeNumber : Mode → Nat
  | .transparent => 0
  | .observe => 1
  | .enforce => 2
  | .draining => 3

/-- Byte `i` of a result frame that began in this state (R174). A result frame changes nothing. -/
def misoByte (s : State) (i : Nat) : Byte :=
  ([0x00, BitVec.ofNat 8 (statusNumber s.port.result.status), s.port.result.code,
    BitVec.ofNat 8 s.port.result.bytes.length] ++ s.port.result.bytes).getD i 0

/-- What the pins of the port carry: CS_N high, or low with a request or a result frame under way. `cutAt`
is how many whole bytes of the frame are clocked before RST_N is asserted in it, which ends it (R173, R181);
none where RST_N is not asserted before CS_N rises. -/
inductive PinFrame where
  | none
  | request (cutAt : Option Nat)
  | result (cutAt : Option Nat)
  deriving DecidableEq, Repr

/-- Whether RST_N stands released from the beginning of a frame to the end of its byte `i`. -/
def clockedReleased (s : State) (cutAt : Option Nat) (i : Nat) : Bool :=
  s.running && (cutAt.map (fun n => decide (i < n))).getD true

/-- Byte `i` that the part drives on MISO, none for high impedance: nothing while CS_N is high; 0x00 in a
request frame; the result record in a result frame (R173, R174, R181). A byte of a frame that is not clocked
before RST_N is asserted, or of one that begins while it is, is free (DESIGN CHOICE, log 19). `s` is the state
at the beginning of the frame. -/
def misoPin (s : State) (frame : PinFrame) (i : Nat) : Option Byte :=
  match frame with
  | .none => none
  | .request cutAt =>
    if clockedReleased s cutAt i then some 0x00 else Config.ignoredFrameMiso i
  | .result cutAt =>
    if clockedReleased s cutAt i then some (misoByte s i) else Config.ignoredFrameMiso i

/-! ### Answers (R175, R176) -/

/-- What a request that is not refused by R175 comes to: GOOD with result bytes and the state after
the effect; PENDING, likewise; BUSY; or CHECK with a sense code and offset. -/
inductive Answer where
  | good (bytes : List Byte) (s : State)
  | started (command : PendingCommand) (s : State)
  | busy
  | check (code : SenseCode) (offset : Nat)

/-- The result and sense records after an answer. A CHECK or BUSY changes nothing else (R174, R175,
R176, R177). -/
def applyAnswer (code : Byte) (s : State) : Answer → State
  | .good bytes s' => s'.setResult .good code bytes
  | .started command s' => (s'.setResult .pending code []).setCommand (some command)
  | .busy => s.setResult .busy code []
  | .check sense offset => (s.setResult .check code []).setSense sense offset

/-- A request frame. A frame during any part of which RST_N is asserted stands in the queue where it is
asserted, and does nothing: so a frame in progress at the assertion is lost, and one whose CS_N fell before
the release is ignored, whenever it ends (R173, R181; DESIGN CHOICE, log 13). Any other is BUSY while a
command is pending (R175), and otherwise gets its answer. -/
def takeRequest (code : Byte) (answer : State → Answer) (s : State) : State :=
  whenRunning s (fun s =>
    match s.port.command with
    | some _ => s.setResult .busy code []
    | none => applyAnswer code s (answer s))

/-- The sense offset of a fault in the frame (R176). -/
def frameOffset : Nat := 255

/-- The framing test and the command's own length test (R173, R176; one test: DEDUCED, log 8). -/
def withParams (n : Nat) (body : List Byte) (k : List Byte → Answer) : Answer :=
  match framedAs n body with
  | none => .check .badLength frameOffset
  | some ps => k ps

/-- The reserved-bit test (R176). -/
def unlessReserved (layout : List (Nat × Byte)) (ps : List Byte) (k : Answer) : Answer :=
  match reservedAt layout ps with
  | some o => .check .reservedSet o
  | none => k

/-- The range test (R176). -/
def unlessBroken (limits : List (Nat × Bool)) (k : Answer) : Answer :=
  match brokenAt limits with
  | some o => .check .outOfRange o
  | none => k

/-! ### Result layouts (11.6) -/

/-- A tick count in 4 bytes. -/
def tickBytes (t : Tick) : List Byte := toBytes 4 t.toNat

/-- The number of a flow state in a result. -/
def flowStateNumber : FlowState → Nat
  | .free => 0
  | .handshake => 1
  | .opened => 2
  | .closing => 3

/-- The number of a group state in a result. -/
def groupStateNumber : GroupState → Nat
  | .free => 0
  | .watch => 1
  | .active => 2
  | .settle => 3
  | .ramp => 4

/-- An optional endpoint as two bits: 0 absent or unknown, 1 E1, 2 E2. -/
def sideNumber : Option Side → Nat
  | none => 0
  | some .e1 => 1
  | some .e2 => 2

/-- An optional one-byte field: 0xFF when absent (11.6 note 2). -/
def optionalByte (v : Option Nat) : List Byte := toBytes 1 (v.getD 0xFF)

/-- An optional two-byte field: 0xFFFF when absent (11.6 note 2). -/
def optionalPair (v : Option Nat) : List Byte := toBytes 2 (v.getD 0xFFFF)

/-- The initiator offer byte: 0xFE for NONE-OFFERED (11.6). -/
def offerNumber : Offer → Nat
  | .noneOffered => 0xFE
  | .scale v => v

/-- The key fields of READ_FLOW; 0 for a FREE record (11.6 note 2). -/
def flowKeyBytes : Option FlowKey → List Byte
  | none => toBytes 37 0
  | some k =>
    toBytes 1 (versionNumber k.version)
    ++ toBytes 16 k.first.address.toNat ++ toBytes 2 k.first.port.toNat
    ++ toBytes 16 k.second.address.toNat ++ toBytes 2 k.second.port.toNat

/-- The READ_FLOW result: 59 bytes (11.6). -/
def flowBytes (s : State) (i : FlowId) : List Byte :=
  let r := s.flow i
  toBytes 2 i.val ++ tickBytes s.now ++ toBytes 1 (flowStateNumber r.state)
  ++ toBytes 1 (sideNumber r.initiator + 4 * sideNumber r.responder + 16 * r.fin1.toNat
      + 32 * r.fin2.toNat)
  ++ flowKeyBytes r.key
  ++ optionalByte (r.offer.map offerNumber) ++ optionalByte r.scale1 ++ optionalByte r.scale2
  ++ optionalByte (r.group.map Fin.val) ++ optionalPair (r.prev.map Fin.val)
  ++ optionalPair (r.next.map Fin.val) ++ optionalPair (r.joinedQueue.map Fin.val)
  ++ tickBytes r.lastSeen

/-- The READ_QUEUE result: 25 bytes (11.6). -/
def queueBytes (s : State) (q : QueueId) : List Byte :=
  let r := s.queue q
  toBytes 2 q.val ++ toBytes 1 (s.classNumber q).val ++ toBytes 2 (s.total q)
  ++ toBytes 4 r.estimate ++ toBytes 4 r.peak ++ toBytes 4 r.marks
  ++ tickBytes r.lastActivity ++ tickBytes s.now

/-- The presence byte of READ_GROUP (11.6). -/
def presenceNumber (r : GroupRecord) : Nat :=
  r.key.isSome.toNat + 2 * r.head.isSome.toNat + 4 * r.onsetAt.isSome.toNat
  + 8 * r.deadline.isSome.toNat + 16 * r.rampEntry.isSome.toNat + 32 * r.rampStart.isSome.toNat
  + 64 * r.lingerStart.isSome.toNat + 128 * r.overflow.toNat

/-- The key fields of READ_GROUP; 0 when absent (11.6 note 1). -/
def groupKeyBytes : Option GroupKey → List Byte
  | none => toBytes 19 0
  | some k => toBytes 2 k.queue.val ++ toBytes 1 (versionNumber k.version)
      ++ toBytes 16 k.address.toNat

/-- The active member total and the estimate of a group's queue. A group without a key has no queue:
both are free values (DESIGN CHOICE, log 10). -/
def groupQueueBytes (s : State) (g : GroupId) : List Byte :=
  match (s.group g).key with
  | some k => toBytes 2 (s.total k.queue) ++ toBytes 4 (s.queue k.queue).estimate
  | none =>
    toBytes 2 (Config.freeGroupTotal s.draws).toNat
    ++ toBytes 4 (Config.freeGroupEstimate s.draws).toNat

/-- The READ_GROUP result: 62 bytes (11.6). -/
def groupBytes (s : State) (g : GroupId) : List Byte :=
  let r := s.group g
  toBytes 1 g.val ++ toBytes 1 (groupStateNumber r.state) ++ toBytes 1 (presenceNumber r)
  ++ toBytes 1 r.count ++ groupKeyBytes r.key
  ++ toBytes 2 ((r.head.map Fin.val).getD 0) ++ toBytes 2 ((r.tail.map Fin.val).getD 0)
  ++ tickBytes (r.onsetAt.getD 0) ++ toBytes 4 (r.peak.getD 0)
  ++ tickBytes (r.deadline.getD 0) ++ toBytes 1 (r.rampEntry.getD 0)
  ++ tickBytes (r.rampStart.getD 0) ++ tickBytes (r.lingerStart.getD 0)
  ++ groupQueueBytes s g ++ toBytes 4 (reportRequest s g) ++ tickBytes s.now

/-- The IDENTIFY result: 11 bytes (R178). -/
def identifyBytes (s : State) : List Byte :=
  toBytes 2 0x2150 ++ toBytes 1 1 ++ toBytes 1 (modeNumber s.mode)
  ++ toBytes 1 ((decide (s.link.latency = .long)).toNat + 2 * s.link.locked.toNat
      + 4 * s.profile.isSome.toNat)
  ++ toBytes 2 s.time.prescaler ++ tickBytes s.now

/-! ### Pending clears and the walk (R53, R76, R106, R175) -/

/-- The code of a pending STOP or SOFT_RESET (11.5). -/
def clearsCode (soft : Bool) : Byte := if soft then 0x03 else 0x23

/-- Once all clears are done the result becomes GOOD with the command's own code (R160, R175). -/
def finishClears (s : State) : State :=
  match s.port.command with
  | some (.clears soft true true) => (s.setResult .good (clearsCode soft) []).setCommand none
  | _ => s

/-- The clear of the queue table of a pending STOP or SOFT_RESET, made once (R53). -/
def queueTableClear (s : State) : State :=
  match s.port.command with
  | some (.clears soft false flows) =>
    finishClears ((clearQueues s).setCommand (some (.clears soft true flows)))
  | _ => s

/-- The clear of the flow and group tables of a pending STOP or SOFT_RESET, made once (R77, R106). -/
def flowGroupClear (s : State) : State :=
  match s.port.command with
  | some (.clears soft queues false) =>
    finishClears ((clearFlowsAndGroups s).setCommand (some (.clears soft queues true)))
  | _ => s

/-- The walk has reached record `i`: it goes on to the next, or CLEAR_FLOWS becomes GOOD (R76). -/
def walkPast (i : FlowId) (s : State) : State :=
  if h : i.val + 1 < 8192 then s.setCommand (some (.walk ⟨i.val + 1, h⟩))
  else (s.setResult .good 0x34 []).setCommand none

/-- The CLEAR_FLOWS walk reaches one record in one REFCLK period: a member leaves, and the record is
freed (R76). Once a prescaler's periods have passed the next period waits for the tick (R138). -/
def walkStep (s : State) : State :=
  match s.port.command with
  | some (.walk i) =>
    if s.time.refclkCount < s.time.prescaler then walkPast i (freeRecord i (refclkPeriod s)) else s
  | _ => s

/-- The walk's steps in the next `n` REFCLK periods (R76). -/
def walkRest : Nat → State → State
  | 0, s => s
  | n + 1, s =>
    match s.port.command with
    | some (.walk _) => walkRest n (walkStep s)
    | _ => s

end Sys2Proof.Machine
end

