-- ==== Sys2Proof/Machine/Events.lean ====
section
/-! DEFINITION. The tick, and the meanings of the part's own events: the tick, the expiries, the sweep, the
drain-end report, the pending clears and the walk. An event whose condition does not hold changes
nothing (DESIGN CHOICE, log 3). -/

namespace Sys2Proof.Machine

/-! ### The expiries of one tick (R141) -/

/-- Whether the condition of an expiry holds. -/
def timedHolds (s : State) : TimedEvent → Bool
  | .quiet q => quietDue s q
  | .linger g => lingerDue s g
  | .hold g => holdDue s g
  | .entry g => entryDue s g
  | .holdEnd g => holdEndDue s g

/-- What an expiry does; nothing when its condition no longer holds. -/
def timedEffect : TimedEvent → State → State
  | .quiet q => quietExpiry q
  | .linger g => lingerExpiry g
  | .hold g => holdExpiry g
  | .entry g => entryExpiry g
  | .holdEnd g => holdEnd g

/-- Every timer of the part. -/
def allTimed : List TimedEvent :=
  (List.finRange 512).map .quiet
  ++ (List.finRange 128).flatMap (fun g => [.linger g, .hold g, .entry g, .holdEnd g])

/-- Writes the expiries of this tick that are still to come. -/
def State.setDue (s : State) (due : List TimedEvent) : State :=
  { s with time := { s.time with due := due } }

/-- The expiry no longer falls on this tick. -/
def State.dropDue (s : State) (e : TimedEvent) : State :=
  s.setDue (s.time.due.filter (fun e' => decide (e' ≠ e)))

/-- An expiry is taken, when it falls on this tick and has not been taken. Conditions are read at the
tick: one that a settings write makes true between two ticks counts from the next (R141). -/
def takeTimed (e : TimedEvent) (s : State) : State :=
  if e ∈ s.time.due then timedEffect e (s.dropDue e) else s

/-! ### The tick (R138) -/

/-- The expiries of this tick that are still to come. -/
def timedRest (s : State) : State := s.time.due.foldl (fun s e => takeTimed e s) s

/-- The REFCLK periods that are missing to the next tick. -/
def missingPeriods (s : State) : Nat := s.time.prescaler - s.time.refclkCount

/-- What has to happen before the next tick and has not: the expiries and the sweep of this one, and the
walk's steps in the missing periods (R71, R76, R141; the order: DESIGN CHOICE, log 20). -/
def finishTick (s : State) : State :=
  let s := sweepRest (timedRest s)
  walkRest (missingPeriods s) s

/-- The expiries whose conditions hold fall on this tick (R141). -/
def fallDue (s : State) : State := s.setDue (allTimed.filter (timedHolds s))

/-- The missing periods pass, and the counter increments and wraps (R138). -/
def advanceTick (s : State) : State :=
  { s with time := { s.time with tick := s.time.tick + 1, refclkCount := 0
                                 refclk := s.time.refclk + missingPeriods s } }

/-- A tick (R138). -/
def tickOnce (s : State) : State := fallDue (advanceTick (finishTick s))

/-! ### Meanings -/

/-- TICK (R138). -/
def execTick (s : State) : StepOutcome := .next (whenRunning s tickOnce)

/-- QUIET_EXPIRY (R48). -/
def execQuietExpiry (queue : QueueId) (s : State) : StepOutcome :=
  .next (whenRunning s (takeTimed (.quiet queue)))

/-- SWEEP_VISIT (R72). -/
def execSweepVisit (record : FlowId) (s : State) : StepOutcome :=
  .next (whenRunning s (sweepVisit record))

/-- SWEEP_PASS_END (R71). -/
def execSweepPassEnd (s : State) : StepOutcome := .next (whenRunning s sweepPassEnd)

/-- LINGER_EXPIRY (R90). -/
def execLingerExpiry (group : GroupId) (s : State) : StepOutcome :=
  .next (whenRunning s (takeTimed (.linger group)))

/-- HOLD_EXPIRY (R99). -/
def execHoldExpiry (group : GroupId) (s : State) : StepOutcome :=
  .next (whenRunning s (takeTimed (.hold group)))

/-- ENTRY_EXPIRY (R146). -/
def execEntryExpiry (group : GroupId) (s : State) : StepOutcome :=
  .next (whenRunning s (takeTimed (.entry group)))

/-- HOLD_END (R148). -/
def execHoldEnd (group : GroupId) (s : State) : StepOutcome :=
  .next (whenRunning s (takeTimed (.holdEnd group)))

/-- DRAIN_END_REPORT (R104). Every event that can leave a draining part without an episode makes the
report itself, at its end, so this command finds something to do only in a state that no run reaches
(DEDUCED, log 9). -/
def execDrainEndReport (s : State) : StepOutcome := .next (whenRunning s drainEnd)

/-- QUEUE_TABLE_CLEAR (R53). -/
def execQueueTableClear (s : State) : StepOutcome := .next (whenRunning s queueTableClear)

/-- FLOW_GROUP_CLEAR (R106). -/
def execFlowGroupClear (s : State) : StepOutcome := .next (whenRunning s flowGroupClear)

/-- CLEAR_FLOWS_WALK_STEP (R76). -/
def execClearFlowsWalkStep (s : State) : StepOutcome := .next (whenRunning s walkStep)

end Sys2Proof.Machine
end

