-- ==== Sys2Proof/Machine/Modes.lean ====
section
/-! DEFINITION. The meanings of the mode commands (Chapter 9) and of SOFT_RESET and CLEAR_FLOWS. -/

namespace Sys2Proof.Machine

/-- Whether a profile with an enabled range is loaded (R153). -/
def hasEnabledRange (s : State) : Bool :=
  match s.profile with
  | none => false
  | some p => p.ranges.any CellRange.enabled

/-- START_OBSERVE (R153). An accepted one begins a sweep pass within the same event (R71). -/
def startObserveAnswer (body : List Byte) (s : State) : Answer :=
  withParams 0 body (fun _ =>
    match s.mode with
    | .draining => .busy
    | .observe | .enforce => .check .wrongMode 0
    | .transparent =>
      if hasEnabledRange s then .good [] (beginPass { s with mode := .observe })
      else .check .noProfile 0)

/-- START_OBSERVE (R153). -/
def execStartObserve (body : List Byte) (s : State) : StepOutcome :=
  .next (takeRequest 0x20 (startObserveAnswer body) s)

/-- ENFORCE (R154). -/
def enforceAnswer (body : List Byte) (s : State) : Answer :=
  withParams 0 body (fun _ =>
    match s.mode with
    | .draining => .busy
    | .transparent => .check .wrongMode 0
    | .observe | .enforce => .good [] { s with mode := .enforce })

/-- ENFORCE (R154). -/
def execEnforce (body : List Byte) (s : State) : StepOutcome :=
  .next (takeRequest 0x21 (enforceAnswer body) s)

/-- RELEASE of a kind (R155): length, reserved bits, mode, then what the kind does (R156, R159). -/
def releaseAnswer (abrupt : Bool) (body : List Byte) (s : State) : Answer :=
  withParams 1 body (fun ps =>
    unlessReserved bitZeroReserved ps
      (match s.mode, abrupt with
        | .transparent, _ | .observe, _ => .check .wrongMode 0
        | .draining, false => .busy
        | .enforce, false => .good [] (drain s)
        | .enforce, true | .draining, true => .good [] (releaseAll s)))

/-- RELEASE of kind GRACEFUL (R156). The row names the kind (DESIGN CHOICE, log 12). -/
def execReleaseGraceful (body : List Byte) (s : State) : StepOutcome :=
  .next (takeRequest 0x22 (releaseAnswer false body) s)

/-- RELEASE of kind ABRUPT (R159). -/
def execReleaseAbrupt (body : List Byte) (s : State) : StepOutcome :=
  .next (takeRequest 0x22 (releaseAnswer true body) s)

/-- The start of STOP: TRANSPARENT, the sweep stopped, the clears to come (R160). -/
def beginStop (s : State) : State := stopSweep { s with mode := .transparent }

/-- STOP (R160). -/
def stopAnswer (body : List Byte) (s : State) : Answer :=
  withParams 0 body (fun _ => .started (.clears false false false) (beginStop s))

/-- STOP (R160). -/
def execStop (body : List Byte) (s : State) : StepOutcome :=
  .next (takeRequest 0x23 (stopAnswer body) s)

/-- The receipt of SOFT_RESET: TRANSPARENT, and sense record, counters, log, alert flags and masks at
their reset values; the sweep stops, the clears are to come (R180). -/
def beginSoftReset (s : State) : State :=
  stopSweep
    { s with mode := .transparent, port := { s.port with sense := .reset }, counters := []
             log := .reset, alerts := .reset }

/-- SOFT_RESET (R180). -/
def softResetAnswer (body : List Byte) (s : State) : Answer :=
  withParams 0 body (fun _ => .started (.clears true false false) (beginSoftReset s))

/-- SOFT_RESET (R180). -/
def execSoftReset (body : List Byte) (s : State) : StepOutcome :=
  .next (takeRequest 0x03 (softResetAnswer body) s)

/-- CLEAR_FLOWS (R75). -/
def clearFlowsAnswer (body : List Byte) (s : State) : Answer :=
  withParams 0 body (fun _ =>
    match s.mode with
    | .draining => .busy
    | .transparent | .enforce => .check .wrongMode 0
    | .observe => .started (.walk 0) s)

/-- CLEAR_FLOWS (R75). -/
def execClearFlows (body : List Byte) (s : State) : StepOutcome :=
  .next (takeRequest 0x34 (clearFlowsAnswer body) s)

end Sys2Proof.Machine
end

