-- ==== Sys2Proof/Machine/Reads.lean ====
section
/-! DEFINITION. The meanings of the commands that read (Chapters 3, 4, 5, 10, 11), of SENSE, and of a
request with an unknown code. -/

namespace Sys2Proof.Machine

/-- IDENTIFY (R178). -/
def identifyAnswer (body : List Byte) (s : State) : Answer :=
  withParams 0 body (fun _ => .good (identifyBytes s) s)

/-- IDENTIFY (R178). -/
def execIdentify (body : List Byte) (s : State) : StepOutcome :=
  .next (takeRequest 0x01 (identifyAnswer body) s)

/-- SENSE (R177): the record is returned and becomes NONE, 0. -/
def senseAnswer (body : List Byte) (s : State) : Answer :=
  withParams 0 body (fun _ =>
    .good (toBytes 1 (senseNumber s.port.sense.code) ++ toBytes 1 s.port.sense.offset)
      (s.setSense .none 0))

/-- SENSE (R177). -/
def execSense (body : List Byte) (s : State) : StepOutcome :=
  .next (takeRequest 0x02 (senseAnswer body) s)

/-- READ_QUEUE (R51): length, reserved bits, queue number. -/
def readQueueAnswer (body : List Byte) (s : State) : Answer :=
  withParams 3 body (fun ps =>
    unlessReserved readQueueReserved ps
      (if h : paramNat ps 0 2 < 512 then
        let q : QueueId := ⟨paramNat ps 0 2, h⟩
        .good (queueBytes s q)
          (if (paramByte ps 2).getLsbD 0 then
            s.setQueue q { s.queue q with peak := (s.queue q).estimate }
          else s)
      else .check .indexRange 0))

/-- READ_QUEUE (R51). -/
def execReadQueue (body : List Byte) (s : State) : StepOutcome :=
  .next (takeRequest 0x30 (readQueueAnswer body) s)

/-- READ_GROUP (R107). A read of a group without a key takes a fresh free value (DESIGN CHOICE, log 10). -/
def readGroupAnswer (body : List Byte) (s : State) : Answer :=
  withParams 1 body (fun ps =>
    if h : (paramByte ps 0).toNat < 128 then
      let g : GroupId := ⟨(paramByte ps 0).toNat, h⟩
      .good (groupBytes s g)
        (if (s.group g).key = none then { s with draws := s.draws + 1 } else s)
    else .check .indexRange 0)

/-- READ_GROUP (R107). -/
def execReadGroup (body : List Byte) (s : State) : StepOutcome :=
  .next (takeRequest 0x31 (readGroupAnswer body) s)

/-- READ_FLOW (R78). -/
def readFlowAnswer (body : List Byte) (s : State) : Answer :=
  withParams 2 body (fun ps =>
    if h : paramNat ps 0 2 < 8192 then .good (flowBytes s ⟨paramNat ps 0 2, h⟩) s
    else .check .indexRange 0)

/-- READ_FLOW (R78). -/
def execReadFlow (body : List Byte) (s : State) : StepOutcome :=
  .next (takeRequest 0x32 (readFlowAnswer body) s)

/-- The FIND_FLOW result for two endpoints (R79): equal endpoints are not found, and count nothing. -/
def findFlowBytes (s : State) (v : IpVersion) (a b : Endpoint) : List Byte :=
  match canonicalKey v a b with
  | none => toBytes 1 0
  | some (key, _) =>
    match findFlowRecord s key with
    | none => toBytes 1 0
    | some i => toBytes 1 1 ++ flowBytes s i

/-- FIND_FLOW (R79, 11.6 note 3): framing and a length of at least 1, reserved bits, version, exact
length. -/
def findFlowAnswer (body : List Byte) (s : State) : Answer :=
  match framed body with
  | none => .check .badLength frameOffset
  | some ps =>
    if ps.length < 1 then .check .badLength frameOffset
    else
      unlessReserved findFlowReserved ps
        (match versionField (paramByte ps 0) with
          | none => .check .outOfRange 0
          | some v =>
            if ps.length ≠ 5 + 2 * addressBytes v then .check .badLength frameOffset
            else
              .good (findFlowBytes s v (endpointField ps v 1)
                (endpointField ps v (3 + addressBytes v))) s)

/-- FIND_FLOW (R79). -/
def execFindFlow (body : List Byte) (s : State) : StepOutcome :=
  .next (takeRequest 0x33 (findFlowAnswer body) s)

/-- LOG_PEEK (R166). -/
def logPeekAnswer (body : List Byte) (s : State) : Answer :=
  withParams 0 body (fun _ =>
    match s.log.entries with
    | [] => .check .logEmpty 0
    | e :: _ => .good (logEntryBytes e) s)

/-- LOG_PEEK (R166). -/
def execLogPeek (body : List Byte) (s : State) : StepOutcome :=
  .next (takeRequest 0x40 (logPeekAnswer body) s)

/-- LOG_POP (R166): the oldest entry is returned and removed. -/
def logPopAnswer (body : List Byte) (s : State) : Answer :=
  withParams 0 body (fun _ =>
    match s.log.entries with
    | [] => .check .logEmpty 0
    | e :: rest => .good (logEntryBytes e) { s with log := { s.log with entries := rest } })

/-- LOG_POP (R166). -/
def execLogPop (body : List Byte) (s : State) : StepOutcome :=
  .next (takeRequest 0x41 (logPopAnswer body) s)

/-- Whether a counter lies in the span of a COUNTERS_READ (R172). -/
def inSpan (first count : Nat) (c : CounterId) : Bool :=
  decide (first ≤ c.val) && decide (c.val < first + count)

/-- The counters of a span, in ascending number, 4 bytes each (R172). -/
def counterBytes (s : State) (first count : Nat) : List Byte :=
  ((List.finRange 25).filter (inSpan first count)).flatMap (fun c => toBytes 4 (s.counter c))

/-- Each counter of a span set to 0 (R172). -/
def clearCounters (first count : Nat) (s : State) : State :=
  { s with counters := s.counters.filter (fun e => !(inSpan first count e.1)) }

/-- COUNTERS_READ (R172): length, reserved bits, count, first number. -/
def countersReadAnswer (body : List Byte) (s : State) : Answer :=
  withParams 3 body (fun ps =>
    let first := (paramByte ps 0).toNat
    let count := (paramByte ps 1).toNat
    unlessReserved countersReserved ps
      (if count = 0 ∨ 16 < count then .check .outOfRange 1
       else if 25 < first + count then .check .indexRange 0
       else
        .good (counterBytes s first count)
          (if (paramByte ps 2).getLsbD 0 then clearCounters first count s else s)))

/-- COUNTERS_READ (R172). -/
def execCountersRead (body : List Byte) (s : State) : StepOutcome :=
  .next (takeRequest 0x42 (countersReadAnswer body) s)

/-- CLEAR_ALERT (R170): length, reserved bits; the flags before and after, and the log count. -/
def clearAlertAnswer (body : List Byte) (s : State) : Answer :=
  withParams 1 body (fun ps =>
    unlessReserved clearAlertReserved ps
      (let s' := { s with alerts := s.alerts.clear (paramByte ps 0) }
       .good (toBytes 1 s.flags.toNat ++ toBytes 1 s'.flags.toNat
          ++ toBytes 2 s.log.entries.length) s'))

/-- CLEAR_ALERT (R170). -/
def execClearAlert (body : List Byte) (s : State) : StepOutcome :=
  .next (takeRequest 0x43 (clearAlertAnswer body) s)

/-- A request with an unknown code (R176). -/
def invalidCommandAnswer (_s : State) : Answer := .check .invalidCommand frameOffset

/-- INVALID_COMMAND (R176): the record names the request's own code. -/
def execInvalidCommand (code : Byte) (_body : List Byte) (s : State) : StepOutcome :=
  .next (takeRequest code invalidCommandAnswer s)

end Sys2Proof.Machine
end

