-- ==== Sys2Proof/Machine/Settings.lean ====
section
/-! DEFINITION. The meanings of the management commands that write settings (Chapters 1 to 5, 8, 10,
11), each with its tests in the order its rule gives. -/

namespace Sys2Proof.Machine

/-- SET_LATENCY (R5): length, reserved bits, lock. -/
def setLatencyAnswer (body : List Byte) (s : State) : Answer :=
  withParams 1 body (fun ps =>
    unlessReserved bitZeroReserved ps
      (if s.link.locked then .check .locked 0
       else
        .good [] { s with link :=
          { s.link with latency := if (paramByte ps 0).getLsbD 0 then .long else .short
                        locked := true } }))

/-- SET_LATENCY (R5). -/
def execSetLatency (body : List Byte) (s : State) : StepOutcome :=
  .next (takeRequest 0x10 (setLatencyAnswer body) s)

/-- What an accepted LOAD_PROFILE does to an outstanding read table entry (R19). -/
def invalidated : EntryState → EntryState
  | .eligible => .ineligible
  | .empty => .empty
  | .ineligible => .ineligible

/-- An accepted LOAD_PROFILE: the profile replaced whole, every ELIGIBLE entry INELIGIBLE (R19). -/
def installProfile (p : Profile) (s : State) : State :=
  { s with
    profile := some p
    link := { s.link with outstanding := tableMap .empty invalidated s.link.outstanding } }

/-- LOAD_PROFILE (R19, R20): mode, length, reserved bits, limits. -/
def loadProfileAnswer (body : List Byte) (s : State) : Answer :=
  if s.mode ≠ .transparent then .check .wrongMode 0
  else
    withParams 42 body (fun ps =>
      unlessReserved (profileReserved ps) ps
        (unlessBroken (profileLimits (profileField ps))
          (.good [] (installProfile (profileField ps) s))))

/-- LOAD_PROFILE (R19). -/
def execLoadProfile (body : List Byte) (s : State) : StepOutcome :=
  .next (takeRequest 0x11 (loadProfileAnswer body) s)

/-- Writes one class record whole (R41). -/
def State.setClassRecord (s : State) (c : ClassId) (r : ClassRecord) : State :=
  { s with depths := { s.depths with classes := tableSet classReset s.depths.classes c r } }

/-- SET_CLASS (R41): mode, length, reserved bits, class number, ranges and relations. -/
def setClassAnswer (body : List Byte) (s : State) : Answer :=
  if s.mode = .draining then .busy
  else
    withParams 35 body (fun ps =>
      unlessReserved classReserved ps
        (if h : (paramByte ps 0).toNat < 8 then
          unlessBroken (classLimits (classField ps))
            (.good [] (s.setClassRecord ⟨(paramByte ps 0).toNat, h⟩ (classField ps)))
        else .check .indexRange 0))

/-- SET_CLASS (R41). -/
def execSetClass (body : List Byte) (s : State) : StepOutcome :=
  .next (takeRequest 0x12 (setClassAnswer body) s)

/-- Maps one queue to a class (R39). -/
def State.setClassNumber (s : State) (q : QueueId) (c : ClassId) : State :=
  { s with depths := { s.depths with classOf := tableSet 0 s.depths.classOf q c } }

/-- SET_QUEUE_CLASS (R39): mode, length, reserved bits, queue number, class number. -/
def setQueueClassAnswer (body : List Byte) (s : State) : Answer :=
  if s.mode = .draining then .busy
  else
    withParams 3 body (fun ps =>
      unlessReserved queueClassReserved ps
        (if hq : paramNat ps 0 2 < 512 then
          if hc : (paramByte ps 2).toNat < 8 then
            .good [] (s.setClassNumber ⟨paramNat ps 0 2, hq⟩ ⟨(paramByte ps 2).toNat, hc⟩)
          else .check .outOfRange 2
        else .check .indexRange 0))

/-- SET_QUEUE_CLASS (R39). -/
def execSetQueueClass (body : List Byte) (s : State) : StepOutcome :=
  .next (takeRequest 0x13 (setQueueClassAnswer body) s)

/-- Writes one ramp sequence whole (R143). -/
def State.setRampSequence (s : State) (r : RampId) (entries : List RampEntry) : State :=
  { s with time := { s.time with ramps := tableSet [] s.time.ramps r entries } }

/-- Tests 4 to 7 of SET_RAMP on sequence `r` (R143). -/
def rampAnswer (ps : List Byte) (r : RampId) (s : State) : Answer :=
  let k := (paramByte ps 1).toNat
  if 16 < k then .check .outOfRange 1
  else if ps.length ≠ rampLength k then .check .badLength frameOffset
  else
    unlessReserved (rampReserved k) ps
      (unlessBroken (rampLimits ps k) (.good [] (s.setRampSequence r (rampField ps k))))

/-- SET_RAMP (R143): framing and least length, sequence number, in use, then `rampAnswer`. -/
def setRampAnswer (body : List Byte) (s : State) : Answer :=
  match framed body with
  | none => .check .badLength frameOffset
  | some ps =>
    if ps.length < 2 then .check .badLength frameOffset
    else if h : (paramByte ps 0).toNat < 4 then
      if rampInUse s ⟨(paramByte ps 0).toNat, h⟩ then .busy
      else rampAnswer ps ⟨(paramByte ps 0).toNat, h⟩ s
    else .check .indexRange 0

/-- SET_RAMP (R143). -/
def execSetRamp (body : List Byte) (s : State) : StepOutcome :=
  .next (takeRequest 0x14 (setRampAnswer body) s)

/-- SET_TICK (R139): length, mode, range. -/
def setTickAnswer (body : List Byte) (s : State) : Answer :=
  withParams 2 body (fun ps =>
    if s.mode ≠ .transparent then .busy
    else if paramNat ps 0 2 = 0 then .check .outOfRange 0
    else .good [] { s with time := { s.time with prescaler := paramNat ps 0 2, refclkCount := 0 } })

/-- SET_TICK (R139). -/
def execSetTick (body : List Byte) (s : State) : StepOutcome :=
  .next (takeRequest 0x15 (setTickAnswer body) s)

/-- Writes the six settings together (R179). -/
def State.setTimers (s : State) (f : TimersField) : State :=
  { s with
    depths := { s.depths with quietTime := f.quiet }
    ft := { s.ft with idleTime := f.idle, handshakeTime := f.handshake, sweepPeriod := f.sweep
                      seed := f.seed }
    gc := { s.gc with lingerTime := f.linger } }

/-- SET_TIMERS (R179): mode, length, reserved bits, range, the seed test of R56. -/
def setTimersAnswer (body : List Byte) (s : State) : Answer :=
  if s.mode = .draining then .busy
  else
    withParams 20 body (fun ps =>
      unlessReserved timersReserved ps
        (unlessBroken (timersLimits (timersField ps))
          (if (timersField ps).seed ≠ s.ft.seed ∧ allFlowsFree s = false then .check .wrongMode 18
           else .good [] (s.setTimers (timersField ps)))))

/-- SET_TIMERS (R179). -/
def execSetTimers (body : List Byte) (s : State) : StepOutcome :=
  .next (takeRequest 0x16 (setTimersAnswer body) s)

/-- Writes the alert mask, the log level and the kind mask together (R167). -/
def State.setAlerts (s : State) (mask : BitVec 6) (level : Nat) (kinds : BitVec 6) : State :=
  { s with alerts := { s.alerts with mask := mask }
           log := { s.log with level := level, kindMask := kinds } }

/-- SET_ALERT (R167): length, reserved bits, log level. -/
def setAlertAnswer (body : List Byte) (s : State) : Answer :=
  withParams 4 body (fun ps =>
    unlessReserved alertReserved ps
      (if paramNat ps 1 2 = 0 ∨ 256 < paramNat ps 1 2 then .check .outOfRange 1
       else
        .good [] (s.setAlerts ((paramByte ps 0).setWidth 6) (paramNat ps 1 2)
          ((paramByte ps 3).setWidth 6))))

/-- SET_ALERT (R167). -/
def execSetAlert (body : List Byte) (s : State) : StepOutcome :=
  .next (takeRequest 0x17 (setAlertAnswer body) s)

end Sys2Proof.Machine
end

