-- ==== Sys2Proof/Machine/Dispatch.lean ====
section
/-! DEFINITION. One arm per command: a direct call of its meaning. -/

namespace Sys2Proof.Machine

def exec (i : Instr) (s : State) : Host.Outcome State Fault Refusal :=
  match i with
  | .fullCellWrite arrivesAt index cell parse => Sys2Proof.Machine.execFullCellWrite arrivesAt index cell parse s
  | .maskedWrite arrivesAt index mask cell => Sys2Proof.Machine.execMaskedWrite arrivesAt index mask cell s
  | .readRequest arrivesAt index tag => Sys2Proof.Machine.execReadRequest arrivesAt index tag s
  | .readResponse arrivesAt tag cell memError parse => Sys2Proof.Machine.execReadResponse arrivesAt tag cell memError parse s
  | .hardwareReset => Sys2Proof.Machine.execHardwareReset s
  | .resetRelease => Sys2Proof.Machine.execResetRelease s
  | .tick => Sys2Proof.Machine.execTick s
  | .quietExpiry queue => Sys2Proof.Machine.execQuietExpiry queue s
  | .sweepVisit record => Sys2Proof.Machine.execSweepVisit record s
  | .sweepPassEnd => Sys2Proof.Machine.execSweepPassEnd s
  | .lingerExpiry group => Sys2Proof.Machine.execLingerExpiry group s
  | .holdExpiry group => Sys2Proof.Machine.execHoldExpiry group s
  | .entryExpiry group => Sys2Proof.Machine.execEntryExpiry group s
  | .holdEnd group => Sys2Proof.Machine.execHoldEnd group s
  | .drainEndReport => Sys2Proof.Machine.execDrainEndReport s
  | .queueTableClear => Sys2Proof.Machine.execQueueTableClear s
  | .flowGroupClear => Sys2Proof.Machine.execFlowGroupClear s
  | .clearFlowsWalkStep => Sys2Proof.Machine.execClearFlowsWalkStep s
  | .identify body => Sys2Proof.Machine.execIdentify body s
  | .sense body => Sys2Proof.Machine.execSense body s
  | .softReset body => Sys2Proof.Machine.execSoftReset body s
  | .setLatency body => Sys2Proof.Machine.execSetLatency body s
  | .loadProfile body => Sys2Proof.Machine.execLoadProfile body s
  | .setClass body => Sys2Proof.Machine.execSetClass body s
  | .setQueueClass body => Sys2Proof.Machine.execSetQueueClass body s
  | .setRamp body => Sys2Proof.Machine.execSetRamp body s
  | .setTick body => Sys2Proof.Machine.execSetTick body s
  | .setTimers body => Sys2Proof.Machine.execSetTimers body s
  | .setAlert body => Sys2Proof.Machine.execSetAlert body s
  | .startObserve body => Sys2Proof.Machine.execStartObserve body s
  | .enforce body => Sys2Proof.Machine.execEnforce body s
  | .releaseGraceful body => Sys2Proof.Machine.execReleaseGraceful body s
  | .releaseAbrupt body => Sys2Proof.Machine.execReleaseAbrupt body s
  | .stop body => Sys2Proof.Machine.execStop body s
  | .readQueue body => Sys2Proof.Machine.execReadQueue body s
  | .readGroup body => Sys2Proof.Machine.execReadGroup body s
  | .readFlow body => Sys2Proof.Machine.execReadFlow body s
  | .findFlow body => Sys2Proof.Machine.execFindFlow body s
  | .clearFlows body => Sys2Proof.Machine.execClearFlows body s
  | .logPeek body => Sys2Proof.Machine.execLogPeek body s
  | .logPop body => Sys2Proof.Machine.execLogPop body s
  | .countersRead body => Sys2Proof.Machine.execCountersRead body s
  | .clearAlert body => Sys2Proof.Machine.execClearAlert body s
  | .invalidCommand code body => Sys2Proof.Machine.execInvalidCommand code body s
  | .handedCellParse direction stage => Sys2Proof.Machine.execHandedCellParse direction stage s
  | .transactionLeaves direction => Sys2Proof.Machine.execTransactionLeaves direction s

end Sys2Proof.Machine
end

