-- ==== Sys2Proof/Safety.lean ====
section
/-! DEFINITION. What the spec promises of every state of the part, in the terms that claims use: the
laws of the part, the ranges of its registers, and how a refused request leaves it. -/

namespace Sys2Proof.Machine

/-! ### Records left by a request (R174, R177) -/

/-- The state with a new result record and nothing else changed. -/
def State.answering (s : State) (status : Status) (code : Byte) (bytes : List Byte) : State :=
  { s with port := { s.port with result := { status := status, code := code, bytes := bytes } } }

/-- The state after a CHECK: the result record and the sense record, and nothing else. -/
def State.refusing (s : State) (code : Byte) (sense : SenseCode) (offset : Nat) : State :=
  { s with port := { s.port with result := { status := .check, code := code, bytes := [] }
                                 sense := { code := sense, offset := offset } } }

/-- A request frame's bytes after the code hold exactly `n` parameters (R173). -/
def framesExactly (n : Nat) (body ps : List Byte) : Prop :=
  body = BitVec.ofNat 8 n :: ps ∧ ps.length = n

/-- The frame does not hold exactly `n` parameters: BAD_LENGTH at offset 255 (R173, R176). -/
def misframed (n : Nat) (body : List Byte) : Prop := ∀ ps, ¬ framesExactly n body ps

/-- The lowest parameter byte that holds a set reserved bit is byte `o` (R176). -/
def lowestReserved (layout : List (Nat × Byte)) (ps : List Byte) (o : Nat) : Prop :=
  (∃ m, (o, m) ∈ layout ∧ paramByte ps o &&& m ≠ 0)
  ∧ ∀ o' m, (o', m) ∈ layout → o' < o → paramByte ps o' &&& m = 0

/-- No reserved bit is set (R176). -/
def noneReserved (layout : List (Nat × Byte)) (ps : List Byte) : Prop :=
  ∀ o m, (o, m) ∈ layout → paramByte ps o &&& m = 0

/-- The port takes a request: RST_N is released and no command is pending (R175, R181). -/
def State.takesRequests (s : State) : Prop := s.running = true ∧ s.port.command = none

/-- The eight bits of a byte as they are clocked, most significant first (11.1). -/
def bitsOfByte (b : Byte) : List Bool := (List.range 8).map (fun i => b.getLsbD (7 - i))

/-- The `n`-byte field at offset `o` of a result holds `v`, as many low bytes of it as fit (11.6). -/
def holdsAt (bytes : List Byte) (o n v : Nat) : Prop := paramNat bytes o n = v % 256 ^ n

/-- The number that a result shows for an optional index, and for none (11.6 notes 1 and 2). -/
def shownIndex {n : Nat} (v : Option (Fin n)) (absent : Nat) : Nat := (v.map Fin.val).getD absent

/-! ### What parameters spell: the layouts of 2.2 and 11.6, from the values to the bytes -/

/-- The 8 bytes of a range descriptor (2.2). -/
def rangeBytes (r : CellRange) : List Byte :=
  toBytes 4 (2147483648 * r.enabled.toNat + r.base) ++ toBytes 4 r.limit

/-- The 42 bytes of a profile (2.2). -/
def profileBytes (p : Profile) : List Byte :=
  toBytes 1 p.frameOffset ++ toBytes 1 p.sop.byte ++ toBytes 1 p.sop.bit
  ++ (match p.multicast with
      | none => [0, 0]
      | some m => toBytes 1 m.byte ++ toBytes 1 (128 + m.bit))
  ++ toBytes 1 p.queueByte ++ toBytes 1 (16 * p.queueWidth + p.queueLsb)
  ++ toBytes 1 p.lengthByte ++ toBytes 2 p.queueOffset ++ p.ranges.flatMap rangeBytes

/-- The 35 bytes of SET_CLASS for class `c` (11.6). -/
def classBytes (c : ClassId) (r : ClassRecord) : List Byte :=
  toBytes 1 c.val ++ toBytes 4 r.onsetDepth ++ toBytes 4 r.releaseDepth ++ toBytes 1 r.fanIn
  ++ toBytes 2 r.holdTime ++ toBytes 4 r.targetDepth ++ toBytes 4 r.pathAllowance
  ++ toBytes 4 r.windowFloor ++ toBytes 4 r.windowCeiling ++ toBytes 1 (r.assumedScale.getD 255)
  ++ toBytes 1 (128 * r.rewriteEnable.toNat) ++ toBytes 4 r.markDepth
  ++ toBytes 1 ((match r.endMode with | .holds => 128 | .ends => 0) + r.ramp.val)

/-- Multipliers of 12 bits, packed two in three bytes, MSB first (11.6). -/
def packedMultipliers : List Nat → List Byte
  | [] => []
  | [m] => toBytes 2 (16 * m)
  | m :: n :: rest => toBytes 3 (4096 * m + n) ++ packedMultipliers rest

/-- The bytes of SET_RAMP for sequence `r` (11.6). -/
def sequenceBytes (r : RampId) (entries : List RampEntry) : List Byte :=
  toBytes 1 r.val ++ toBytes 1 entries.length ++ entries.flatMap (fun e => toBytes 2 e.duration)
  ++ packedMultipliers (entries.map RampEntry.multiplier)

/-- The 20 bytes of SET_TIMERS (11.6). -/
def timersBytes (f : TimersField) : List Byte :=
  toBytes 4 f.idle ++ toBytes 4 f.handshake ++ toBytes 2 f.sweep ++ toBytes 4 f.linger
  ++ toBytes 4 f.quiet ++ toBytes 2 f.seed.toNat

/-- The parameters of FIND_FLOW for two endpoints (11.6). -/
def findBytes (v : IpVersion) (a b : Endpoint) : List Byte :=
  toBytes 1 (versionNumber v) ++ toBytes (addressBytes v) a.address.toNat ++ toBytes 2 a.port.toNat
  ++ toBytes (addressBytes v) b.address.toNat ++ toBytes 2 b.port.toNat

/-- An address fits its version: 32 bits for IPv4 (R54). -/
def Endpoint.fits (v : IpVersion) (e : Endpoint) : Prop := v = .v4 → e.address.toNat < 4294967296

/-- The 40 bytes of a log entry, field by field (10.2). -/
def showsEntry (bytes : List Byte) (e : LogEntry) : Prop :=
  bytes.length = 40
  ∧ paramNat bytes 0 1 = (match e.kind with
      | .onset => 1 | .settle => 2 | .resume => 3 | .ramp => 4 | .ended => 5 | .collapse => 6)
  ∧ paramNat bytes 1 1 = (match e.cause with | .none => 0 | .sequence => 1 | .release => 2)
  ∧ paramNat bytes 2 1 = (match e.key.version with | .v4 => 4 | .v6 => 6)
  ∧ paramNat bytes 3 1 = e.group.val ∧ paramNat bytes 4 2 = e.key.queue.val
  ∧ paramNat bytes 6 1 = 0 ∧ holdsAt bytes 7 1 e.count ∧ paramNat bytes 8 4 = e.timestamp.toNat
  ∧ holdsAt bytes 12 4 e.depth ∧ holdsAt bytes 16 4 e.peak ∧ holdsAt bytes 20 4 e.duration
  ∧ paramNat bytes 24 16 = e.key.address.toNat

/-- The 62 bytes of a group record in READ_GROUP, field by field (11.6). The active member total and the
estimate of a group without a key are free values (log 10): nothing is said of them. -/
def showsGroup (bytes : List Byte) (s : State) (g : GroupId) : Prop :=
  let r := s.group g
  bytes.length = 62
  ∧ paramNat bytes 0 1 = g.val
  ∧ paramNat bytes 1 1 = (match r.state with
      | .free => 0 | .watch => 1 | .active => 2 | .settle => 3 | .ramp => 4)
  ∧ (∀ b : Fin 8, (paramByte bytes 2).getLsbD b =
      match b with
      | 0 => r.key.isSome
      | 1 => r.head.isSome
      | 2 => r.onsetAt.isSome
      | 3 => r.deadline.isSome
      | 4 => r.rampEntry.isSome
      | 5 => r.rampStart.isSome
      | 6 => r.lingerStart.isSome
      | _ => r.overflow)
  ∧ holdsAt bytes 3 1 r.count
  ∧ (r.key = none → paramNat bytes 4 19 = 0)
  ∧ (∀ key, r.key = some key → paramNat bytes 4 2 = key.queue.val
      ∧ paramNat bytes 6 1 = (match key.version with | .v4 => 4 | .v6 => 6)
      ∧ paramNat bytes 7 16 = key.address.toNat
      ∧ holdsAt bytes 48 2 (s.total key.queue) ∧ holdsAt bytes 50 4 (s.queue key.queue).estimate)
  ∧ paramNat bytes 23 2 = shownIndex r.head 0 ∧ paramNat bytes 25 2 = shownIndex r.tail 0
  ∧ paramNat bytes 27 4 = (r.onsetAt.getD 0).toNat ∧ holdsAt bytes 31 4 (r.peak.getD 0)
  ∧ paramNat bytes 35 4 = (r.deadline.getD 0).toNat ∧ holdsAt bytes 39 1 (r.rampEntry.getD 0)
  ∧ paramNat bytes 40 4 = (r.rampStart.getD 0).toNat
  ∧ paramNat bytes 44 4 = (r.lingerStart.getD 0).toNat
  ∧ holdsAt bytes 54 4 (reportRequest s g) ∧ paramNat bytes 58 4 = s.time.tick.toNat

/-- The 59 bytes of a flow record in READ_FLOW, field by field (11.6). -/
def showsFlow (bytes : List Byte) (s : State) (i : FlowId) : Prop :=
  let r := s.flow i
  bytes.length = 59
  ∧ paramNat bytes 0 2 = i.val ∧ paramNat bytes 2 4 = s.time.tick.toNat
  ∧ paramNat bytes 6 1 = (match r.state with
      | .free => 0 | .handshake => 1 | .opened => 2 | .closing => 3)
  ∧ paramNat bytes 7 1 = (match r.initiator with | none => 0 | some .e1 => 1 | some .e2 => 2)
      + 4 * (match r.responder with | none => 0 | some .e1 => 1 | some .e2 => 2)
      + (if r.fin1 then 16 else 0) + (if r.fin2 then 32 else 0)
  ∧ (r.key = none → paramNat bytes 8 37 = 0)
  ∧ (∀ key, r.key = some key →
      paramNat bytes 8 1 = (match key.version with | .v4 => 4 | .v6 => 6)
      ∧ paramNat bytes 9 16 = key.first.address.toNat ∧ paramNat bytes 25 2 = key.first.port.toNat
      ∧ paramNat bytes 27 16 = key.second.address.toNat ∧ paramNat bytes 43 2 = key.second.port.toNat)
  ∧ holdsAt bytes 45 1 (match r.offer with | none => 255 | some .noneOffered => 254 | some (.scale v) => v)
  ∧ holdsAt bytes 46 1 (r.scale1.getD 255) ∧ holdsAt bytes 47 1 (r.scale2.getD 255)
  ∧ paramNat bytes 48 1 = shownIndex r.group 255 ∧ paramNat bytes 49 2 = shownIndex r.prev 65535
  ∧ paramNat bytes 51 2 = shownIndex r.next 65535 ∧ paramNat bytes 53 2 = shownIndex r.joinedQueue 65535
  ∧ paramNat bytes 55 4 = r.lastSeen.toNat

/-! ### Limits of the settings, each at the offset that reports it (R20, R41) -/

/-- Offset `o` is the lowest that a broken limit is reported at (R176). -/
def lowestBreak (breaks : Nat → Prop) (o : Nat) : Prop := breaks o ∧ ∀ o', o' < o → ¬ breaks o'

/-- A profile whose fields fit their bits of 2.2, within the limits of R20 or not. -/
def Profile.encodable (p : Profile) : Prop :=
  p.frameOffset ≤ 255 ∧ (p.sop.byte ≤ 63 ∧ p.sop.bit ≤ 7)
  ∧ (∀ m, p.multicast = some m → m.byte ≤ 63 ∧ m.bit ≤ 7)
  ∧ p.queueByte ≤ 63 ∧ p.queueLsb ≤ 7 ∧ p.queueWidth ≤ 15 ∧ p.queueOffset ≤ 511
  ∧ p.lengthByte ≤ 63 ∧ p.ranges.length = 4
  ∧ ∀ r ∈ p.ranges, r.base ≤ 268435455 ∧ r.limit ≤ 268435455

/-- The limits of R20. -/
def Profile.breaks (p : Profile) (o : Nat) : Prop :=
  (o = 0 ∧ 64 < p.frameOffset)
  ∨ (o = 5 ∧ p.queueByte = 0 ∧ 8 < p.queueLsb + p.queueWidth)
  ∨ (o = 6 ∧ (p.queueWidth = 0 ∨ 9 < p.queueWidth))
  ∨ (o = 7 ∧ p.lengthByte = 63)
  ∨ ∃ k r, p.ranges[k]? = some r ∧ o = 10 + 8 * k ∧ r.limit < r.base

/-- A class record whose fields fit their bits of 11.6, within the ranges of R41 or not. -/
def ClassRecord.encodable (c : ClassRecord) : Prop :=
  c.onsetDepth ≤ Config.countMax ∧ c.releaseDepth ≤ Config.countMax ∧ c.fanIn ≤ 255
  ∧ c.holdTime ≤ 65535 ∧ c.targetDepth ≤ 1073741823 ∧ c.pathAllowance ≤ 1073741823
  ∧ c.windowFloor ≤ 1048575 ∧ c.windowCeiling ≤ 2147483647
  ∧ (∀ v, c.assumedScale = some v → v ≤ 254) ∧ c.markDepth ≤ Config.countMax

/-- The range test of R41; what the bits of 11.6 cannot hold cannot break it. -/
def ClassRecord.breaks (c : ClassRecord) (o : Nat) : Prop :=
  (o = 1 ∧ c.onsetDepth = 0) ∨ (o = 5 ∧ c.onsetDepth ≤ c.releaseDepth) ∨ (o = 9 ∧ c.fanIn = 1)
  ∨ (o = 10 ∧ c.holdTime = 0) ∨ (o = 20 ∧ c.windowFloor = 0)
  ∨ (o = 24 ∧ (c.windowCeiling < c.windowFloor ∨ 1073741824 < c.windowCeiling))
  ∨ ∃ v, o = 28 ∧ c.assumedScale = some v ∧ 14 < v

/-! ### Expiries (R141) -/

/-- The condition of an expiry, read at a tick (R48, R90, R99, R146, R148). -/
def State.expires (s : State) (now : Tick) : TimedEvent → Prop
  | .quiet q =>
    s.depths.quietTime ≠ 0 ∧ s.mode ≠ .transparent ∧ (s.queue q).estimate ≠ 0
    ∧ s.depths.quietTime ≤ (now - (s.queue q).lastActivity).toNat
  | .linger g =>
    (s.group g).state = .watch ∧ (s.group g).count = 0
    ∧ ∃ start, (s.group g).lingerStart = some start ∧ s.gc.lingerTime ≤ (now - start).toNat
  | .hold g => (s.group g).state = .settle ∧ (s.group g).deadline = some now
  | .entry g =>
    (s.group g).state = .ramp ∧ ∃ start, (s.group g).rampStart = some start
    ∧ ((groupRamp s g).length ≤ (s.group g).rampEntry.getD 0
      ∨ ∃ e, (groupRamp s g)[(s.group g).rampEntry.getD 0]? = some e ∧ e.duration ≤ (now - start).toNat)
  | .holdEnd g =>
    (s.group g).state = .ramp ∧ (s.group g).rampStart = none ∧ (groupClass s g).endMode = .ends

/-- The command that takes an expiry. -/
def expiryCommand : TimedEvent → Instr
  | .quiet q => .quietExpiry q
  | .linger g => .lingerExpiry g
  | .hold g => .holdExpiry g
  | .entry g => .entryExpiry g
  | .holdEnd g => .holdEnd g

/-- The next visit of the sweep falls on this tick (R71). -/
def State.visitFalls (s : State) (i : FlowId) : Prop :=
  ∃ pass, s.ft.sweep = some pass ∧ pass.nextRecord = i.val
    ∧ (s.time.tick - pass.start).toNat = i.val * pass.period / 8192

/-- The pass in progress ends at this tick (R71). -/
def State.passEnds (s : State) : Prop :=
  ∃ pass, s.ft.sweep = some pass ∧ (s.time.tick - pass.start).toNat = pass.period

/-- Nothing of the present tick is still to come: no expiry, no visit, no end of a pass (R71, R141). -/
def State.tickSettled (s : State) : Prop :=
  s.time.due = [] ∧ (∀ i, ¬ s.visitFalls i) ∧ ¬ s.passEnds

/-- A walk is pending and a REFCLK period is missing to the next tick (R76, R138). -/
def State.walkMoves (s : State) : Prop :=
  (∃ i, s.port.command = some (.walk i)) ∧ s.time.refclkCount < s.time.prescaler

/-! ### Crossings and ends (R46, R47, R93, R97, R98, R100) -/

/-- An enqueue that takes the estimate of `q` to `after` opens an episode of group `g` (R46, R93, R98). -/
abbrev State.opensAt (s : State) (q : QueueId) (after : Nat) (g : GroupId) : Prop :=
  (s.group g).key.map GroupKey.queue = some q
  ∧ (s.queue q).estimate < (s.classRecord (s.classNumber q)).onsetDepth
  ∧ (s.classRecord (s.classNumber q)).onsetDepth ≤ after
  ∧ (s.mode = .observe ∨ s.mode = .enforce) ∧ (s.group g).state = .watch
  ∧ (s.classRecord (s.classNumber q)).fanIn ≠ 0
  ∧ (s.classRecord (s.classNumber q)).fanIn ≤ (s.group g).count

/-- An enqueue that takes the estimate of `q` to `after` resumes group `g` (R46, R98). -/
abbrev State.resumesAt (s : State) (q : QueueId) (after : Nat) (g : GroupId) : Prop :=
  (s.group g).key.map GroupKey.queue = some q
  ∧ (s.queue q).estimate < (s.classRecord (s.classNumber q)).onsetDepth
  ∧ (s.classRecord (s.classNumber q)).onsetDepth ≤ after
  ∧ (s.mode = .observe ∨ s.mode = .enforce)
  ∧ ((s.group g).state = .settle ∨ (s.group g).state = .ramp)

/-- A fall of the estimate of `q` to `after` takes group `g` to SETTLE (R47, R97). -/
abbrev State.settlesAt (s : State) (q : QueueId) (after : Nat) (g : GroupId) : Prop :=
  (s.group g).key.map GroupKey.queue = some q ∧ (s.group g).state = .active
  ∧ (s.classRecord (s.classNumber q)).releaseDepth < (s.queue q).estimate
  ∧ after ≤ (s.classRecord (s.classNumber q)).releaseDepth

/-- The entry of an ONSET, SETTLE, RESUME or RAMP of group `g`, as `s` holds it, at that depth (R92). -/
def State.moveEntry (s : State) (g : GroupId) (key : GroupKey) (kind : LogKind) (depth : Nat) : LogEntry :=
  { kind := kind, cause := .none, timestamp := s.time.tick, group := g, key := key
    count := (s.group g).count, depth := depth, peak := 0, duration := 0 }

/-- The log of `t` with the entry of a transition of group `g`, as `s` holds it, at that depth (R92). -/
def offerMove (g : GroupId) (kind : LogKind) (depth : Nat) (s t : State) : State :=
  match (s.group g).key with
  | none => t
  | some key => offer (s.moveEntry g key kind depth) t

/-- The END entry of a sequence end of group `g`, with the episode's peak and duration (R92, R100). -/
def State.endEntry (s : State) (g : GroupId) (key : GroupKey) : LogEntry :=
  { kind := .ended, cause := .sequence, timestamp := s.time.tick, group := g, key := key
    count := (s.group g).count, depth := (s.queue key.queue).estimate
    peak := (s.group g).peak.getD 0
    duration := ((s.group g).onsetAt.map (fun start => (s.time.tick - start).toNat)).getD 0 }

/-- Were group `g` in WATCH in OBSERVE or ENFORCE, it would not meet the onset condition (R93); in any
other mode none does. -/
abbrev State.onsetFails (s : State) (g : GroupId) : Prop :=
  ∀ key ∈ (s.group g).key,
    (s.classRecord (s.classNumber key.queue)).fanIn = 0
    ∨ (s.group g).count < (s.classRecord (s.classNumber key.queue)).fanIn
    ∨ (s.queue key.queue).estimate < (s.classRecord (s.classNumber key.queue)).onsetDepth
    ∨ s.mode = .transparent ∨ s.mode = .draining

/-- `t` after offers of these entries, in their order (R92, R164). -/
def offerAll (entries : List LogEntry) (t : State) : State := entries.foldl (fun t e => offer e t) t

/-- The entries that an event offers for the groups of `s`, in ascending group index (R96). -/
def State.entriesOf (s : State) (entries : GroupId → GroupKey → List LogEntry) : List LogEntry :=
  (List.finRange 128).flatMap (fun g =>
    match (s.group g).key with
    | none => []
    | some key => entries g key)

/-- A graceful release ends group `g` at once: its sequence has no entry, or it holds (R103, R156). -/
abbrev State.endsAtRelease (s : State) (g : GroupId) : Prop :=
  (((s.group g).state = .active ∨ (s.group g).state = .settle) ∧ s.ramp (groupClass s g).ramp = [])
  ∨ ((s.group g).state = .ramp ∧ (s.group g).rampStart = none)

/-- A graceful release in ENFORCE leaves no episode, and group `g` meets the onset condition at the return to
OBSERVE (R93, R104, R158). -/
abbrev State.opensAtReturn (s : State) (g : GroupId) : Prop :=
  (∀ h, (s.group h).state.isEpisode = true → s.endsAtRelease h)
  ∧ ((s.group g).state = .watch ∨ s.endsAtRelease g) ∧ ¬ s.onsetFails g

/-- At a return to OBSERVE, with the groups `ended` already back in WATCH, group `g` meets the onset condition
(R93, R104, R158). -/
abbrev State.reopens (s : State) (ended : GroupId → Prop) (g : GroupId) : Prop :=
  ((s.group g).state = .watch ∨ ended g) ∧ ¬ ({ s with mode := .observe } : State).onsetFails g

/-- What `t` shows of an event that ends the episodes `ends` of `s` and then opens the groups `opens`: the totals,
the entries `first` and after them the ONSET entries, both in the order they are offered, the counters and the
alert flags, all else of them as in `s` (R83, R92, R94, R96, R100, R164). -/
def State.endsAndOpens (s t : State) (first : List LogEntry) (ends opens : GroupId → Prop)
    [DecidablePred ends] [DecidablePred opens] : Prop :=
  let offered := offerAll (first ++ s.entriesOf (fun g key =>
    if opens g then [s.moveEntry g key .onset (s.queue key.queue).estimate] else [])) s
  let members (P : GroupId → Prop) [DecidablePred P] (q : QueueId) : Nat := Finset.univ.sum (fun g =>
    if P g ∧ (s.group g).key.map GroupKey.queue = some q then (s.group g).count else 0)
  (∀ q, t.total q = s.total q - members ends q + members opens q)
  ∧ t.log = offered.log
  ∧ t.alerts = { offered.alerts with onset := s.alerts.onset || decide (∃ g, opens g) }
  ∧ (∀ c, c ≠ Counter.onsets → t.counter c = offered.counter c)
  ∧ (s.counter Counter.onsets ≤ 4294967295 → t.counter Counter.onsets
      = min (s.counter Counter.onsets
          + ((List.finRange 128).filter (fun g => decide (opens g))).length) 4294967295)

/-! ### The frame walk (R28 to R34) -/

/-- After at most two VLAN tags of a frame at `f` the type is `t`, and the byte after it is `i` (R28). -/
def frameTypeAt (c : Cell) (f t i : Nat) : Prop :=
  let tag (x : Nat) : Prop := x = 0x8100 ∨ x = 0x88A8
  (¬ tag (cellWord c (f + 12)) ∧ t = cellWord c (f + 12) ∧ i = f + 14)
  ∨ (tag (cellWord c (f + 12)) ∧ ¬ tag (cellWord c (f + 16)) ∧ t = cellWord c (f + 16) ∧ i = f + 18)
  ∨ (tag (cellWord c (f + 12)) ∧ tag (cellWord c (f + 16)) ∧ t = cellWord c (f + 20) ∧ i = f + 22)

/-- The IP part of a sound IPv4 header at cell byte `i` (R29). -/
def showsIpv4 (ip : IpPart) (c : Cell) (i : Nat) : Prop :=
  ip.version = .v4 ∧ ip.source.toNat = paramNat c.data (i + 12) 4
  ∧ ip.destination.toNat = paramNat c.data (i + 16) 4
  ∧ ip.ecn = (cellByte c (i + 1)).toNat % 4 ∧ ip.ecnAt = i + 1 ∧ ip.ecnShift = 0
  ∧ ip.checksumAt = some (i + 10)

/-- The IP part of a sound IPv6 header at cell byte `i` (R30). -/
def showsIpv6 (ip : IpPart) (c : Cell) (i : Nat) : Prop :=
  ip.version = .v6 ∧ ip.source.toNat = paramNat c.data (i + 8) 16
  ∧ ip.destination.toNat = paramNat c.data (i + 24) 16
  ∧ ip.ecn = (cellByte c (i + 1)).toNat / 16 % 4 ∧ ip.ecnAt = i + 1 ∧ ip.ecnShift = 4
  ∧ ip.checksumAt = none

/-- The TCP part of a sound header of `words` words at cell byte `t` with that payload (R31 to R34). -/
def showsTcp (tcp : TcpPart) (c : Cell) (t words payload : Nat) : Prop :=
  let flag (b : Nat) : Bool := (cellByte c (t + 13)).getLsbD b
  tcp.sourcePort.toNat = cellWord c t ∧ tcp.destinationPort.toNat = cellWord c (t + 2)
  ∧ tcp.fin = flag 0 ∧ tcp.syn = flag 1 ∧ tcp.rst = flag 2 ∧ tcp.ack = flag 4
  ∧ tcp.payload = payload ∧ tcp.window = cellWord c (t + 14) ∧ tcp.windowAt = t + 14
  ∧ tcp.checksumAt = t + 16
  ∧ tcp.kind = (if flag 2 then .rst else if flag 1 then (if flag 4 then .synAck else .syn)
      else if flag 0 then (if 0 < payload then .dataFin else .fin)
      else if 0 < payload then .data else if flag 4 then .pureAck else .empty)
  ∧ tcp.scale = (if flag 1 then offeredScale ((c.data.drop (t + 20)).take (4 * words - 20)) else none)

/-- The record of a walk that reaches a TCP header at cell byte `t`, after an IP header that takes
`header` bytes of the `total` that the IP header states (R31 to R33). -/
def showsWalk (r : FrameRecord) (window : Nat) (c : Cell) (ip : IpPart) (t total header : Nat) : Prop :=
  let words := (cellByte c (t + 12)).toNat / 16
  let syn := (cellByte c (t + 13)).getLsbD 1
  (window ≤ t + 19 → r = ⟨.truncated, some ip, none⟩)
  ∧ (t + 19 < window → words < 5 ∨ total < header + 4 * words → r = ⟨.malformed, some ip, none⟩)
  ∧ (t + 19 < window → 5 ≤ words → header + 4 * words ≤ total →
    (syn = true → window < t + 4 * words → r = ⟨.truncated, some ip, none⟩)
    ∧ (syn = false ∨ t + 4 * words ≤ window → ∃ tcp, r = ⟨.tcp, some ip, some tcp⟩
        ∧ showsTcp tcp c t words (total - header - 4 * words)))

/-- Option bytes through which the walk of R33 reaches the end or a byte of kind 0. -/
inductive OptionsSound : List Byte → Prop
  | nil : OptionsSound []
  | endOfList (rest : List Byte) : OptionsSound (0 :: rest)
  | noOperation (rest : List Byte) : OptionsSound rest → OptionsSound (1 :: rest)
  | option (kind len : Byte) (value rest : List Byte) : kind ≠ 0 → kind ≠ 1 → 2 ≤ len.toNat →
      value.length = len.toNat - 2 → OptionsSound rest → OptionsSound (kind :: len :: (value ++ rest))

/-! ### The canonical form of every table -/

/-- Every table of State lists rising indices and no reset value. -/
def State.tablesCanonical (s : State) : Prop :=
  TableWf .empty s.link.outstanding ∧ TableWf queueReset s.depths.queues
  ∧ TableWf 0 s.depths.classOf ∧ TableWf classReset s.depths.classes
  ∧ TableWf flowReset s.ft.flows ∧ TableWf freeGroup s.gc.groups ∧ TableWf 0 s.gc.totals
  ∧ TableWf [] s.time.ramps ∧ TableWf 0 s.counters

/-! ### Ranges (R18, R20, R38, R40, R48, R56, R90, R138, R142, R163, R171, R174) -/

/-- The greatest idle, handshake, linger and quiet time (R48, R56, R90). -/
def timerMax : Nat := 1048575

/-- A class record within R40. -/
def ClassRecord.legal (c : ClassRecord) : Prop :=
  (1 ≤ c.onsetDepth ∧ c.onsetDepth ≤ Config.countMax) ∧ c.releaseDepth < c.onsetDepth
  ∧ (c.fanIn = 0 ∨ (2 ≤ c.fanIn ∧ c.fanIn ≤ 255)) ∧ (1 ≤ c.holdTime ∧ c.holdTime ≤ 65535)
  ∧ c.targetDepth ≤ 1073741823 ∧ c.pathAllowance ≤ 1073741823
  ∧ (1 ≤ c.windowFloor ∧ c.windowFloor ≤ 1048575)
  ∧ (c.windowFloor ≤ c.windowCeiling ∧ c.windowCeiling ≤ 1073741824)
  ∧ (∀ v, c.assumedScale = some v → v ≤ 14) ∧ c.markDepth ≤ Config.countMax

/-- A bit position within the first 64 bytes of a cell (R18). -/
def BitPosition.legal (p : BitPosition) : Prop := p.byte ≤ 63 ∧ p.bit ≤ 7

/-- A profile within R18 and R20. -/
def Profile.legal (p : Profile) : Prop :=
  p.frameOffset ≤ 64 ∧ p.sop.legal ∧ (∀ m, p.multicast = some m → m.legal)
  ∧ p.queueByte ≤ 63 ∧ p.queueLsb ≤ 7 ∧ (1 ≤ p.queueWidth ∧ p.queueWidth ≤ 9)
  ∧ (p.queueByte = 0 → p.queueLsb + p.queueWidth ≤ 8) ∧ p.queueOffset ≤ 511
  ∧ p.lengthByte ≤ 62 ∧ p.ranges.length = 4
  ∧ ∀ r ∈ p.ranges, r.base ≤ r.limit ∧ r.limit ≤ 268435455

/-- A ramp sequence within R142. -/
def rampLegal (entries : List RampEntry) : Prop :=
  entries.length ≤ 16
  ∧ ∀ e ∈ entries, (1 ≤ e.duration ∧ e.duration ≤ 65535)
      ∧ (1 ≤ e.multiplier ∧ e.multiplier ≤ 4095)

/-- Six settings within R48, R56 and R90. -/
def TimersField.legal (f : TimersField) : Prop :=
  (1 ≤ f.idle ∧ f.idle ≤ timerMax) ∧ (1 ≤ f.handshake ∧ f.handshake ≤ timerMax)
  ∧ (1024 ≤ f.sweep ∧ f.sweep ≤ 65535) ∧ (1 ≤ f.linger ∧ f.linger ≤ timerMax) ∧ f.quiet ≤ timerMax

/-- Every setting lies in the range that its rule gives. -/
def State.settingsLegal (s : State) : Prop :=
  (∀ p, s.profile = some p → p.legal)
  ∧ (∀ c, (s.classRecord c).legal)
  ∧ s.depths.quietTime ≤ timerMax
  ∧ (1 ≤ s.ft.idleTime ∧ s.ft.idleTime ≤ timerMax)
  ∧ (1 ≤ s.ft.handshakeTime ∧ s.ft.handshakeTime ≤ timerMax)
  ∧ (1024 ≤ s.ft.sweepPeriod ∧ s.ft.sweepPeriod ≤ 65535)
  ∧ (1 ≤ s.gc.lingerTime ∧ s.gc.lingerTime ≤ timerMax)
  ∧ (1 ≤ s.time.prescaler ∧ s.time.prescaler ≤ 65535)
  ∧ (∀ r, rampLegal (s.ramp r))
  ∧ (1 ≤ s.log.level ∧ s.log.level ≤ Config.logCapacity)

/-- Every count and record lies in its range: a queue's peak is never below its estimate (R38), the
log holds at most 256 entries (R163), a result at most 64 bytes (R174); no more REFCLK periods have passed
since the last tick than the prescaler (R138). -/
def State.countsInRange (s : State) : Prop :=
  (∀ q, (s.queue q).estimate ≤ (s.queue q).peak ∧ (s.queue q).peak ≤ Config.countMax
    ∧ (s.queue q).marks ≤ Config.countMax)
  ∧ (∀ c, s.counter c ≤ Config.countMax)
  ∧ s.log.entries.length ≤ Config.logCapacity
  ∧ s.port.result.bytes.length ≤ 64
  ∧ s.port.sense.offset ≤ 255
  ∧ s.time.refclkCount ≤ s.time.prescaler

/-! ### The mode and what it admits -/

/-- A clear of the flow and group tables is still to come (R106). -/
def State.flowClearPending (s : State) : Prop :=
  ∃ soft queues, s.port.command = some (.clears soft queues false)

/-- No flow record is in use, no group is allocated, every active member total is 0 (R106). -/
def State.flowsAndGroupsEmpty (s : State) : Prop :=
  (∀ i, (s.flow i).state = .free) ∧ (∀ g, s.group g = freeGroup) ∧ ∀ q, s.total q = 0

/-- The sweep is on time: the periods are legal (R56); every record below the next has been visited when
its tick came, no visit is overdue, and a pass ends after its period (R71). -/
def State.sweepOnTime (s : State) : Prop :=
  (1024 ≤ s.ft.sweepPeriod ∧ s.ft.sweepPeriod ≤ 65535)
  ∧ ∀ pass, s.ft.sweep = some pass →
    let elapsed := (s.time.tick - pass.start).toNat
    (1024 ≤ pass.period ∧ pass.period ≤ 65535) ∧ pass.nextRecord ≤ 8192 ∧ elapsed ≤ pass.period
    ∧ (pass.nextRecord < 8192 → elapsed ≤ pass.nextRecord * pass.period / 8192)
    ∧ (0 < pass.nextRecord → (pass.nextRecord - 1) * pass.period / 8192 ≤ elapsed)

/-- What the mode goes with: a sweep pass runs exactly outside TRANSPARENT and is on time (R71); STOP and SOFT_RESET
stay pending in TRANSPARENT, and only until both clears are made (R160, R180); CLEAR_FLOWS stays
pending in OBSERVE (R75); TRANSPARENT finds the tables empty but for a clear still to come (R106);
DRAINING has an episode in progress, and none of its groups is in ACTIVE or SETTLE (R104, R162, 5.6). -/
def State.modeCoherent (s : State) : Prop :=
  (s.ft.sweep = none ↔ s.mode = .transparent) ∧ s.sweepOnTime
  ∧ (∀ soft queues flows, s.port.command = some (.clears soft queues flows) →
      s.mode = .transparent ∧ (queues && flows) = false)
  ∧ (∀ i, s.port.command = some (.walk i) → s.mode = .observe)
  ∧ (s.mode = .transparent → ¬ s.flowClearPending → s.flowsAndGroupsEmpty)
  ∧ (s.mode = .draining → s.anyEpisode = true)
  ∧ (s.mode = .draining → ∀ g, (s.group g).state ≠ .active ∧ (s.group g).state ≠ .settle)

/-- While RST_N is asserted everything stands at its hardware reset value (R16, R138, R181); the
free-value counter and the queue of waiting commands are the model's own. -/
def State.heldInReset (s : State) : Prop :=
  s.running = false →
    s = { State.reset with running := false, draws := s.draws, pending := s.pending }

/-! ### Groups and their members -/

/-- The optional fields of a group record are present in the states that R80 gives. -/
def GroupRecord.fieldsPresent (r : GroupRecord) : Prop :=
  (r.state = .free → r = freeGroup)
  ∧ (r.state ≠ .free → r.key.isSome = true)
  ∧ r.onsetAt.isSome = r.state.isEpisode ∧ r.peak.isSome = r.state.isEpisode
  ∧ r.deadline.isSome = decide (r.state = .settle)
  ∧ r.rampEntry.isSome = decide (r.state = .ramp)
  ∧ (r.rampStart.isSome = true → r.state = .ramp)
  ∧ r.lingerStart.isSome = (decide (r.state = .watch) && decide (r.count = 0))

/-- What a group adds to the active member total of queue `q` (R83). -/
def State.activeCount (s : State) (q : QueueId) (g : GroupId) : Nat :=
  if (s.group g).state.isEpisode ∧ (s.group g).key.map GroupKey.queue = some q then (s.group g).count
  else 0

/-- The laws of the group table: fields by state (R80); one key in at most one record (R81); the
member count is the number of flow records that name the group, at most 255 (R82); a FREE flow record
names none (R68); an episode has a member (R89); each active member total is the sum of the member
counts of its queue's groups in episode states (R83). -/
def State.groupsAccounted (s : State) : Prop :=
  (∀ g, (s.group g).fieldsPresent)
  ∧ (∀ g h key, (s.group g).key = some key → (s.group h).key = some key → g = h)
  ∧ (∀ g, (s.group g).count = Fintype.card { i : FlowId // (s.flow i).group = some g })
  ∧ (∀ g, (s.group g).count ≤ Config.memberMax)
  ∧ (∀ i, (s.flow i).state = .free → (s.flow i).group = none)
  ∧ (∀ g, (s.group g).state.isEpisode = true → 1 ≤ (s.group g).count)
  ∧ ∀ q, s.total q = Finset.univ.sum (s.activeCount q)

/-- The list `l` is the member list of group `g`: the records that name the group, each once, chained
from head to tail (R57, R67, R82). -/
def State.isMemberList (s : State) (g : GroupId) (l : List FlowId) : Prop :=
  l.Nodup ∧ (∀ i, i ∈ l ↔ (s.flow i).group = some g)
  ∧ (s.group g).count = l.length ∧ (s.group g).head = l.head? ∧ (s.group g).tail = l.getLast?
  ∧ ∀ k (h : k < l.length), (s.flow l[k]).next = l[k + 1]?
      ∧ (s.flow l[k]).prev = if k = 0 then none else l[k - 1]?

/-- The laws of the member lists: every group has its list (R82); a record on no list has no links
(R57, R88); a FREE flow record and a FREE group record hold nothing (R57, R80). -/
def State.membersChained (s : State) : Prop :=
  (∀ g, ∃ l, s.isMemberList g l)
  ∧ (∀ i, (s.flow i).group = none → (s.flow i).prev = none ∧ (s.flow i).next = none)
  ∧ (∀ i, (s.flow i).state = .free → s.flow i = freeFlow (s.flow i).lastSeen)
  ∧ ∀ g, (s.group g).state = .free → s.group g = freeGroup

/-- A scale value within R57. -/
def scaleLegal (v : Option Nat) : Prop := ∀ n, v = some n → n ≤ 14

/-- The laws of the flow table: a record in use holds a key in canonical order (R54) and stands in the
set of its key under the seed in force (R55, R56); one key is in at most one record (R59); scales and
offers lie in 0..14 (R57). -/
def State.flowsPlaced (s : State) : Prop :=
  (∀ i, (s.flow i).state ≠ .free → ∃ key, (s.flow i).key = some key
    ∧ endpointLt key.first key.second = true ∧ i ∈ keyWays s key)
  ∧ (∀ i j key, (s.flow i).state ≠ .free → (s.flow j).state ≠ .free →
      (s.flow i).key = some key → (s.flow j).key = some key → i = j)
  ∧ ∀ i, scaleLegal (s.flow i).scale1 ∧ scaleLegal (s.flow i).scale2
      ∧ ∀ n, (s.flow i).offer = some (.scale n) → n ≤ 14

/-! ### The link streams -/

/-- A transaction that travels from the M-side to the S-side: a read response (1.1). -/
def LinkTransaction.isResponse : LinkTransaction → Bool
  | .readResponse _ _ _ => true
  | .fullWrite _ _ | .maskedWrite _ _ _ | .readRequest _ _ => false

/-- Only full-cell writes and read responses are handed to the parser (R4, R8, R10, R15). -/
def LinkTransaction.isParsed : LinkTransaction → Bool
  | .readResponse _ _ _ | .fullWrite _ _ => true
  | .maskedWrite _ _ _ | .readRequest _ _ => false

/-- What the link goes with: an unlocked setting is SHORT (R5); an ELIGIBLE entry means a loaded
profile (R8, R19); each stream carries the transactions of its direction (1.1); a handed cell was
handed outside TRANSPARENT, under a profile within its limits (R4, R10, R18), and the Flow Table answers
only read responses (R36). -/
def State.linkCoherent (s : State) : Prop :=
  (s.link.locked = false → s.link.latency = .short)
  ∧ (∀ tag, s.entry tag = .eligible → s.profile.isSome = true)
  ∧ (∀ p, s.profile = some p → p.legal)
  ∧ (∀ t ∈ s.link.toMemory, t.transaction.isResponse = false)
  ∧ (∀ t ∈ s.link.toSwitch, t.transaction.isResponse = true)
  ∧ ∀ d, ∀ t ∈ s.stream d, ∀ h, t.awaiting = some h →
      t.transaction.isParsed = true ∧ h.mode ≠ .transparent ∧ h.profile.legal
        ∧ ∀ departed answer, h.progress = .answered departed answer → t.transaction.isResponse = true

/-- The transactions inside one direction of the part, oldest first, as they would leave. -/
def State.inside (s : State) (d : Direction) : List LinkTransaction :=
  (s.stream d).map Transit.transaction

/-- The state with one more transaction at the tail of a stream, and nothing else changed (R2). -/
def State.withArrival (s : State) (d : Direction) (x : Transit) : State :=
  match d with
  | .sToM => { s with link := { s.link with toMemory := s.link.toMemory ++ [x] } }
  | .mToS => { s with link := { s.link with toSwitch := s.link.toSwitch ++ [x] } }

/-- How many bits of a byte are 1. -/
def onesOf (b : Byte) : Nat := ((List.range 8).filter (fun i => b.getLsbD i)).length

/-- What a parse leaves alone: the link's other fields, every setting, the tick, the port, and the model's
own fields. -/
def State.sameControl (s t : State) : Prop :=
  t.running = s.running ∧ t.profile = s.profile ∧ t.depths.classOf = s.depths.classOf
  ∧ t.depths.classes = s.depths.classes ∧ t.depths.quietTime = s.depths.quietTime
  ∧ t.ft.idleTime = s.ft.idleTime ∧ t.ft.handshakeTime = s.ft.handshakeTime
  ∧ t.ft.sweepPeriod = s.ft.sweepPeriod ∧ t.ft.seed = s.ft.seed ∧ t.ft.sweep = s.ft.sweep
  ∧ t.gc.lingerTime = s.gc.lingerTime ∧ t.time = s.time ∧ t.log.kindMask = s.log.kindMask
  ∧ t.log.level = s.log.level ∧ t.alerts.mask = s.alerts.mask ∧ t.port = s.port
  ∧ t.draws = s.draws ∧ t.pending = s.pending

/-- A byte of the fields that the Rewrite Unit may write: the window and TCP checksum, the ECN byte and
the IPv4 header checksum of a parse record (R135). -/
def isRewritable (r : FrameRecord) (k : Nat) : Prop :=
  (∃ tcp, r.tcp = some tcp ∧ (k = tcp.windowAt ∨ k = tcp.windowAt + 1 ∨ k = tcp.checksumAt
    ∨ k = tcp.checksumAt + 1))
  ∨ ∃ ip, r.ip = some ip ∧ (k = ip.ecnAt ∨ ∃ at', ip.checksumAt = some at' ∧ (k = at' ∨ k = at' + 1))

/-- Two transactions that a parse may turn into one another: a read response keeps its tag and its
memory-error flag (R14); every other transaction stays as it is (R4, R8, R15). -/
def LinkTransaction.sameBut : LinkTransaction → LinkTransaction → Prop
  | .readResponse t _ e, .readResponse t' _ e' => t = t' ∧ e = e'
  | a, b => a = b

end Sys2Proof.Machine
end

