-- ==== Sys2Proof/Certificates/Slice0/Obligations.lean ====
section
/-! DEFINITION. The statements for the provers. `OBLIGATIONS.json` gives each its title, its rules and
its tier; the witnesses of their hypotheses stand in Tests/Slice0.lean. -/

open Sys2Proof Sys2Proof.Machine

/-! ### The machine -/

/-- A step takes the command at the front of the queue; on an empty queue the block idles, which is the
model's choice (log 2). -/
def Obligations.StepRunsFrontCommand : Prop :=
  (∀ (s : State) (c : Instr) (rest : List Instr), s.pending = c :: rest →
    step s = exec c { s with pending := rest })
  ∧ ∀ s : State, s.pending = [] → step s = .next s

/-- Of the bits clocked in a frame only whole bytes count, MSB first; a request frame's bytes spell
exactly one command, and the command's frame is that frame (R173, 11.1, 11.5). -/
def Obligations.FramesSpellCommands : Prop :=
  ((∀ i frame, i.wellFormed = true → frameOf i = some frame → decodeFrame frame = some i)
    ∧ ∀ frame i, decodeFrame frame = some i → frameOf i = some frame ∧ i.wellFormed = true)
  ∧ (∀ (bytes : List Byte) (tail : List Bool), tail.length < 8 →
      wholeBytes (bytes.flatMap bitsOfByte ++ tail) = bytes)

/-! ### Laws that every step keeps -/

/-- Every table lists rising indices and no reset value, so equal tables are equal data. -/
def Obligations.TablesStayCanonical : Prop :=
  ∀ s t : State, s.tablesCanonical → step s = .next t → t.tablesCanonical

/-- Every setting stays in the range its rule gives (R18, R20, R40, R48, R56, R90, R138, R142, R163). -/
def Obligations.SettingsStayInRange : Prop :=
  ∀ s t : State, s.settingsLegal → step s = .next t → t.settingsLegal

/-- Every count and record stays in its range; a queue's peak is never below its estimate (R38, R163, R171,
R174). -/
def Obligations.CountsStayInRange : Prop :=
  ∀ s t : State, s.countsInRange → step s = .next t → t.countsInRange

/-- The mode and what it goes with: sweep pass, pending commands, empty tables, episodes (R71, R75, R104,
R106, R160, R180, R162). -/
def Obligations.ModeStaysCoherent : Prop :=
  ∀ s t : State, s.modeCoherent → step s = .next t → t.modeCoherent

/-- The group table's laws: fields by state, one record per key, member counts, active member totals (R80 to
R83, R89). -/
def Obligations.GroupAccountingHolds : Prop :=
  ∀ s t : State, s.groupsAccounted → step s = .next t → t.groupsAccounted

/-- Every group's members stand on one list, each once, chained from head to tail (R57, R67, R82, R88). -/
def Obligations.MemberListsStayChained : Prop :=
  ∀ s t : State, s.membersChained → step s = .next t → t.membersChained

/-- No record in use ever stands where a lookup of its key would not find it (R56, R59). -/
def Obligations.FlowsStayPlaced : Prop :=
  ∀ s t : State, s.flowsPlaced → step s = .next t → t.flowsPlaced

/-- Each stream holds transactions of its direction, a handed cell was handed outside TRANSPARENT, an unlocked
setting is SHORT (R4, R5, R8, R10, R19). -/
def Obligations.LinkStaysCoherent : Prop :=
  ∀ s t : State, s.linkCoherent → step s = .next t → t.linkCoherent

/-- All of the laws above hold of the part right after reset. -/
def Obligations.ResetMeetsEveryLaw : Prop :=
  State.reset.tablesCanonical ∧ State.reset.settingsLegal ∧ State.reset.countsInRange
  ∧ State.reset.modeCoherent ∧ State.reset.groupsAccounted ∧ State.reset.membersChained
  ∧ State.reset.flowsPlaced ∧ State.reset.linkCoherent ∧ State.reset.heldInReset

/-- Once SET_LATENCY has locked the setting, only hardware reset changes it (R5 notes 1 and 2), and no
other command changes it at all. -/
def Obligations.LatencySettingChangesOnce : Prop :=
  ∀ s t : State, step s = .next t →
    (t.link.latency, t.link.locked) = (s.link.latency, s.link.locked)
    ∨ s.pending.head? = some .hardwareReset
    ∨ (s.link.locked = false ∧ t.link.locked = true ∧ ∃ body, s.pending.head? = some (.setLatency body))

/-- The mode changes only at the events of R152, and only along the arrows of Chapter 9. Every episode after
the end of a drain began with it (R158); a TICK that ends one may go on to other expiries of its tick (log 20). -/
def Obligations.ModeChangesOnlyAtItsEvents : Prop :=
  ∀ (s t : State) (c : Instr), s.pending.head? = some c → step s = .next t → t.mode ≠ s.mode →
    (s.mode = .transparent ∧ t.mode = .observe ∧ ∃ body, c = .startObserve body)
    ∨ (s.mode = .observe ∧ t.mode = .enforce ∧ ∃ body, c = .enforce body)
    ∨ (s.mode = .enforce ∧ (t.mode = .draining ∨ t.mode = .observe) ∧ ∃ body, c = .releaseGraceful body)
    ∨ ((s.mode = .enforce ∨ s.mode = .draining) ∧ t.mode = .observe ∧ ∃ body, c = .releaseAbrupt body)
    ∨ (t.mode = .transparent ∧ (c = .hardwareReset ∨ ∃ body, c = .stop body ∨ c = .softReset body))
    ∨ (s.mode = .draining ∧ t.mode = .observe
        ∧ ∀ g, (t.group g).state.isEpisode = true → (t.group g).onsetAt = some s.time.tick
            ∧ (c ≠ .tick → (t.group g).state = .active))

/-- Each direction of the link is one ordered stream: a step appends one transaction, or the oldest one
leaves, or all stay; none is lost but at hardware reset; and inside the part only the cell of a read
response may change (R2, R4, R14, R16). -/
def Obligations.LinkKeepsItsOrder : Prop :=
  ∀ (d : Direction) (s t : State), step s = .next t →
    (s.pending.head? = some .hardwareReset ∧ t.inside d = [])
    ∨ List.Forall₂ LinkTransaction.sameBut (s.inside d) (t.inside d)
    ∨ (∃ new, List.Forall₂ LinkTransaction.sameBut (s.inside d ++ [new]) (t.inside d))
    ∨ ∃ oldest rest, s.inside d = oldest :: rest ∧ t.inside d = rest
        ∧ s.pending.head? = some (.transactionLeaves d)

/-- While RST_N is asserted nothing acts: every command but the release leaves the part as it is, and
HARDWARE_RESET and RESET_RELEASE have their own values (R16, R138, R181). The model's choices: that nothing
else is taken meanwhile (log 1), that the transmit pins present nothing after reset (log 6), and that the model's
own count of REFCLK periods is 0 then and at the release (log 7). The free-value counter and the queue of waiting
commands are the model's own. -/
def Obligations.ResetLineRules : Prop :=
  (∀ s : State, exec .hardwareReset s
      = .next { State.reset with running := false, draws := s.draws, pending := s.pending })
  ∧ (∀ s : State, s.running = false → exec .resetRelease s
      = .next { s with running := true, time := { s.time with refclkCount := 0, refclk := 0 } })
  ∧ (∀ s : State, s.running = true → exec .resetRelease s = .next s)
  ∧ (∀ (s : State) (c : Instr), s.running = false → c ≠ .resetRelease → c ≠ .hardwareReset →
      exec c s = .next s)
  ∧ ∀ s t : State, s.heldInReset → step s = .next t → t.heldInReset

/-! ### Every request (R173 to R177) -/

/-- A request answered BUSY or CHECK changes nothing but the result record and, for CHECK, the sense
record; every request is answered under its own code (R174, R176, R177). While a command is pending every
request is BUSY and not executed (R175). A request during any part of which RST_N is asserted, which
stands in the queue where it is asserted (log 13), changes nothing at all (R173, R181). -/
def Obligations.RefusedRequestChangesNothingElse : Prop :=
  ∀ (s : State) (i : Instr) (code : Byte) (body : List Byte),
    frameOf i = some (code :: body) →
    (s.running = false → exec i s = .next s)
    ∧ (s.running = true →
      (∀ waiting, s.port.command = some waiting → exec i s = .next (s.answering .busy code []))
      ∧ ∀ t, exec i s = .next t →
        t.port.result.code = code
        ∧ (t.port.result.status = .busy → t = s.answering .busy code [])
        ∧ (t.port.result.status = .check →
            ∃ sense offset, t = s.refusing code sense offset ∧ sense ≠ .none)
        ∧ (t.port.result.status = .pending → ∃ waiting, t.port.command = some waiting))

/-- A frame that is not well framed, or of another length than the command's, is refused with BAD_LENGTH
at offset 255: for each command of a fixed length whose first test is the length (R173, R176, 11.5). An
unknown code is refused with INVALID_COMMAND at offset 255, under the request's own code (R176). -/
def Obligations.MisframedAndUnknownRefused : Prop :=
  (∀ (s : State) (body : List Byte), s.takesRequests →
      ∀ e ∈ ([(.identify, 0x01, 0), (.sense, 0x02, 0), (.softReset, 0x03, 0), (.setLatency, 0x10, 1),
          (.setTick, 0x15, 2), (.setAlert, 0x17, 4), (.startObserve, 0x20, 0), (.enforce, 0x21, 0),
          (.releaseGraceful, 0x22, 1), (.releaseAbrupt, 0x22, 1), (.stop, 0x23, 0),
          (.readQueue, 0x30, 3), (.readGroup, 0x31, 1), (.readFlow, 0x32, 2), (.clearFlows, 0x34, 0),
          (.logPeek, 0x40, 0), (.logPop, 0x41, 0), (.countersRead, 0x42, 3), (.clearAlert, 0x43, 1)] :
          List ((List Byte → Instr) × Byte × Nat)),
        misframed e.2.2 body → exec (e.1 body) s = .next (s.refusing e.2.1 .badLength 255))
  ∧ (∀ (s : State) (code : Byte) (body : List Byte), s.takesRequests →
      exec (.invalidCommand code body) s = .next (s.refusing code .invalidCommand 255))

/-- A result frame shows the result record as it stands: 0x00, status, code, length, the result bytes,
then 0x00 (R174); a request frame shows 0x00, and MISO is not driven while CS_N is high (R173, R181). In a
frame in which RST_N is asserted this holds of the bytes clocked before (of the others nothing is said, log 19). -/
def Obligations.ResultFrameShowsTheRecord : Prop :=
  ∀ (s : State) (i : Nat),
    misoPin s .none i = none
    ∧ (∀ cutAt, s.running = true → (∀ n, cutAt = some n → i < n) →
        misoPin s (.request cutAt) i = some 0 ∧ misoPin s (.result cutAt) i = some (misoByte s i))
    ∧ misoByte s 0 = 0
    ∧ (misoByte s 1).toNat = (match s.port.result.status with
        | .good => 0 | .pending => 1 | .busy => 2 | .check => 3)
    ∧ misoByte s 2 = s.port.result.code
    ∧ (s.countsInRange → (misoByte s 3).toNat = s.port.result.bytes.length)
    ∧ misoByte s (4 + i) = s.port.result.bytes.getD i 0

/-! ### Commands that read -/

/-- IDENTIFY returns the device's identity, mode and settings (R178); SENSE returns the sense record and
clears it (R177). -/
def Obligations.IdentifyAndSenseReport : Prop :=
  (∀ s : State, s.takesRequests → s.settingsLegal → ∃ bytes,
    exec (.identify [0]) s = .next (s.answering .good 0x01 bytes)
    ∧ bytes.length = 11 ∧ paramNat bytes 0 2 = 0x2150 ∧ paramNat bytes 2 1 = 1
    ∧ paramNat bytes 3 1 = (match s.mode with
        | .transparent => 0 | .observe => 1 | .enforce => 2 | .draining => 3)
    ∧ (∀ b : Fin 8, (paramByte bytes 4).getLsbD b =
        match b with
        | 0 => decide (s.link.latency = .long)
        | 1 => s.link.locked
        | 2 => s.profile.isSome
        | _ => false)
    ∧ paramNat bytes 5 2 = s.time.prescaler ∧ paramNat bytes 7 4 = s.time.tick.toNat)
  ∧ ∀ s : State, s.takesRequests → s.countsInRange → ∃ code offset : Byte,
    exec (.sense [0]) s = .next
      { s with port := { s.port with
          result := { status := .good, code := 0x02, bytes := [code, offset] }
          sense := { code := .none, offset := 0 } } }
    ∧ offset.toNat = s.port.sense.offset
    ∧ code.toNat = (match s.port.sense.code with
        | .none => 0 | .invalidCommand => 1 | .badLength => 2 | .reservedSet => 3 | .outOfRange => 4
        | .wrongMode => 5 | .noProfile => 6 | .locked => 7 | .logEmpty => 8 | .indexRange => 9)

/-- READ_QUEUE (R51, 11.6): refusals in order, the 25 bytes, the peak-clear option. -/
def Obligations.ReadQueueReportsTheRecord : Prop :=
  ∀ (s : State) (a b c : Byte), s.takesRequests → s.countsInRange →
    (lowestReserved readQueueReserved [a, b, c] 0 →
      exec (.readQueue [3, a, b, c]) s = .next (s.refusing 0x30 .reservedSet 0))
    ∧ (lowestReserved readQueueReserved [a, b, c] 2 →
      exec (.readQueue [3, a, b, c]) s = .next (s.refusing 0x30 .reservedSet 2))
    ∧ (noneReserved readQueueReserved [a, b, c] → 512 ≤ a.toNat * 256 + b.toNat →
      exec (.readQueue [3, a, b, c]) s = .next (s.refusing 0x30 .indexRange 0))
    ∧ ∀ q : QueueId, noneReserved readQueueReserved [a, b, c] → q.val = a.toNat * 256 + b.toNat →
      ∃ bytes, bytes.length = 25
        ∧ exec (.readQueue [3, a, b, c]) s = .next
            ((if c = 1 then s.setQueue q { s.queue q with peak := (s.queue q).estimate }
              else s).answering .good 0x30 bytes)
        ∧ paramNat bytes 0 2 = q.val ∧ paramNat bytes 2 1 = (s.classNumber q).val
        ∧ (s.total q ≤ 8192 → paramNat bytes 3 2 = s.total q)
        ∧ paramNat bytes 5 4 = (s.queue q).estimate ∧ paramNat bytes 9 4 = (s.queue q).peak
        ∧ paramNat bytes 13 4 = (s.queue q).marks
        ∧ paramNat bytes 17 4 = (s.queue q).lastActivity.toNat
        ∧ paramNat bytes 21 4 = s.time.tick.toNat

/-- READ_GROUP and READ_FLOW (R78, R107, 11.6): the index test, then the record field by field. Neither
read changes anything, but that a read of a group without a key takes a fresh free value (log 10). -/
def Obligations.GroupAndFlowReadsReport : Prop :=
  (∀ (s : State) (a : Byte), s.takesRequests →
      (128 ≤ a.toNat → exec (.readGroup [1, a]) s = .next (s.refusing 0x31 .indexRange 0))
      ∧ ∀ g : GroupId, g.val = a.toNat → ∃ bytes, showsGroup bytes s g
        ∧ exec (.readGroup [1, a]) s = .next
            ((if (s.group g).key = none then { s with draws := s.draws + 1 } else s).answering
              .good 0x31 bytes))
  ∧ (∀ (s : State) (a b : Byte), s.takesRequests →
      (8192 ≤ a.toNat * 256 + b.toNat →
        exec (.readFlow [2, a, b]) s = .next (s.refusing 0x32 .indexRange 0))
      ∧ ∀ i : FlowId, i.val = a.toNat * 256 + b.toNat → ∃ bytes, showsFlow bytes s i
        ∧ exec (.readFlow [2, a, b]) s = .next (s.answering .good 0x32 bytes))

/-- FIND_FLOW finds every record in use by its key, with its endpoints in either order, and nothing else;
it changes nothing (R79). Its refusals come in the order of 11.6 note 3. -/
def Obligations.FindFlowFindsByKey : Prop :=
  (∀ (s : State) (v : IpVersion) (a b : Endpoint), s.takesRequests → s.flowsPlaced →
      a.fits v → b.fits v →
      (∀ i, (s.flow i).state ≠ .free →
        ((s.flow i).key = some { version := v, first := a, second := b }
          ∨ (s.flow i).key = some { version := v, first := b, second := a }) →
        ∃ bytes, showsFlow bytes s i
          ∧ exec (.findFlow (BitVec.ofNat 8 (5 + 2 * addressBytes v) :: findBytes v a b)) s
              = .next (s.answering .good 0x33 (1 :: bytes)))
      ∧ ((∀ i, (s.flow i).state ≠ .free →
            (s.flow i).key ≠ some { version := v, first := a, second := b }
            ∧ (s.flow i).key ≠ some { version := v, first := b, second := a }) →
          exec (.findFlow (BitVec.ofNat 8 (5 + 2 * addressBytes v) :: findBytes v a b)) s
            = .next (s.answering .good 0x33 [0])))
  ∧ (∀ (s : State) (body : List Byte), s.takesRequests →
      ((∀ n, 1 ≤ n → n ≤ 60 → misframed n body) →
        exec (.findFlow body) s = .next (s.refusing 0x33 .badLength 255))
      ∧ ∀ (n : Nat) (first : Byte) (ps : List Byte), n ≤ 60 → framesExactly n body (first :: ps) →
        (first &&& 0xF0 ≠ 0 → exec (.findFlow body) s = .next (s.refusing 0x33 .reservedSet 0))
        ∧ (first &&& 0xF0 = 0 → first ≠ 4 → first ≠ 6 →
            exec (.findFlow body) s = .next (s.refusing 0x33 .outOfRange 0))
        ∧ ((first = 4 ∧ n ≠ 13) ∨ (first = 6 ∧ n ≠ 37) →
            exec (.findFlow body) s = .next (s.refusing 0x33 .badLength 255)))

/-- The log takes an offer in the four steps of R164; LOG_PEEK and LOG_POP read the oldest entry, and
LOG_POP removes it (R166, 10.2). -/
def Obligations.LogKeepsItsOrder : Prop :=
  (∀ (s : State) (e : LogEntry),
    let disabled := s.log.kindMask.getLsbD (match e.kind with
      | .onset => 0 | .settle => 1 | .resume => 2 | .ramp => 3 | .ended => 4 | .collapse => 5) = false
    (s.mode = .transparent ∨ disabled → offer e s = s)
    ∧ (s.mode ≠ .transparent → ¬ disabled → 256 ≤ s.log.entries.length → ∃ counters,
        (∀ c, tableGet 0 counters c
          = if c = Counter.logDiscard then min (s.counter c + 1) 4294967295 else s.counter c)
        ∧ offer e s = { s with counters := counters, alerts := { s.alerts with logOverflow := true } })
    ∧ (s.mode ≠ .transparent → ¬ disabled → s.log.entries.length < 256 →
        offer e s = { s with log := { s.log with entries := s.log.entries ++ [e] } }))
  ∧ ∀ s : State, s.takesRequests →
    (s.log.entries = [] →
      exec (.logPeek [0]) s = .next (s.refusing 0x40 .logEmpty 0)
      ∧ exec (.logPop [0]) s = .next (s.refusing 0x41 .logEmpty 0))
    ∧ ∀ oldest rest, s.log.entries = oldest :: rest → ∃ bytes, showsEntry bytes oldest
      ∧ exec (.logPeek [0]) s = .next (s.answering .good 0x40 bytes)
      ∧ exec (.logPop [0]) s = .next
          (State.answering { s with log := { s.log with entries := rest } } .good 0x41 bytes)

/-- COUNTERS_READ (R172): the tests in order, the values in ascending number, the clear option. -/
def Obligations.CountersReadAndClear : Prop :=
  ∀ (s : State) (first count option : Byte), s.takesRequests → s.countsInRange →
    (option &&& 0xFE ≠ 0 →
      exec (.countersRead [3, first, count, option]) s = .next (s.refusing 0x42 .reservedSet 2))
    ∧ (option &&& 0xFE = 0 → count = 0 ∨ 16 < count.toNat →
      exec (.countersRead [3, first, count, option]) s = .next (s.refusing 0x42 .outOfRange 1))
    ∧ (option &&& 0xFE = 0 → 1 ≤ count.toNat → count.toNat ≤ 16 → 25 < first.toNat + count.toNat →
      exec (.countersRead [3, first, count, option]) s = .next (s.refusing 0x42 .indexRange 0))
    ∧ (option &&& 0xFE = 0 → 1 ≤ count.toNat → count.toNat ≤ 16 → first.toNat + count.toNat ≤ 25 →
      ∃ bytes counters, bytes.length = 4 * count.toNat
        ∧ exec (.countersRead [3, first, count, option]) s = .next
            (State.answering { s with counters := counters } .good 0x42 bytes)
        ∧ (∀ k (c : CounterId), k < count.toNat → c.val = first.toNat + k →
            paramNat bytes (4 * k) 4 = s.counter c)
        ∧ ∀ c : CounterId, tableGet 0 counters c =
            if option = 1 ∧ first.toNat ≤ c.val ∧ c.val < first.toNat + count.toNat then 0
            else s.counter c)

/-- CLEAR_ALERT (R170) and what ALERT_N then shows (R169). -/
def Obligations.ClearAlertClearsNamedFlags : Prop :=
  ∀ (s : State) (named : Byte), s.takesRequests → s.countsInRange →
    (named &&& 0xC1 ≠ 0 →
      exec (.clearAlert [1, named]) s = .next (s.refusing 0x43 .reservedSet 0))
    ∧ (named &&& 0xC1 = 0 → ∃ (before after : Byte) (t : State),
      exec (.clearAlert [1, named]) s = .next
        (t.answering .good 0x43 ([before, after] ++ toBytes 2 s.log.entries.length))
      ∧ t = { s with alerts := { s.alerts with
          logOverflow := s.alerts.logOverflow && !named.getLsbD 1
          onset := s.alerts.onset && !named.getLsbD 2
          flowFull := s.alerts.flowFull && !named.getLsbD 3
          groupFull := s.alerts.groupFull && !named.getLsbD 4
          linkCheck := s.alerts.linkCheck && !named.getLsbD 5 } }
      ∧ (∀ b : Fin 8, before.getLsbD b =
          match b with
          | 0 => decide (s.log.level ≤ s.log.entries.length)
          | 1 => s.alerts.logOverflow
          | 2 => s.alerts.onset
          | 3 => s.alerts.flowFull
          | 4 => s.alerts.groupFull
          | 5 => s.alerts.linkCheck
          | _ => false)
      ∧ (∀ b : Fin 8, after.getLsbD b = (before.getLsbD b && !named.getLsbD b))
      ∧ (t.alertLow = true ↔ ∃ b : Fin 6, after.getLsbD b = true ∧ s.alerts.mask.getLsbD b = true))

/-! ### Commands that write settings -/

/-- SET_LATENCY (R5): reserved bits, then the table of lock flag and parameter. -/
def Obligations.SetLatencyLocksTheSetting : Prop :=
  ∀ (s : State) (b : Byte), s.takesRequests →
    (b &&& 0xFE ≠ 0 → exec (.setLatency [1, b]) s = .next (s.refusing 0x10 .reservedSet 0))
    ∧ (b &&& 0xFE = 0 → s.link.locked = true →
        exec (.setLatency [1, b]) s = .next (s.refusing 0x10 .locked 0))
    ∧ (s.link.locked = false →
        exec (.setLatency [1, 0]) s = .next
          (State.answering { s with link := { s.link with latency := .short, locked := true } }
            .good 0x10 [])
        ∧ exec (.setLatency [1, 1]) s = .next
          (State.answering { s with link := { s.link with latency := .long, locked := true } }
            .good 0x10 []))

/-- LOAD_PROFILE (R19, R20): the tests of mode, length, reserved bits of 2.2 and limits in their order,
each refusal at its offset. An accepted one installs the profile that its 42 bytes spell, every field at
once, and sets every ELIGIBLE entry of the outstanding read table to INELIGIBLE. That the framing test of R173
stands with the length test, after the mode test, is log 8. -/
def Obligations.LoadProfileInstallsWhatBytesSpell : Prop :=
  ∀ s : State, s.takesRequests →
    (∀ body, s.mode ≠ .transparent → exec (.loadProfile body) s = .next (s.refusing 0x11 .wrongMode 0))
    ∧ (∀ body, s.mode = .transparent → misframed 42 body →
        exec (.loadProfile body) s = .next (s.refusing 0x11 .badLength 255))
    ∧ (∀ body ps o, s.mode = .transparent → framesExactly 42 body ps →
        lowestReserved
          [(1, 0xC0), (2, 0xF8), (3, if (paramByte ps 4).getLsbD 7 then 0xC0 else 0xFF),
           (4, if (paramByte ps 4).getLsbD 7 then 0x78 else 0x7F), (5, 0xC0), (6, 0x08), (7, 0xC0),
           (8, 0xFE), (10, 0x70), (14, 0xF0), (18, 0x70), (22, 0xF0), (26, 0x70), (30, 0xF0),
           (34, 0x70), (38, 0xF0)] ps o →
        exec (.loadProfile body) s = .next (s.refusing 0x11 .reservedSet o))
    ∧ (∀ p o, s.mode = .transparent → p.encodable → lowestBreak p.breaks o →
        exec (.loadProfile (42 :: profileBytes p)) s = .next (s.refusing 0x11 .outOfRange o))
    ∧ ∀ p, s.mode = .transparent → p.legal →
      ∃ entries, exec (.loadProfile (42 :: profileBytes p)) s = .next
          (State.answering { s with profile := some p
                                    link := { s.link with outstanding := entries } } .good 0x11 [])
        ∧ ∀ tag, tableGet .empty entries tag = if s.entry tag = .empty then .empty else .ineligible

/-- SET_CLASS (R41): BUSY in DRAINING, then length, the reserved bits of 11.6, the class number and the
ranges in their order, each refusal at its offset. An accepted one writes the record that its 35 bytes
spell, every field at once, and no other class. -/
def Obligations.SetClassWritesWhatBytesSpell : Prop :=
  ∀ s : State, s.takesRequests →
    let reserved : List (Nat × Byte) :=
      [(12, 0xC0), (16, 0xC0), (20, 0xFF), (21, 0xF0), (24, 0x80), (29, 0x7F), (34, 0x7C)]
    (∀ body, s.mode = .draining → exec (.setClass body) s = .next (s.answering .busy 0x12 []))
    ∧ (∀ body, s.mode ≠ .draining → misframed 35 body →
        exec (.setClass body) s = .next (s.refusing 0x12 .badLength 255))
    ∧ (∀ body ps o, s.mode ≠ .draining → framesExactly 35 body ps → lowestReserved reserved ps o →
        exec (.setClass body) s = .next (s.refusing 0x12 .reservedSet o))
    ∧ (∀ body ps, s.mode ≠ .draining → framesExactly 35 body ps → noneReserved reserved ps →
        8 ≤ (paramByte ps 0).toNat → exec (.setClass body) s = .next (s.refusing 0x12 .indexRange 0))
    ∧ (∀ c r o, s.mode ≠ .draining → r.encodable → lowestBreak r.breaks o →
        exec (.setClass (35 :: classBytes c r)) s = .next (s.refusing 0x12 .outOfRange o))
    ∧ ∀ c r, s.mode ≠ .draining → r.legal →
      ∃ classes, exec (.setClass (35 :: classBytes c r)) s = .next
          (State.answering { s with depths := { s.depths with classes := classes } } .good 0x12 [])
        ∧ ∀ c', tableGet classReset classes c' = if c' = c then r else s.classRecord c'

/-- SET_QUEUE_CLASS (R39): the table of outcomes from the top row down, the length before the reserved
bits (R176); the queue's record is not touched. -/
def Obligations.SetQueueClassFollowsItsTable : Prop :=
  ∀ (s : State) (body : List Byte), s.takesRequests →
    (s.mode = .draining → exec (.setQueueClass body) s = .next (s.answering .busy 0x13 []))
    ∧ (s.mode ≠ .draining → misframed 3 body →
        exec (.setQueueClass body) s = .next (s.refusing 0x13 .badLength 255))
    ∧ ∀ a b c : Byte, s.mode ≠ .draining → body = [3, a, b, c] →
      (a &&& 0xFC ≠ 0 → exec (.setQueueClass body) s = .next (s.refusing 0x13 .reservedSet 0))
      ∧ (a &&& 0xFC = 0 → c &&& 0xF0 ≠ 0 →
          exec (.setQueueClass body) s = .next (s.refusing 0x13 .reservedSet 2))
      ∧ (a &&& 0xFC = 0 → c &&& 0xF0 = 0 → 512 ≤ a.toNat * 256 + b.toNat →
          exec (.setQueueClass body) s = .next (s.refusing 0x13 .indexRange 0))
      ∧ (a.toNat * 256 + b.toNat < 512 → c &&& 0xF0 = 0 → 8 ≤ c.toNat →
          exec (.setQueueClass body) s = .next (s.refusing 0x13 .outOfRange 2))
      ∧ ∀ (q : QueueId) (k : ClassId), q.val = a.toNat * 256 + b.toNat → k.val = c.toNat →
          ∃ map, exec (.setQueueClass body) s = .next
              (State.answering { s with depths := { s.depths with classOf := map } } .good 0x13 [])
            ∧ ∀ q', tableGet 0 map q' = if q' = q then k else s.classNumber q'

/-- SET_RAMP (R143): the seven tests in their order. A sequence is in use while a group in RAMP maps to a
class that names it (R144). An accepted request replaces the sequence whole by the one that its bytes
spell (11.6). -/
def Obligations.SetRampWritesWhatBytesSpell : Prop :=
  ∀ s : State, s.takesRequests →
    (∀ body, (∀ n, 2 ≤ n → n ≤ 60 → misframed n body) →
      exec (.setRamp body) s = .next (s.refusing 0x14 .badLength 255))
    ∧ (∀ (n : Nat) (body : List Byte) (number count : Byte) (rest : List Byte), n ≤ 60 →
      framesExactly n body (number :: count :: rest) →
      (4 ≤ number.toNat → exec (.setRamp body) s = .next (s.refusing 0x14 .indexRange 0))
      ∧ ∀ r : RampId, r.val = number.toNat →
        ((∃ g key, (s.group g).state = .ramp ∧ (s.group g).key = some key
            ∧ (s.classRecord (s.classNumber key.queue)).ramp = r) →
          exec (.setRamp body) s = .next (s.answering .busy 0x14 []))
        ∧ (rampInUse s r = false →
          (16 < count.toNat → exec (.setRamp body) s = .next (s.refusing 0x14 .outOfRange 1))
          ∧ (count.toNat ≤ 16 → n ≠ 2 + 2 * count.toNat + (3 * count.toNat + 1) / 2 →
              exec (.setRamp body) s = .next (s.refusing 0x14 .badLength 255))
          ∧ (count.toNat ≤ 16 → n = 2 + 2 * count.toNat + (3 * count.toNat + 1) / 2 →
              count.toNat % 2 = 1 → (rest.getLast?.getD 0) &&& 0x0F ≠ 0 →
              exec (.setRamp body) s = .next (s.refusing 0x14 .reservedSet (n - 1)))))
    ∧ ∀ (r : RampId) (entries : List RampEntry), rampInUse s r = false →
      entries.length ≤ 16 → (∀ e ∈ entries, e.duration ≤ 65535 ∧ e.multiplier ≤ 4095) →
      let body := BitVec.ofNat 8 (rampLength entries.length) :: sequenceBytes r entries
      (rampLegal entries → ∃ ramps, exec (.setRamp body) s = .next
          (State.answering { s with time := { s.time with ramps := ramps } } .good 0x14 [])
        ∧ ∀ r', tableGet [] ramps r' = if r' = r then entries else s.ramp r')
      ∧ (∀ i (h : i < entries.length), entries[i].duration = 0 →
          (∀ j (hj : j < i), 0 < entries[j].duration) →
          exec (.setRamp body) s = .next (s.refusing 0x14 .outOfRange (2 + 2 * i)))
      ∧ (∀ i (h : i < entries.length), entries[i].multiplier = 0 → (∀ e ∈ entries, 0 < e.duration) →
          (∀ j (hj : j < i), 0 < entries[j].multiplier) →
          exec (.setRamp body) s = .next
            (s.refusing 0x14 .outOfRange (2 + 2 * entries.length + 3 * i / 2)))

/-- SET_TICK (R139): the table of outcomes from the top row down. An accepted one restarts the count of
REFCLK periods, so the next tick comes one new prescaler later; the tick counter does not jump. -/
def Obligations.SetTickRestartsTheCount : Prop :=
  ∀ (s : State) (a b : Byte), s.takesRequests →
    (s.mode ≠ .transparent → exec (.setTick [2, a, b]) s = .next (s.answering .busy 0x15 []))
    ∧ (s.mode = .transparent → a = 0 → b = 0 →
        exec (.setTick [2, a, b]) s = .next (s.refusing 0x15 .outOfRange 0))
    ∧ (s.mode = .transparent → ¬ (a = 0 ∧ b = 0) →
        exec (.setTick [2, a, b]) s = .next
          (State.answering { s with time := { s.time with
              prescaler := a.toNat * 256 + b.toNat, refclkCount := 0 } } .good 0x15 [])
        ∧ ∀ t u, exec (.setTick [2, a, b]) s = .next t → exec .tick t = .next u →
            u.time.tick = s.time.tick + 1
            ∧ u.time.refclk = s.time.refclk + (a.toNat * 256 + b.toNat))

/-- SET_TIMERS: the five tests of R179 in their order, the seed test of R56 last, and all six settings
replaced at once by what the bytes spell. That the framing test of R173 stands with the length test, after the
mode test, is log 8. -/
def Obligations.SetTimersReplacesAllSix : Prop :=
  ∀ (s : State) (body : List Byte), s.takesRequests →
    (s.mode = .draining → exec (.setTimers body) s = .next (s.answering .busy 0x16 []))
    ∧ (s.mode ≠ .draining → misframed 20 body →
        exec (.setTimers body) s = .next (s.refusing 0x16 .badLength 255))
    ∧ (∀ ps o, s.mode ≠ .draining → framesExactly 20 body ps → lowestReserved timersReserved ps o →
        exec (.setTimers body) s = .next (s.refusing 0x16 .reservedSet o))
    ∧ ∀ f : TimersField, s.mode ≠ .draining → body = 20 :: timersBytes f →
      f.idle ≤ timerMax → f.handshake ≤ timerMax → f.sweep ≤ 65535 → f.linger ≤ timerMax →
      f.quiet ≤ timerMax →
      (f.idle = 0 → exec (.setTimers body) s = .next (s.refusing 0x16 .outOfRange 0))
      ∧ (f.idle ≠ 0 → f.handshake = 0 →
          exec (.setTimers body) s = .next (s.refusing 0x16 .outOfRange 4))
      ∧ (f.idle ≠ 0 → f.handshake ≠ 0 → f.sweep < 1024 →
          exec (.setTimers body) s = .next (s.refusing 0x16 .outOfRange 8))
      ∧ (f.idle ≠ 0 → f.handshake ≠ 0 → 1024 ≤ f.sweep → f.linger = 0 →
          exec (.setTimers body) s = .next (s.refusing 0x16 .outOfRange 10))
      ∧ (f.legal → f.seed ≠ s.ft.seed → (∃ i, (s.flow i).state ≠ .free) →
          exec (.setTimers body) s = .next (s.refusing 0x16 .wrongMode 18))
      ∧ (f.legal → (f.seed = s.ft.seed ∨ ∀ i, (s.flow i).state = .free) →
          exec (.setTimers body) s = .next
            (State.answering
              { s with depths := { s.depths with quietTime := f.quiet }
                       ft := { s.ft with idleTime := f.idle, handshakeTime := f.handshake
                                         sweepPeriod := f.sweep, seed := f.seed }
                       gc := { s.gc with lingerTime := f.linger } } .good 0x16 []))

/-- SET_ALERT (R167): reserved bits, the log level, then all three settings at once; entries already held
are kept. -/
def Obligations.SetAlertReplacesAllThree : Prop :=
  ∀ (s : State) (m a b k : Byte), s.takesRequests →
    (∀ o, lowestReserved alertReserved [m, a, b, k] o →
      exec (.setAlert [4, m, a, b, k]) s = .next (s.refusing 0x17 .reservedSet o))
    ∧ (noneReserved alertReserved [m, a, b, k] →
        a.toNat * 256 + b.toNat = 0 ∨ 256 < a.toNat * 256 + b.toNat →
        exec (.setAlert [4, m, a, b, k]) s = .next (s.refusing 0x17 .outOfRange 1))
    ∧ (noneReserved alertReserved [m, a, b, k] →
        1 ≤ a.toNat * 256 + b.toNat → a.toNat * 256 + b.toNat ≤ 256 →
        ∃ mask kinds : BitVec 6,
          (∀ i : Fin 6, mask.getLsbD i = m.getLsbD i ∧ kinds.getLsbD i = k.getLsbD i)
          ∧ exec (.setAlert [4, m, a, b, k]) s = .next
            (State.answering
              { s with alerts := { s.alerts with mask := mask }
                       log := { s.log with level := a.toNat * 256 + b.toNat, kindMask := kinds } }
              .good 0x17 []))

/-! ### Mode commands -/

/-- START_OBSERVE and ENFORCE: the tables of outcomes (R153, R154). An accepted START_OBSERVE begins a
sweep pass within the same event (R71); neither changes anything else. -/
def Obligations.ObserveAndEnforceFollowTheirTables : Prop :=
  (∀ s : State, s.takesRequests →
      (s.mode = .draining → exec (.startObserve [0]) s = .next (s.answering .busy 0x20 []))
      ∧ (s.mode = .observe ∨ s.mode = .enforce →
          exec (.startObserve [0]) s = .next (s.refusing 0x20 .wrongMode 0))
      ∧ (s.mode = .transparent → (∀ p, s.profile = some p → ∀ r ∈ p.ranges, r.enabled = false) →
          exec (.startObserve [0]) s = .next (s.refusing 0x20 .noProfile 0))
      ∧ (s.mode = .transparent → (∃ p, s.profile = some p ∧ ∃ r ∈ p.ranges, r.enabled = true) →
          exec (.startObserve [0]) s = .next
            (State.answering
              { s with mode := .observe
                       ft := { s.ft with
                         sweep := some (SweepPass.mk s.time.tick s.ft.sweepPeriod 0) } } .good 0x20 [])))
  ∧ (∀ s : State, s.takesRequests →
      (s.mode = .draining → exec (.enforce [0]) s = .next (s.answering .busy 0x21 []))
      ∧ (s.mode = .transparent → exec (.enforce [0]) s = .next (s.refusing 0x21 .wrongMode 0))
      ∧ (s.mode = .observe ∨ s.mode = .enforce →
          exec (.enforce [0]) s = .next (State.answering { s with mode := .enforce } .good 0x21 [])))

/-- RELEASE (R155): a reserved bit is refused, then both kinds by the mode; GRACEFUL is BUSY in DRAINING. An
accepted graceful release (R103, R156): the mode is DRAINING while some episode remains, else
OBSERVE; each ACTIVE or SETTLE group whose sequence has an entry enters RAMP at entry 0, a group that
steps keeps its position (where its sequence is now empty or shorter, log 17), and no group stays in ACTIVE or
SETTLE while the part drains. One whose sequence has no entry, or that holds, ends at once: it goes to WATCH, and
its members leave the total. Each group offers its RAMP entry, then its END entry, in ascending index (R92, R96,
R100). When no episode is left the drain ends within the event, and each WATCH group that meets the onset
condition opens an episode, its ONSET entry after all of those (R104, R158; within the event, log 9). -/
def Obligations.GracefulReleaseDrains : Prop :=
  (∀ s : State, s.takesRequests →
    (∀ b : Byte, b &&& 0xFE ≠ 0 →
      exec (.releaseGraceful [1, b]) s = .next (s.refusing 0x22 .reservedSet 0)
      ∧ exec (.releaseAbrupt [1, b]) s = .next (s.refusing 0x22 .reservedSet 0))
    ∧ (s.mode = .transparent ∨ s.mode = .observe →
      exec (.releaseGraceful [1, 0]) s = .next (s.refusing 0x22 .wrongMode 0)
      ∧ exec (.releaseAbrupt [1, 1]) s = .next (s.refusing 0x22 .wrongMode 0))
    ∧ (s.mode = .draining → exec (.releaseGraceful [1, 0]) s = .next (s.answering .busy 0x22 [])))
  ∧ ∀ s : State, s.takesRequests → s.settingsLegal → s.mode = .enforce → ∃ t : State,
    exec (.releaseGraceful [1, 0]) s = .next (t.answering .good 0x22 [])
    ∧ (t.mode = .draining ∧ t.anyEpisode = true ∨ t.mode = .observe)
    ∧ (s.anyEpisode = false → t.mode = .observe)
    ∧ (∀ g, ((s.group g).state = .active ∨ (s.group g).state = .settle) →
        (s.ramp (groupClass s g).ramp) ≠ [] →
        t.mode = .draining
        ∧ t.group g = { s.group g with state := .ramp, deadline := none, rampEntry := some 0
                                       rampStart := some s.time.tick })
    ∧ (∀ g start, (s.group g).state = .ramp → (s.group g).rampStart = some start →
        t.mode = .draining ∧ t.group g = s.group g)
    ∧ (t.mode = .draining → ∀ g, (t.group g).state ≠ .active ∧ (t.group g).state ≠ .settle)
    ∧ t.link = s.link ∧ t.profile = s.profile ∧ t.depths = s.depths ∧ t.ft = s.ft ∧ t.time = s.time
    ∧ t.port = s.port
    ∧ (t.mode = .draining ↔ ∃ g, (s.group g).state.isEpisode = true ∧ ¬ s.endsAtRelease g)
    ∧ (∀ g, s.endsAtRelease g → ¬ s.opensAtReturn g → t.group g =
        { s.group g with state := .watch, onsetAt := none, peak := none, deadline := none
                         rampEntry := none, rampStart := none })
    ∧ (∀ g key, (s.group g).key = some key → s.opensAtReturn g →
        let opened := { s.group g with
          state := .active, onsetAt := some s.time.tick, peak := some (s.queue key.queue).estimate }
        t.group g = if s.endsAtRelease g then
          { opened with deadline := none, rampEntry := none, rampStart := none } else opened)
    ∧ (∀ g, (s.group g).state.isEpisode = false → ¬ s.opensAtReturn g → t.group g = s.group g)
    ∧ s.endsAndOpens t (s.entriesOf (fun g key =>
          (if (s.group g).state = .active ∨ (s.group g).state = .settle then
            [s.moveEntry g key .ramp (s.queue key.queue).estimate] else [])
          ++ if s.endsAtRelease g then [s.endEntry g key] else []))
        s.endsAtRelease s.opensAtReturn

/-- An accepted abrupt release (R105, R159): every episode ends, every active member total is 0, the mode
is OBSERVE, no group is tested for onset, and nothing else of the tables changes. Each episode's END entry, of
cause RELEASE with its peak and duration, is offered in ascending group index (R92, R96). -/
def Obligations.AbruptReleaseEndsEveryEpisode : Prop :=
  ∀ s : State, s.takesRequests → s.mode = .enforce ∨ s.mode = .draining → ∃ t : State,
    exec (.releaseAbrupt [1, 1]) s = .next (t.answering .good 0x22 [])
    ∧ t.mode = .observe ∧ (∀ q, t.total q = 0)
    ∧ (∀ g, t.group g = if (s.group g).state.isEpisode = true then
          { s.group g with state := .watch, onsetAt := none, peak := none, deadline := none
                           rampEntry := none, rampStart := none }
        else s.group g)
    ∧ t.link = s.link ∧ t.profile = s.profile ∧ t.depths = s.depths ∧ t.ft = s.ft ∧ t.time = s.time
    ∧ t.gc.lingerTime = s.gc.lingerTime ∧ t.port = s.port
    ∧ (let offered := offerAll (s.entriesOf (fun g key =>
          if (s.group g).state.isEpisode = true then [{ s.endEntry g key with cause := .release }] else [])) s
      t.log = offered.log ∧ t.counters = offered.counters ∧ t.alerts = offered.alerts)

/-- STOP and SOFT_RESET are accepted in every mode and stay PENDING; SOFT_RESET also takes its own values
at its receipt (R160, R180). Their clears are commands of their own. -/
def Obligations.StopAndSoftResetBegin : Prop :=
  ∀ s : State, s.takesRequests →
    exec (.stop [0]) s = .next
      { s with mode := .transparent
               ft := { s.ft with sweep := none }
               port := { s.port with result := { status := .pending, code := 0x23, bytes := [] }
                                     command := some (.clears false false false) } }
    ∧ exec (.softReset [0]) s = .next
      { s with mode := .transparent
               ft := { s.ft with sweep := none }
               counters := []
               log := { entries := [], kindMask := 63, level := 192 }
               alerts := { logOverflow := false, onset := false, flowFull := false
                           groupFull := false, linkCheck := false, mask := 0 }
               port := { s.port with result := { status := .pending, code := 0x03, bytes := [] }
                                     sense := { code := .none, offset := 0 }
                                     command := some (.clears true false false) } }

/-- The clears of a pending STOP or SOFT_RESET: every queue record is 0 with the tick count of the clear
(R53); every flow record is FREE with its last-seen as it stood, every group record FREE and every total 0,
in one step (R77, R106); the result becomes GOOD when both are made (R160, R175). That the clears and the
walk step change nothing when no such command is pending, or the clear is already made, is the model's choice
(log 3). -/
def Obligations.PendingClearsRun : Prop :=
  (∀ (s : State) (soft flows : Bool), s.running = true →
      s.port.command = some (.clears soft false flows) → ∃ queues,
      (∀ q, tableGet queueReset queues q
        = { estimate := 0, peak := 0, marks := 0, lastActivity := s.time.tick })
      ∧ exec .queueTableClear s = .next
        { s with depths := { s.depths with queues := queues }
                 port := if flows then
                     { s.port with
                        result := { status := .good, code := if soft then 0x03 else 0x23, bytes := [] }
                        command := none }
                   else { s.port with command := some (.clears soft true flows) } })
  ∧ (∀ (s : State) (soft queues : Bool), s.running = true →
      s.port.command = some (.clears soft queues false) → ∃ flows,
      (∀ i, tableGet flowReset flows i = freeFlow (s.flow i).lastSeen)
      ∧ exec .flowGroupClear s = .next
        { s with ft := { s.ft with flows := flows }
                 gc := { s.gc with groups := [], totals := [] }
                 port := if queues then
                     { s.port with
                        result := { status := .good, code := if soft then 0x03 else 0x23, bytes := [] }
                        command := none }
                   else { s.port with command := some (.clears soft queues true) } })
  ∧ (∀ s : State,
      ((∀ soft flows, s.port.command ≠ some (.clears soft false flows)) →
        exec .queueTableClear s = .next s)
      ∧ ((∀ soft queues, s.port.command ≠ some (.clears soft queues false)) →
        exec .flowGroupClear s = .next s)
      ∧ ((∀ i, s.port.command ≠ some (.walk i)) → exec .clearFlowsWalkStep s = .next s))

/-- CLEAR_FLOWS (R75): the table of outcomes; the walk begins at record 0. One step of the walk takes one
REFCLK period; the record it reaches leaves its group, by the leave of `MembersJoinAndLeave`, and is FREE with its
last-seen as it stood, and nothing else of the tables, the log, the counters and the alert flags changes (R68, R88);
after record 8,191 the result is GOOD (R76). Once the prescaler's periods have passed no step is taken before the
tick (R138; that such a command changes nothing is log 3). -/
def Obligations.ClearFlowsWalksTheTable : Prop :=
  (∀ s : State, s.takesRequests →
    (s.mode = .draining → exec (.clearFlows [0]) s = .next (s.answering .busy 0x34 []))
    ∧ (s.mode = .transparent ∨ s.mode = .enforce →
        exec (.clearFlows [0]) s = .next (s.refusing 0x34 .wrongMode 0))
    ∧ (s.mode = .observe → exec (.clearFlows [0]) s = .next
        { s with port := { s.port with result := { status := .pending, code := 0x34, bytes := [] }
                                       command := some (.walk 0) } }))
  ∧ (∀ s : State, s.time.prescaler ≤ s.time.refclkCount → exec .clearFlowsWalkStep s = .next s)
  ∧ ∀ (s : State) (i : FlowId), s.running = true → s.port.command = some (.walk i) →
    s.time.refclkCount < s.time.prescaler → ∃ t,
    exec .clearFlowsWalkStep s = .next t
    ∧ t.flow i = freeFlow (s.flow i).lastSeen
    ∧ (∀ j, j ≠ i → { t.flow j with prev := none, next := none }
        = { s.flow j with prev := none, next := none })
    ∧ (i.val < 8191 → ∃ j : FlowId, j.val = i.val + 1
        ∧ t.port = { s.port with command := some (.walk j) })
    ∧ (i.val = 8191 → t.port = { s.port with
        result := { status := .good, code := 0x34, bytes := [] }, command := none })
    ∧ t.time = { s.time with refclkCount := s.time.refclkCount + 1, refclk := s.time.refclk + 1 }
    ∧ t.mode = s.mode ∧ t.link = s.link ∧ t.depths = s.depths ∧ t.profile = s.profile
    ∧ t = { (leave i s).setFlow i (freeFlow (s.flow i).lastSeen) with time := t.time, port := t.port }
    ∧ ((s.flow i).group = none →
        t.gc = s.gc ∧ t.log = s.log ∧ t.counters = s.counters ∧ t.alerts = s.alerts)

/-! ### The group controller -/

/-- The onset test (R93, R94): a group opens an episode exactly when it is in WATCH with members enough
for a threshold that is on, its queue at the onset depth or more, in OBSERVE or ENFORCE; its record, its
queue's total, the counter and the flag change as R94 gives, and no other group does. -/
def Obligations.OnsetFollowsItsCondition : Prop :=
  ∀ (s : State) (g : GroupId) (key : GroupKey), (s.group g).key = some key →
    let c := s.classRecord (s.classNumber key.queue)
    let meets := (s.group g).state = .watch ∧ c.fanIn ≠ 0 ∧ c.fanIn ≤ (s.group g).count
      ∧ c.onsetDepth ≤ (s.queue key.queue).estimate ∧ (s.mode = .observe ∨ s.mode = .enforce)
    (¬ meets → testOnset g s = s)
    ∧ (meets →
      (testOnset g s).group g = { s.group g with state := .active, onsetAt := some s.time.tick
                                                 peak := some (s.queue key.queue).estimate }
      ∧ (∀ h, h ≠ g → (testOnset g s).group h = s.group h)
      ∧ (∀ q, (testOnset g s).total q
          = s.total q + if q = key.queue then (s.group g).count else 0)
      ∧ (testOnset g s).alerts.onset = true
      ∧ (testOnset g s).counter Counter.onsets = min (s.counter Counter.onsets + 1) 4294967295
      ∧ (testOnset g s).depths = s.depths ∧ (testOnset g s).ft = s.ft
      ∧ (testOnset g s).mode = s.mode ∧ (testOnset g s).time = s.time)

/-- A leave (R82, R88 to R90): the record's group and links become absent, its other fields stay; the
group loses one member, and the others keep their order; the last leave collapses an episode, or starts the
linger of a WATCH group; only a collapse is logged, with the episode's peak and duration (R92). A join finds the
record of its key (R81). A join to a group that stands in the table (R82, R85, R87): the new member stands at
the tail of the list; an episode goes on as it stands and its queue's total rises; the linger of a WATCH group is
cancelled, and its onset test, made with the new member, may open an episode (R93, R94); a group of 255 members
refuses it and sets its overflow flag. A join whose key no group holds (R86): a new WATCH record in the slot, be it
FREE or lingering, with the one member, or group_alloc_fail and GROUP_FULL. A fan-in threshold of 1, which R40
rules out, is not looked at there. -/
def Obligations.MembersJoinAndLeave : Prop :=
  (∀ (s : State) (f : FlowId), (s.flow f).group = none → leave f s = s)
  ∧ (∀ (s : State) (f : FlowId) (g : GroupId), (s.flow f).group = some g →
      (leave f s).flow f = { s.flow f with group := none, prev := none, next := none }
      ∧ (∀ h, h ≠ g → (leave f s).group h = s.group h)
      ∧ ((leave f s).group g).count = (s.group g).count - 1
      ∧ ((leave f s).group g).key = (s.group g).key
      ∧ ((s.group g).count = 1 → (s.group g).state.isEpisode = true →
          ((leave f s).group g).state = .watch ∧ ((leave f s).group g).onsetAt = none
          ∧ ((leave f s).group g).peak = none
          ∧ ((leave f s).group g).lingerStart = some s.time.tick)
      ∧ ((s.group g).count = 1 → (s.group g).state = .watch →
          ((leave f s).group g).state = .watch
          ∧ ((leave f s).group g).lingerStart = some s.time.tick)
      ∧ (2 ≤ (s.group g).count → ((leave f s).group g).state = (s.group g).state
          ∧ ((leave f s).group g).peak = (s.group g).peak)
      ∧ (∀ key q, (s.group g).key = some key → (leave f s).total q = s.total q
          - if (s.group g).state.isEpisode = true ∧ q = key.queue then 1 else 0)
      ∧ (∀ before after, s.isMemberList g (before ++ f :: after) →
          (leave f s).isMemberList g (before ++ after))
      ∧ (∀ key, (s.group g).key = some key → (leave f s).log =
          if (s.group g).count ≤ 1 ∧ (s.group g).state.isEpisode = true then
            (offer { s.endEntry g key with kind := .collapse, cause := .none, count := 0 } s).log
          else s.log))
  ∧ (∀ (s : State) (key : GroupKey) (g : GroupId), s.groupsAccounted →
      (findGroup s key = some g ↔ (s.group g).state ≠ .free ∧ (s.group g).key = some key))
  ∧ (∀ (s : State) (f : FlowId) (sender : Side) (key : GroupKey) (g : GroupId),
      (s.flow f).group = none → (s.flow f).state ≠ .free → findGroup s key = some g →
      ((join f sender key s).flow f).responder = some sender
      ∧ ((join f sender key s).flow f).joinedQueue = some key.queue
      ∧ (∀ h, h ≠ g → (join f sender key s).group h = s.group h)
      ∧ (s.membersChained → (s.group g).count < 255 → ∀ l, s.isMemberList g l →
          (join f sender key s).isMemberList g (l ++ [f])
          ∧ (join f sender key s).counter Counter.joins
              = min (s.counter Counter.joins + 1) 4294967295)
      ∧ ((s.group g).count < 255 → (s.group g).state.isEpisode = true →
          (∀ q, (join f sender key s).total q = s.total q + if q = key.queue then 1 else 0)
          ∧ ((join f sender key s).group g).state = (s.group g).state
          ∧ ((join f sender key s).group g).deadline = (s.group g).deadline
          ∧ ((join f sender key s).group g).rampEntry = (s.group g).rampEntry
          ∧ ((join f sender key s).group g).rampStart = (s.group g).rampStart
          ∧ ((join f sender key s).group g).onsetAt = (s.group g).onsetAt
          ∧ ((join f sender key s).group g).peak = (s.group g).peak)
      ∧ ((s.group g).count < 255 → (s.group g).state = .watch →
          let c := s.classRecord (s.classNumber key.queue)
          let estimate := (s.queue key.queue).estimate
          let opens := c.fanIn ≠ 0 ∧ c.fanIn ≤ (s.group g).count + 1 ∧ c.onsetDepth ≤ estimate
            ∧ (s.mode = .observe ∨ s.mode = .enforce)
          let joined := { s.group g with
            count := (s.group g).count + 1, head := some ((s.group g).head.getD f), tail := some f
            lingerStart := if (s.group g).count = 0 then none else (s.group g).lingerStart }
          (¬ opens → (join f sender key s).group g = joined
            ∧ (∀ q, (join f sender key s).total q = s.total q)
            ∧ (join f sender key s).log = s.log ∧ (join f sender key s).alerts = s.alerts)
          ∧ (opens → (join f sender key s).group g = { joined with
                state := .active, onsetAt := some s.time.tick, peak := some estimate }
            ∧ (∀ q, (join f sender key s).total q
                = s.total q + if q = key.queue then (s.group g).count + 1 else 0)
            ∧ (join f sender key s).log = (offer { s.moveEntry g key .onset estimate with
                count := (s.group g).count + 1 } s).log
            ∧ (join f sender key s).alerts.onset = true
            ∧ (join f sender key s).counter Counter.onsets
                = min (s.counter Counter.onsets + 1) 4294967295))
      ∧ (255 ≤ (s.group g).count →
          ((join f sender key s).flow f).group = none
          ∧ (join f sender key s).group g = { s.group g with overflow := true }
          ∧ (join f sender key s).counter Counter.memberOverflow
              = min (s.counter Counter.memberOverflow + 1) 4294967295))
  ∧ (∀ (s : State) (f : FlowId) (sender : Side) (key : GroupKey),
      (s.flow f).group = none → (s.flow f).state ≠ .free → findGroup s key = none →
      let asked := { s.flow f with responder := some sender, joinedQueue := some key.queue }
      let counts (counters : Table 25 Nat) (counted : CounterId) : Prop := ∀ c, tableGet 0 counters c =
        if c = counted then min (s.counter c + 1) 4294967295 else s.counter c
      (groupSlot s = none → ∃ flows counters,
        (∀ i, tableGet flowReset flows i = if i = f then asked else s.flow i)
        ∧ counts counters Counter.groupAllocFail
        ∧ join f sender key s = { s with ft := { s.ft with flows := flows }, counters := counters
                                         alerts := { s.alerts with groupFull := true } })
      ∧ ∀ g, groupSlot s = some g → (s.classRecord (s.classNumber key.queue)).fanIn ≠ 1 →
        ∃ flows groups counters,
          (∀ i, tableGet flowReset flows i =
            if i = f then { asked with group := some g, prev := none, next := none } else s.flow i)
          ∧ (∀ h, tableGet freeGroup groups h = if h = g then
              { freeGroup with state := .watch, key := some key, count := 1, head := some f, tail := some f }
            else s.group h)
          ∧ counts counters Counter.joins
          ∧ join f sender key s = { s with ft := { s.ft with flows := flows }
                                           gc := { s.gc with groups := groups }, counters := counters })

/-- Group allocation (R86): the lowest FREE record, else the lowest lingering one, else none. The choice
of a flow record in a set (R60): the lowest FREE way, else the candidate with the oldest last-seen, the
lowest of equally old ones, else none. -/
def Obligations.AllocationOrder : Prop :=
  (∀ s : State,
    (∀ g, (s.group g).state = .free → (∀ h, h < g → (s.group h).state ≠ .free) →
      groupSlot s = some g)
    ∧ ((∀ h, (s.group h).state ≠ .free) →
      (∀ g, (s.group g).state = .watch → (s.group g).count = 0 →
        (∀ h, h < g → ¬ ((s.group h).state = .watch ∧ (s.group h).count = 0)) →
        groupSlot s = some g)
      ∧ ((∀ h, ¬ ((s.group h).state = .watch ∧ (s.group h).count = 0)) → groupSlot s = none)))
  ∧ ∀ (s : State) (ways : List FlowId), ways.Pairwise (· < ·) →
    let candidate (i : FlowId) : Prop := (s.flow i).state = .closing
      ∨ s.ft.idleTime ≤ (s.time.tick - (s.flow i).lastSeen).toNat
    let age (i : FlowId) : Nat := (s.time.tick - (s.flow i).lastSeen).toNat
    (∀ i ∈ ways, (s.flow i).state = .free → (∀ j ∈ ways, j < i → (s.flow j).state ≠ .free) →
      allocationWay s ways = some i)
    ∧ ((∀ i ∈ ways, (s.flow i).state ≠ .free) →
      (∀ i ∈ ways, candidate i →
        (∀ j ∈ ways, candidate j → age j ≤ age i ∧ (j < i → age j < age i)) →
        allocationWay s ways = some i)
      ∧ ((∀ i ∈ ways, ¬ candidate i) → allocationWay s ways = none))

/-- What a write-path segment makes of the Flow Table. With no queue it asks for no join: the last-seen, the
initiator and offer of a SYN, the scales of a SYN-ACK by the five rows of R63, the states, the FIN flags, the
frees (R61 to R65, 4.2.1). With a queue a DATA segment then asks for a join, a move or a refresh (R66, R84).
Two equal endpoints count as ineligible and do nothing else (R54); a hit is the record that holds the key; a
miss creates a record with the first values of R59 in the way that R60 chooses, the evicted record having left
its group, or counts flow_alloc_fail and sets FLOW_FULL; a miss of the other kinds does nothing (R58 to R60). -/
def Obligations.SegmentsMoveTheRecord : Prop :=
  (∀ (s : State) (i : FlowId) (x : Side) (ip : IpPart) (tcp : TcpPart), (s.flow i).state ≠ .free →
    let r := s.flow i
    let after := (trackSegment i x ip tcp none s).flow i
    let now := s.time.tick
    (tcp.kind = .rst → after = freeFlow now)
    ∧ (tcp.kind = .pureAck ∨ tcp.kind = .empty → after = { r with lastSeen := now })
    ∧ (tcp.kind = .data → after
        = { r with lastSeen := now, state := if r.state = .handshake then .opened else r.state })
    ∧ (tcp.kind = .fin → r.finOf x.other = true → after = freeFlow now)
    ∧ (tcp.kind = .fin → r.finOf x.other = false →
        after = { r.setFin x with lastSeen := now, state := .closing })
    ∧ (tcp.kind = .dataFin → r.finOf x.other = true → after = freeFlow now)
    ∧ (tcp.kind = .dataFin → r.finOf x.other = false →
        after = { r.setFin x with lastSeen := now, state := .closing })
    ∧ (tcp.kind = .syn → after = { r with
        lastSeen := now, initiator := some x
        offer := match tcp.scale with | none => some .noneOffered | some v => some (.scale v) })
    ∧ (tcp.kind = .synAck →
        after.lastSeen = now ∧ after.state = .opened
        ∧ after.fin1 = (r.fin1 && decide (r.state ≠ .closing))
        ∧ after.fin2 = (r.fin2 && decide (r.state ≠ .closing))
        ∧ after.key = r.key ∧ after.initiator = r.initiator ∧ after.offer = r.offer
        ∧ after.responder = r.responder ∧ after.joinedQueue = r.joinedQueue
        ∧ after.group = r.group ∧ after.prev = r.prev ∧ after.next = r.next
        ∧ (∀ a b, r.initiator = some x.other → r.offer = some (.scale a) → tcp.scale = some b →
            after.scaleOf x.other = some a ∧ after.scaleOf x = some b)
        ∧ (∀ a, r.initiator = some x.other → r.offer = some (.scale a) → tcp.scale = none →
            after.scaleOf x.other = some 0 ∧ after.scaleOf x = some 0)
        ∧ (r.initiator = some x.other → r.offer = some .noneOffered →
            after.scaleOf x.other = some 0 ∧ after.scaleOf x = some 0)
        ∧ (r.initiator ≠ some x.other ∨ r.offer = none →
            (∀ b, tcp.scale = some b →
              after.scaleOf x.other = r.scaleOf x.other ∧ after.scaleOf x = some b)
            ∧ (tcp.scale = none →
              after.scaleOf x.other = some 0 ∧ after.scaleOf x = some 0))))
  ∧ (∀ (s : State) (i : FlowId) (x : Side) (ip : IpPart) (tcp : TcpPart) (q : QueueId),
      (s.flow i).state ≠ .free →
      let r := s.flow i
      let now := s.time.tick
      let asked := joinRequest i x { queue := q, version := ip.version, address := ip.destination }
        (s.setFlow i
          { r with lastSeen := now, state := if r.state = .handshake then .opened else r.state })
      let after := trackSegment i x ip tcp (some q) s
      (tcp.kind = .data → after = asked)
      ∧ (tcp.kind = .dataFin → r.finOf x.other = true → after.flow i = freeFlow now)
      ∧ (tcp.kind = .dataFin → r.finOf x.other = false →
          after = asked.setFlow i { (asked.flow i).setFin x with state := .closing })
      ∧ (tcp.kind ≠ .data → tcp.kind ≠ .dataFin → after = trackSegment i x ip tcp none s))
  ∧ (∀ (s : State) (i : FlowId) (x : Side) (key : GroupKey),
      ((s.flow i).group = none → joinRequest i x key s = join i x key s)
      ∧ ∀ g, (s.flow i).group = some g →
        ((s.flow i).responder ≠ some x ∨ (s.group g).key = some key → joinRequest i x key s = s)
        ∧ ((s.flow i).responder = some x → (s.group g).key ≠ some key →
            joinRequest i x key s = join i x key (leave i s)))
  ∧ ∀ (s : State) (ip : IpPart) (tcp : TcpPart) (queue : Option QueueId),
    let source : Endpoint := { address := ip.source, port := tcp.sourcePort }
    let destination : Endpoint := { address := ip.destination, port := tcp.destinationPort }
    let after := takeSegment ip tcp queue s
    (s.mode = .transparent → writeSegment ip tcp queue s = s)
    ∧ (s.mode ≠ .transparent → writeSegment ip tcp queue s = drainEnd after)
    ∧ (source = destination → after = s.bump Counter.flowIneligible)
    ∧ ∀ key x, canonicalKey ip.version source destination = some (key, x) →
      (∀ i, s.flowsPlaced → (s.flow i).state ≠ .free → (s.flow i).key = some key →
        after = trackSegment i x ip tcp queue s)
      ∧ ((∀ i ∈ keyWays s key, (s.flow i).state ≠ .free → (s.flow i).key ≠ some key) →
        (tcp.kind = .rst ∨ tcp.kind = .fin ∨ tcp.kind = .pureAck ∨ tcp.kind = .empty → after = s)
        ∧ (tcp.kind = .syn ∨ tcp.kind = .synAck ∨ tcp.kind = .data ∨ tcp.kind = .dataFin →
          (∀ i, allocationWay s (keyWays s key) = some i →
            after = trackSegment i x ip tcp queue ((leave i s).setFlow i
              { freeFlow 0 with
                state := .handshake, key := some key
                initiator := if tcp.kind = .syn then some x
                  else if tcp.kind = .synAck then some x.other else none }))
          ∧ (allocationWay s (keyWays s key) = none → ∃ counters,
              (∀ c, tableGet 0 counters c = if c = Counter.flowAllocFail then
                  min (s.counter c + 1) 4294967295 else s.counter c)
              ∧ after = { s with counters := counters, alerts := { s.alerts with flowFull := true } })))

/-- Two segments that travel in opposite directions on one connection have one key, and each knows its
sender; two equal endpoints have none (R54). A key's set is the low 11 bits of the fold of its 16-bit words
and the seed with itself shifted right by 5, so it does not depend on the order of the endpoints or on the
version; the upper words of an IPv4 address are 0; the set's four ways are records 4s to 4s + 3 (R55). -/
def Obligations.KeysHaveNoDirection : Prop :=
  (∀ (v : IpVersion) (a b : Endpoint),
    (a = b → canonicalKey v a b = none)
    ∧ (a ≠ b → ∃ key sender, canonicalKey v a b = some (key, sender)
        ∧ canonicalKey v b a = some (key, sender.other)
        ∧ key.version = v
        ∧ ((key.first = a ∧ key.second = b ∧ sender = .e1)
            ∨ (key.first = b ∧ key.second = a ∧ sender = .e2))
        ∧ (key.first.address.toNat < key.second.address.toNat
            ∨ (key.first.address = key.second.address
                ∧ key.first.port.toNat < key.second.port.toNat))))
  ∧ (∀ (seed : BitVec 16) (v w : IpVersion) (a b : Endpoint),
      setIndex seed { version := v, first := a, second := b }
        = setIndex seed { version := w, first := b, second := a })
  ∧ (let word (x : Address) (k : Nat) : BitVec 16 := (x >>> (16 * k)).setWidth 16
      let fold (x : Address) : BitVec 16 := word x 0 ^^^ word x 1 ^^^ word x 2 ^^^ word x 3
        ^^^ word x 4 ^^^ word x 5 ^^^ word x 6 ^^^ word x 7
      (∀ (seed : BitVec 16) (v : IpVersion) (a b : Endpoint),
        let f := fold a.address ^^^ a.port ^^^ fold b.address ^^^ b.port ^^^ seed
        setIndex seed { version := v, first := a, second := b } = (f ^^^ f >>> 5).toNat % 2048)
      ∧ ∀ x : Address, x.toNat < 4294967296 → fold x = word x 0 ^^^ word x 1)
  ∧ ∀ (s : State) (key : FlowKey) (i : FlowId),
      i ∈ keyWays s key ↔ i.val / 4 = setIndex s.ft.seed key

/-! ### The cell link -/

/-- The decisions at the arrival of a masked write and of a read request (R8, R9, R15, R21), and a global
counter's increment (R171). -/
def Obligations.MaskedWritesAndRequestsArrive : Prop :=
  (∀ (s : State) (index : CellIndex), s.inRange index = true ↔
    ∃ p, s.profile = some p ∧ ∃ r ∈ p.ranges, r.enabled = true ∧ r.base ≤ index.val ∧ index.val ≤ r.limit)
  ∧ (∀ (s : State) (c c' : CounterId), (s.bump c).counter c'
      = if c' = c then min (s.counter c + 1) 4294967295 else s.counter c')
  ∧ (∀ (s : State) (time : Nat) (index : CellIndex) (mask : BitVec 32) (cell : Cell),
      s.running = true →
      exec (.maskedWrite time index mask cell) s = .next
        ((if s.mode ≠ .transparent ∧ s.inRange index = true then s.bump Counter.maskedInRange
          else s).withArrival .sToM
          { transaction := .maskedWrite index mask cell, arrivedAt := time, latency := s.link.latency
            awaiting := none }))
  ∧ ∀ (s : State) (time : Nat) (index : CellIndex) (tag : Tag), s.running = true → ∃ entries,
      (∀ tag', tableGet .empty entries tag' =
        if tag' = tag then
          (if s.mode ≠ .transparent ∧ s.inRange index = true then .eligible else .ineligible)
        else s.entry tag')
      ∧ exec (.readRequest time index tag) s = .next
        (State.withArrival
          { (if s.entry tag = .empty then s else s.bump Counter.tagReuse) with
            link := { s.link with outstanding := entries } } .sToM
          { transaction := .readRequest index tag, arrivedAt := time, latency := s.link.latency
            awaiting := none })

/-- The hand-off of a full-cell write, decided at its arrival (R4, R12, R13): handed with the profile and
the mode of the arrival when its cell is clean; a check error is counted and flagged when the start-of-packet
flag reads set or cannot be read; nothing else changes. Parsing it at its arrival is its arrival and then the
parse, when no earlier cell waits (log 4). -/
def Obligations.WritesArrive : Prop :=
  ∀ (s : State) (time : Nat) (index : CellIndex) (cell : Cell), s.running = true →
    let carried (awaiting : Option Handed) : Transit :=
      { transaction := .fullWrite index cell, arrivedAt := time, latency := s.link.latency
        awaiting := awaiting }
    (s.mode = .transparent ∨ s.inRange index = false →
      exec (.fullCellWrite time index cell .later) s = .next (s.withArrival .sToM (carried none)))
    ∧ (∀ p, s.mode ≠ .transparent → s.profile = some p → s.inRange index = true →
      (cellClean cell = true → exec (.fullCellWrite time index cell .later) s = .next
          (s.withArrival .sToM (carried (some { profile := p, mode := s.mode, progress := .handed }))))
      ∧ (cellClean cell = false → byteClean cell p.sop.byte = true → cellBit cell p.sop = false →
          exec (.fullCellWrite time index cell .later) s = .next (s.withArrival .sToM (carried none)))
      ∧ (cellClean cell = false → byteClean cell p.sop.byte = false ∨ cellBit cell p.sop = true →
          exec (.fullCellWrite time index cell .later) s = .next
            (State.withArrival { (s.bump Counter.linkCheckError) with
              alerts := { s.alerts with linkCheck := true } } .sToM (carried none))))
    ∧ ∃ t, exec (.fullCellWrite time index cell .later) s = .next t
        ∧ exec (.fullCellWrite time index cell .atArrival) s
          = if s.waiting .sToM = true then .next t else exec (.handedCellParse .sToM .decision) t

/-- A read response at its arrival (R10 to R13): an EMPTY entry makes it an orphan; otherwise its entry
ends, and it is handed when the entry was ELIGIBLE, the mode is not TRANSPARENT, its memory-error flag is
clear and its cell is clean. Parsing at arrival as for a write (log 4). -/
def Obligations.ResponsesArrive : Prop :=
  ∀ (s : State) (time : Nat) (tag : Tag) (cell : Cell) (memError : Bool), s.running = true →
    let carried (awaiting : Option Handed) : Transit :=
      { transaction := .readResponse tag cell memError, arrivedAt := time, latency := s.link.latency
        awaiting := awaiting }
    (s.entry tag = .empty →
      exec (.readResponse time tag cell memError .later) s = .next
        ((s.bump Counter.orphanResponse).withArrival .mToS (carried none)))
    ∧ (s.entry tag ≠ .empty → ∃ entries,
      (∀ tag', tableGet .empty entries tag' = if tag' = tag then .empty else s.entry tag')
      ∧ (s.entry tag = .ineligible ∨ s.mode = .transparent ∨ memError = true →
          exec (.readResponse time tag cell memError .later) s = .next
            (State.withArrival { s with link := { s.link with outstanding := entries } } .mToS
              (carried none)))
      ∧ ∀ p, s.entry tag = .eligible → s.mode ≠ .transparent → memError = false →
          s.profile = some p →
        (cellClean cell = true → exec (.readResponse time tag cell memError .later) s = .next
          (State.withArrival { s with link := { s.link with outstanding := entries } } .mToS
            (carried (some { profile := p, mode := s.mode, progress := .handed }))))
        ∧ (cellClean cell = false → byteClean cell p.sop.byte = true → cellBit cell p.sop = false →
          exec (.readResponse time tag cell memError .later) s = .next
            (State.withArrival { s with link := { s.link with outstanding := entries } } .mToS
              (carried none)))
        ∧ (cellClean cell = false → byteClean cell p.sop.byte = false ∨ cellBit cell p.sop = true →
          exec (.readResponse time tag cell memError .later) s = .next
            (State.withArrival { (s.bump Counter.linkCheckError) with
              link := { s.link with outstanding := entries }
              alerts := { s.alerts with linkCheck := true } } .mToS (carried none))))
    ∧ ∃ t, exec (.readResponse time tag cell memError .later) s = .next t
        ∧ exec (.readResponse time tag cell memError .atArrival) s
          = if s.waiting .mToS = true then .next t else exec (.handedCellParse .mToS .decision) t

/-- The oldest transaction of a stream leaves at its arrival time plus the latency of the setting at its
arrival, whatever the setting is now; a handed cell that still waits is parsed first (R2, R3, R6, R14). That
leaving ends the parse is the model's choice (log 4), and so are the pins and the time they carry (log 6). A
link-level flow-control exchange passes unaltered, one added latency later (R3 note 2), and none begins to pass
while RST_N is asserted; the operation is outside the commands (log 14). -/
def Obligations.TransactionsLeaveAtTheirTime : Prop :=
  (∀ (s : State) (α : Type) (exchange : α) (time : Nat), s.passesExchange time exchange
    = if s.running = true then
        some (exchange, time + match s.link.latency with | .short => 48 | .long => 80)
      else none)
  ∧ ∀ (s : State) (d : Direction), s.running = true →
    (s.stream d = [] → exec (.transactionLeaves d) s = .next s)
    ∧ (∀ x rest, s.stream d = x :: rest → x.awaiting = none →
      let gone : Departed := { transaction := x.transaction
                               leftAt := x.arrivedAt + match x.latency with | .short => 48 | .long => 80 }
      exec (.transactionLeaves d) s = .next
        (match d with
          | .sToM => { s with link := { s.link with toMemory := rest, memoryPins := some gone } }
          | .mToS => { s with link := { s.link with toSwitch := rest, switchPins := some gone } }))
    ∧ ∀ x rest, s.stream d = x :: rest → x.awaiting.isSome = true → ∃ u,
        exec (.handedCellParse d .decision) s = .next u
        ∧ exec (.transactionLeaves d) s = exec (.transactionLeaves d) u

/-- The parse of a handed write (R22 to R26, R37, R43, R52): the write itself is not altered (R4); the
header stage decides the counter, the enqueue and whether a category counts. All stages at once: other
events may also fall between them (log 5). The header stage alone, of an accepted cell: the enqueue that takes
the estimate of its queue over the onset depth opens each group that meets the onset condition and resumes
each SETTLE or RAMP group, but not in DRAINING (R46, R93, R94, R98); then every episode of the queue takes the
greater of its peak and the new estimate (R95). The record stage alone: the category counts, and a TCP record goes,
with the queue of its enqueue, to the Flow Table, which takes it as `SegmentsMoveTheRecord` says, a join as
`MembersJoinAndLeave` does (R36, R54, R58, R84); nothing else changes. Both stages at once are the one and then the
other, where the header stage does not end the parse. -/
def Obligations.HandedWriteIsAccounted : Prop :=
  (∀ (s : State) (before after : List Transit) (x : Transit) (h : Handed) (index : CellIndex)
    (cell : Cell), s.running = true → s.link.toMemory = before ++ x :: after →
    (∀ y ∈ before, y.awaiting = none) → x.awaiting = some h → h.progress = .handed →
    x.transaction = .fullWrite index cell →
    ∃ u, exec (.handedCellParse .sToM .decision) s = .next u
      ∧ u.link = { s.link with toMemory := before ++ { x with awaiting := none } :: after }
      ∧ s.sameControl u
      ∧ (headerStage h.profile cell = .notStart → u = { s with link := u.link })
      ∧ (headerStage h.profile cell = .badQueue →
          u = { (s.bump Counter.badQueue) with link := u.link })
      ∧ (headerStage h.profile cell = .badLength → u.depths = s.depths
          ∧ u.counter Counter.badLength = min (s.counter Counter.badLength + 1) 4294967295)
      ∧ (headerStage h.profile cell = .multicast → u.depths = s.depths
          ∧ u.counter Counter.multicastSkipped = min (s.counter Counter.multicastSkipped + 1) 4294967295)
      ∧ (∀ q n, headerStage h.profile cell = .accepted q n →
          (s.mode = .transparent → u.depths = s.depths)
          ∧ (s.mode ≠ .transparent →
              u.queue q = { s.queue q with
                estimate := min ((s.queue q).estimate + n) 4294967295
                peak := max (s.queue q).peak (min ((s.queue q).estimate + n) 4294967295)
                lastActivity := s.time.tick }
              ∧ ∀ q', q' ≠ q → u.queue q' = s.queue q'))
      ∧ (headerStage h.profile cell ≠ .notStart → headerStage h.profile cell ≠ .badQueue →
          let c := categoryCounter (frameStage h.profile (parseWindow x.latency) cell).category
          u.counter c = min (s.counter c + 1) 4294967295)
      ∧ (s.mode = .transparent → u.ft = s.ft ∧ u.gc = s.gc)
      ∧ (headerStage h.profile cell ≠ .notStart → headerStage h.profile cell ≠ .badQueue → ∃ v,
          exec (.handedCellParse .sToM .accounting) s = .next v
          ∧ exec (.handedCellParse .sToM .decision) s = exec (.handedCellParse .sToM .record) v))
  ∧ (∀ (s : State) (before after : List Transit) (x : Transit) (h : Handed) (index : CellIndex)
    (cell : Cell) (start : Option (QueueId × Nat)), s.running = true →
    s.link.toMemory = before ++ x :: after → (∀ y ∈ before, y.awaiting = none) →
    x.awaiting = some h → h.progress = .accounted start → x.transaction = .fullWrite index cell →
    let record := frameStage h.profile (parseWindow x.latency) cell
    let counted := s.bump (categoryCounter record.category)
    let link : Link := { s.link with toMemory := before ++ { x with awaiting := none } :: after }
    (record.tcp = none →
      exec (.handedCellParse .sToM .record) s = .next { counted with link := link })
    ∧ ∀ ip tcp, record.ip = some ip → record.tcp = some tcp →
      exec (.handedCellParse .sToM .record) s
        = .next { writeSegment ip tcp (start.map Prod.fst) counted with link := link })
  ∧ ∀ (s : State) (before after : List Transit) (x : Transit) (h : Handed) (index : CellIndex)
    (cell : Cell) (q : QueueId) (n : Nat), s.running = true → s.link.toMemory = before ++ x :: after →
    (∀ y ∈ before, y.awaiting = none) → x.awaiting = some h → h.progress = .handed →
    x.transaction = .fullWrite index cell → headerStage h.profile cell = .accepted q n →
    s.mode ≠ .transparent →
    let e := min ((s.queue q).estimate + n) 4294967295
    ∃ u, exec (.handedCellParse .sToM .accounting) s = .next u
      ∧ u.link = { s.link with toMemory :=
          before ++ { x with awaiting := some { h with progress := .accounted (some (q, 0)) } } :: after }
      ∧ s.sameControl u ∧ u.ft = s.ft ∧ u.mode = s.mode
      ∧ (∀ g, u.group g =
          if s.opensAt q e g then
            { s.group g with state := .active, onsetAt := some s.time.tick, peak := some e }
          else if s.resumesAt q e g then
            { s.group g with state := .active, deadline := none, rampEntry := none, rampStart := none
                             peak := some (max ((s.group g).peak.getD 0) e) }
          else if (s.group g).key.map GroupKey.queue = some q ∧ (s.group g).state.isEpisode = true then
            { s.group g with peak := some (max ((s.group g).peak.getD 0) e) }
          else s.group g)
      ∧ (∀ q', u.total q' = s.total q' + if q' = q then
          Finset.univ.sum (fun g => if s.opensAt q e g then (s.group g).count else 0) else 0)
      ∧ u.log = (((List.finRange 128).filter (fun g => decide (s.opensAt q e g ∨ s.resumesAt q e g))).foldl
          (fun t g => offerMove g (if s.opensAt q e g then .onset else .resume) e s t) s).log
      ∧ u.alerts.onset = (s.alerts.onset || decide (∃ g, s.opensAt q e g))
      ∧ (s.counter Counter.onsets ≤ 4294967295 → u.counter Counter.onsets = min (s.counter Counter.onsets
          + ((List.finRange 128).filter (fun g => decide (s.opensAt q e g))).length) 4294967295)

/-- The parse of a handed read response (R7, R14, R22 to R26, R44, R74, R122, R128, R135): the departure
of its queue; no flow record changes; the cell changes only in the fields of its record that the Rewrite
Unit may write, inside the parse window, and only when it arrived in ENFORCE or DRAINING; a clean cell stays
clean; a window field is only lowered, to 1 or more. A departure that takes the estimate from above the release
depth to it or below takes every ACTIVE group of the queue to SETTLE with its hold deadline (R47, R97); a
departure in TRANSPARENT is discarded (R52). A start cell refused for its length or flag counts, departs from no
queue, and still counts in a parse category, as does an accepted one (R25, R37). The stages alone (log 5): the
header stage passes on the queue and the departure depth, the estimate before the departure (R44); at the record
stage the Flow Table answers with the record of the key, or a miss when no way of its set holds it, when the two
endpoints are equal, which is counted (R54), or in TRANSPARENT, which is not; and it changes nothing else (R74).
All stages at once are the one after the other, where the header stage does not end the parse. -/
def Obligations.HandedResponseIsAccounted : Prop :=
  (∀ (s : State) (before after : List Transit) (x : Transit) (h : Handed) (tag : Tag) (cell : Cell)
    (e : Bool), s.running = true → s.link.toSwitch = before ++ x :: after →
    (∀ y ∈ before, y.awaiting = none) → x.awaiting = some h → h.progress = .handed →
    x.transaction = .readResponse tag cell e →
    h.profile.legal → cell.wellFormed = true →
    let record := frameStage h.profile (parseWindow x.latency) cell
    ∃ u cell', exec (.handedCellParse .mToS .decision) s = .next u
      ∧ u.link = { s.link with toSwitch :=
          before ++ { x with awaiting := none, transaction := .readResponse tag cell' e } :: after }
      ∧ s.sameControl u ∧ u.ft = s.ft
      ∧ (headerStage h.profile cell = .notStart → u = { s with link := u.link } ∧ cell' = cell)
      ∧ (headerStage h.profile cell = .badQueue →
          u = { (s.bump Counter.badQueue) with link := u.link } ∧ cell' = cell)
      ∧ (headerStage h.profile cell = .badLength → u.depths = s.depths ∧ u.gc = s.gc
          ∧ u.counter Counter.badLength = min (s.counter Counter.badLength + 1) 4294967295)
      ∧ (headerStage h.profile cell = .multicast → u.depths = s.depths ∧ u.gc = s.gc
          ∧ u.counter Counter.multicastSkipped = min (s.counter Counter.multicastSkipped + 1) 4294967295)
      ∧ (headerStage h.profile cell ≠ .notStart → headerStage h.profile cell ≠ .badQueue →
          u.counter (categoryCounter record.category)
            = min (s.counter (categoryCounter record.category) + 1) 4294967295)
      ∧ (∀ q n, headerStage h.profile cell = .accepted q n → s.mode ≠ .transparent →
          (u.queue q).estimate = (s.queue q).estimate - n ∧ (u.queue q).peak = (s.queue q).peak
          ∧ (u.queue q).lastActivity = s.time.tick
          ∧ (∀ q', q' ≠ q → u.queue q' = s.queue q')
          ∧ ((s.queue q).estimate < n →
              u.counter Counter.depthUnderflow = min (s.counter Counter.depthUnderflow + 1) 4294967295)
          ∧ (∀ g, u.group g =
              if s.settlesAt q ((s.queue q).estimate - n) g then
                { s.group g with
                  state := .settle
                  deadline := some (s.time.tick
                    + BitVec.ofNat 32 (s.classRecord (s.classNumber q)).holdTime) }
              else s.group g)
          ∧ (∀ q', u.total q' = s.total q')
          ∧ u.log = (((List.finRange 128).filter
                (fun g => decide (s.settlesAt q ((s.queue q).estimate - n) g))).foldl
              (fun t g => offerMove g .settle ((s.queue q).estimate - n) s t) s).log)
      ∧ (s.mode = .transparent → u.depths = s.depths ∧ u.gc = s.gc ∧ u.log = s.log)
      ∧ u.mode = s.mode
      ∧ (h.mode = .observe → cell' = cell)
      ∧ cell'.wellFormed = true ∧ (cellClean cell = true → cellClean cell' = true)
      ∧ (∀ k, cellByte cell' k ≠ cellByte cell k →
          isRewritable record k ∧ k < parseWindow x.latency)
      ∧ (∀ tcp, record.tcp = some tcp → cellWord cell' tcp.windowAt ≠ cellWord cell tcp.windowAt →
          1 ≤ cellWord cell' tcp.windowAt
          ∧ cellWord cell' tcp.windowAt < cellWord cell tcp.windowAt))
  ∧ ∀ (s : State) (before after : List Transit) (x : Transit) (h : Handed) (tag : Tag) (cell : Cell)
    (e : Bool), s.running = true → s.link.toSwitch = before ++ x :: after →
    (∀ y ∈ before, y.awaiting = none) → x.awaiting = some h → x.transaction = .readResponse tag cell e →
    let passed (u : State) (waits : Option Progress) : Prop := u.link = { s.link with toSwitch :=
      before ++ { x with awaiting := waits.map (fun p => { h with progress := p }) } :: after }
    (h.progress = .handed → ∃ u, exec (.handedCellParse .mToS .accounting) s = .next u
      ∧ passed u (match headerStage h.profile cell with
        | .notStart | .badQueue => none
        | .badLength | .multicast => some (.accounted none)
        | .accepted q _ => some (.accounted (some (q, (s.queue q).estimate))))
      ∧ (headerStage h.profile cell ≠ .notStart → headerStage h.profile cell ≠ .badQueue → ∃ v,
          exec (.handedCellParse .mToS .record) u = .next v
          ∧ exec (.handedCellParse .mToS .decision) s = exec (.handedCellParse .mToS .decision) v))
    ∧ ∀ start, h.progress = .accounted start →
      let record := frameStage h.profile (parseWindow x.latency) cell
      let counted := s.bump (categoryCounter record.category)
      ∃ u answer, exec (.handedCellParse .mToS .record) s = .next u
        ∧ passed u (some (.answered start answer))
        ∧ (record.tcp = none ∨ s.mode = .transparent →
            u = { counted with link := u.link } ∧ answer = none)
        ∧ ∀ ip tcp, record.ip = some ip → record.tcp = some tcp → s.mode ≠ .transparent →
          let source : Endpoint := { address := ip.source, port := tcp.sourcePort }
          let destination : Endpoint := { address := ip.destination, port := tcp.destinationPort }
          (source = destination →
            u = { (counted.bump Counter.flowIneligible) with link := u.link } ∧ answer = none)
          ∧ ∀ key sender, canonicalKey ip.version source destination = some (key, sender) →
            u = { counted with link := u.link }
            ∧ ((∀ i ∈ keyWays s key, (s.flow i).state ≠ .free → (s.flow i).key ≠ some key) →
                answer = none)
            ∧ ∀ i, s.flowsPlaced → (s.flow i).state ≠ .free → (s.flow i).key = some key →
              ∃ a, answer = some a ∧ a.record = i ∧ a.state = (s.flow i).state ∧ a.sender = sender
                ∧ a.group = (s.flow i).group ∧ a.responder = (s.flow i).responder
                ∧ ∀ side, (s.flow i).responder = some side → a.scale = (s.flow i).scaleOf side.other

/-- The two decisions: a window is rewritten, or skipped for want of a scale, exactly when the gates of R124
to R127 and the answer of R117 say so; a mark is set, or counted as unmarkable, exactly when R130 to R132 say
so. The decision stage of a cell that the Flow Table has answered reads the state as it then stands and the
answer as it was given (R122, R123, R129); each outcome moves its own counter and no other counter moves, and when
neither decision has an outcome that counts nothing changes at all (R137). It does so in the model at any time before the cell leaves (log 5). That a cell
which arrived in ENFORCE or DRAINING may still be altered after the return to OBSERVE, when an onset there has
opened an episode again, is the model's choice (log 18). -/
def Obligations.DecisionsFollowTheirGates : Prop :=
  (∀ (s : State) (r : FrameRecord) (a : Option FlowAnswer),
    let passes (tcp : TcpPart) (g : GroupId) (known : Option Nat) : Prop :=
      ∃ ip key answer, r.ip = some ip ∧ r.tcp = some tcp ∧ a = some answer
        ∧ tcp.ack = true ∧ tcp.syn = false ∧ tcp.rst = false
        ∧ answer.group = some g ∧ answer.responder ≠ some answer.sender
        ∧ (s.group g).key = some key ∧ key.version = ip.version ∧ key.address = ip.source
        ∧ (s.group g).state.isEpisode = true
        ∧ (s.classRecord (s.classNumber key.queue)).rewriteEnable = true
        ∧ known = answer.scale.or (s.classRecord (s.classNumber key.queue)).assumedScale
    (windowDecision s r a = .skipScale ↔ ∃ tcp g, passes tcp g none)
    ∧ ∀ field, windowDecision s r a = .rewrite field ↔
        ∃ tcp g scale, passes tcp g (some scale) ∧ rewriteRequest s g scale tcp.window = .rewrite field)
  ∧ (∀ (s : State) (r : FrameRecord) (departed : Option (QueueId × Nat)),
    let meets (ip : IpPart) : Prop :=
      ∃ q depth, r.ip = some ip ∧ departed = some (q, depth) ∧ 1 ≤ s.total q
        ∧ (s.classRecord (s.classNumber q)).markDepth ≠ 0
        ∧ (s.classRecord (s.classNumber q)).markDepth ≤ depth
    (markDecision s r departed = .setCe ↔ ∃ ip, meets ip ∧ ip.ecn ≠ 0 ∧ ip.ecn ≠ 3)
    ∧ (markDecision s r departed = .unmarkable ↔ ∃ ip, meets ip ∧ ip.ecn = 0))
  ∧ ∀ (s : State) (before after : List Transit) (x : Transit) (h : Handed) (tag : Tag) (cell : Cell)
      (e : Bool) (departed : Option (QueueId × Nat)) (answer : Option FlowAnswer),
    s.running = true → s.link.toSwitch = before ++ x :: after → (∀ y ∈ before, y.awaiting = none) →
    x.awaiting = some h → h.progress = .answered departed answer →
    x.transaction = .readResponse tag cell e →
    let r := frameStage h.profile (parseWindow x.latency) cell
    let window := windowDecision s r answer
    let mark := markDecision s r departed
    ∃ u cell', exec (.handedCellParse .mToS .decision) s = .next u
      ∧ u.link = { s.link with toSwitch :=
          before ++ { x with awaiting := none, transaction := .readResponse tag cell' e } :: after }
      ∧ (h.mode = .observe ∨ h.mode = .transparent → u = { s with link := u.link } ∧ cell' = cell)
      ∧ (h.mode = .enforce ∨ h.mode = .draining →
        cell' = rewriteCell cell r window mark
        ∧ u.ft = s.ft ∧ u.gc = s.gc ∧ u.mode = s.mode ∧ u.log = s.log ∧ s.sameControl u
        ∧ u.alerts = s.alerts
        ∧ (let moves (c : CounterId) : Prop :=
            (c = Counter.windowsRewritten ∧ ∃ field, window = .rewrite field)
            ∨ (c = Counter.rewriteSkipScale ∧ window = .skipScale)
            ∨ (c = Counter.unmarkable ∧ mark = .unmarkable) ∨ (c = Counter.marksSet ∧ mark = .setCe)
          ∀ c, (moves c → u.counter c = min (s.counter c + 1) 4294967295)
            ∧ (¬ moves c → u.counter c = s.counter c))
        ∧ (window = .unaltered → mark = .unaltered → u = { s with link := u.link } ∧ cell' = cell)
        ∧ (mark = .setCe → ∀ q n, departed = some (q, n) →
            (∀ q', q' ≠ q → u.queue q' = s.queue q')
            ∧ u.queue q = if s.mode = .transparent then s.queue q
                else { s.queue q with marks := min ((s.queue q).marks + 1) 4294967295 })
        ∧ (mark ≠ .setCe → u.depths = s.depths))

/-- A word is clean when each of its bytes holds, with its check bit, an even number of ones (R12). A
checksum is updated by the ones'-complement sum of the complements of the old checksum and word and of the
new word (R133). Whatever the two decisions are, a rewritten cell of clean words has clean words (R14). What
the decisions write (R128, R132, R135): the window field becomes the share's field, the ECN field becomes CE,
each checksum is updated for its own word, and every other byte, and the check byte of a word with no altered
byte, stays; the check byte of an altered word is computed anew. -/
def Obligations.CheckBytesAndChecksums : Prop :=
  (∀ c : Cell, c.wellFormed = true → (cellClean c = true ↔
    ∀ i, i < 256 → (onesOf (c.data.getD i 0)
      + ((c.check.getD (i / 8) 0).getLsbD (i % 8)).toNat) % 2 = 0))
  ∧ (∀ c w w' : Nat, c < 65536 → w < 65536 → w' < 65536 →
    let sum := (65535 - c) + (65535 - w) + w'
    updateChecksum c w w' < 65536
    ∧ (65535 - updateChecksum c w w') % 65535 = sum % 65535
    ∧ (updateChecksum c w w' = 65535 ↔ sum = 0))
  ∧ (∀ (c : Cell) (r : FrameRecord) (w : WindowOutcome) (m : MarkOutcome), c.wellFormed = true →
    cellClean c = true → cellClean (rewriteCell c r w m) = true)
  ∧ ∀ (p : Profile) (l : Latency) (c : Cell) (w : WindowOutcome) (m : MarkOutcome), p.legal →
    c.wellFormed = true →
    let r := frameStage p (parseWindow l) c
    let c' := rewriteCell c r w m
    (∀ tcp field, r.tcp = some tcp → w = .rewrite field → field ≤ 65535 →
      cellWord c' tcp.windowAt = field
      ∧ cellWord c' tcp.checksumAt
        = updateChecksum (cellWord c tcp.checksumAt) (cellWord c tcp.windowAt) field)
    ∧ (∀ ip, r.ip = some ip → m = .setCe →
      (∀ b, b < 8 → (cellByte c' ip.ecnAt).getLsbD b
        = if b = ip.ecnShift ∨ b = ip.ecnShift + 1 then true else (cellByte c ip.ecnAt).getLsbD b)
      ∧ ∀ at', ip.checksumAt = some at' → cellWord c' at'
        = updateChecksum (cellWord c at') (cellWord c (ip.ecnAt - 1)) (cellWord c' (ip.ecnAt - 1)))
    ∧ (∀ k, cellByte c' k ≠ cellByte c k →
      (∃ tcp field, r.tcp = some tcp ∧ w = .rewrite field
        ∧ (k = tcp.windowAt ∨ k = tcp.windowAt + 1 ∨ k = tcp.checksumAt ∨ k = tcp.checksumAt + 1))
      ∨ ∃ ip, r.ip = some ip ∧ m = .setCe
        ∧ (k = ip.ecnAt ∨ ∃ at', ip.checksumAt = some at' ∧ (k = at' ∨ k = at' + 1)))
    ∧ ∀ v, v < 32 →
      ((∀ k, k < 8 → cellByte c' (8 * v + k) = cellByte c (8 * v + k)) →
        c'.check.getD v 0 = c.check.getD v 0)
      ∧ ((∃ k, k < 8 ∧ cellByte c' (8 * v + k) ≠ cellByte c (8 * v + k)) →
        ∀ b, b < 8 → (onesOf (cellByte c' (8 * v + b)) + ((c'.check.getD v 0).getLsbD b).toNat) % 2 = 0)

/-- The queue number is the field that the profile places in one byte and the one before it, plus the
offset (R23); the header stage reads only the first 64 bytes of a cell and the frame stage only its parse
window (R7, R22 to R24, R27). The SOP flag and the three tests of R25 in their order decide the header stage
(R22, R25); the tests of R28 to R33 in their order decide the category and what the record shows of the two
headers, with the sub-kind of R34; a SYN offers the first scale of sound options (R33). -/
def Obligations.ParserReadsItsFieldsOnly : Prop :=
  (∀ (p : Profile) (c : Cell), p.legal →
    queueNumber p c = (cellWord { c with data := 0 :: c.data } p.queueByte / 2 ^ p.queueLsb)
      % 2 ^ p.queueWidth + p.queueOffset)
  ∧ (∀ (p : Profile) (c c' : Cell), p.legal → (∀ k, k < 64 → cellByte c k = cellByte c' k) →
    headerStage p c = headerStage p c')
  ∧ (∀ (p : Profile) (l : Latency) (c c' : Cell), p.legal → c.wellFormed = true → c'.wellFormed = true →
    (∀ k, k < parseWindow l → cellByte c k = cellByte c' k) →
    frameStage p (parseWindow l) c = frameStage p (parseWindow l) c')
  ∧ (∀ (p : Profile) (c : Cell),
    let length := cellWord c p.lengthByte
    let multicast := ∃ m, p.multicast = some m ∧ cellBit c m = true
    (cellBit c p.sop = false → headerStage p c = .notStart)
    ∧ (cellBit c p.sop = true → 512 ≤ queueNumber p c → headerStage p c = .badQueue)
    ∧ ∀ q : QueueId, cellBit c p.sop = true → q.val = queueNumber p c →
      (length = 0 ∨ 16383 < length → headerStage p c = .badLength)
      ∧ (1 ≤ length → length ≤ 16383 → multicast → headerStage p c = .multicast)
      ∧ (1 ≤ length → length ≤ 16383 → ¬ multicast → headerStage p c = .accepted q length))
  ∧ (∀ (p : Profile) (l : Latency) (c : Cell) (t i : Nat), frameTypeAt c p.frameOffset t i →
    let r := frameStage p (parseWindow l) c
    let window := match l with | .short => 128 | .long => 256
    let first := (cellByte c i).toNat
    (t ≠ 0x0800 → t ≠ 0x86DD → r = ⟨.other, none, none⟩)
    ∧ (t = 0x0800 → first / 16 ≠ 4 ∨ first % 16 < 5 → r = ⟨.malformed, none, none⟩)
    ∧ (t = 0x0800 → first / 16 = 4 → 5 ≤ first % 16 → ∃ ip, showsIpv4 ip c i
      ∧ let stops := (cellByte c (i + 6)).getLsbD 5 = true ∨ cellWord c (i + 6) % 8192 ≠ 0
          ∨ (cellByte c (i + 9)).toNat ≠ 6
        (stops → r = ⟨.ipOther, some ip, none⟩)
        ∧ (¬ stops → showsWalk r window c ip (i + 4 * (first % 16)) (cellWord c (i + 2))
            (4 * (first % 16))))
    ∧ (t = 0x86DD → first / 16 ≠ 6 → r = ⟨.malformed, none, none⟩)
    ∧ (t = 0x86DD → first / 16 = 6 → ∃ ip, showsIpv6 ip c i
      ∧ ((cellByte c (i + 6)).toNat ≠ 6 → r = ⟨.ipOther, some ip, none⟩)
      ∧ ((cellByte c (i + 6)).toNat = 6 → showsWalk r window c ip (i + 40) (cellWord c (i + 4)) 0)))
  ∧ offeredScale [] = none ∧ (∀ rest, offeredScale (0 :: rest) = none)
  ∧ (∀ rest, offeredScale (1 :: rest) = offeredScale rest)
  ∧ (∀ kind : Byte, kind ≠ 0 → kind ≠ 1 → offeredScale [kind] = none)
  ∧ (∀ (kind len : Byte) (value : List Byte), kind ≠ 0 → kind ≠ 1 →
      len.toNat < 2 ∨ value.length < len.toNat - 2 → offeredScale (kind :: len :: value) = none)
  ∧ (∀ (kind len : Byte) (value rest : List Byte), kind ≠ 0 → kind ≠ 1 → 2 ≤ len.toNat →
      value.length = len.toNat - 2 → kind ≠ 3 ∨ len ≠ 3 →
      offeredScale (kind :: len :: (value ++ rest)) = offeredScale rest)
  ∧ ∀ (value : Byte) (rest : List Byte),
      (OptionsSound rest → offeredScale (3 :: 3 :: value :: rest) = some (min 14 value.toNat))
      ∧ (¬ OptionsSound rest → offeredScale (3 :: 3 :: value :: rest) = none)

/-! ### Ticks and expiries -/

/-- TICK (R138, R141): when nothing of the present tick is still to come, the counter goes up by one and
wraps, the count of REFCLK periods begins again, and the expiries whose conditions hold at the new tick fall
on it. What is still to come is made first, each as its command makes it: expiries, the sweep's visits, the
end of a pass, the walk's steps (R71, R76; their order is log 20). An expiry is taken once, and only at a
tick on which it fell: one that does not fall on it, or whose condition no longer holds, changes nothing else
(R141; that such a command may be sent is log 3), and no other command makes one fall. LINGER_EXPIRY (R90): a
WATCH group that has lingered for the linger time becomes FREE. -/
def Obligations.TickAndLingerExpiry : Prop :=
  (∀ s : State, s.running = true → s.tickSettled → ¬ s.walkMoves → ∃ due n,
    (∀ e, e ∈ due ↔ s.expires (s.time.tick + 1) e)
    ∧ (s.time.refclkCount ≤ s.time.prescaler →
        n + s.time.refclkCount = s.time.refclk + s.time.prescaler)
    ∧ exec .tick s = .next
        { s with time := { s.time with
            tick := s.time.tick + 1, refclkCount := 0, refclk := n, due := due } })
  ∧ (∀ s u : State, s.running = true →
      (∀ e rest, s.time.due = e :: rest → exec (expiryCommand e) s = .next u →
        exec .tick s = exec .tick u)
      ∧ (∀ i, s.time.due = [] → s.visitFalls i → exec (.sweepVisit i) s = .next u →
        exec .tick s = exec .tick u)
      ∧ (s.time.due = [] → s.sweepOnTime → s.passEnds → exec .sweepPassEnd s = .next u →
        exec .tick s = exec .tick u)
      ∧ (s.tickSettled → s.walkMoves → exec .clearFlowsWalkStep s = .next u →
        exec .tick s = exec .tick u))
  ∧ (∀ (s : State) (e : TimedEvent), s.running = true →
      e ∉ s.time.due ∨ ¬ s.expires s.time.tick e → exec (expiryCommand e) s = .next (s.dropDue e))
  ∧ (∀ (s : State) (e : TimedEvent), ∃ due, (∀ e', e' ∈ due ↔ e' ∈ s.time.due ∧ e' ≠ e)
      ∧ s.dropDue e = { s with time := { s.time with due := due } })
  ∧ (∀ s t : State, s.pending.head? ≠ some .tick → step s = .next t →
      t.time.due.Sublist s.time.due)
  ∧ ∀ (s : State) (g : GroupId), s.running = true → .linger g ∈ s.time.due →
    s.expires s.time.tick (.linger g) → ∃ groups,
      (∀ h, tableGet freeGroup groups h = if h = g then freeGroup else s.group h)
      ∧ exec (.lingerExpiry g) s = .next
        { s.dropDue (.linger g) with gc := { s.gc with groups := groups } }

/-- QUIET_EXPIRY (R47, R48, R97): the estimate becomes 0, the reconcile counts, and a fall from above the
release depth takes every ACTIVE group of the queue to SETTLE with its hold deadline. The log, the other counters
and the alert flags change by the SETTLE entries alone, offered in ascending group index at the new depth of 0
(R92, R96, R164), and nothing else changes. Nothing does when the conditions do not hold, or when the expiry does
not fall on this tick (R141; log 3). -/
def Obligations.QuietExpiryReconciles : Prop :=
  ∀ (s : State) (q : QueueId), s.running = true →
    let r := s.queue q
    let c := s.classRecord (s.classNumber q)
    let due := s.depths.quietTime ≠ 0 ∧ s.mode ≠ .transparent ∧ r.estimate ≠ 0
      ∧ s.depths.quietTime ≤ (s.time.tick - r.lastActivity).toNat
    (.quiet q ∉ s.time.due ∨ ¬ due → exec (.quietExpiry q) s = .next (s.dropDue (.quiet q)))
    ∧ (.quiet q ∈ s.time.due → due → ∃ t, exec (.quietExpiry q) s = .next t
      ∧ t.queue q = { r with estimate := 0 } ∧ (∀ q', q' ≠ q → t.queue q' = s.queue q')
      ∧ t.counter Counter.quietReconcile = min (s.counter Counter.quietReconcile + 1) 4294967295
      ∧ (∀ g, t.group g =
          if (s.group g).state = .active ∧ (s.group g).key.map GroupKey.queue = some q
              ∧ c.releaseDepth < r.estimate then
            { s.group g with state := .settle
                             deadline := some (s.time.tick + BitVec.ofNat 32 c.holdTime) }
          else s.group g)
      ∧ (∀ q', t.total q' = s.total q') ∧ t.ft = s.ft ∧ t.link = s.link ∧ t.mode = s.mode
      ∧ (s.dropDue (.quiet q)).sameControl t
      ∧ (let offered := offerAll
          (s.entriesOf (fun g key => if s.settlesAt q 0 g then [s.moveEntry g key .settle 0] else []))
          (s.bump Counter.quietReconcile)
        t.log = offered.log ∧ t.counters = offered.counters ∧ t.alerts = offered.alerts))

/-- The sweep (R71, R72): the visit of a record at its tick, what it does by the record's state, and the
end of a pass, at which the next begins under the period in force. A record leaves by the leave of
`MembersJoinAndLeave`, with the report of `DrainEndReturnsToObserve` where that ends a drain (R68, R88, R104); where
it does not leave, or has no group, the groups, totals, log, counters, alert flags and mode stay as they were. A visit out of its order, or a visit or an
end off its tick, does nothing (log 3, log 16). -/
def Obligations.SweepVisitsEachRecord : Prop :=
  (∀ (s : State) (i : FlowId), s.running = true →
    let r := s.flow i
    let age := (s.time.tick - r.lastSeen).toNat
    (∀ pass, s.ft.sweep = some pass → pass.nextRecord = i.val →
      (s.time.tick - pass.start).toNat = i.val * pass.period / 8192 →
      ∃ t, exec (.sweepVisit i) s = .next t
        ∧ t.ft.sweep = some { pass with nextRecord := i.val + 1 }
        ∧ t.flow i = (match r.state with
            | .free => r
            | .handshake => if s.ft.handshakeTime ≤ age then freeFlow r.lastSeen else r
            | .opened | .closing =>
              if s.ft.idleTime ≤ age ∧ r.group ≠ none then
                { r with group := none, prev := none, next := none }
              else r)
        ∧ (∀ j, j ≠ i → { t.flow j with prev := none, next := none }
            = { s.flow j with prev := none, next := none })
        ∧ t.depths = s.depths ∧ t.link = s.link ∧ t.time = s.time ∧ t.port = s.port
        ∧ (let silent := s.ft.handshakeTime ≤ age ∧ r.state = .handshake
          let idle := s.ft.idleTime ≤ age ∧ (r.state = .opened ∨ r.state = .closing)
          let left := if silent then (leave i s).setFlow i (freeFlow r.lastSeen)
            else if idle then leave i s else s
          t = drainEnd { left with ft := { left.ft with
              sweep := some { pass with nextRecord := i.val + 1 } } }
          ∧ (¬ (silent ∨ idle) ∨ r.group = none → (s.mode = .draining → s.anyEpisode = true) →
              t.gc = s.gc ∧ t.log = s.log ∧ t.counters = s.counters ∧ t.alerts = s.alerts
              ∧ t.mode = s.mode)))
    ∧ ((∀ pass, s.ft.sweep = some pass → pass.nextRecord = i.val →
          (s.time.tick - pass.start).toNat ≠ i.val * pass.period / 8192) →
        exec (.sweepVisit i) s = .next s))
  ∧ ∀ s : State, s.running = true →
    (∀ pass, s.ft.sweep = some pass → (s.time.tick - pass.start).toNat = pass.period →
      exec .sweepPassEnd s = .next { s with
        ft := { s.ft with
          sweep := some (SweepPass.mk s.time.tick s.ft.sweepPeriod 0) } })
    ∧ ((∀ pass, s.ft.sweep = some pass → (s.time.tick - pass.start).toNat ≠ pass.period) →
      exec .sweepPassEnd s = .next s)

/-- HOLD_EXPIRY takes a SETTLE group to entry 0 of its class's sequence, with a RAMP entry offered, and
ENTRY_EXPIRY steps a group to its next entry with nothing offered (R99, R145, R146). Under an empty sequence
the hold expiry goes on in the same event: under HOLD the group holds at once, under END it ends at once, its
END entry after its RAMP entry, shown outside DRAINING and where no onset test can reopen it (R99, R147). An
expiry that does not fall on this tick, or whose condition does not hold, changes nothing else (R141; log 3). -/
def Obligations.RampsEnterAndStep : Prop :=
  ∀ (s : State) (g : GroupId) (key : GroupKey), s.running = true → (s.group g).key = some key →
    let r := s.group g
    let c := s.classRecord (s.classNumber key.queue)
    let entries := s.ramp c.ramp
    let ramps : LogEntry :=
      { kind := .ramp, cause := .none, timestamp := s.time.tick, group := g, key := key, count := r.count
        depth := (s.queue key.queue).estimate, peak := 0, duration := 0 }
    let falls := .hold g ∈ s.time.due ∧ r.state = .settle ∧ r.deadline = some s.time.tick
    (falls → (∃ e rest, entries = e :: rest ∧ 1 ≤ e.duration) →
      ∃ t, exec (.holdExpiry g) s = .next t
        ∧ (∀ h, t.group h = if h = g then
            { r with state := .ramp, deadline := none, rampEntry := some 0
                     rampStart := some s.time.tick }
          else s.group h)
        ∧ t.log = (offer ramps s).log
        ∧ (∀ q, t.total q = s.total q) ∧ t.mode = s.mode ∧ t.depths = s.depths ∧ t.ft = s.ft
        ∧ t.time = (s.dropDue (.hold g)).time ∧ t.link = s.link ∧ t.port = s.port)
    ∧ (falls → entries = [] → c.endMode = .holds → s.mode ≠ .draining →
      ∃ t, exec (.holdExpiry g) s = .next t
        ∧ (∀ h, t.group h = if h = g then
            { r with state := .ramp, deadline := none, rampEntry := some 0, rampStart := none }
          else s.group h)
        ∧ t.log = (offer ramps s).log
        ∧ (∀ q, t.total q = s.total q) ∧ t.mode = s.mode ∧ t.depths = s.depths ∧ t.ft = s.ft
        ∧ t.time = (s.dropDue (.hold g)).time ∧ t.link = s.link ∧ t.port = s.port)
    ∧ (falls → entries = [] → c.endMode = .ends → s.mode ≠ .draining → s.onsetFails g →
      ∃ t, exec (.holdExpiry g) s = .next t
        ∧ (∀ h, t.group h = if h = g then
            { r with state := .watch, onsetAt := none, peak := none, deadline := none
                     rampEntry := none, rampStart := none }
          else s.group h)
        ∧ t.log = (offer (s.endEntry g key) (offer ramps s)).log
        ∧ (∀ q, t.total q = s.total q - if q = key.queue then r.count else 0) ∧ t.mode = s.mode
        ∧ t.depths = s.depths ∧ t.ft = s.ft ∧ t.time = (s.dropDue (.hold g)).time ∧ t.link = s.link
        ∧ t.port = s.port)
    ∧ (¬ falls → exec (.holdExpiry g) s = .next (s.dropDue (.hold g)))
    ∧ (∀ i start e, r.state = .ramp → r.rampEntry = some i → r.rampStart = some start →
      entries[i]? = some e →
      (.entry g ∉ s.time.due ∨ (s.time.tick - start).toNat < e.duration →
        exec (.entryExpiry g) s = .next (s.dropDue (.entry g)))
      ∧ (.entry g ∈ s.time.due → e.duration ≤ (s.time.tick - start).toNat → i + 1 < entries.length →
        ∃ groups,
          (∀ h, tableGet freeGroup groups h =
            if h = g then { r with rampEntry := some (i + 1), rampStart := some s.time.tick }
            else s.group h)
          ∧ exec (.entryExpiry g) s = .next
            { s.dropDue (.entry g) with gc := { s.gc with groups := groups } }))
    ∧ (r.state ≠ .ramp ∨ r.rampStart = none →
        exec (.entryExpiry g) s = .next (s.dropDue (.entry g)))

/-- The end of a sequence (R100, R147, R148), at the last entry's expiry or at the hold end: under HOLD,
outside DRAINING, the group holds; otherwise it goes to WATCH with an END entry of cause SEQUENCE and its
members leave the total. In OBSERVE and ENFORCE the onset test may open a new episode at once, its ONSET entry
after the END entry. In DRAINING, where another episode goes on, nothing else changes; the end of the last one
ends the drain within the same event (R104, R158; log 9): the mode is OBSERVE, and this group and each WATCH group
that meets the onset condition open an episode, their ONSET entries after the END entry. An expiry that does not
fall on this tick, or whose condition does not hold, changes nothing else (R141; log 3). -/
def Obligations.SequencesEnd : Prop :=
  ∀ (s : State) (g : GroupId) (key : GroupKey), s.running = true → (s.group g).key = some key →
    (s.group g).state = .ramp →
    let r := s.group g
    let c := s.classRecord (s.classNumber key.queue)
    let entries := s.ramp c.ramp
    let estimate := (s.queue key.queue).estimate
    let expired := .entry g ∈ s.time.due ∧ ∃ start, r.rampStart = some start
      ∧ (entries.length ≤ r.rampEntry.getD 0
        ∨ (r.rampEntry.getD 0 + 1 = entries.length
            ∧ ∀ e, entries.getLast? = some e → e.duration ≤ (s.time.tick - start).toNat))
    (expired → c.endMode = .holds → s.mode ≠ .draining → ∃ groups,
      (∀ h, tableGet freeGroup groups h =
        if h = g then { r with rampEntry := some (entries.length - 1), rampStart := none }
        else s.group h)
      ∧ exec (.entryExpiry g) s = .next
        { s.dropDue (.entry g) with gc := { s.gc with groups := groups } })
    ∧ (∀ e, (e = .entry g ∧ expired ∧ (c.endMode = .ends ∨ s.mode = .draining))
          ∨ (e = .holdEnd g ∧ .holdEnd g ∈ s.time.due ∧ r.rampStart = none ∧ c.endMode = .ends) →
        ((s.mode ≠ .draining ∧ s.onsetFails g)
            ∨ (s.mode = .draining ∧ ∃ h, h ≠ g ∧ (s.group h).state.isEpisode = true) →
          ∃ t, exec (expiryCommand e) s = .next t
            ∧ (∀ h, t.group h = if h = g then
                { r with state := .watch, onsetAt := none, peak := none, deadline := none
                         rampEntry := none, rampStart := none }
              else s.group h)
            ∧ (∀ q, t.total q = s.total q - if q = key.queue then r.count else 0)
            ∧ t.log = (offer (s.endEntry g key) s).log
            ∧ t.mode = s.mode ∧ t.depths = s.depths ∧ t.ft = s.ft ∧ t.time = (s.dropDue e).time
            ∧ t.link = s.link)
        ∧ (s.mode = .observe ∨ s.mode = .enforce → ¬ s.onsetFails g →
          ∃ t, exec (expiryCommand e) s = .next t
            ∧ (∀ h, t.group h = if h = g then
                { r with state := .active, onsetAt := some s.time.tick, peak := some estimate
                         deadline := none, rampEntry := none, rampStart := none }
              else s.group h)
            ∧ (r.count ≤ s.total key.queue → ∀ q, t.total q = s.total q)
            ∧ t.log = (offer { kind := .onset, cause := .none, timestamp := s.time.tick, group := g
                               key := key, count := r.count, depth := estimate, peak := 0
                               duration := 0 } (offer (s.endEntry g key) s)).log
            ∧ t.alerts.onset = true
            ∧ t.mode = s.mode ∧ t.depths = s.depths ∧ t.ft = s.ft ∧ t.time = (s.dropDue e).time
            ∧ t.link = s.link)
        ∧ (s.mode = .draining → (∀ h, h ≠ g → (s.group h).state.isEpisode = false) →
          ∃ t, exec (expiryCommand e) s = .next t
            ∧ t.mode = .observe
            ∧ (∀ h, let r' := if h = g then
                  { r with state := .watch, onsetAt := none, peak := none, deadline := none
                           rampEntry := none, rampStart := none }
                else s.group h
              (¬ s.reopens (· = g) h → t.group h = r')
              ∧ ∀ key', r'.key = some key' → s.reopens (· = g) h → t.group h =
                { r' with state := .active, onsetAt := some s.time.tick
                          peak := some (s.queue key'.queue).estimate })
            ∧ s.endsAndOpens t [s.endEntry g key] (· = g) (s.reopens (· = g))
            ∧ t.depths = s.depths ∧ t.ft = s.ft ∧ t.time = (s.dropDue e).time ∧ t.link = s.link
            ∧ (s.dropDue e).sameControl t))
    ∧ (.holdEnd g ∉ s.time.due ∨ r.rampStart ≠ none ∨ c.endMode = .holds →
        exec (.holdEnd g) s = .next (s.dropDue (.holdEnd g)))

/-- The drain-end report (R104, R158): in DRAINING with no episode left the mode becomes OBSERVE and every
WATCH group that meets the onset condition opens an episode, no other group changing, its count entering the total
and its ONSET entry offered in ascending index, with the onsets counter and the ONSET flag (R94, R96); nothing else
changes. The report is `drainEnd`, which the other statements name. In the model each event
that can end a drain makes the report itself (log 9); that the command, at any other time, changes nothing is
the model's choice too (log 3). -/
def Obligations.DrainEndReturnsToObserve : Prop :=
  ∀ s : State, s.running = true →
    exec .drainEndReport s = .next (drainEnd s)
    ∧ (s.mode ≠ .draining ∨ s.anyEpisode = true → exec .drainEndReport s = .next s)
    ∧ (s.mode = .draining → s.anyEpisode = false → ∃ t, exec .drainEndReport s = .next t
      ∧ t.mode = .observe
      ∧ (∀ g, (s.group g).key = none → t.group g = s.group g)
      ∧ (∀ g key, (s.group g).key = some key →
          let c := s.classRecord (s.classNumber key.queue)
          t.group g =
            if (s.group g).state = .watch ∧ c.fanIn ≠ 0 ∧ c.fanIn ≤ (s.group g).count
                ∧ c.onsetDepth ≤ (s.queue key.queue).estimate then
              { s.group g with state := .active, onsetAt := some s.time.tick
                               peak := some (s.queue key.queue).estimate }
            else s.group g)
      ∧ s.endsAndOpens t [] (fun _ => False) (s.reopens (fun _ => False))
      ∧ t.depths = s.depths ∧ t.ft = s.ft ∧ t.time = s.time ∧ t.link = s.link ∧ t.port = s.port
      ∧ s.sameControl t)

/-! ### The share -/

/-- The share of a group in an episode, in exact integers, through the stages of R111 to R114, between its
class's floor and ceiling; the field value and the rewrite answer of R116 and R117; the multiplier of R110
and R149; no share outside an episode (R109, R119). -/
def Obligations.ShareFollowsItsStages : Prop :=
  ∀ (s : State) (g : GroupId) (key : GroupKey), (s.group g).key = some key →
    let c := s.classRecord (s.classNumber key.queue)
    let entries := s.ramp c.ramp
    let depth : Int := (s.queue key.queue).estimate
    let target : Int := c.targetDepth
    let allowance : Int := c.pathAllowance
    let excess : Int := max 0 (depth - target)
    let head : Int := max 0 (target + allowance - excess)
    ((s.group g).state.isEpisode = false → shareOf s g = none ∧ reportRequest s g = 0)
    ∧ ((s.group g).state = .active ∨ (s.group g).state = .settle → groupMultiplier s g = 256)
    ∧ ((s.group g).state = .ramp →
        (entries = [] → groupMultiplier s g = 256)
        ∧ (∀ i start e, (s.group g).rampEntry = some i → (s.group g).rampStart = some start →
            entries[i]? = some e → groupMultiplier s g = e.multiplier)
        ∧ (∀ last, entries.getLast? = some last →
            (s.group g).rampStart = none ∨ (∃ i, (s.group g).rampEntry = some i ∧ entries.length ≤ i) →
            groupMultiplier s g = last.multiplier))
    ∧ ((s.group g).state.isEpisode = true → 1 ≤ s.total key.queue → c.windowFloor ≤ c.windowCeiling →
        ∃ share : Nat, shareOf s g = some share ∧ reportRequest s g = share
          ∧ (share : Int) = max (c.windowFloor : Int) (min (c.windowCeiling : Int)
              (head / (s.total key.queue : Int) * (groupMultiplier s g : Int) / 256))
          ∧ c.windowFloor ≤ share ∧ share ≤ c.windowCeiling
          ∧ ∀ scale original : Nat,
              let field := max 1 (min 65535 (share / 2 ^ scale))
              rewriteRequest s g scale original =
                if original > field then .rewrite field else .pass field)
end

