-- ==== Sys2Proof/Laws/Tables.lean ====
section
/-! SUPPORT. The laws of the sparse tables: a read after a write, and the canonical form that every
write keeps. -/

namespace Sys2Proof.Machine

variable {n : Nat} {α : Type}

/-- Erasing an index makes it read as the reset value. -/
theorem tableGet_erase_self (d : α) (t : Table n α) (k : Fin n) :
    tableGet d (tableErase t k) k = d := by
  induction t with
  | nil => rfl
  | cons e rest ih =>
    by_cases h : e.1 = k
    · simpa [tableErase, h] using ih
    · simpa [tableErase, h, tableGet] using ih

/-- Erasing an index leaves every other one. -/
theorem tableGet_erase_ne (d : α) (t : Table n α) {k j : Fin n} (hj : j ≠ k) :
    tableGet d (tableErase t k) j = tableGet d t j := by
  induction t with
  | nil => rfl
  | cons e rest ih =>
    by_cases h : e.1 = k
    · have : e.1 ≠ j := fun hh => hj (hh ▸ h)
      simpa [tableErase, h, tableGet, this, Ne.symm hj] using ih
    · by_cases h2 : e.1 = j
      · simp [tableErase, h2, hj, tableGet]
      · simpa [tableErase, h, h2, tableGet] using ih

/-- Inserting at an absent index: what it then reads. -/
theorem tableGet_insert_self (d : α) (t : Table n α) (k : Fin n) (v : α)
    (h : ∀ e ∈ t, e.1 ≠ k) : tableGet d (tableInsert t k v) k = v := by
  induction t with
  | nil => simp [tableInsert, tableGet]
  | cons e rest ih =>
    have he : e.1 ≠ k := h e (by simp)
    by_cases hlt : k < e.1
    · simp [tableInsert, hlt, tableGet]
    · simpa [tableInsert, hlt, tableGet, he] using ih (fun e' he' => h e' (by simp [he']))

/-- Inserting leaves every other index. -/
theorem tableGet_insert_ne (d : α) (t : Table n α) {k j : Fin n} (v : α) (hj : j ≠ k) :
    tableGet d (tableInsert t k v) j = tableGet d t j := by
  induction t with
  | nil => simp [tableInsert, tableGet, Ne.symm hj]
  | cons e rest ih =>
    by_cases hlt : k < e.1
    · simp [tableInsert, hlt, tableGet, Ne.symm hj]
    · by_cases h2 : e.1 = j
      · rw [tableInsert, if_neg hlt, tableGet, if_pos h2, tableGet, if_pos h2]
      · simpa [tableInsert, hlt, tableGet, h2] using ih

theorem tableErase_keys_ne (t : Table n α) (k : Fin n) : ∀ e ∈ tableErase t k, e.1 ≠ k := by
  intro e he
  simpa [tableErase] using (List.mem_filter.mp he).2

/-- A read after a write of the same index gives the value written. -/
@[simp] theorem tableGet_set_self [DecidableEq α] (d : α) (t : Table n α) (k : Fin n) (v : α) :
    tableGet d (tableSet d t k v) k = v := by
  by_cases h : v = d
  · simp [tableSet, h, tableGet_erase_self]
  · simp [tableSet, h, tableGet_insert_self d _ k v (tableErase_keys_ne t k)]

/-- A write leaves every other index. -/
theorem tableGet_set_ne [DecidableEq α] (d : α) (t : Table n α) {k j : Fin n} (v : α) (hj : j ≠ k) :
    tableGet d (tableSet d t k v) j = tableGet d t j := by
  by_cases h : v = d
  · simp [tableSet, h, tableGet_erase_ne d t hj]
  · simp [tableSet, h, tableGet_insert_ne d _ v hj, tableGet_erase_ne d t hj]

/-- What any index reads after a write. -/
theorem tableGet_set [DecidableEq α] (d : α) (t : Table n α) (k j : Fin n) (v : α) :
    tableGet d (tableSet d t k v) j = if j = k then v else tableGet d t j := by
  by_cases h : j = k
  · simp [h]
  · simp [h, tableGet_set_ne d t v h]

/-- An index that lies outside a table's list reads as the reset value. -/
theorem tableGet_not_mem (d : α) (t : Table n α) (k : Fin n) (h : ∀ e ∈ t, e.1 ≠ k) :
    tableGet d t k = d := by
  induction t with
  | nil => rfl
  | cons e rest ih =>
    simpa [tableGet, h e (by simp)] using ih (fun e' he' => h e' (by simp [he']))

/-- What any index reads after a whole-table map that keeps the reset value. -/
theorem tableGet_map [DecidableEq α] (d : α) (f : α → α) (t : Table n α) (k : Fin n) (hf : f d = d) :
    tableGet d (tableMap d f t) k = f (tableGet d t k) := by
  induction t with
  | nil => simp [tableMap, tableGet, hf]
  | cons e rest ih =>
    have hstep : tableMap d f (e :: rest) = tableSet d (tableMap d f rest) e.1 (f e.2) := rfl
    rw [hstep, tableGet_set]
    by_cases h : k = e.1
    · simp [h, tableGet]
    · simp [h, tableGet, Ne.symm h, ih]

theorem tableGet_of_mem_map (d v : α) (l : List (Fin n)) (k : Fin n) (h : k ∈ l) :
    tableGet d (l.map (fun k => (k, v))) k = v := by
  induction l with
  | nil => simp at h
  | cons a rest ih =>
    by_cases ha : a = k
    · simp [tableGet, ha]
    · have : k ∈ rest := by
        rcases List.mem_cons.mp h with h' | h'
        · exact absurd h'.symm ha
        · exact h'
      simpa [tableGet, ha] using ih this

/-- After a fill every index reads the value. -/
@[simp] theorem tableGet_fill [DecidableEq α] (d v : α) (k : Fin n) : tableGet d (tableFill d v : Table n α) k = v := by
  by_cases h : v = d
  · simp [tableFill, h, tableGet]
  · simp [tableFill, h, tableGet_of_mem_map d v _ k (List.mem_finRange k)]

/-- Reading an empty table. -/
@[simp] theorem tableGet_nil (d : α) (k : Fin n) : tableGet d ([] : Table n α) k = d := rfl

/-- What an index reads after the entries of some indices are dropped. -/
theorem tableGet_filter_keys (d : α) (t : Table n α) (p : Fin n → Bool) (k : Fin n) :
    tableGet d (t.filter (fun e => p e.1)) k = if p k then tableGet d t k else d := by
  induction t with
  | nil => simp [tableGet]
  | cons e rest ih =>
    by_cases hp : p e.1
    · by_cases hk : e.1 = k
      · subst hk; simp [hp, tableGet]
      · simp only [List.filter_cons, hp, if_true, tableGet, hk, if_false]; exact ih
    · by_cases hk : e.1 = k
      · subst hk; simp only [List.filter_cons, hp]; simpa [hp, tableGet] using ih
      · simp only [List.filter_cons, hp, tableGet, hk, if_false]; simpa using ih

/-- A test that every index of a table passes. -/
theorem tableAll_iff (d : α) (p : α → Bool) (t : Table n α) (hd : p d = true) :
    tableAll d p t = true ↔ ∀ k, p (tableGet d t k) = true := by
  constructor
  · intro h k
    by_cases hk : ∃ e ∈ t, e.1 = k
    · obtain ⟨e, he, rfl⟩ := hk
      exact (List.all_eq_true.mp h) e he
    · rw [tableGet_not_mem d t k (fun e he hh => hk ⟨e, he, hh⟩)]; exact hd
  · intro h
    exact List.all_eq_true.mpr (fun e _ => h e.1)

/-! ### The canonical form -/

/-- The empty table is canonical. -/
theorem tableWf_nil (d : α) : TableWf d ([] : Table n α) :=
  ⟨List.Pairwise.nil, fun _ he => absurd he List.not_mem_nil⟩

/-- Dropping entries keeps the canonical form. -/
theorem tableWf_filter {d : α} {t : Table n α} (h : TableWf d t) (p : Fin n × α → Bool) :
    TableWf d (t.filter p) :=
  ⟨h.1.filter p, fun e he => h.2 e (List.mem_filter.mp he).1⟩

theorem tableInsert_mem (t : Table n α) (k : Fin n) (v : α) (e : Fin n × α)
    (h : e ∈ tableInsert t k v) : e = (k, v) ∨ e ∈ t := by
  induction t with
  | nil => simpa [tableInsert] using h
  | cons a rest ih =>
    by_cases hlt : k < a.1
    · simpa [tableInsert, hlt] using h
    · simp only [tableInsert, hlt, if_false, List.mem_cons] at h ⊢
      rcases h with h | h
      · exact .inr (.inl h)
      · rcases ih h with h | h
        · exact .inl h
        · exact .inr (.inr h)

theorem tableInsert_pairwise (t : Table n α) (k : Fin n) (v : α)
    (h : t.Pairwise (fun a b => a.1 < b.1)) (hk : ∀ e ∈ t, e.1 ≠ k) :
    (tableInsert t k v).Pairwise (fun a b => a.1 < b.1) := by
  induction t with
  | nil => simp [tableInsert]
  | cons a rest ih =>
    obtain ⟨h1, h2⟩ := List.pairwise_cons.mp h
    by_cases hlt : k < a.1
    · simp only [tableInsert, hlt, if_true]
      refine List.pairwise_cons.mpr ⟨?_, h⟩
      intro e he
      rcases List.mem_cons.mp he with rfl | he
      · exact hlt
      · exact lt_trans hlt (h1 e he)
    · simp only [tableInsert, hlt, if_false]
      refine List.pairwise_cons.mpr ⟨?_, ih h2 (fun e he => hk e (by simp [he]))⟩
      intro e he
      rcases tableInsert_mem rest k v e he with rfl | he
      · exact lt_of_le_of_ne (not_lt.mp hlt) (hk a (by simp))
      · exact h1 e he

/-- Every write keeps the canonical form. -/
theorem tableWf_set [DecidableEq α] {d : α} {t : Table n α} (h : TableWf d t) (k : Fin n) (v : α) :
    TableWf d (tableSet d t k v) := by
  have he : TableWf d (tableErase t k) := tableWf_filter h _
  by_cases hv : v = d
  · simpa only [tableSet, hv, if_true] using he
  · simp only [tableSet, hv, if_false]
    refine ⟨tableInsert_pairwise _ k v he.1 (tableErase_keys_ne t k), ?_⟩
    intro e hm
    rcases tableInsert_mem _ k v e hm with rfl | hm
    · exact hv
    · exact he.2 e hm

/-- A whole-table map gives a canonical table. -/
theorem tableWf_map [DecidableEq α] (d : α) (f : α → α) (t : Table n α) : TableWf d (tableMap d f t) := by
  induction t with
  | nil => exact tableWf_nil d
  | cons e rest ih => exact tableWf_set ih e.1 (f e.2)

/-- A fill gives a canonical table. -/
theorem tableWf_fill [DecidableEq α] (d v : α) : TableWf d (tableFill d v : Table n α) := by
  by_cases h : v = d
  · simpa only [tableFill, h, if_true] using tableWf_nil d
  · refine ⟨?_, ?_⟩
    · simp only [tableFill, h, if_false]
      rw [List.pairwise_map]
      exact List.pairwise_lt_finRange n
    · simp only [tableFill, h, if_false]
      intro e he
      obtain ⟨k, -, rfl⟩ := List.mem_map.mp he
      exact h

/-- In canonical tables the reads say everything. -/
theorem tableWf_ext {d : α} {t u : Table n α} (ht : TableWf d t) (hu : TableWf d u)
    (h : ∀ k, tableGet d t k = tableGet d u k) : t = u := by
  have key : ∀ {t : Table n α}, TableWf d t → ∀ e, e ∈ t ↔ tableGet d t e.1 = e.2 ∧ e.2 ≠ d := by
    intro t ht e
    induction t with
    | nil =>
      constructor
      · intro h; simp at h
      · rintro ⟨h1, h2⟩; exact absurd h1.symm h2
    | cons a rest ih =>
      obtain ⟨hp, hr⟩ := List.pairwise_cons.mp ht.1
      have ihr := ih ⟨hr, fun e he => ht.2 e (by simp [he])⟩
      by_cases hk : a.1 = e.1
      · simp only [List.mem_cons, tableGet, hk, if_true]
        constructor
        · rintro (rfl | hm)
          · exact ⟨rfl, ht.2 _ (by simp)⟩
          · exact absurd (hp e hm) (by simp [hk])
        · rintro ⟨h1, -⟩
          exact .inl (Prod.ext hk.symm h1.symm)
      · simp only [List.mem_cons, tableGet, hk, if_false]
        constructor
        · rintro (rfl | hm)
          · exact absurd rfl hk
          · exact ihr.mp hm
        · intro h; exact .inr (ihr.mpr h)
  have hmem : ∀ e, e ∈ t ↔ e ∈ u := fun e => by rw [key ht, key hu, h]
  have hperm : t.Perm u := by
    refine (List.perm_ext_iff_of_nodup ?_ ?_).mpr hmem
    · exact ht.1.imp (fun {a b} hab hh => by simp [hh] at hab)
    · exact hu.1.imp (fun {a b} hab hh => by simp [hh] at hab)
  exact hperm.eq_of_pairwise (le := fun a b => a.1 < b.1)
    (fun a b _ _ h1 h2 => absurd h1 (not_lt.mpr h2.le)) ht.1 hu.1

end Sys2Proof.Machine
end

