-- ==== Sys2Proof/Laws/State.lean ====
section
/-! SUPPORT. One lemma per field per update of State, and what each table reads after each write. -/

namespace Sys2Proof.Machine

variable (s : State)

/-! ### setEntry -/

@[simp] theorem State.setEntry_running (t : Tag) (e : EntryState) :
    (s.setEntry t e).running = s.running := rfl
@[simp] theorem State.setEntry_link_latency (t : Tag) (e : EntryState) :
    (s.setEntry t e).link.latency = s.link.latency := rfl
@[simp] theorem State.setEntry_link_locked (t : Tag) (e : EntryState) :
    (s.setEntry t e).link.locked = s.link.locked := rfl
@[simp] theorem State.setEntry_link_toMemory (t : Tag) (e : EntryState) :
    (s.setEntry t e).link.toMemory = s.link.toMemory := rfl
@[simp] theorem State.setEntry_link_toSwitch (t : Tag) (e : EntryState) :
    (s.setEntry t e).link.toSwitch = s.link.toSwitch := rfl
@[simp] theorem State.setEntry_link_memoryPins (t : Tag) (e : EntryState) :
    (s.setEntry t e).link.memoryPins = s.link.memoryPins := rfl
@[simp] theorem State.setEntry_link_switchPins (t : Tag) (e : EntryState) :
    (s.setEntry t e).link.switchPins = s.link.switchPins := rfl
@[simp] theorem State.setEntry_profile (t : Tag) (e : EntryState) :
    (s.setEntry t e).profile = s.profile := rfl
@[simp] theorem State.setEntry_depths (t : Tag) (e : EntryState) :
    (s.setEntry t e).depths = s.depths := rfl
@[simp] theorem State.setEntry_ft (t : Tag) (e : EntryState) : (s.setEntry t e).ft = s.ft := rfl
@[simp] theorem State.setEntry_gc (t : Tag) (e : EntryState) : (s.setEntry t e).gc = s.gc := rfl
@[simp] theorem State.setEntry_time (t : Tag) (e : EntryState) :
    (s.setEntry t e).time = s.time := rfl
@[simp] theorem State.setEntry_mode (t : Tag) (e : EntryState) :
    (s.setEntry t e).mode = s.mode := rfl
@[simp] theorem State.setEntry_log (t : Tag) (e : EntryState) : (s.setEntry t e).log = s.log := rfl
@[simp] theorem State.setEntry_counters (t : Tag) (e : EntryState) :
    (s.setEntry t e).counters = s.counters := rfl
@[simp] theorem State.setEntry_alerts (t : Tag) (e : EntryState) :
    (s.setEntry t e).alerts = s.alerts := rfl
@[simp] theorem State.setEntry_port (t : Tag) (e : EntryState) :
    (s.setEntry t e).port = s.port := rfl
@[simp] theorem State.setEntry_draws (t : Tag) (e : EntryState) :
    (s.setEntry t e).draws = s.draws := rfl
@[simp] theorem State.setEntry_pending (t : Tag) (e : EntryState) :
    (s.setEntry t e).pending = s.pending := rfl
@[simp] theorem State.setEntry_queue (t : Tag) (e : EntryState) (q' : QueueId) :
    (s.setEntry t e).queue q' = s.queue q' := rfl
@[simp] theorem State.setEntry_classNumber (t : Tag) (e : EntryState) (q' : QueueId) :
    (s.setEntry t e).classNumber q' = s.classNumber q' := rfl
@[simp] theorem State.setEntry_classRecord (t : Tag) (e : EntryState) (c' : ClassId) :
    (s.setEntry t e).classRecord c' = s.classRecord c' := rfl
@[simp] theorem State.setEntry_queueClass (t : Tag) (e : EntryState) (q' : QueueId) :
    (s.setEntry t e).queueClass q' = s.queueClass q' := rfl
@[simp] theorem State.setEntry_flow (t : Tag) (e : EntryState) (i' : FlowId) :
    (s.setEntry t e).flow i' = s.flow i' := rfl
@[simp] theorem State.setEntry_group (t : Tag) (e : EntryState) (g' : GroupId) :
    (s.setEntry t e).group g' = s.group g' := rfl
@[simp] theorem State.setEntry_total (t : Tag) (e : EntryState) (q' : QueueId) :
    (s.setEntry t e).total q' = s.total q' := rfl
@[simp] theorem State.setEntry_ramp (t : Tag) (e : EntryState) (p' : RampId) :
    (s.setEntry t e).ramp p' = s.ramp p' := rfl
@[simp] theorem State.setEntry_counter (t : Tag) (e : EntryState) (c' : CounterId) :
    (s.setEntry t e).counter c' = s.counter c' := rfl
@[simp] theorem State.setEntry_now (t : Tag) (e : EntryState) : (s.setEntry t e).now = s.now := rfl
@[simp] theorem State.setEntry_anyEpisode (t : Tag) (e : EntryState) :
    (s.setEntry t e).anyEpisode = s.anyEpisode := rfl
@[simp] theorem State.setEntry_stream (t : Tag) (e : EntryState) (d' : Direction) :
    (s.setEntry t e).stream d' = s.stream d' := rfl

/-! ### setQueue -/

@[simp] theorem State.setQueue_running (q : QueueId) (r : QueueRecord) :
    (s.setQueue q r).running = s.running := rfl
@[simp] theorem State.setQueue_link (q : QueueId) (r : QueueRecord) :
    (s.setQueue q r).link = s.link := rfl
@[simp] theorem State.setQueue_profile (q : QueueId) (r : QueueRecord) :
    (s.setQueue q r).profile = s.profile := rfl
@[simp] theorem State.setQueue_depths_classOf (q : QueueId) (r : QueueRecord) :
    (s.setQueue q r).depths.classOf = s.depths.classOf := rfl
@[simp] theorem State.setQueue_depths_classes (q : QueueId) (r : QueueRecord) :
    (s.setQueue q r).depths.classes = s.depths.classes := rfl
@[simp] theorem State.setQueue_depths_quietTime (q : QueueId) (r : QueueRecord) :
    (s.setQueue q r).depths.quietTime = s.depths.quietTime := rfl
@[simp] theorem State.setQueue_ft (q : QueueId) (r : QueueRecord) :
    (s.setQueue q r).ft = s.ft := rfl
@[simp] theorem State.setQueue_gc (q : QueueId) (r : QueueRecord) :
    (s.setQueue q r).gc = s.gc := rfl
@[simp] theorem State.setQueue_time (q : QueueId) (r : QueueRecord) :
    (s.setQueue q r).time = s.time := rfl
@[simp] theorem State.setQueue_mode (q : QueueId) (r : QueueRecord) :
    (s.setQueue q r).mode = s.mode := rfl
@[simp] theorem State.setQueue_log (q : QueueId) (r : QueueRecord) :
    (s.setQueue q r).log = s.log := rfl
@[simp] theorem State.setQueue_counters (q : QueueId) (r : QueueRecord) :
    (s.setQueue q r).counters = s.counters := rfl
@[simp] theorem State.setQueue_alerts (q : QueueId) (r : QueueRecord) :
    (s.setQueue q r).alerts = s.alerts := rfl
@[simp] theorem State.setQueue_port (q : QueueId) (r : QueueRecord) :
    (s.setQueue q r).port = s.port := rfl
@[simp] theorem State.setQueue_draws (q : QueueId) (r : QueueRecord) :
    (s.setQueue q r).draws = s.draws := rfl
@[simp] theorem State.setQueue_pending (q : QueueId) (r : QueueRecord) :
    (s.setQueue q r).pending = s.pending := rfl
@[simp] theorem State.setQueue_entry (q : QueueId) (r : QueueRecord) (t' : Tag) :
    (s.setQueue q r).entry t' = s.entry t' := rfl
@[simp] theorem State.setQueue_classNumber (q : QueueId) (r : QueueRecord) (q' : QueueId) :
    (s.setQueue q r).classNumber q' = s.classNumber q' := rfl
@[simp] theorem State.setQueue_classRecord (q : QueueId) (r : QueueRecord) (c' : ClassId) :
    (s.setQueue q r).classRecord c' = s.classRecord c' := rfl
@[simp] theorem State.setQueue_queueClass (q : QueueId) (r : QueueRecord) (q' : QueueId) :
    (s.setQueue q r).queueClass q' = s.queueClass q' := rfl
@[simp] theorem State.setQueue_flow (q : QueueId) (r : QueueRecord) (i' : FlowId) :
    (s.setQueue q r).flow i' = s.flow i' := rfl
@[simp] theorem State.setQueue_group (q : QueueId) (r : QueueRecord) (g' : GroupId) :
    (s.setQueue q r).group g' = s.group g' := rfl
@[simp] theorem State.setQueue_total (q : QueueId) (r : QueueRecord) (q' : QueueId) :
    (s.setQueue q r).total q' = s.total q' := rfl
@[simp] theorem State.setQueue_ramp (q : QueueId) (r : QueueRecord) (p' : RampId) :
    (s.setQueue q r).ramp p' = s.ramp p' := rfl
@[simp] theorem State.setQueue_counter (q : QueueId) (r : QueueRecord) (c' : CounterId) :
    (s.setQueue q r).counter c' = s.counter c' := rfl
@[simp] theorem State.setQueue_now (q : QueueId) (r : QueueRecord) :
    (s.setQueue q r).now = s.now := rfl
@[simp] theorem State.setQueue_anyEpisode (q : QueueId) (r : QueueRecord) :
    (s.setQueue q r).anyEpisode = s.anyEpisode := rfl
@[simp] theorem State.setQueue_stream (q : QueueId) (r : QueueRecord) (d' : Direction) :
    (s.setQueue q r).stream d' = s.stream d' := rfl

/-! ### setFlow -/

@[simp] theorem State.setFlow_running (i : FlowId) (r : FlowRecord) :
    (s.setFlow i r).running = s.running := rfl
@[simp] theorem State.setFlow_link (i : FlowId) (r : FlowRecord) :
    (s.setFlow i r).link = s.link := rfl
@[simp] theorem State.setFlow_profile (i : FlowId) (r : FlowRecord) :
    (s.setFlow i r).profile = s.profile := rfl
@[simp] theorem State.setFlow_depths (i : FlowId) (r : FlowRecord) :
    (s.setFlow i r).depths = s.depths := rfl
@[simp] theorem State.setFlow_ft_idleTime (i : FlowId) (r : FlowRecord) :
    (s.setFlow i r).ft.idleTime = s.ft.idleTime := rfl
@[simp] theorem State.setFlow_ft_handshakeTime (i : FlowId) (r : FlowRecord) :
    (s.setFlow i r).ft.handshakeTime = s.ft.handshakeTime := rfl
@[simp] theorem State.setFlow_ft_sweepPeriod (i : FlowId) (r : FlowRecord) :
    (s.setFlow i r).ft.sweepPeriod = s.ft.sweepPeriod := rfl
@[simp] theorem State.setFlow_ft_seed (i : FlowId) (r : FlowRecord) :
    (s.setFlow i r).ft.seed = s.ft.seed := rfl
@[simp] theorem State.setFlow_ft_sweep (i : FlowId) (r : FlowRecord) :
    (s.setFlow i r).ft.sweep = s.ft.sweep := rfl
@[simp] theorem State.setFlow_gc (i : FlowId) (r : FlowRecord) : (s.setFlow i r).gc = s.gc := rfl
@[simp] theorem State.setFlow_time (i : FlowId) (r : FlowRecord) :
    (s.setFlow i r).time = s.time := rfl
@[simp] theorem State.setFlow_mode (i : FlowId) (r : FlowRecord) :
    (s.setFlow i r).mode = s.mode := rfl
@[simp] theorem State.setFlow_log (i : FlowId) (r : FlowRecord) : (s.setFlow i r).log = s.log := rfl
@[simp] theorem State.setFlow_counters (i : FlowId) (r : FlowRecord) :
    (s.setFlow i r).counters = s.counters := rfl
@[simp] theorem State.setFlow_alerts (i : FlowId) (r : FlowRecord) :
    (s.setFlow i r).alerts = s.alerts := rfl
@[simp] theorem State.setFlow_port (i : FlowId) (r : FlowRecord) :
    (s.setFlow i r).port = s.port := rfl
@[simp] theorem State.setFlow_draws (i : FlowId) (r : FlowRecord) :
    (s.setFlow i r).draws = s.draws := rfl
@[simp] theorem State.setFlow_pending (i : FlowId) (r : FlowRecord) :
    (s.setFlow i r).pending = s.pending := rfl
@[simp] theorem State.setFlow_entry (i : FlowId) (r : FlowRecord) (t' : Tag) :
    (s.setFlow i r).entry t' = s.entry t' := rfl
@[simp] theorem State.setFlow_queue (i : FlowId) (r : FlowRecord) (q' : QueueId) :
    (s.setFlow i r).queue q' = s.queue q' := rfl
@[simp] theorem State.setFlow_classNumber (i : FlowId) (r : FlowRecord) (q' : QueueId) :
    (s.setFlow i r).classNumber q' = s.classNumber q' := rfl
@[simp] theorem State.setFlow_classRecord (i : FlowId) (r : FlowRecord) (c' : ClassId) :
    (s.setFlow i r).classRecord c' = s.classRecord c' := rfl
@[simp] theorem State.setFlow_queueClass (i : FlowId) (r : FlowRecord) (q' : QueueId) :
    (s.setFlow i r).queueClass q' = s.queueClass q' := rfl
@[simp] theorem State.setFlow_group (i : FlowId) (r : FlowRecord) (g' : GroupId) :
    (s.setFlow i r).group g' = s.group g' := rfl
@[simp] theorem State.setFlow_total (i : FlowId) (r : FlowRecord) (q' : QueueId) :
    (s.setFlow i r).total q' = s.total q' := rfl
@[simp] theorem State.setFlow_ramp (i : FlowId) (r : FlowRecord) (p' : RampId) :
    (s.setFlow i r).ramp p' = s.ramp p' := rfl
@[simp] theorem State.setFlow_counter (i : FlowId) (r : FlowRecord) (c' : CounterId) :
    (s.setFlow i r).counter c' = s.counter c' := rfl
@[simp] theorem State.setFlow_now (i : FlowId) (r : FlowRecord) : (s.setFlow i r).now = s.now := rfl
@[simp] theorem State.setFlow_anyEpisode (i : FlowId) (r : FlowRecord) :
    (s.setFlow i r).anyEpisode = s.anyEpisode := rfl
@[simp] theorem State.setFlow_stream (i : FlowId) (r : FlowRecord) (d' : Direction) :
    (s.setFlow i r).stream d' = s.stream d' := rfl

/-! ### setGroup -/

@[simp] theorem State.setGroup_running (g : GroupId) (r : GroupRecord) :
    (s.setGroup g r).running = s.running := rfl
@[simp] theorem State.setGroup_link (g : GroupId) (r : GroupRecord) :
    (s.setGroup g r).link = s.link := rfl
@[simp] theorem State.setGroup_profile (g : GroupId) (r : GroupRecord) :
    (s.setGroup g r).profile = s.profile := rfl
@[simp] theorem State.setGroup_depths (g : GroupId) (r : GroupRecord) :
    (s.setGroup g r).depths = s.depths := rfl
@[simp] theorem State.setGroup_ft (g : GroupId) (r : GroupRecord) :
    (s.setGroup g r).ft = s.ft := rfl
@[simp] theorem State.setGroup_gc_totals (g : GroupId) (r : GroupRecord) :
    (s.setGroup g r).gc.totals = s.gc.totals := rfl
@[simp] theorem State.setGroup_gc_lingerTime (g : GroupId) (r : GroupRecord) :
    (s.setGroup g r).gc.lingerTime = s.gc.lingerTime := rfl
@[simp] theorem State.setGroup_time (g : GroupId) (r : GroupRecord) :
    (s.setGroup g r).time = s.time := rfl
@[simp] theorem State.setGroup_mode (g : GroupId) (r : GroupRecord) :
    (s.setGroup g r).mode = s.mode := rfl
@[simp] theorem State.setGroup_log (g : GroupId) (r : GroupRecord) :
    (s.setGroup g r).log = s.log := rfl
@[simp] theorem State.setGroup_counters (g : GroupId) (r : GroupRecord) :
    (s.setGroup g r).counters = s.counters := rfl
@[simp] theorem State.setGroup_alerts (g : GroupId) (r : GroupRecord) :
    (s.setGroup g r).alerts = s.alerts := rfl
@[simp] theorem State.setGroup_port (g : GroupId) (r : GroupRecord) :
    (s.setGroup g r).port = s.port := rfl
@[simp] theorem State.setGroup_draws (g : GroupId) (r : GroupRecord) :
    (s.setGroup g r).draws = s.draws := rfl
@[simp] theorem State.setGroup_pending (g : GroupId) (r : GroupRecord) :
    (s.setGroup g r).pending = s.pending := rfl
@[simp] theorem State.setGroup_entry (g : GroupId) (r : GroupRecord) (t' : Tag) :
    (s.setGroup g r).entry t' = s.entry t' := rfl
@[simp] theorem State.setGroup_queue (g : GroupId) (r : GroupRecord) (q' : QueueId) :
    (s.setGroup g r).queue q' = s.queue q' := rfl
@[simp] theorem State.setGroup_classNumber (g : GroupId) (r : GroupRecord) (q' : QueueId) :
    (s.setGroup g r).classNumber q' = s.classNumber q' := rfl
@[simp] theorem State.setGroup_classRecord (g : GroupId) (r : GroupRecord) (c' : ClassId) :
    (s.setGroup g r).classRecord c' = s.classRecord c' := rfl
@[simp] theorem State.setGroup_queueClass (g : GroupId) (r : GroupRecord) (q' : QueueId) :
    (s.setGroup g r).queueClass q' = s.queueClass q' := rfl
@[simp] theorem State.setGroup_flow (g : GroupId) (r : GroupRecord) (i' : FlowId) :
    (s.setGroup g r).flow i' = s.flow i' := rfl
@[simp] theorem State.setGroup_total (g : GroupId) (r : GroupRecord) (q' : QueueId) :
    (s.setGroup g r).total q' = s.total q' := rfl
@[simp] theorem State.setGroup_ramp (g : GroupId) (r : GroupRecord) (p' : RampId) :
    (s.setGroup g r).ramp p' = s.ramp p' := rfl
@[simp] theorem State.setGroup_counter (g : GroupId) (r : GroupRecord) (c' : CounterId) :
    (s.setGroup g r).counter c' = s.counter c' := rfl
@[simp] theorem State.setGroup_now (g : GroupId) (r : GroupRecord) :
    (s.setGroup g r).now = s.now := rfl
@[simp] theorem State.setGroup_stream (g : GroupId) (r : GroupRecord) (d' : Direction) :
    (s.setGroup g r).stream d' = s.stream d' := rfl

/-! ### setTotal -/

@[simp] theorem State.setTotal_running (q : QueueId) (n : Nat) :
    (s.setTotal q n).running = s.running := rfl
@[simp] theorem State.setTotal_link (q : QueueId) (n : Nat) : (s.setTotal q n).link = s.link := rfl
@[simp] theorem State.setTotal_profile (q : QueueId) (n : Nat) :
    (s.setTotal q n).profile = s.profile := rfl
@[simp] theorem State.setTotal_depths (q : QueueId) (n : Nat) :
    (s.setTotal q n).depths = s.depths := rfl
@[simp] theorem State.setTotal_ft (q : QueueId) (n : Nat) : (s.setTotal q n).ft = s.ft := rfl
@[simp] theorem State.setTotal_gc_groups (q : QueueId) (n : Nat) :
    (s.setTotal q n).gc.groups = s.gc.groups := rfl
@[simp] theorem State.setTotal_gc_lingerTime (q : QueueId) (n : Nat) :
    (s.setTotal q n).gc.lingerTime = s.gc.lingerTime := rfl
@[simp] theorem State.setTotal_time (q : QueueId) (n : Nat) : (s.setTotal q n).time = s.time := rfl
@[simp] theorem State.setTotal_mode (q : QueueId) (n : Nat) : (s.setTotal q n).mode = s.mode := rfl
@[simp] theorem State.setTotal_log (q : QueueId) (n : Nat) : (s.setTotal q n).log = s.log := rfl
@[simp] theorem State.setTotal_counters (q : QueueId) (n : Nat) :
    (s.setTotal q n).counters = s.counters := rfl
@[simp] theorem State.setTotal_alerts (q : QueueId) (n : Nat) :
    (s.setTotal q n).alerts = s.alerts := rfl
@[simp] theorem State.setTotal_port (q : QueueId) (n : Nat) : (s.setTotal q n).port = s.port := rfl
@[simp] theorem State.setTotal_draws (q : QueueId) (n : Nat) :
    (s.setTotal q n).draws = s.draws := rfl
@[simp] theorem State.setTotal_pending (q : QueueId) (n : Nat) :
    (s.setTotal q n).pending = s.pending := rfl
@[simp] theorem State.setTotal_entry (q : QueueId) (n : Nat) (t' : Tag) :
    (s.setTotal q n).entry t' = s.entry t' := rfl
@[simp] theorem State.setTotal_queue (q : QueueId) (n : Nat) (q' : QueueId) :
    (s.setTotal q n).queue q' = s.queue q' := rfl
@[simp] theorem State.setTotal_classNumber (q : QueueId) (n : Nat) (q' : QueueId) :
    (s.setTotal q n).classNumber q' = s.classNumber q' := rfl
@[simp] theorem State.setTotal_classRecord (q : QueueId) (n : Nat) (c' : ClassId) :
    (s.setTotal q n).classRecord c' = s.classRecord c' := rfl
@[simp] theorem State.setTotal_queueClass (q : QueueId) (n : Nat) (q' : QueueId) :
    (s.setTotal q n).queueClass q' = s.queueClass q' := rfl
@[simp] theorem State.setTotal_flow (q : QueueId) (n : Nat) (i' : FlowId) :
    (s.setTotal q n).flow i' = s.flow i' := rfl
@[simp] theorem State.setTotal_group (q : QueueId) (n : Nat) (g' : GroupId) :
    (s.setTotal q n).group g' = s.group g' := rfl
@[simp] theorem State.setTotal_ramp (q : QueueId) (n : Nat) (p' : RampId) :
    (s.setTotal q n).ramp p' = s.ramp p' := rfl
@[simp] theorem State.setTotal_counter (q : QueueId) (n : Nat) (c' : CounterId) :
    (s.setTotal q n).counter c' = s.counter c' := rfl
@[simp] theorem State.setTotal_now (q : QueueId) (n : Nat) : (s.setTotal q n).now = s.now := rfl
@[simp] theorem State.setTotal_anyEpisode (q : QueueId) (n : Nat) :
    (s.setTotal q n).anyEpisode = s.anyEpisode := rfl
@[simp] theorem State.setTotal_stream (q : QueueId) (n : Nat) (d' : Direction) :
    (s.setTotal q n).stream d' = s.stream d' := rfl

/-! ### bump -/

@[simp] theorem State.bump_running (c : CounterId) : (s.bump c).running = s.running := rfl
@[simp] theorem State.bump_link (c : CounterId) : (s.bump c).link = s.link := rfl
@[simp] theorem State.bump_profile (c : CounterId) : (s.bump c).profile = s.profile := rfl
@[simp] theorem State.bump_depths (c : CounterId) : (s.bump c).depths = s.depths := rfl
@[simp] theorem State.bump_ft (c : CounterId) : (s.bump c).ft = s.ft := rfl
@[simp] theorem State.bump_gc (c : CounterId) : (s.bump c).gc = s.gc := rfl
@[simp] theorem State.bump_time (c : CounterId) : (s.bump c).time = s.time := rfl
@[simp] theorem State.bump_mode (c : CounterId) : (s.bump c).mode = s.mode := rfl
@[simp] theorem State.bump_log (c : CounterId) : (s.bump c).log = s.log := rfl
@[simp] theorem State.bump_alerts (c : CounterId) : (s.bump c).alerts = s.alerts := rfl
@[simp] theorem State.bump_port (c : CounterId) : (s.bump c).port = s.port := rfl
@[simp] theorem State.bump_draws (c : CounterId) : (s.bump c).draws = s.draws := rfl
@[simp] theorem State.bump_pending (c : CounterId) : (s.bump c).pending = s.pending := rfl
@[simp] theorem State.bump_entry (c : CounterId) (t' : Tag) :
    (s.bump c).entry t' = s.entry t' := rfl
@[simp] theorem State.bump_queue (c : CounterId) (q' : QueueId) :
    (s.bump c).queue q' = s.queue q' := rfl
@[simp] theorem State.bump_classNumber (c : CounterId) (q' : QueueId) :
    (s.bump c).classNumber q' = s.classNumber q' := rfl
@[simp] theorem State.bump_classRecord (c : CounterId) (c' : ClassId) :
    (s.bump c).classRecord c' = s.classRecord c' := rfl
@[simp] theorem State.bump_queueClass (c : CounterId) (q' : QueueId) :
    (s.bump c).queueClass q' = s.queueClass q' := rfl
@[simp] theorem State.bump_flow (c : CounterId) (i' : FlowId) :
    (s.bump c).flow i' = s.flow i' := rfl
@[simp] theorem State.bump_group (c : CounterId) (g' : GroupId) :
    (s.bump c).group g' = s.group g' := rfl
@[simp] theorem State.bump_total (c : CounterId) (q' : QueueId) :
    (s.bump c).total q' = s.total q' := rfl
@[simp] theorem State.bump_ramp (c : CounterId) (p' : RampId) :
    (s.bump c).ramp p' = s.ramp p' := rfl
@[simp] theorem State.bump_now (c : CounterId) : (s.bump c).now = s.now := rfl
@[simp] theorem State.bump_anyEpisode (c : CounterId) : (s.bump c).anyEpisode = s.anyEpisode := rfl
@[simp] theorem State.bump_stream (c : CounterId) (d' : Direction) :
    (s.bump c).stream d' = s.stream d' := rfl

/-! ### flagLogOverflow -/

@[simp] theorem State.flagLogOverflow_running : (s.flagLogOverflow).running = s.running := rfl
@[simp] theorem State.flagLogOverflow_link : (s.flagLogOverflow).link = s.link := rfl
@[simp] theorem State.flagLogOverflow_profile : (s.flagLogOverflow).profile = s.profile := rfl
@[simp] theorem State.flagLogOverflow_depths : (s.flagLogOverflow).depths = s.depths := rfl
@[simp] theorem State.flagLogOverflow_ft : (s.flagLogOverflow).ft = s.ft := rfl
@[simp] theorem State.flagLogOverflow_gc : (s.flagLogOverflow).gc = s.gc := rfl
@[simp] theorem State.flagLogOverflow_time : (s.flagLogOverflow).time = s.time := rfl
@[simp] theorem State.flagLogOverflow_mode : (s.flagLogOverflow).mode = s.mode := rfl
@[simp] theorem State.flagLogOverflow_log : (s.flagLogOverflow).log = s.log := rfl
@[simp] theorem State.flagLogOverflow_counters : (s.flagLogOverflow).counters = s.counters := rfl
@[simp] theorem State.flagLogOverflow_alerts_onset :
    (s.flagLogOverflow).alerts.onset = s.alerts.onset := rfl
@[simp] theorem State.flagLogOverflow_alerts_flowFull :
    (s.flagLogOverflow).alerts.flowFull = s.alerts.flowFull := rfl
@[simp] theorem State.flagLogOverflow_alerts_groupFull :
    (s.flagLogOverflow).alerts.groupFull = s.alerts.groupFull := rfl
@[simp] theorem State.flagLogOverflow_alerts_linkCheck :
    (s.flagLogOverflow).alerts.linkCheck = s.alerts.linkCheck := rfl
@[simp] theorem State.flagLogOverflow_alerts_mask :
    (s.flagLogOverflow).alerts.mask = s.alerts.mask := rfl
@[simp] theorem State.flagLogOverflow_port : (s.flagLogOverflow).port = s.port := rfl
@[simp] theorem State.flagLogOverflow_draws : (s.flagLogOverflow).draws = s.draws := rfl
@[simp] theorem State.flagLogOverflow_pending : (s.flagLogOverflow).pending = s.pending := rfl
@[simp] theorem State.flagLogOverflow_entry (t' : Tag) :
    (s.flagLogOverflow).entry t' = s.entry t' := rfl
@[simp] theorem State.flagLogOverflow_queue (q' : QueueId) :
    (s.flagLogOverflow).queue q' = s.queue q' := rfl
@[simp] theorem State.flagLogOverflow_classNumber (q' : QueueId) :
    (s.flagLogOverflow).classNumber q' = s.classNumber q' := rfl
@[simp] theorem State.flagLogOverflow_classRecord (c' : ClassId) :
    (s.flagLogOverflow).classRecord c' = s.classRecord c' := rfl
@[simp] theorem State.flagLogOverflow_queueClass (q' : QueueId) :
    (s.flagLogOverflow).queueClass q' = s.queueClass q' := rfl
@[simp] theorem State.flagLogOverflow_flow (i' : FlowId) :
    (s.flagLogOverflow).flow i' = s.flow i' := rfl
@[simp] theorem State.flagLogOverflow_group (g' : GroupId) :
    (s.flagLogOverflow).group g' = s.group g' := rfl
@[simp] theorem State.flagLogOverflow_total (q' : QueueId) :
    (s.flagLogOverflow).total q' = s.total q' := rfl
@[simp] theorem State.flagLogOverflow_ramp (p' : RampId) :
    (s.flagLogOverflow).ramp p' = s.ramp p' := rfl
@[simp] theorem State.flagLogOverflow_counter (c' : CounterId) :
    (s.flagLogOverflow).counter c' = s.counter c' := rfl
@[simp] theorem State.flagLogOverflow_now : (s.flagLogOverflow).now = s.now := rfl
@[simp] theorem State.flagLogOverflow_anyEpisode :
    (s.flagLogOverflow).anyEpisode = s.anyEpisode := rfl
@[simp] theorem State.flagLogOverflow_stream (d' : Direction) :
    (s.flagLogOverflow).stream d' = s.stream d' := rfl

/-! ### flagOnset -/

@[simp] theorem State.flagOnset_running : (s.flagOnset).running = s.running := rfl
@[simp] theorem State.flagOnset_link : (s.flagOnset).link = s.link := rfl
@[simp] theorem State.flagOnset_profile : (s.flagOnset).profile = s.profile := rfl
@[simp] theorem State.flagOnset_depths : (s.flagOnset).depths = s.depths := rfl
@[simp] theorem State.flagOnset_ft : (s.flagOnset).ft = s.ft := rfl
@[simp] theorem State.flagOnset_gc : (s.flagOnset).gc = s.gc := rfl
@[simp] theorem State.flagOnset_time : (s.flagOnset).time = s.time := rfl
@[simp] theorem State.flagOnset_mode : (s.flagOnset).mode = s.mode := rfl
@[simp] theorem State.flagOnset_log : (s.flagOnset).log = s.log := rfl
@[simp] theorem State.flagOnset_counters : (s.flagOnset).counters = s.counters := rfl
@[simp] theorem State.flagOnset_alerts_logOverflow :
    (s.flagOnset).alerts.logOverflow = s.alerts.logOverflow := rfl
@[simp] theorem State.flagOnset_alerts_flowFull :
    (s.flagOnset).alerts.flowFull = s.alerts.flowFull := rfl
@[simp] theorem State.flagOnset_alerts_groupFull :
    (s.flagOnset).alerts.groupFull = s.alerts.groupFull := rfl
@[simp] theorem State.flagOnset_alerts_linkCheck :
    (s.flagOnset).alerts.linkCheck = s.alerts.linkCheck := rfl
@[simp] theorem State.flagOnset_alerts_mask : (s.flagOnset).alerts.mask = s.alerts.mask := rfl
@[simp] theorem State.flagOnset_port : (s.flagOnset).port = s.port := rfl
@[simp] theorem State.flagOnset_draws : (s.flagOnset).draws = s.draws := rfl
@[simp] theorem State.flagOnset_pending : (s.flagOnset).pending = s.pending := rfl
@[simp] theorem State.flagOnset_entry (t' : Tag) : (s.flagOnset).entry t' = s.entry t' := rfl
@[simp] theorem State.flagOnset_queue (q' : QueueId) : (s.flagOnset).queue q' = s.queue q' := rfl
@[simp] theorem State.flagOnset_classNumber (q' : QueueId) :
    (s.flagOnset).classNumber q' = s.classNumber q' := rfl
@[simp] theorem State.flagOnset_classRecord (c' : ClassId) :
    (s.flagOnset).classRecord c' = s.classRecord c' := rfl
@[simp] theorem State.flagOnset_queueClass (q' : QueueId) :
    (s.flagOnset).queueClass q' = s.queueClass q' := rfl
@[simp] theorem State.flagOnset_flow (i' : FlowId) : (s.flagOnset).flow i' = s.flow i' := rfl
@[simp] theorem State.flagOnset_group (g' : GroupId) : (s.flagOnset).group g' = s.group g' := rfl
@[simp] theorem State.flagOnset_total (q' : QueueId) : (s.flagOnset).total q' = s.total q' := rfl
@[simp] theorem State.flagOnset_ramp (p' : RampId) : (s.flagOnset).ramp p' = s.ramp p' := rfl
@[simp] theorem State.flagOnset_counter (c' : CounterId) :
    (s.flagOnset).counter c' = s.counter c' := rfl
@[simp] theorem State.flagOnset_now : (s.flagOnset).now = s.now := rfl
@[simp] theorem State.flagOnset_anyEpisode : (s.flagOnset).anyEpisode = s.anyEpisode := rfl
@[simp] theorem State.flagOnset_stream (d' : Direction) :
    (s.flagOnset).stream d' = s.stream d' := rfl

/-! ### flagFlowFull -/

@[simp] theorem State.flagFlowFull_running : (s.flagFlowFull).running = s.running := rfl
@[simp] theorem State.flagFlowFull_link : (s.flagFlowFull).link = s.link := rfl
@[simp] theorem State.flagFlowFull_profile : (s.flagFlowFull).profile = s.profile := rfl
@[simp] theorem State.flagFlowFull_depths : (s.flagFlowFull).depths = s.depths := rfl
@[simp] theorem State.flagFlowFull_ft : (s.flagFlowFull).ft = s.ft := rfl
@[simp] theorem State.flagFlowFull_gc : (s.flagFlowFull).gc = s.gc := rfl
@[simp] theorem State.flagFlowFull_time : (s.flagFlowFull).time = s.time := rfl
@[simp] theorem State.flagFlowFull_mode : (s.flagFlowFull).mode = s.mode := rfl
@[simp] theorem State.flagFlowFull_log : (s.flagFlowFull).log = s.log := rfl
@[simp] theorem State.flagFlowFull_counters : (s.flagFlowFull).counters = s.counters := rfl
@[simp] theorem State.flagFlowFull_alerts_logOverflow :
    (s.flagFlowFull).alerts.logOverflow = s.alerts.logOverflow := rfl
@[simp] theorem State.flagFlowFull_alerts_onset :
    (s.flagFlowFull).alerts.onset = s.alerts.onset := rfl
@[simp] theorem State.flagFlowFull_alerts_groupFull :
    (s.flagFlowFull).alerts.groupFull = s.alerts.groupFull := rfl
@[simp] theorem State.flagFlowFull_alerts_linkCheck :
    (s.flagFlowFull).alerts.linkCheck = s.alerts.linkCheck := rfl
@[simp] theorem State.flagFlowFull_alerts_mask : (s.flagFlowFull).alerts.mask = s.alerts.mask := rfl
@[simp] theorem State.flagFlowFull_port : (s.flagFlowFull).port = s.port := rfl
@[simp] theorem State.flagFlowFull_draws : (s.flagFlowFull).draws = s.draws := rfl
@[simp] theorem State.flagFlowFull_pending : (s.flagFlowFull).pending = s.pending := rfl
@[simp] theorem State.flagFlowFull_entry (t' : Tag) : (s.flagFlowFull).entry t' = s.entry t' := rfl
@[simp] theorem State.flagFlowFull_queue (q' : QueueId) :
    (s.flagFlowFull).queue q' = s.queue q' := rfl
@[simp] theorem State.flagFlowFull_classNumber (q' : QueueId) :
    (s.flagFlowFull).classNumber q' = s.classNumber q' := rfl
@[simp] theorem State.flagFlowFull_classRecord (c' : ClassId) :
    (s.flagFlowFull).classRecord c' = s.classRecord c' := rfl
@[simp] theorem State.flagFlowFull_queueClass (q' : QueueId) :
    (s.flagFlowFull).queueClass q' = s.queueClass q' := rfl
@[simp] theorem State.flagFlowFull_flow (i' : FlowId) : (s.flagFlowFull).flow i' = s.flow i' := rfl
@[simp] theorem State.flagFlowFull_group (g' : GroupId) :
    (s.flagFlowFull).group g' = s.group g' := rfl
@[simp] theorem State.flagFlowFull_total (q' : QueueId) :
    (s.flagFlowFull).total q' = s.total q' := rfl
@[simp] theorem State.flagFlowFull_ramp (p' : RampId) : (s.flagFlowFull).ramp p' = s.ramp p' := rfl
@[simp] theorem State.flagFlowFull_counter (c' : CounterId) :
    (s.flagFlowFull).counter c' = s.counter c' := rfl
@[simp] theorem State.flagFlowFull_now : (s.flagFlowFull).now = s.now := rfl
@[simp] theorem State.flagFlowFull_anyEpisode : (s.flagFlowFull).anyEpisode = s.anyEpisode := rfl
@[simp] theorem State.flagFlowFull_stream (d' : Direction) :
    (s.flagFlowFull).stream d' = s.stream d' := rfl

/-! ### flagGroupFull -/

@[simp] theorem State.flagGroupFull_running : (s.flagGroupFull).running = s.running := rfl
@[simp] theorem State.flagGroupFull_link : (s.flagGroupFull).link = s.link := rfl
@[simp] theorem State.flagGroupFull_profile : (s.flagGroupFull).profile = s.profile := rfl
@[simp] theorem State.flagGroupFull_depths : (s.flagGroupFull).depths = s.depths := rfl
@[simp] theorem State.flagGroupFull_ft : (s.flagGroupFull).ft = s.ft := rfl
@[simp] theorem State.flagGroupFull_gc : (s.flagGroupFull).gc = s.gc := rfl
@[simp] theorem State.flagGroupFull_time : (s.flagGroupFull).time = s.time := rfl
@[simp] theorem State.flagGroupFull_mode : (s.flagGroupFull).mode = s.mode := rfl
@[simp] theorem State.flagGroupFull_log : (s.flagGroupFull).log = s.log := rfl
@[simp] theorem State.flagGroupFull_counters : (s.flagGroupFull).counters = s.counters := rfl
@[simp] theorem State.flagGroupFull_alerts_logOverflow :
    (s.flagGroupFull).alerts.logOverflow = s.alerts.logOverflow := rfl
@[simp] theorem State.flagGroupFull_alerts_onset :
    (s.flagGroupFull).alerts.onset = s.alerts.onset := rfl
@[simp] theorem State.flagGroupFull_alerts_flowFull :
    (s.flagGroupFull).alerts.flowFull = s.alerts.flowFull := rfl
@[simp] theorem State.flagGroupFull_alerts_linkCheck :
    (s.flagGroupFull).alerts.linkCheck = s.alerts.linkCheck := rfl
@[simp] theorem State.flagGroupFull_alerts_mask :
    (s.flagGroupFull).alerts.mask = s.alerts.mask := rfl
@[simp] theorem State.flagGroupFull_port : (s.flagGroupFull).port = s.port := rfl
@[simp] theorem State.flagGroupFull_draws : (s.flagGroupFull).draws = s.draws := rfl
@[simp] theorem State.flagGroupFull_pending : (s.flagGroupFull).pending = s.pending := rfl
@[simp] theorem State.flagGroupFull_entry (t' : Tag) :
    (s.flagGroupFull).entry t' = s.entry t' := rfl
@[simp] theorem State.flagGroupFull_queue (q' : QueueId) :
    (s.flagGroupFull).queue q' = s.queue q' := rfl
@[simp] theorem State.flagGroupFull_classNumber (q' : QueueId) :
    (s.flagGroupFull).classNumber q' = s.classNumber q' := rfl
@[simp] theorem State.flagGroupFull_classRecord (c' : ClassId) :
    (s.flagGroupFull).classRecord c' = s.classRecord c' := rfl
@[simp] theorem State.flagGroupFull_queueClass (q' : QueueId) :
    (s.flagGroupFull).queueClass q' = s.queueClass q' := rfl
@[simp] theorem State.flagGroupFull_flow (i' : FlowId) :
    (s.flagGroupFull).flow i' = s.flow i' := rfl
@[simp] theorem State.flagGroupFull_group (g' : GroupId) :
    (s.flagGroupFull).group g' = s.group g' := rfl
@[simp] theorem State.flagGroupFull_total (q' : QueueId) :
    (s.flagGroupFull).total q' = s.total q' := rfl
@[simp] theorem State.flagGroupFull_ramp (p' : RampId) :
    (s.flagGroupFull).ramp p' = s.ramp p' := rfl
@[simp] theorem State.flagGroupFull_counter (c' : CounterId) :
    (s.flagGroupFull).counter c' = s.counter c' := rfl
@[simp] theorem State.flagGroupFull_now : (s.flagGroupFull).now = s.now := rfl
@[simp] theorem State.flagGroupFull_anyEpisode : (s.flagGroupFull).anyEpisode = s.anyEpisode := rfl
@[simp] theorem State.flagGroupFull_stream (d' : Direction) :
    (s.flagGroupFull).stream d' = s.stream d' := rfl

/-! ### flagLinkCheck -/

@[simp] theorem State.flagLinkCheck_running : (s.flagLinkCheck).running = s.running := rfl
@[simp] theorem State.flagLinkCheck_link : (s.flagLinkCheck).link = s.link := rfl
@[simp] theorem State.flagLinkCheck_profile : (s.flagLinkCheck).profile = s.profile := rfl
@[simp] theorem State.flagLinkCheck_depths : (s.flagLinkCheck).depths = s.depths := rfl
@[simp] theorem State.flagLinkCheck_ft : (s.flagLinkCheck).ft = s.ft := rfl
@[simp] theorem State.flagLinkCheck_gc : (s.flagLinkCheck).gc = s.gc := rfl
@[simp] theorem State.flagLinkCheck_time : (s.flagLinkCheck).time = s.time := rfl
@[simp] theorem State.flagLinkCheck_mode : (s.flagLinkCheck).mode = s.mode := rfl
@[simp] theorem State.flagLinkCheck_log : (s.flagLinkCheck).log = s.log := rfl
@[simp] theorem State.flagLinkCheck_counters : (s.flagLinkCheck).counters = s.counters := rfl
@[simp] theorem State.flagLinkCheck_alerts_logOverflow :
    (s.flagLinkCheck).alerts.logOverflow = s.alerts.logOverflow := rfl
@[simp] theorem State.flagLinkCheck_alerts_onset :
    (s.flagLinkCheck).alerts.onset = s.alerts.onset := rfl
@[simp] theorem State.flagLinkCheck_alerts_flowFull :
    (s.flagLinkCheck).alerts.flowFull = s.alerts.flowFull := rfl
@[simp] theorem State.flagLinkCheck_alerts_groupFull :
    (s.flagLinkCheck).alerts.groupFull = s.alerts.groupFull := rfl
@[simp] theorem State.flagLinkCheck_alerts_mask :
    (s.flagLinkCheck).alerts.mask = s.alerts.mask := rfl
@[simp] theorem State.flagLinkCheck_port : (s.flagLinkCheck).port = s.port := rfl
@[simp] theorem State.flagLinkCheck_draws : (s.flagLinkCheck).draws = s.draws := rfl
@[simp] theorem State.flagLinkCheck_pending : (s.flagLinkCheck).pending = s.pending := rfl
@[simp] theorem State.flagLinkCheck_entry (t' : Tag) :
    (s.flagLinkCheck).entry t' = s.entry t' := rfl
@[simp] theorem State.flagLinkCheck_queue (q' : QueueId) :
    (s.flagLinkCheck).queue q' = s.queue q' := rfl
@[simp] theorem State.flagLinkCheck_classNumber (q' : QueueId) :
    (s.flagLinkCheck).classNumber q' = s.classNumber q' := rfl
@[simp] theorem State.flagLinkCheck_classRecord (c' : ClassId) :
    (s.flagLinkCheck).classRecord c' = s.classRecord c' := rfl
@[simp] theorem State.flagLinkCheck_queueClass (q' : QueueId) :
    (s.flagLinkCheck).queueClass q' = s.queueClass q' := rfl
@[simp] theorem State.flagLinkCheck_flow (i' : FlowId) :
    (s.flagLinkCheck).flow i' = s.flow i' := rfl
@[simp] theorem State.flagLinkCheck_group (g' : GroupId) :
    (s.flagLinkCheck).group g' = s.group g' := rfl
@[simp] theorem State.flagLinkCheck_total (q' : QueueId) :
    (s.flagLinkCheck).total q' = s.total q' := rfl
@[simp] theorem State.flagLinkCheck_ramp (p' : RampId) :
    (s.flagLinkCheck).ramp p' = s.ramp p' := rfl
@[simp] theorem State.flagLinkCheck_counter (c' : CounterId) :
    (s.flagLinkCheck).counter c' = s.counter c' := rfl
@[simp] theorem State.flagLinkCheck_now : (s.flagLinkCheck).now = s.now := rfl
@[simp] theorem State.flagLinkCheck_anyEpisode : (s.flagLinkCheck).anyEpisode = s.anyEpisode := rfl
@[simp] theorem State.flagLinkCheck_stream (d' : Direction) :
    (s.flagLinkCheck).stream d' = s.stream d' := rfl

/-! ### setStream -/

@[simp] theorem State.setStream_running (d : Direction) (ts : List Transit) :
    (s.setStream d ts).running = s.running := by cases d <;> rfl
@[simp] theorem State.setStream_link_latency (d : Direction) (ts : List Transit) :
    (s.setStream d ts).link.latency = s.link.latency := by cases d <;> rfl
@[simp] theorem State.setStream_link_locked (d : Direction) (ts : List Transit) :
    (s.setStream d ts).link.locked = s.link.locked := by cases d <;> rfl
@[simp] theorem State.setStream_link_outstanding (d : Direction) (ts : List Transit) :
    (s.setStream d ts).link.outstanding = s.link.outstanding := by cases d <;> rfl
@[simp] theorem State.setStream_link_memoryPins (d : Direction) (ts : List Transit) :
    (s.setStream d ts).link.memoryPins = s.link.memoryPins := by cases d <;> rfl
@[simp] theorem State.setStream_link_switchPins (d : Direction) (ts : List Transit) :
    (s.setStream d ts).link.switchPins = s.link.switchPins := by cases d <;> rfl
@[simp] theorem State.setStream_profile (d : Direction) (ts : List Transit) :
    (s.setStream d ts).profile = s.profile := by cases d <;> rfl
@[simp] theorem State.setStream_depths (d : Direction) (ts : List Transit) :
    (s.setStream d ts).depths = s.depths := by cases d <;> rfl
@[simp] theorem State.setStream_ft (d : Direction) (ts : List Transit) :
    (s.setStream d ts).ft = s.ft := by cases d <;> rfl
@[simp] theorem State.setStream_gc (d : Direction) (ts : List Transit) :
    (s.setStream d ts).gc = s.gc := by cases d <;> rfl
@[simp] theorem State.setStream_time (d : Direction) (ts : List Transit) :
    (s.setStream d ts).time = s.time := by cases d <;> rfl
@[simp] theorem State.setStream_mode (d : Direction) (ts : List Transit) :
    (s.setStream d ts).mode = s.mode := by cases d <;> rfl
@[simp] theorem State.setStream_log (d : Direction) (ts : List Transit) :
    (s.setStream d ts).log = s.log := by cases d <;> rfl
@[simp] theorem State.setStream_counters (d : Direction) (ts : List Transit) :
    (s.setStream d ts).counters = s.counters := by cases d <;> rfl
@[simp] theorem State.setStream_alerts (d : Direction) (ts : List Transit) :
    (s.setStream d ts).alerts = s.alerts := by cases d <;> rfl
@[simp] theorem State.setStream_port (d : Direction) (ts : List Transit) :
    (s.setStream d ts).port = s.port := by cases d <;> rfl
@[simp] theorem State.setStream_draws (d : Direction) (ts : List Transit) :
    (s.setStream d ts).draws = s.draws := by cases d <;> rfl
@[simp] theorem State.setStream_pending (d : Direction) (ts : List Transit) :
    (s.setStream d ts).pending = s.pending := by cases d <;> rfl
@[simp] theorem State.setStream_entry (d : Direction) (ts : List Transit) (t' : Tag) :
    (s.setStream d ts).entry t' = s.entry t' := by cases d <;> rfl
@[simp] theorem State.setStream_queue (d : Direction) (ts : List Transit) (q' : QueueId) :
    (s.setStream d ts).queue q' = s.queue q' := by cases d <;> rfl
@[simp] theorem State.setStream_classNumber (d : Direction) (ts : List Transit) (q' : QueueId) :
    (s.setStream d ts).classNumber q' = s.classNumber q' := by cases d <;> rfl
@[simp] theorem State.setStream_classRecord (d : Direction) (ts : List Transit) (c' : ClassId) :
    (s.setStream d ts).classRecord c' = s.classRecord c' := by cases d <;> rfl
@[simp] theorem State.setStream_queueClass (d : Direction) (ts : List Transit) (q' : QueueId) :
    (s.setStream d ts).queueClass q' = s.queueClass q' := by cases d <;> rfl
@[simp] theorem State.setStream_flow (d : Direction) (ts : List Transit) (i' : FlowId) :
    (s.setStream d ts).flow i' = s.flow i' := by cases d <;> rfl
@[simp] theorem State.setStream_group (d : Direction) (ts : List Transit) (g' : GroupId) :
    (s.setStream d ts).group g' = s.group g' := by cases d <;> rfl
@[simp] theorem State.setStream_total (d : Direction) (ts : List Transit) (q' : QueueId) :
    (s.setStream d ts).total q' = s.total q' := by cases d <;> rfl
@[simp] theorem State.setStream_ramp (d : Direction) (ts : List Transit) (p' : RampId) :
    (s.setStream d ts).ramp p' = s.ramp p' := by cases d <;> rfl
@[simp] theorem State.setStream_counter (d : Direction) (ts : List Transit) (c' : CounterId) :
    (s.setStream d ts).counter c' = s.counter c' := by cases d <;> rfl
@[simp] theorem State.setStream_now (d : Direction) (ts : List Transit) :
    (s.setStream d ts).now = s.now := by cases d <;> rfl
@[simp] theorem State.setStream_anyEpisode (d : Direction) (ts : List Transit) :
    (s.setStream d ts).anyEpisode = s.anyEpisode := by cases d <;> rfl

/-! ### setPins -/

@[simp] theorem State.setPins_running (d : Direction) (p : Departed) :
    (s.setPins d p).running = s.running := by cases d <;> rfl
@[simp] theorem State.setPins_link_latency (d : Direction) (p : Departed) :
    (s.setPins d p).link.latency = s.link.latency := by cases d <;> rfl
@[simp] theorem State.setPins_link_locked (d : Direction) (p : Departed) :
    (s.setPins d p).link.locked = s.link.locked := by cases d <;> rfl
@[simp] theorem State.setPins_link_outstanding (d : Direction) (p : Departed) :
    (s.setPins d p).link.outstanding = s.link.outstanding := by cases d <;> rfl
@[simp] theorem State.setPins_link_toMemory (d : Direction) (p : Departed) :
    (s.setPins d p).link.toMemory = s.link.toMemory := by cases d <;> rfl
@[simp] theorem State.setPins_link_toSwitch (d : Direction) (p : Departed) :
    (s.setPins d p).link.toSwitch = s.link.toSwitch := by cases d <;> rfl
@[simp] theorem State.setPins_profile (d : Direction) (p : Departed) :
    (s.setPins d p).profile = s.profile := by cases d <;> rfl
@[simp] theorem State.setPins_depths (d : Direction) (p : Departed) :
    (s.setPins d p).depths = s.depths := by cases d <;> rfl
@[simp] theorem State.setPins_ft (d : Direction) (p : Departed) :
    (s.setPins d p).ft = s.ft := by cases d <;> rfl
@[simp] theorem State.setPins_gc (d : Direction) (p : Departed) :
    (s.setPins d p).gc = s.gc := by cases d <;> rfl
@[simp] theorem State.setPins_time (d : Direction) (p : Departed) :
    (s.setPins d p).time = s.time := by cases d <;> rfl
@[simp] theorem State.setPins_mode (d : Direction) (p : Departed) :
    (s.setPins d p).mode = s.mode := by cases d <;> rfl
@[simp] theorem State.setPins_log (d : Direction) (p : Departed) :
    (s.setPins d p).log = s.log := by cases d <;> rfl
@[simp] theorem State.setPins_counters (d : Direction) (p : Departed) :
    (s.setPins d p).counters = s.counters := by cases d <;> rfl
@[simp] theorem State.setPins_alerts (d : Direction) (p : Departed) :
    (s.setPins d p).alerts = s.alerts := by cases d <;> rfl
@[simp] theorem State.setPins_port (d : Direction) (p : Departed) :
    (s.setPins d p).port = s.port := by cases d <;> rfl
@[simp] theorem State.setPins_draws (d : Direction) (p : Departed) :
    (s.setPins d p).draws = s.draws := by cases d <;> rfl
@[simp] theorem State.setPins_pending (d : Direction) (p : Departed) :
    (s.setPins d p).pending = s.pending := by cases d <;> rfl
@[simp] theorem State.setPins_entry (d : Direction) (p : Departed) (t' : Tag) :
    (s.setPins d p).entry t' = s.entry t' := by cases d <;> rfl
@[simp] theorem State.setPins_queue (d : Direction) (p : Departed) (q' : QueueId) :
    (s.setPins d p).queue q' = s.queue q' := by cases d <;> rfl
@[simp] theorem State.setPins_classNumber (d : Direction) (p : Departed) (q' : QueueId) :
    (s.setPins d p).classNumber q' = s.classNumber q' := by cases d <;> rfl
@[simp] theorem State.setPins_classRecord (d : Direction) (p : Departed) (c' : ClassId) :
    (s.setPins d p).classRecord c' = s.classRecord c' := by cases d <;> rfl
@[simp] theorem State.setPins_queueClass (d : Direction) (p : Departed) (q' : QueueId) :
    (s.setPins d p).queueClass q' = s.queueClass q' := by cases d <;> rfl
@[simp] theorem State.setPins_flow (d : Direction) (p : Departed) (i' : FlowId) :
    (s.setPins d p).flow i' = s.flow i' := by cases d <;> rfl
@[simp] theorem State.setPins_group (d : Direction) (p : Departed) (g' : GroupId) :
    (s.setPins d p).group g' = s.group g' := by cases d <;> rfl
@[simp] theorem State.setPins_total (d : Direction) (p : Departed) (q' : QueueId) :
    (s.setPins d p).total q' = s.total q' := by cases d <;> rfl
@[simp] theorem State.setPins_ramp (d : Direction) (p : Departed) (p' : RampId) :
    (s.setPins d p).ramp p' = s.ramp p' := by cases d <;> rfl
@[simp] theorem State.setPins_counter (d : Direction) (p : Departed) (c' : CounterId) :
    (s.setPins d p).counter c' = s.counter c' := by cases d <;> rfl
@[simp] theorem State.setPins_now (d : Direction) (p : Departed) :
    (s.setPins d p).now = s.now := by cases d <;> rfl
@[simp] theorem State.setPins_anyEpisode (d : Direction) (p : Departed) :
    (s.setPins d p).anyEpisode = s.anyEpisode := by cases d <;> rfl
@[simp] theorem State.setPins_stream (d : Direction) (p : Departed) (d' : Direction) :
    (s.setPins d p).stream d' = s.stream d' := by cases d <;> cases d' <;> rfl

/-! ### setResult -/

@[simp] theorem State.setResult_running (a : Status) (c : Byte) (bs : List Byte) :
    (s.setResult a c bs).running = s.running := rfl
@[simp] theorem State.setResult_link (a : Status) (c : Byte) (bs : List Byte) :
    (s.setResult a c bs).link = s.link := rfl
@[simp] theorem State.setResult_profile (a : Status) (c : Byte) (bs : List Byte) :
    (s.setResult a c bs).profile = s.profile := rfl
@[simp] theorem State.setResult_depths (a : Status) (c : Byte) (bs : List Byte) :
    (s.setResult a c bs).depths = s.depths := rfl
@[simp] theorem State.setResult_ft (a : Status) (c : Byte) (bs : List Byte) :
    (s.setResult a c bs).ft = s.ft := rfl
@[simp] theorem State.setResult_gc (a : Status) (c : Byte) (bs : List Byte) :
    (s.setResult a c bs).gc = s.gc := rfl
@[simp] theorem State.setResult_time (a : Status) (c : Byte) (bs : List Byte) :
    (s.setResult a c bs).time = s.time := rfl
@[simp] theorem State.setResult_mode (a : Status) (c : Byte) (bs : List Byte) :
    (s.setResult a c bs).mode = s.mode := rfl
@[simp] theorem State.setResult_log (a : Status) (c : Byte) (bs : List Byte) :
    (s.setResult a c bs).log = s.log := rfl
@[simp] theorem State.setResult_counters (a : Status) (c : Byte) (bs : List Byte) :
    (s.setResult a c bs).counters = s.counters := rfl
@[simp] theorem State.setResult_alerts (a : Status) (c : Byte) (bs : List Byte) :
    (s.setResult a c bs).alerts = s.alerts := rfl
@[simp] theorem State.setResult_port_sense (a : Status) (c : Byte) (bs : List Byte) :
    (s.setResult a c bs).port.sense = s.port.sense := rfl
@[simp] theorem State.setResult_port_command (a : Status) (c : Byte) (bs : List Byte) :
    (s.setResult a c bs).port.command = s.port.command := rfl
@[simp] theorem State.setResult_draws (a : Status) (c : Byte) (bs : List Byte) :
    (s.setResult a c bs).draws = s.draws := rfl
@[simp] theorem State.setResult_pending (a : Status) (c : Byte) (bs : List Byte) :
    (s.setResult a c bs).pending = s.pending := rfl
@[simp] theorem State.setResult_entry (a : Status) (c : Byte) (bs : List Byte) (t' : Tag) :
    (s.setResult a c bs).entry t' = s.entry t' := rfl
@[simp] theorem State.setResult_queue (a : Status) (c : Byte) (bs : List Byte) (q' : QueueId) :
    (s.setResult a c bs).queue q' = s.queue q' := rfl
@[simp] theorem State.setResult_classNumber (a : Status) (c : Byte) (bs : List Byte) (q' : QueueId) :
    (s.setResult a c bs).classNumber q' = s.classNumber q' := rfl
@[simp] theorem State.setResult_classRecord (a : Status) (c : Byte) (bs : List Byte) (c' : ClassId) :
    (s.setResult a c bs).classRecord c' = s.classRecord c' := rfl
@[simp] theorem State.setResult_queueClass (a : Status) (c : Byte) (bs : List Byte) (q' : QueueId) :
    (s.setResult a c bs).queueClass q' = s.queueClass q' := rfl
@[simp] theorem State.setResult_flow (a : Status) (c : Byte) (bs : List Byte) (i' : FlowId) :
    (s.setResult a c bs).flow i' = s.flow i' := rfl
@[simp] theorem State.setResult_group (a : Status) (c : Byte) (bs : List Byte) (g' : GroupId) :
    (s.setResult a c bs).group g' = s.group g' := rfl
@[simp] theorem State.setResult_total (a : Status) (c : Byte) (bs : List Byte) (q' : QueueId) :
    (s.setResult a c bs).total q' = s.total q' := rfl
@[simp] theorem State.setResult_ramp (a : Status) (c : Byte) (bs : List Byte) (p' : RampId) :
    (s.setResult a c bs).ramp p' = s.ramp p' := rfl
@[simp] theorem State.setResult_counter (a : Status) (c : Byte) (bs : List Byte) (c' : CounterId) :
    (s.setResult a c bs).counter c' = s.counter c' := rfl
@[simp] theorem State.setResult_now (a : Status) (c : Byte) (bs : List Byte) :
    (s.setResult a c bs).now = s.now := rfl
@[simp] theorem State.setResult_anyEpisode (a : Status) (c : Byte) (bs : List Byte) :
    (s.setResult a c bs).anyEpisode = s.anyEpisode := rfl
@[simp] theorem State.setResult_stream (a : Status) (c : Byte) (bs : List Byte) (d' : Direction) :
    (s.setResult a c bs).stream d' = s.stream d' := rfl

/-! ### setSense -/

@[simp] theorem State.setSense_running (c : SenseCode) (o : Nat) :
    (s.setSense c o).running = s.running := rfl
@[simp] theorem State.setSense_link (c : SenseCode) (o : Nat) :
    (s.setSense c o).link = s.link := rfl
@[simp] theorem State.setSense_profile (c : SenseCode) (o : Nat) :
    (s.setSense c o).profile = s.profile := rfl
@[simp] theorem State.setSense_depths (c : SenseCode) (o : Nat) :
    (s.setSense c o).depths = s.depths := rfl
@[simp] theorem State.setSense_ft (c : SenseCode) (o : Nat) : (s.setSense c o).ft = s.ft := rfl
@[simp] theorem State.setSense_gc (c : SenseCode) (o : Nat) : (s.setSense c o).gc = s.gc := rfl
@[simp] theorem State.setSense_time (c : SenseCode) (o : Nat) :
    (s.setSense c o).time = s.time := rfl
@[simp] theorem State.setSense_mode (c : SenseCode) (o : Nat) :
    (s.setSense c o).mode = s.mode := rfl
@[simp] theorem State.setSense_log (c : SenseCode) (o : Nat) : (s.setSense c o).log = s.log := rfl
@[simp] theorem State.setSense_counters (c : SenseCode) (o : Nat) :
    (s.setSense c o).counters = s.counters := rfl
@[simp] theorem State.setSense_alerts (c : SenseCode) (o : Nat) :
    (s.setSense c o).alerts = s.alerts := rfl
@[simp] theorem State.setSense_port_result (c : SenseCode) (o : Nat) :
    (s.setSense c o).port.result = s.port.result := rfl
@[simp] theorem State.setSense_port_command (c : SenseCode) (o : Nat) :
    (s.setSense c o).port.command = s.port.command := rfl
@[simp] theorem State.setSense_draws (c : SenseCode) (o : Nat) :
    (s.setSense c o).draws = s.draws := rfl
@[simp] theorem State.setSense_pending (c : SenseCode) (o : Nat) :
    (s.setSense c o).pending = s.pending := rfl
@[simp] theorem State.setSense_entry (c : SenseCode) (o : Nat) (t' : Tag) :
    (s.setSense c o).entry t' = s.entry t' := rfl
@[simp] theorem State.setSense_queue (c : SenseCode) (o : Nat) (q' : QueueId) :
    (s.setSense c o).queue q' = s.queue q' := rfl
@[simp] theorem State.setSense_classNumber (c : SenseCode) (o : Nat) (q' : QueueId) :
    (s.setSense c o).classNumber q' = s.classNumber q' := rfl
@[simp] theorem State.setSense_classRecord (c : SenseCode) (o : Nat) (c' : ClassId) :
    (s.setSense c o).classRecord c' = s.classRecord c' := rfl
@[simp] theorem State.setSense_queueClass (c : SenseCode) (o : Nat) (q' : QueueId) :
    (s.setSense c o).queueClass q' = s.queueClass q' := rfl
@[simp] theorem State.setSense_flow (c : SenseCode) (o : Nat) (i' : FlowId) :
    (s.setSense c o).flow i' = s.flow i' := rfl
@[simp] theorem State.setSense_group (c : SenseCode) (o : Nat) (g' : GroupId) :
    (s.setSense c o).group g' = s.group g' := rfl
@[simp] theorem State.setSense_total (c : SenseCode) (o : Nat) (q' : QueueId) :
    (s.setSense c o).total q' = s.total q' := rfl
@[simp] theorem State.setSense_ramp (c : SenseCode) (o : Nat) (p' : RampId) :
    (s.setSense c o).ramp p' = s.ramp p' := rfl
@[simp] theorem State.setSense_counter (c : SenseCode) (o : Nat) (c' : CounterId) :
    (s.setSense c o).counter c' = s.counter c' := rfl
@[simp] theorem State.setSense_now (c : SenseCode) (o : Nat) : (s.setSense c o).now = s.now := rfl
@[simp] theorem State.setSense_anyEpisode (c : SenseCode) (o : Nat) :
    (s.setSense c o).anyEpisode = s.anyEpisode := rfl
@[simp] theorem State.setSense_stream (c : SenseCode) (o : Nat) (d' : Direction) :
    (s.setSense c o).stream d' = s.stream d' := rfl

/-! ### setCommand -/

@[simp] theorem State.setCommand_running (c : Option PendingCommand) :
    (s.setCommand c).running = s.running := rfl
@[simp] theorem State.setCommand_link (c : Option PendingCommand) :
    (s.setCommand c).link = s.link := rfl
@[simp] theorem State.setCommand_profile (c : Option PendingCommand) :
    (s.setCommand c).profile = s.profile := rfl
@[simp] theorem State.setCommand_depths (c : Option PendingCommand) :
    (s.setCommand c).depths = s.depths := rfl
@[simp] theorem State.setCommand_ft (c : Option PendingCommand) : (s.setCommand c).ft = s.ft := rfl
@[simp] theorem State.setCommand_gc (c : Option PendingCommand) : (s.setCommand c).gc = s.gc := rfl
@[simp] theorem State.setCommand_time (c : Option PendingCommand) :
    (s.setCommand c).time = s.time := rfl
@[simp] theorem State.setCommand_mode (c : Option PendingCommand) :
    (s.setCommand c).mode = s.mode := rfl
@[simp] theorem State.setCommand_log (c : Option PendingCommand) :
    (s.setCommand c).log = s.log := rfl
@[simp] theorem State.setCommand_counters (c : Option PendingCommand) :
    (s.setCommand c).counters = s.counters := rfl
@[simp] theorem State.setCommand_alerts (c : Option PendingCommand) :
    (s.setCommand c).alerts = s.alerts := rfl
@[simp] theorem State.setCommand_port_result (c : Option PendingCommand) :
    (s.setCommand c).port.result = s.port.result := rfl
@[simp] theorem State.setCommand_port_sense (c : Option PendingCommand) :
    (s.setCommand c).port.sense = s.port.sense := rfl
@[simp] theorem State.setCommand_draws (c : Option PendingCommand) :
    (s.setCommand c).draws = s.draws := rfl
@[simp] theorem State.setCommand_pending (c : Option PendingCommand) :
    (s.setCommand c).pending = s.pending := rfl
@[simp] theorem State.setCommand_entry (c : Option PendingCommand) (t' : Tag) :
    (s.setCommand c).entry t' = s.entry t' := rfl
@[simp] theorem State.setCommand_queue (c : Option PendingCommand) (q' : QueueId) :
    (s.setCommand c).queue q' = s.queue q' := rfl
@[simp] theorem State.setCommand_classNumber (c : Option PendingCommand) (q' : QueueId) :
    (s.setCommand c).classNumber q' = s.classNumber q' := rfl
@[simp] theorem State.setCommand_classRecord (c : Option PendingCommand) (c' : ClassId) :
    (s.setCommand c).classRecord c' = s.classRecord c' := rfl
@[simp] theorem State.setCommand_queueClass (c : Option PendingCommand) (q' : QueueId) :
    (s.setCommand c).queueClass q' = s.queueClass q' := rfl
@[simp] theorem State.setCommand_flow (c : Option PendingCommand) (i' : FlowId) :
    (s.setCommand c).flow i' = s.flow i' := rfl
@[simp] theorem State.setCommand_group (c : Option PendingCommand) (g' : GroupId) :
    (s.setCommand c).group g' = s.group g' := rfl
@[simp] theorem State.setCommand_total (c : Option PendingCommand) (q' : QueueId) :
    (s.setCommand c).total q' = s.total q' := rfl
@[simp] theorem State.setCommand_ramp (c : Option PendingCommand) (p' : RampId) :
    (s.setCommand c).ramp p' = s.ramp p' := rfl
@[simp] theorem State.setCommand_counter (c : Option PendingCommand) (c' : CounterId) :
    (s.setCommand c).counter c' = s.counter c' := rfl
@[simp] theorem State.setCommand_now (c : Option PendingCommand) :
    (s.setCommand c).now = s.now := rfl
@[simp] theorem State.setCommand_anyEpisode (c : Option PendingCommand) :
    (s.setCommand c).anyEpisode = s.anyEpisode := rfl
@[simp] theorem State.setCommand_stream (c : Option PendingCommand) (d' : Direction) :
    (s.setCommand c).stream d' = s.stream d' := rfl

/-! ### setClassRecord -/

@[simp] theorem State.setClassRecord_running (c : ClassId) (r : ClassRecord) :
    (s.setClassRecord c r).running = s.running := rfl
@[simp] theorem State.setClassRecord_link (c : ClassId) (r : ClassRecord) :
    (s.setClassRecord c r).link = s.link := rfl
@[simp] theorem State.setClassRecord_profile (c : ClassId) (r : ClassRecord) :
    (s.setClassRecord c r).profile = s.profile := rfl
@[simp] theorem State.setClassRecord_depths_queues (c : ClassId) (r : ClassRecord) :
    (s.setClassRecord c r).depths.queues = s.depths.queues := rfl
@[simp] theorem State.setClassRecord_depths_classOf (c : ClassId) (r : ClassRecord) :
    (s.setClassRecord c r).depths.classOf = s.depths.classOf := rfl
@[simp] theorem State.setClassRecord_depths_quietTime (c : ClassId) (r : ClassRecord) :
    (s.setClassRecord c r).depths.quietTime = s.depths.quietTime := rfl
@[simp] theorem State.setClassRecord_ft (c : ClassId) (r : ClassRecord) :
    (s.setClassRecord c r).ft = s.ft := rfl
@[simp] theorem State.setClassRecord_gc (c : ClassId) (r : ClassRecord) :
    (s.setClassRecord c r).gc = s.gc := rfl
@[simp] theorem State.setClassRecord_time (c : ClassId) (r : ClassRecord) :
    (s.setClassRecord c r).time = s.time := rfl
@[simp] theorem State.setClassRecord_mode (c : ClassId) (r : ClassRecord) :
    (s.setClassRecord c r).mode = s.mode := rfl
@[simp] theorem State.setClassRecord_log (c : ClassId) (r : ClassRecord) :
    (s.setClassRecord c r).log = s.log := rfl
@[simp] theorem State.setClassRecord_counters (c : ClassId) (r : ClassRecord) :
    (s.setClassRecord c r).counters = s.counters := rfl
@[simp] theorem State.setClassRecord_alerts (c : ClassId) (r : ClassRecord) :
    (s.setClassRecord c r).alerts = s.alerts := rfl
@[simp] theorem State.setClassRecord_port (c : ClassId) (r : ClassRecord) :
    (s.setClassRecord c r).port = s.port := rfl
@[simp] theorem State.setClassRecord_draws (c : ClassId) (r : ClassRecord) :
    (s.setClassRecord c r).draws = s.draws := rfl
@[simp] theorem State.setClassRecord_pending (c : ClassId) (r : ClassRecord) :
    (s.setClassRecord c r).pending = s.pending := rfl
@[simp] theorem State.setClassRecord_entry (c : ClassId) (r : ClassRecord) (t' : Tag) :
    (s.setClassRecord c r).entry t' = s.entry t' := rfl
@[simp] theorem State.setClassRecord_queue (c : ClassId) (r : ClassRecord) (q' : QueueId) :
    (s.setClassRecord c r).queue q' = s.queue q' := rfl
@[simp] theorem State.setClassRecord_classNumber (c : ClassId) (r : ClassRecord) (q' : QueueId) :
    (s.setClassRecord c r).classNumber q' = s.classNumber q' := rfl
@[simp] theorem State.setClassRecord_flow (c : ClassId) (r : ClassRecord) (i' : FlowId) :
    (s.setClassRecord c r).flow i' = s.flow i' := rfl
@[simp] theorem State.setClassRecord_group (c : ClassId) (r : ClassRecord) (g' : GroupId) :
    (s.setClassRecord c r).group g' = s.group g' := rfl
@[simp] theorem State.setClassRecord_total (c : ClassId) (r : ClassRecord) (q' : QueueId) :
    (s.setClassRecord c r).total q' = s.total q' := rfl
@[simp] theorem State.setClassRecord_ramp (c : ClassId) (r : ClassRecord) (p' : RampId) :
    (s.setClassRecord c r).ramp p' = s.ramp p' := rfl
@[simp] theorem State.setClassRecord_counter (c : ClassId) (r : ClassRecord) (c' : CounterId) :
    (s.setClassRecord c r).counter c' = s.counter c' := rfl
@[simp] theorem State.setClassRecord_now (c : ClassId) (r : ClassRecord) :
    (s.setClassRecord c r).now = s.now := rfl
@[simp] theorem State.setClassRecord_anyEpisode (c : ClassId) (r : ClassRecord) :
    (s.setClassRecord c r).anyEpisode = s.anyEpisode := rfl
@[simp] theorem State.setClassRecord_stream (c : ClassId) (r : ClassRecord) (d' : Direction) :
    (s.setClassRecord c r).stream d' = s.stream d' := rfl

/-! ### setClassNumber -/

@[simp] theorem State.setClassNumber_running (q : QueueId) (c : ClassId) :
    (s.setClassNumber q c).running = s.running := rfl
@[simp] theorem State.setClassNumber_link (q : QueueId) (c : ClassId) :
    (s.setClassNumber q c).link = s.link := rfl
@[simp] theorem State.setClassNumber_profile (q : QueueId) (c : ClassId) :
    (s.setClassNumber q c).profile = s.profile := rfl
@[simp] theorem State.setClassNumber_depths_queues (q : QueueId) (c : ClassId) :
    (s.setClassNumber q c).depths.queues = s.depths.queues := rfl
@[simp] theorem State.setClassNumber_depths_classes (q : QueueId) (c : ClassId) :
    (s.setClassNumber q c).depths.classes = s.depths.classes := rfl
@[simp] theorem State.setClassNumber_depths_quietTime (q : QueueId) (c : ClassId) :
    (s.setClassNumber q c).depths.quietTime = s.depths.quietTime := rfl
@[simp] theorem State.setClassNumber_ft (q : QueueId) (c : ClassId) :
    (s.setClassNumber q c).ft = s.ft := rfl
@[simp] theorem State.setClassNumber_gc (q : QueueId) (c : ClassId) :
    (s.setClassNumber q c).gc = s.gc := rfl
@[simp] theorem State.setClassNumber_time (q : QueueId) (c : ClassId) :
    (s.setClassNumber q c).time = s.time := rfl
@[simp] theorem State.setClassNumber_mode (q : QueueId) (c : ClassId) :
    (s.setClassNumber q c).mode = s.mode := rfl
@[simp] theorem State.setClassNumber_log (q : QueueId) (c : ClassId) :
    (s.setClassNumber q c).log = s.log := rfl
@[simp] theorem State.setClassNumber_counters (q : QueueId) (c : ClassId) :
    (s.setClassNumber q c).counters = s.counters := rfl
@[simp] theorem State.setClassNumber_alerts (q : QueueId) (c : ClassId) :
    (s.setClassNumber q c).alerts = s.alerts := rfl
@[simp] theorem State.setClassNumber_port (q : QueueId) (c : ClassId) :
    (s.setClassNumber q c).port = s.port := rfl
@[simp] theorem State.setClassNumber_draws (q : QueueId) (c : ClassId) :
    (s.setClassNumber q c).draws = s.draws := rfl
@[simp] theorem State.setClassNumber_pending (q : QueueId) (c : ClassId) :
    (s.setClassNumber q c).pending = s.pending := rfl
@[simp] theorem State.setClassNumber_entry (q : QueueId) (c : ClassId) (t' : Tag) :
    (s.setClassNumber q c).entry t' = s.entry t' := rfl
@[simp] theorem State.setClassNumber_queue (q : QueueId) (c : ClassId) (q' : QueueId) :
    (s.setClassNumber q c).queue q' = s.queue q' := rfl
@[simp] theorem State.setClassNumber_classRecord (q : QueueId) (c : ClassId) (c' : ClassId) :
    (s.setClassNumber q c).classRecord c' = s.classRecord c' := rfl
@[simp] theorem State.setClassNumber_flow (q : QueueId) (c : ClassId) (i' : FlowId) :
    (s.setClassNumber q c).flow i' = s.flow i' := rfl
@[simp] theorem State.setClassNumber_group (q : QueueId) (c : ClassId) (g' : GroupId) :
    (s.setClassNumber q c).group g' = s.group g' := rfl
@[simp] theorem State.setClassNumber_total (q : QueueId) (c : ClassId) (q' : QueueId) :
    (s.setClassNumber q c).total q' = s.total q' := rfl
@[simp] theorem State.setClassNumber_ramp (q : QueueId) (c : ClassId) (p' : RampId) :
    (s.setClassNumber q c).ramp p' = s.ramp p' := rfl
@[simp] theorem State.setClassNumber_counter (q : QueueId) (c : ClassId) (c' : CounterId) :
    (s.setClassNumber q c).counter c' = s.counter c' := rfl
@[simp] theorem State.setClassNumber_now (q : QueueId) (c : ClassId) :
    (s.setClassNumber q c).now = s.now := rfl
@[simp] theorem State.setClassNumber_anyEpisode (q : QueueId) (c : ClassId) :
    (s.setClassNumber q c).anyEpisode = s.anyEpisode := rfl
@[simp] theorem State.setClassNumber_stream (q : QueueId) (c : ClassId) (d' : Direction) :
    (s.setClassNumber q c).stream d' = s.stream d' := rfl

/-! ### setRampSequence -/

@[simp] theorem State.setRampSequence_running (p : RampId) (es : List RampEntry) :
    (s.setRampSequence p es).running = s.running := rfl
@[simp] theorem State.setRampSequence_link (p : RampId) (es : List RampEntry) :
    (s.setRampSequence p es).link = s.link := rfl
@[simp] theorem State.setRampSequence_profile (p : RampId) (es : List RampEntry) :
    (s.setRampSequence p es).profile = s.profile := rfl
@[simp] theorem State.setRampSequence_depths (p : RampId) (es : List RampEntry) :
    (s.setRampSequence p es).depths = s.depths := rfl
@[simp] theorem State.setRampSequence_ft (p : RampId) (es : List RampEntry) :
    (s.setRampSequence p es).ft = s.ft := rfl
@[simp] theorem State.setRampSequence_gc (p : RampId) (es : List RampEntry) :
    (s.setRampSequence p es).gc = s.gc := rfl
@[simp] theorem State.setRampSequence_time_prescaler (p : RampId) (es : List RampEntry) :
    (s.setRampSequence p es).time.prescaler = s.time.prescaler := rfl
@[simp] theorem State.setRampSequence_time_tick (p : RampId) (es : List RampEntry) :
    (s.setRampSequence p es).time.tick = s.time.tick := rfl
@[simp] theorem State.setRampSequence_time_refclkCount (p : RampId) (es : List RampEntry) :
    (s.setRampSequence p es).time.refclkCount = s.time.refclkCount := rfl
@[simp] theorem State.setRampSequence_time_due (p : RampId) (es : List RampEntry) :
    (s.setRampSequence p es).time.due = s.time.due := rfl
@[simp] theorem State.setRampSequence_time_refclk (p : RampId) (es : List RampEntry) :
    (s.setRampSequence p es).time.refclk = s.time.refclk := rfl
@[simp] theorem State.setRampSequence_mode (p : RampId) (es : List RampEntry) :
    (s.setRampSequence p es).mode = s.mode := rfl
@[simp] theorem State.setRampSequence_log (p : RampId) (es : List RampEntry) :
    (s.setRampSequence p es).log = s.log := rfl
@[simp] theorem State.setRampSequence_counters (p : RampId) (es : List RampEntry) :
    (s.setRampSequence p es).counters = s.counters := rfl
@[simp] theorem State.setRampSequence_alerts (p : RampId) (es : List RampEntry) :
    (s.setRampSequence p es).alerts = s.alerts := rfl
@[simp] theorem State.setRampSequence_port (p : RampId) (es : List RampEntry) :
    (s.setRampSequence p es).port = s.port := rfl
@[simp] theorem State.setRampSequence_draws (p : RampId) (es : List RampEntry) :
    (s.setRampSequence p es).draws = s.draws := rfl
@[simp] theorem State.setRampSequence_pending (p : RampId) (es : List RampEntry) :
    (s.setRampSequence p es).pending = s.pending := rfl
@[simp] theorem State.setRampSequence_entry (p : RampId) (es : List RampEntry) (t' : Tag) :
    (s.setRampSequence p es).entry t' = s.entry t' := rfl
@[simp] theorem State.setRampSequence_queue (p : RampId) (es : List RampEntry) (q' : QueueId) :
    (s.setRampSequence p es).queue q' = s.queue q' := rfl
@[simp] theorem State.setRampSequence_classNumber (p : RampId) (es : List RampEntry) (q' : QueueId) :
    (s.setRampSequence p es).classNumber q' = s.classNumber q' := rfl
@[simp] theorem State.setRampSequence_classRecord (p : RampId) (es : List RampEntry) (c' : ClassId) :
    (s.setRampSequence p es).classRecord c' = s.classRecord c' := rfl
@[simp] theorem State.setRampSequence_queueClass (p : RampId) (es : List RampEntry) (q' : QueueId) :
    (s.setRampSequence p es).queueClass q' = s.queueClass q' := rfl
@[simp] theorem State.setRampSequence_flow (p : RampId) (es : List RampEntry) (i' : FlowId) :
    (s.setRampSequence p es).flow i' = s.flow i' := rfl
@[simp] theorem State.setRampSequence_group (p : RampId) (es : List RampEntry) (g' : GroupId) :
    (s.setRampSequence p es).group g' = s.group g' := rfl
@[simp] theorem State.setRampSequence_total (p : RampId) (es : List RampEntry) (q' : QueueId) :
    (s.setRampSequence p es).total q' = s.total q' := rfl
@[simp] theorem State.setRampSequence_counter (p : RampId) (es : List RampEntry) (c' : CounterId) :
    (s.setRampSequence p es).counter c' = s.counter c' := rfl
@[simp] theorem State.setRampSequence_now (p : RampId) (es : List RampEntry) :
    (s.setRampSequence p es).now = s.now := rfl
@[simp] theorem State.setRampSequence_anyEpisode (p : RampId) (es : List RampEntry) :
    (s.setRampSequence p es).anyEpisode = s.anyEpisode := rfl
@[simp] theorem State.setRampSequence_stream (p : RampId) (es : List RampEntry) (d' : Direction) :
    (s.setRampSequence p es).stream d' = s.stream d' := rfl

/-! ### setDue -/

@[simp] theorem State.setDue_running (due : List TimedEvent) :
    (s.setDue due).running = s.running := rfl
@[simp] theorem State.setDue_link (due : List TimedEvent) : (s.setDue due).link = s.link := rfl
@[simp] theorem State.setDue_profile (due : List TimedEvent) :
    (s.setDue due).profile = s.profile := rfl
@[simp] theorem State.setDue_depths (due : List TimedEvent) :
    (s.setDue due).depths = s.depths := rfl
@[simp] theorem State.setDue_ft (due : List TimedEvent) : (s.setDue due).ft = s.ft := rfl
@[simp] theorem State.setDue_gc (due : List TimedEvent) : (s.setDue due).gc = s.gc := rfl
@[simp] theorem State.setDue_time_prescaler (due : List TimedEvent) :
    (s.setDue due).time.prescaler = s.time.prescaler := rfl
@[simp] theorem State.setDue_time_tick (due : List TimedEvent) :
    (s.setDue due).time.tick = s.time.tick := rfl
@[simp] theorem State.setDue_time_refclkCount (due : List TimedEvent) :
    (s.setDue due).time.refclkCount = s.time.refclkCount := rfl
@[simp] theorem State.setDue_time_ramps (due : List TimedEvent) :
    (s.setDue due).time.ramps = s.time.ramps := rfl
@[simp] theorem State.setDue_time_refclk (due : List TimedEvent) :
    (s.setDue due).time.refclk = s.time.refclk := rfl
@[simp] theorem State.setDue_mode (due : List TimedEvent) : (s.setDue due).mode = s.mode := rfl
@[simp] theorem State.setDue_log (due : List TimedEvent) : (s.setDue due).log = s.log := rfl
@[simp] theorem State.setDue_counters (due : List TimedEvent) :
    (s.setDue due).counters = s.counters := rfl
@[simp] theorem State.setDue_alerts (due : List TimedEvent) :
    (s.setDue due).alerts = s.alerts := rfl
@[simp] theorem State.setDue_port (due : List TimedEvent) : (s.setDue due).port = s.port := rfl
@[simp] theorem State.setDue_draws (due : List TimedEvent) : (s.setDue due).draws = s.draws := rfl
@[simp] theorem State.setDue_pending (due : List TimedEvent) :
    (s.setDue due).pending = s.pending := rfl
@[simp] theorem State.setDue_entry (due : List TimedEvent) (t' : Tag) :
    (s.setDue due).entry t' = s.entry t' := rfl
@[simp] theorem State.setDue_queue (due : List TimedEvent) (q' : QueueId) :
    (s.setDue due).queue q' = s.queue q' := rfl
@[simp] theorem State.setDue_classNumber (due : List TimedEvent) (q' : QueueId) :
    (s.setDue due).classNumber q' = s.classNumber q' := rfl
@[simp] theorem State.setDue_classRecord (due : List TimedEvent) (c' : ClassId) :
    (s.setDue due).classRecord c' = s.classRecord c' := rfl
@[simp] theorem State.setDue_queueClass (due : List TimedEvent) (q' : QueueId) :
    (s.setDue due).queueClass q' = s.queueClass q' := rfl
@[simp] theorem State.setDue_flow (due : List TimedEvent) (i' : FlowId) :
    (s.setDue due).flow i' = s.flow i' := rfl
@[simp] theorem State.setDue_group (due : List TimedEvent) (g' : GroupId) :
    (s.setDue due).group g' = s.group g' := rfl
@[simp] theorem State.setDue_total (due : List TimedEvent) (q' : QueueId) :
    (s.setDue due).total q' = s.total q' := rfl
@[simp] theorem State.setDue_ramp (due : List TimedEvent) (p' : RampId) :
    (s.setDue due).ramp p' = s.ramp p' := rfl
@[simp] theorem State.setDue_counter (due : List TimedEvent) (c' : CounterId) :
    (s.setDue due).counter c' = s.counter c' := rfl
@[simp] theorem State.setDue_now (due : List TimedEvent) : (s.setDue due).now = s.now := rfl
@[simp] theorem State.setDue_anyEpisode (due : List TimedEvent) :
    (s.setDue due).anyEpisode = s.anyEpisode := rfl
@[simp] theorem State.setDue_stream (due : List TimedEvent) (d' : Direction) :
    (s.setDue due).stream d' = s.stream d' := rfl

/-! ### dropDue -/

@[simp] theorem State.dropDue_running (e : TimedEvent) : (s.dropDue e).running = s.running := rfl
@[simp] theorem State.dropDue_link (e : TimedEvent) : (s.dropDue e).link = s.link := rfl
@[simp] theorem State.dropDue_profile (e : TimedEvent) : (s.dropDue e).profile = s.profile := rfl
@[simp] theorem State.dropDue_depths (e : TimedEvent) : (s.dropDue e).depths = s.depths := rfl
@[simp] theorem State.dropDue_ft (e : TimedEvent) : (s.dropDue e).ft = s.ft := rfl
@[simp] theorem State.dropDue_gc (e : TimedEvent) : (s.dropDue e).gc = s.gc := rfl
@[simp] theorem State.dropDue_time_prescaler (e : TimedEvent) :
    (s.dropDue e).time.prescaler = s.time.prescaler := rfl
@[simp] theorem State.dropDue_time_tick (e : TimedEvent) :
    (s.dropDue e).time.tick = s.time.tick := rfl
@[simp] theorem State.dropDue_time_refclkCount (e : TimedEvent) :
    (s.dropDue e).time.refclkCount = s.time.refclkCount := rfl
@[simp] theorem State.dropDue_time_ramps (e : TimedEvent) :
    (s.dropDue e).time.ramps = s.time.ramps := rfl
@[simp] theorem State.dropDue_time_refclk (e : TimedEvent) :
    (s.dropDue e).time.refclk = s.time.refclk := rfl
@[simp] theorem State.dropDue_mode (e : TimedEvent) : (s.dropDue e).mode = s.mode := rfl
@[simp] theorem State.dropDue_log (e : TimedEvent) : (s.dropDue e).log = s.log := rfl
@[simp] theorem State.dropDue_counters (e : TimedEvent) : (s.dropDue e).counters = s.counters := rfl
@[simp] theorem State.dropDue_alerts (e : TimedEvent) : (s.dropDue e).alerts = s.alerts := rfl
@[simp] theorem State.dropDue_port (e : TimedEvent) : (s.dropDue e).port = s.port := rfl
@[simp] theorem State.dropDue_draws (e : TimedEvent) : (s.dropDue e).draws = s.draws := rfl
@[simp] theorem State.dropDue_pending (e : TimedEvent) : (s.dropDue e).pending = s.pending := rfl
@[simp] theorem State.dropDue_entry (e : TimedEvent) (t' : Tag) :
    (s.dropDue e).entry t' = s.entry t' := rfl
@[simp] theorem State.dropDue_queue (e : TimedEvent) (q' : QueueId) :
    (s.dropDue e).queue q' = s.queue q' := rfl
@[simp] theorem State.dropDue_classNumber (e : TimedEvent) (q' : QueueId) :
    (s.dropDue e).classNumber q' = s.classNumber q' := rfl
@[simp] theorem State.dropDue_classRecord (e : TimedEvent) (c' : ClassId) :
    (s.dropDue e).classRecord c' = s.classRecord c' := rfl
@[simp] theorem State.dropDue_queueClass (e : TimedEvent) (q' : QueueId) :
    (s.dropDue e).queueClass q' = s.queueClass q' := rfl
@[simp] theorem State.dropDue_flow (e : TimedEvent) (i' : FlowId) :
    (s.dropDue e).flow i' = s.flow i' := rfl
@[simp] theorem State.dropDue_group (e : TimedEvent) (g' : GroupId) :
    (s.dropDue e).group g' = s.group g' := rfl
@[simp] theorem State.dropDue_total (e : TimedEvent) (q' : QueueId) :
    (s.dropDue e).total q' = s.total q' := rfl
@[simp] theorem State.dropDue_ramp (e : TimedEvent) (p' : RampId) :
    (s.dropDue e).ramp p' = s.ramp p' := rfl
@[simp] theorem State.dropDue_counter (e : TimedEvent) (c' : CounterId) :
    (s.dropDue e).counter c' = s.counter c' := rfl
@[simp] theorem State.dropDue_now (e : TimedEvent) : (s.dropDue e).now = s.now := rfl
@[simp] theorem State.dropDue_anyEpisode (e : TimedEvent) :
    (s.dropDue e).anyEpisode = s.anyEpisode := rfl
@[simp] theorem State.dropDue_stream (e : TimedEvent) (d' : Direction) :
    (s.dropDue e).stream d' = s.stream d' := rfl

/-! ### refclkPeriod -/

@[simp] theorem refclkPeriod_running : (refclkPeriod s).running = s.running := rfl
@[simp] theorem refclkPeriod_link : (refclkPeriod s).link = s.link := rfl
@[simp] theorem refclkPeriod_profile : (refclkPeriod s).profile = s.profile := rfl
@[simp] theorem refclkPeriod_depths : (refclkPeriod s).depths = s.depths := rfl
@[simp] theorem refclkPeriod_ft : (refclkPeriod s).ft = s.ft := rfl
@[simp] theorem refclkPeriod_gc : (refclkPeriod s).gc = s.gc := rfl
@[simp] theorem refclkPeriod_time_prescaler :
    (refclkPeriod s).time.prescaler = s.time.prescaler := rfl
@[simp] theorem refclkPeriod_time_tick : (refclkPeriod s).time.tick = s.time.tick := rfl
@[simp] theorem refclkPeriod_time_ramps : (refclkPeriod s).time.ramps = s.time.ramps := rfl
@[simp] theorem refclkPeriod_time_due : (refclkPeriod s).time.due = s.time.due := rfl
@[simp] theorem refclkPeriod_mode : (refclkPeriod s).mode = s.mode := rfl
@[simp] theorem refclkPeriod_log : (refclkPeriod s).log = s.log := rfl
@[simp] theorem refclkPeriod_counters : (refclkPeriod s).counters = s.counters := rfl
@[simp] theorem refclkPeriod_alerts : (refclkPeriod s).alerts = s.alerts := rfl
@[simp] theorem refclkPeriod_port : (refclkPeriod s).port = s.port := rfl
@[simp] theorem refclkPeriod_draws : (refclkPeriod s).draws = s.draws := rfl
@[simp] theorem refclkPeriod_pending : (refclkPeriod s).pending = s.pending := rfl
@[simp] theorem refclkPeriod_entry (t' : Tag) : (refclkPeriod s).entry t' = s.entry t' := rfl
@[simp] theorem refclkPeriod_queue (q' : QueueId) : (refclkPeriod s).queue q' = s.queue q' := rfl
@[simp] theorem refclkPeriod_classNumber (q' : QueueId) :
    (refclkPeriod s).classNumber q' = s.classNumber q' := rfl
@[simp] theorem refclkPeriod_classRecord (c' : ClassId) :
    (refclkPeriod s).classRecord c' = s.classRecord c' := rfl
@[simp] theorem refclkPeriod_queueClass (q' : QueueId) :
    (refclkPeriod s).queueClass q' = s.queueClass q' := rfl
@[simp] theorem refclkPeriod_flow (i' : FlowId) : (refclkPeriod s).flow i' = s.flow i' := rfl
@[simp] theorem refclkPeriod_group (g' : GroupId) : (refclkPeriod s).group g' = s.group g' := rfl
@[simp] theorem refclkPeriod_total (q' : QueueId) : (refclkPeriod s).total q' = s.total q' := rfl
@[simp] theorem refclkPeriod_ramp (p' : RampId) : (refclkPeriod s).ramp p' = s.ramp p' := rfl
@[simp] theorem refclkPeriod_counter (c' : CounterId) :
    (refclkPeriod s).counter c' = s.counter c' := rfl
@[simp] theorem refclkPeriod_now : (refclkPeriod s).now = s.now := rfl
@[simp] theorem refclkPeriod_anyEpisode : (refclkPeriod s).anyEpisode = s.anyEpisode := rfl
@[simp] theorem refclkPeriod_stream (d' : Direction) :
    (refclkPeriod s).stream d' = s.stream d' := rfl

/-! ### advanceTick -/

@[simp] theorem advanceTick_running : (advanceTick s).running = s.running := rfl
@[simp] theorem advanceTick_link : (advanceTick s).link = s.link := rfl
@[simp] theorem advanceTick_profile : (advanceTick s).profile = s.profile := rfl
@[simp] theorem advanceTick_depths : (advanceTick s).depths = s.depths := rfl
@[simp] theorem advanceTick_ft : (advanceTick s).ft = s.ft := rfl
@[simp] theorem advanceTick_gc : (advanceTick s).gc = s.gc := rfl
@[simp] theorem advanceTick_time_prescaler :
    (advanceTick s).time.prescaler = s.time.prescaler := rfl
@[simp] theorem advanceTick_time_ramps : (advanceTick s).time.ramps = s.time.ramps := rfl
@[simp] theorem advanceTick_time_due : (advanceTick s).time.due = s.time.due := rfl
@[simp] theorem advanceTick_mode : (advanceTick s).mode = s.mode := rfl
@[simp] theorem advanceTick_log : (advanceTick s).log = s.log := rfl
@[simp] theorem advanceTick_counters : (advanceTick s).counters = s.counters := rfl
@[simp] theorem advanceTick_alerts : (advanceTick s).alerts = s.alerts := rfl
@[simp] theorem advanceTick_port : (advanceTick s).port = s.port := rfl
@[simp] theorem advanceTick_draws : (advanceTick s).draws = s.draws := rfl
@[simp] theorem advanceTick_pending : (advanceTick s).pending = s.pending := rfl
@[simp] theorem advanceTick_entry (t' : Tag) : (advanceTick s).entry t' = s.entry t' := rfl
@[simp] theorem advanceTick_queue (q' : QueueId) : (advanceTick s).queue q' = s.queue q' := rfl
@[simp] theorem advanceTick_classNumber (q' : QueueId) :
    (advanceTick s).classNumber q' = s.classNumber q' := rfl
@[simp] theorem advanceTick_classRecord (c' : ClassId) :
    (advanceTick s).classRecord c' = s.classRecord c' := rfl
@[simp] theorem advanceTick_queueClass (q' : QueueId) :
    (advanceTick s).queueClass q' = s.queueClass q' := rfl
@[simp] theorem advanceTick_flow (i' : FlowId) : (advanceTick s).flow i' = s.flow i' := rfl
@[simp] theorem advanceTick_group (g' : GroupId) : (advanceTick s).group g' = s.group g' := rfl
@[simp] theorem advanceTick_total (q' : QueueId) : (advanceTick s).total q' = s.total q' := rfl
@[simp] theorem advanceTick_ramp (p' : RampId) : (advanceTick s).ramp p' = s.ramp p' := rfl
@[simp] theorem advanceTick_counter (c' : CounterId) :
    (advanceTick s).counter c' = s.counter c' := rfl
@[simp] theorem advanceTick_anyEpisode : (advanceTick s).anyEpisode = s.anyEpisode := rfl
@[simp] theorem advanceTick_stream (d' : Direction) : (advanceTick s).stream d' = s.stream d' := rfl

/-! ### What a table reads after its own write -/

theorem State.setEntry_entry (t t' : Tag) (e : EntryState) :
    (s.setEntry t e).entry t' = if t' = t then e else s.entry t' := tableGet_set _ _ _ _ _

theorem State.setQueue_queue (q q' : QueueId) (r : QueueRecord) :
    (s.setQueue q r).queue q' = if q' = q then r else s.queue q' := tableGet_set _ _ _ _ _

theorem State.setFlow_flow (i i' : FlowId) (r : FlowRecord) :
    (s.setFlow i r).flow i' = if i' = i then r else s.flow i' := tableGet_set _ _ _ _ _

theorem State.setGroup_group (g g' : GroupId) (r : GroupRecord) :
    (s.setGroup g r).group g' = if g' = g then r else s.group g' := tableGet_set _ _ _ _ _

theorem State.setTotal_total (q q' : QueueId) (n : Nat) :
    (s.setTotal q n).total q' = if q' = q then n else s.total q' := tableGet_set _ _ _ _ _

theorem State.bump_counter (c c' : CounterId) :
    (s.bump c).counter c' = if c' = c then saturate (s.counter c + 1) else s.counter c' :=
  tableGet_set _ _ _ _ _

theorem State.setClassRecord_classRecord (c c' : ClassId) (r : ClassRecord) :
    (s.setClassRecord c r).classRecord c' = if c' = c then r else s.classRecord c' :=
  tableGet_set _ _ _ _ _

theorem State.setClassNumber_classNumber (q q' : QueueId) (c : ClassId) :
    (s.setClassNumber q c).classNumber q' = if q' = q then c else s.classNumber q' :=
  tableGet_set _ _ _ _ _

theorem State.setRampSequence_ramp (p p' : RampId) (es : List RampEntry) :
    (s.setRampSequence p es).ramp p' = if p' = p then es else s.ramp p' := tableGet_set _ _ _ _ _

@[simp] theorem State.setEntry_entry_self (t : Tag) (e : EntryState) :
    (s.setEntry t e).entry t = e := tableGet_set_self _ _ _ _

@[simp] theorem State.setQueue_queue_self (q : QueueId) (r : QueueRecord) :
    (s.setQueue q r).queue q = r := tableGet_set_self _ _ _ _

@[simp] theorem State.setFlow_flow_self (i : FlowId) (r : FlowRecord) :
    (s.setFlow i r).flow i = r := tableGet_set_self _ _ _ _

@[simp] theorem State.setGroup_group_self (g : GroupId) (r : GroupRecord) :
    (s.setGroup g r).group g = r := tableGet_set_self _ _ _ _

@[simp] theorem State.setTotal_total_self (q : QueueId) (n : Nat) :
    (s.setTotal q n).total q = n := tableGet_set_self _ _ _ _

@[simp] theorem State.setStream_stream_self (d : Direction) (ts : List Transit) :
    (s.setStream d ts).stream d = ts := by cases d <;> rfl

end Sys2Proof.Machine
end

