-- ==== Sys2Proof/Laws/Frames.lean ====
section
/-! SUPPORT. What the shared operations leave alone, said once for each: group operations touch the
groups, the totals, the log's entries, the counters and the sticky flags; flow operations also the
flow records; the data path also the queue records and, at a drain-end report, the mode. -/

namespace Sys2Proof.Machine

/-- The state with everything blotted out that a group operation may touch. -/
def State.groupFrame (s : State) : State :=
  { s with gc := { s.gc with groups := [], totals := [] }, log := { s.log with entries := [] }
           counters := []
           alerts := { s.alerts with logOverflow := false, onset := false, flowFull := false
                                     groupFull := false, linkCheck := false } }

/-- The state with everything blotted out that a flow operation may touch. -/
def State.flowFrame (s : State) : State :=
  { s.groupFrame with ft := { s.ft with flows := [] } }

/-- The state with everything blotted out that the data path may touch. -/
def State.dataFrame (s : State) : State :=
  { s.flowFrame with depths := { s.depths with queues := [] }, mode := .transparent }

variable {s t : State}

/-- A flow operation may touch all that a group operation may. -/
theorem flowFrame_of_groupFrame (h : t.groupFrame = s.groupFrame) : t.flowFrame = s.flowFrame := by
  have h1 : t.ft = s.ft := (congrArg State.ft h :)
  unfold State.flowFrame
  rw [h, h1]

/-- The data path may touch all that a flow operation may. -/
theorem dataFrame_of_flowFrame (h : t.flowFrame = s.flowFrame) : t.dataFrame = s.dataFrame := by
  have h1 : t.depths = s.depths := (congrArg State.depths h :)
  unfold State.dataFrame
  rw [h, h1]

theorem dataFrame_of_groupFrame (h : t.groupFrame = s.groupFrame) : t.dataFrame = s.dataFrame :=
  dataFrame_of_flowFrame (flowFrame_of_groupFrame h)

/-! ### What each frame says of the fields -/

theorem groupFrame_running (h : t.groupFrame = s.groupFrame) : t.running = s.running := (congrArg State.running h :)
theorem groupFrame_link (h : t.groupFrame = s.groupFrame) : t.link = s.link := (congrArg State.link h :)
theorem groupFrame_profile (h : t.groupFrame = s.groupFrame) : t.profile = s.profile := (congrArg State.profile h :)
theorem groupFrame_depths (h : t.groupFrame = s.groupFrame) : t.depths = s.depths := (congrArg State.depths h :)
theorem groupFrame_ft (h : t.groupFrame = s.groupFrame) : t.ft = s.ft := (congrArg State.ft h :)
theorem groupFrame_time (h : t.groupFrame = s.groupFrame) : t.time = s.time := (congrArg State.time h :)
theorem groupFrame_mode (h : t.groupFrame = s.groupFrame) : t.mode = s.mode := (congrArg State.mode h :)
theorem groupFrame_port (h : t.groupFrame = s.groupFrame) : t.port = s.port := (congrArg State.port h :)
theorem groupFrame_draws (h : t.groupFrame = s.groupFrame) : t.draws = s.draws := (congrArg State.draws h :)
theorem groupFrame_pending (h : t.groupFrame = s.groupFrame) : t.pending = s.pending := (congrArg State.pending h :)
theorem groupFrame_lingerTime (h : t.groupFrame = s.groupFrame) : t.gc.lingerTime = s.gc.lingerTime :=
  (congrArg (fun x => x.gc.lingerTime) h :)
theorem groupFrame_queue (h : t.groupFrame = s.groupFrame) (q : QueueId) : t.queue q = s.queue q := by
  unfold State.queue; rw [groupFrame_depths h]
theorem groupFrame_queueClass (h : t.groupFrame = s.groupFrame) (q : QueueId) :
    t.queueClass q = s.queueClass q := by
  unfold State.queueClass State.classRecord State.classNumber; rw [groupFrame_depths h]
theorem groupFrame_flow (h : t.groupFrame = s.groupFrame) (i : FlowId) : t.flow i = s.flow i := by
  unfold State.flow; rw [groupFrame_ft h]
theorem groupFrame_now (h : t.groupFrame = s.groupFrame) : t.now = s.now := (congrArg State.now h :)

theorem flowFrame_running (h : t.flowFrame = s.flowFrame) : t.running = s.running := (congrArg State.running h :)
theorem flowFrame_depths (h : t.flowFrame = s.flowFrame) : t.depths = s.depths := (congrArg State.depths h :)
theorem flowFrame_mode (h : t.flowFrame = s.flowFrame) : t.mode = s.mode := (congrArg State.mode h :)
theorem flowFrame_port (h : t.flowFrame = s.flowFrame) : t.port = s.port := (congrArg State.port h :)
theorem flowFrame_now (h : t.flowFrame = s.flowFrame) : t.now = s.now := (congrArg State.now h :)
theorem flowFrame_idleTime (h : t.flowFrame = s.flowFrame) : t.ft.idleTime = s.ft.idleTime :=
  (congrArg (fun x => x.ft.idleTime) h :)
theorem flowFrame_sweep (h : t.flowFrame = s.flowFrame) : t.ft.sweep = s.ft.sweep :=
  (congrArg (fun x => x.ft.sweep) h :)

theorem dataFrame_running (h : t.dataFrame = s.dataFrame) : t.running = s.running := (congrArg State.running h :)
theorem dataFrame_link (h : t.dataFrame = s.dataFrame) : t.link = s.link := (congrArg State.link h :)
theorem dataFrame_profile (h : t.dataFrame = s.dataFrame) : t.profile = s.profile := (congrArg State.profile h :)
theorem dataFrame_time (h : t.dataFrame = s.dataFrame) : t.time = s.time := (congrArg State.time h :)
theorem dataFrame_port (h : t.dataFrame = s.dataFrame) : t.port = s.port := (congrArg State.port h :)
theorem dataFrame_draws (h : t.dataFrame = s.dataFrame) : t.draws = s.draws := (congrArg State.draws h :)
theorem dataFrame_pending (h : t.dataFrame = s.dataFrame) : t.pending = s.pending := (congrArg State.pending h :)
theorem dataFrame_classOf (h : t.dataFrame = s.dataFrame) : t.depths.classOf = s.depths.classOf :=
  (congrArg (fun x => x.depths.classOf) h :)
theorem dataFrame_classes (h : t.dataFrame = s.dataFrame) : t.depths.classes = s.depths.classes :=
  (congrArg (fun x => x.depths.classes) h :)
theorem dataFrame_quietTime (h : t.dataFrame = s.dataFrame) : t.depths.quietTime = s.depths.quietTime :=
  (congrArg (fun x => x.depths.quietTime) h :)
theorem dataFrame_idleTime (h : t.dataFrame = s.dataFrame) : t.ft.idleTime = s.ft.idleTime :=
  (congrArg (fun x => x.ft.idleTime) h :)
theorem dataFrame_handshakeTime (h : t.dataFrame = s.dataFrame) :
    t.ft.handshakeTime = s.ft.handshakeTime := (congrArg (fun x => x.ft.handshakeTime) h :)
theorem dataFrame_sweepPeriod (h : t.dataFrame = s.dataFrame) : t.ft.sweepPeriod = s.ft.sweepPeriod :=
  (congrArg (fun x => x.ft.sweepPeriod) h :)
theorem dataFrame_seed (h : t.dataFrame = s.dataFrame) : t.ft.seed = s.ft.seed :=
  (congrArg (fun x => x.ft.seed) h :)
theorem dataFrame_sweep (h : t.dataFrame = s.dataFrame) : t.ft.sweep = s.ft.sweep :=
  (congrArg (fun x => x.ft.sweep) h :)
theorem dataFrame_lingerTime (h : t.dataFrame = s.dataFrame) : t.gc.lingerTime = s.gc.lingerTime :=
  (congrArg (fun x => x.gc.lingerTime) h :)
theorem dataFrame_level (h : t.dataFrame = s.dataFrame) : t.log.level = s.log.level :=
  (congrArg (fun x => x.log.level) h :)
theorem dataFrame_kindMask (h : t.dataFrame = s.dataFrame) : t.log.kindMask = s.log.kindMask :=
  (congrArg (fun x => x.log.kindMask) h :)
theorem dataFrame_mask (h : t.dataFrame = s.dataFrame) : t.alerts.mask = s.alerts.mask :=
  (congrArg (fun x => x.alerts.mask) h :)

/-! ### Setters -/

@[simp] theorem setGroup_groupFrame (g : GroupId) (r : GroupRecord) :
    (s.setGroup g r).groupFrame = s.groupFrame := rfl
@[simp] theorem setTotal_groupFrame (q : QueueId) (n : Nat) :
    (s.setTotal q n).groupFrame = s.groupFrame := rfl
@[simp] theorem bump_groupFrame (c : CounterId) : (s.bump c).groupFrame = s.groupFrame := rfl
@[simp] theorem flagOnset_groupFrame : s.flagOnset.groupFrame = s.groupFrame := rfl
@[simp] theorem flagLogOverflow_groupFrame : s.flagLogOverflow.groupFrame = s.groupFrame := rfl
@[simp] theorem flagFlowFull_groupFrame : s.flagFlowFull.groupFrame = s.groupFrame := rfl
@[simp] theorem flagGroupFull_groupFrame : s.flagGroupFull.groupFrame = s.groupFrame := rfl
@[simp] theorem flagLinkCheck_groupFrame : s.flagLinkCheck.groupFrame = s.groupFrame := rfl
@[simp] theorem setFlow_flowFrame (i : FlowId) (r : FlowRecord) :
    (s.setFlow i r).flowFrame = s.flowFrame := rfl
@[simp] theorem setGroup_flowFrame (g : GroupId) (r : GroupRecord) :
    (s.setGroup g r).flowFrame = s.flowFrame := rfl
@[simp] theorem bump_flowFrame (c : CounterId) : (s.bump c).flowFrame = s.flowFrame := rfl
@[simp] theorem flagFlowFull_flowFrame : s.flagFlowFull.flowFrame = s.flowFrame := rfl
@[simp] theorem flagGroupFull_flowFrame : s.flagGroupFull.flowFrame = s.flowFrame := rfl
@[simp] theorem setQueue_dataFrame (q : QueueId) (r : QueueRecord) :
    (s.setQueue q r).dataFrame = s.dataFrame := rfl
@[simp] theorem bump_dataFrame (c : CounterId) : (s.bump c).dataFrame = s.dataFrame := rfl

/-! ### Events over groups -/

/-- What holds before an event over groups and is kept at each group holds after it. -/
theorem forGroups_keeps (P : State → Prop) (f : GroupId → State → State)
    (hf : ∀ g s, P s → P (f g s)) (h : P s) : P (forGroups s f) := by
  unfold forGroups
  generalize List.finRange 128 = l
  induction l generalizing s with
  | nil => exact h
  | cons g rest ih => exact ih (hf g s h)

/-- The same for the groups of one queue. -/
theorem forGroupsOn_keeps (P : State → Prop) (q : QueueId) (f : GroupId → State → State)
    (hf : ∀ g s, P s → P (f g s)) (h : P s) : P (forGroupsOn q s f) := by
  refine forGroups_keeps P _ (fun g s hs => ?_) h
  split
  · exact hf g s hs
  · exact hs

theorem forGroups_groupFrame (f : GroupId → State → State)
    (hf : ∀ g s, (f g s).groupFrame = s.groupFrame) : (forGroups s f).groupFrame = s.groupFrame :=
  forGroups_keeps (fun t => t.groupFrame = s.groupFrame) f (fun g t ht => (hf g t).trans ht) rfl

theorem forGroupsOn_groupFrame (q : QueueId) (f : GroupId → State → State)
    (hf : ∀ g s, (f g s).groupFrame = s.groupFrame) :
    (forGroupsOn q s f).groupFrame = s.groupFrame :=
  forGroupsOn_keeps (fun t => t.groupFrame = s.groupFrame) q f
    (fun g t ht => (hf g t).trans ht) rfl

/-! ### Group operations -/

@[simp] theorem offer_groupFrame (e : LogEntry) (s : State) : (offer e s).groupFrame = s.groupFrame := by
  unfold offer; split_ifs <;> rfl

@[simp] theorem offerFor_groupFrame (g : GroupId) (k : LogKind) (c : LogCause) (b : Bool) (s : State) :
    (offerFor g k c b s).groupFrame = s.groupFrame := by
  unfold offerFor; dsimp only; split <;> simp

@[simp] theorem addTotal_groupFrame (g : GroupId) (n : Nat) (s : State) :
    (addTotal g n s).groupFrame = s.groupFrame := by
  unfold addTotal; cases (s.group g).key <;> simp

@[simp] theorem subTotal_groupFrame (g : GroupId) (n : Nat) (s : State) :
    (subTotal g n s).groupFrame = s.groupFrame := by
  unfold subTotal; cases (s.group g).key <;> simp

@[simp] theorem onset_groupFrame (g : GroupId) (s : State) : (onset g s).groupFrame = s.groupFrame := by
  simp [onset]

@[simp] theorem testOnset_groupFrame (g : GroupId) (s : State) :
    (testOnset g s).groupFrame = s.groupFrame := by
  unfold testOnset; split_ifs <;> simp

@[simp] theorem endEpisode_groupFrame (g : GroupId) (c : LogCause) (s : State) :
    (endEpisode g c s).groupFrame = s.groupFrame := by
  simp [endEpisode]

@[simp] theorem sequenceEnd_groupFrame (g : GroupId) (s : State) :
    (sequenceEnd g s).groupFrame = s.groupFrame := by
  simp [sequenceEnd]

@[simp] theorem collapse_groupFrame (g : GroupId) (s : State) :
    (collapse g s).groupFrame = s.groupFrame := by
  simp [collapse]

@[simp] theorem afterRemoval_groupFrame (g : GroupId) (s : State) :
    (afterRemoval g s).groupFrame = s.groupFrame := by
  unfold afterRemoval; dsimp only; split_ifs <;> simp

@[simp] theorem resume_groupFrame (g : GroupId) (s : State) : (resume g s).groupFrame = s.groupFrame := by
  simp [resume]

@[simp] theorem upwardOn_groupFrame (g : GroupId) (s : State) :
    (upwardOn g s).groupFrame = s.groupFrame := by
  unfold upwardOn; split <;> (try split_ifs) <;> simp

@[simp] theorem upwardCrossing_groupFrame (q : QueueId) (s : State) :
    (upwardCrossing q s).groupFrame = s.groupFrame :=
  forGroupsOn_groupFrame q _ upwardOn_groupFrame

@[simp] theorem settle_groupFrame (hold : Nat) (g : GroupId) (s : State) :
    (settle hold g s).groupFrame = s.groupFrame := by
  unfold settle; split <;> simp

@[simp] theorem downwardCrossing_groupFrame (q : QueueId) (s : State) :
    (downwardCrossing q s).groupFrame = s.groupFrame :=
  forGroupsOn_groupFrame q _ (settle_groupFrame _)

@[simp] theorem raisePeak_groupFrame (n : Nat) (g : GroupId) (s : State) :
    (raisePeak n g s).groupFrame = s.groupFrame := by
  unfold raisePeak; dsimp only; split_ifs <;> simp

@[simp] theorem enqueueNotice_groupFrame (q : QueueId) (n : Nat) (s : State) :
    (enqueueNotice q n s).groupFrame = s.groupFrame :=
  forGroupsOn_groupFrame q _ (raisePeak_groupFrame n)

@[simp] theorem reachEnd_groupFrame (g : GroupId) (s : State) :
    (reachEnd g s).groupFrame = s.groupFrame := by
  unfold reachEnd; split_ifs <;> simp

@[simp] theorem advanceEntry_groupFrame (g : GroupId) (s : State) :
    (advanceEntry g s).groupFrame = s.groupFrame := by
  unfold advanceEntry; dsimp only; split_ifs <;> simp

@[simp] theorem testEntry_groupFrame (g : GroupId) (s : State) :
    (testEntry g s).groupFrame = s.groupFrame := by
  unfold testEntry; split_ifs <;> simp

@[simp] theorem enterRamp_groupFrame (g : GroupId) (s : State) :
    (enterRamp g s).groupFrame = s.groupFrame := by
  simp [enterRamp]

@[simp] theorem drainOn_groupFrame (g : GroupId) (s : State) :
    (drainOn g s).groupFrame = s.groupFrame := by
  unfold drainOn; split <;> (try split_ifs) <;> simp

@[simp] theorem releaseOn_groupFrame (g : GroupId) (s : State) :
    (releaseOn g s).groupFrame = s.groupFrame := by
  unfold releaseOn; split_ifs <;> simp

/-- The drain-end report leaves all but the groups and the mode. -/
@[simp] theorem drainEnd_dataFrame (s : State) : (drainEnd s).dataFrame = s.dataFrame := by
  unfold drainEnd
  split_ifs
  · exact (dataFrame_of_groupFrame
      (forGroups_groupFrame (s := { s with mode := .observe }) testOnset testOnset_groupFrame)).trans rfl
  · rfl

/-! ### Flow operations -/

@[simp] theorem removeMember_flowFrame (f : FlowId) (g : GroupId) (s : State) :
    (removeMember f g s).flowFrame = s.flowFrame := by
  unfold removeMember
  dsimp only
  split <;> split <;> simp only [setGroup_flowFrame, setFlow_flowFrame]

@[simp] theorem leave_flowFrame (f : FlowId) (s : State) : (leave f s).flowFrame = s.flowFrame := by
  unfold leave
  split
  · rfl
  · rw [flowFrame_of_groupFrame (afterRemoval_groupFrame _ _), removeMember_flowFrame]

@[simp] theorem freeRecord_flowFrame (i : FlowId) (s : State) :
    (freeRecord i s).flowFrame = s.flowFrame := by
  simp [freeRecord]

@[simp] theorem appendMember_flowFrame (f : FlowId) (g : GroupId) (s : State) :
    (appendMember f g s).flowFrame = s.flowFrame := by
  unfold appendMember
  dsimp only
  split <;> simp only [setGroup_flowFrame, setFlow_flowFrame]

@[simp] theorem joinGroup_flowFrame (f : FlowId) (g : GroupId) (s : State) :
    (joinGroup f g s).flowFrame = s.flowFrame := by
  unfold joinGroup
  dsimp only
  split_ifs
  · rfl
  · rw [flowFrame_of_groupFrame (addTotal_groupFrame _ _ _), bump_flowFrame, appendMember_flowFrame]
  · rw [flowFrame_of_groupFrame (testOnset_groupFrame _ _), bump_flowFrame, appendMember_flowFrame]
  · rw [bump_flowFrame, appendMember_flowFrame]

@[simp] theorem join_flowFrame (f : FlowId) (side : Side) (key : GroupKey) (s : State) :
    (join f side key s).flowFrame = s.flowFrame := by
  unfold join
  dsimp only
  split
  · simp
  · split <;> simp

@[simp] theorem joinRequest_flowFrame (f : FlowId) (side : Side) (key : GroupKey) (s : State) :
    (joinRequest f side key s).flowFrame = s.flowFrame := by
  unfold joinRequest
  split
  · simp
  · split_ifs <;> simp

@[simp] theorem finTeardown_flowFrame (i : FlowId) (side : Side) (s : State) :
    (finTeardown i side s).flowFrame = s.flowFrame := by
  unfold finTeardown; dsimp only; split_ifs <;> simp

@[simp] theorem requestJoin_flowFrame (i : FlowId) (side : Side) (ip : IpPart) (tcp : TcpPart)
    (q : Option QueueId) (s : State) : (requestJoin i side ip tcp q s).flowFrame = s.flowFrame := by
  unfold requestJoin
  split
  · rfl
  · split_ifs <;> simp

@[simp] theorem teardown_flowFrame (i : FlowId) (side : Side) (tcp : TcpPart) (s : State) :
    (teardown i side tcp s).flowFrame = s.flowFrame := by
  unfold teardown; split_ifs <;> simp

@[simp] theorem trackSegment_flowFrame (i : FlowId) (side : Side) (ip : IpPart) (tcp : TcpPart)
    (q : Option QueueId) (s : State) : (trackSegment i side ip tcp q s).flowFrame = s.flowFrame := by
  simp [trackSegment]

@[simp] theorem takeSegment_flowFrame (ip : IpPart) (tcp : TcpPart) (q : Option QueueId) (s : State) :
    (takeSegment ip tcp q s).flowFrame = s.flowFrame := by
  unfold takeSegment
  split
  · simp
  · split
    · simp
    · split_ifs
      · split <;> simp
      · rfl

/-! ### The data path -/

@[simp] theorem writeSegment_dataFrame (ip : IpPart) (tcp : TcpPart) (q : Option QueueId) (s : State) :
    (writeSegment ip tcp q s).dataFrame = s.dataFrame := by
  unfold writeSegment
  split_ifs
  · rfl
  · rw [drainEnd_dataFrame, dataFrame_of_flowFrame (takeSegment_flowFrame _ _ _ _)]

@[simp] theorem enqueue_dataFrame (q : QueueId) (n : Nat) (s : State) :
    (enqueue q n s).dataFrame = s.dataFrame := by
  unfold enqueue
  dsimp only
  split_ifs
  · rfl
  · rw [dataFrame_of_groupFrame (enqueueNotice_groupFrame _ _ _),
      dataFrame_of_groupFrame (upwardCrossing_groupFrame _ _), setQueue_dataFrame]
  · rw [dataFrame_of_groupFrame (enqueueNotice_groupFrame _ _ _), setQueue_dataFrame]

@[simp] theorem signalFall_groupFrame (q : QueueId) (a b : Nat) (s : State) :
    (signalFall q a b s).groupFrame = s.groupFrame := by
  unfold signalFall; dsimp only; split_ifs <;> simp

@[simp] theorem departure_dataFrame (q : QueueId) (n : Nat) (s : State) :
    (departure q n s).dataFrame = s.dataFrame := by
  unfold departure
  dsimp only
  split_ifs
  · rfl
  · rw [dataFrame_of_groupFrame (signalFall_groupFrame _ _ _ _), bump_dataFrame, setQueue_dataFrame]
  · rw [dataFrame_of_groupFrame (signalFall_groupFrame _ _ _ _), setQueue_dataFrame]

@[simp] theorem quietExpiry_dataFrame (q : QueueId) (s : State) :
    (quietExpiry q s).dataFrame = s.dataFrame := by
  unfold quietExpiry
  dsimp only
  split_ifs
  · rw [dataFrame_of_groupFrame (signalFall_groupFrame _ _ _ _), bump_dataFrame, setQueue_dataFrame]
  · rfl

@[simp] theorem countMark_dataFrame (q : QueueId) (s : State) : (countMark q s).dataFrame = s.dataFrame := by
  unfold countMark; split_ifs <;> rfl

@[simp] theorem afterLookup_dataFrame (ip : IpPart) (tcp : TcpPart) (s : State) :
    (afterLookup ip tcp s).dataFrame = s.dataFrame := by
  unfold afterLookup; split_ifs <;> rfl

@[simp] theorem countDecisions_dataFrame (w : WindowOutcome) (m : MarkOutcome) (q : Option QueueId)
    (s : State) : (countDecisions w m q s).dataFrame = s.dataFrame := by
  unfold countDecisions countMarks countWindow; split <;> split <;> simp

@[simp] theorem takeWriteRecord_dataFrame (r : FrameRecord) (q : Option QueueId) (s : State) :
    (takeWriteRecord r q s).dataFrame = s.dataFrame := by
  unfold takeWriteRecord; dsimp only; split <;> simp

@[simp] theorem takeReadRecord_dataFrame (r : FrameRecord) (s : State) :
    (takeReadRecord r s).2.dataFrame = s.dataFrame := by
  unfold takeReadRecord
  cases r.ip <;> cases r.tcp <;> simp

@[simp] theorem decideRead_dataFrame (r : FrameRecord) (m : Mode) (d : Option (QueueId × Nat))
    (a : Option FlowAnswer) (c : Cell) (s : State) :
    (decideRead r m d a c s).1.dataFrame = s.dataFrame := by
  unfold decideRead; dsimp only; split_ifs <;> simp

@[simp] theorem accountWrite_dataFrame (p : Profile) (c : Cell) (s : State) :
    (accountWrite p c s).2.dataFrame = s.dataFrame := by
  unfold accountWrite; split <;> simp

@[simp] theorem accountRead_dataFrame (p : Profile) (c : Cell) (s : State) :
    (accountRead p c s).2.dataFrame = s.dataFrame := by
  unfold accountRead; split <;> simp

@[simp] theorem nextStage_dataFrame (t : Transit) (s : State) :
    (nextStage t s).2.dataFrame = s.dataFrame := by
  unfold nextStage accountTransit recordTransit decideTransit
  split
  · rfl
  · split <;> split <;> simp

@[simp] theorem stageUpTo_dataFrame (k : ParseStage) (r : Transit × State) :
    (stageUpTo k r).2.dataFrame = r.2.dataFrame := by
  unfold stageUpTo; split_ifs <;> simp

@[simp] theorem parseTransit_dataFrame (k : ParseStage) (t : Transit) (s : State) :
    (parseTransit k t s).2.dataFrame = s.dataFrame := by
  simp [parseTransit]

@[simp] theorem parseFirst_dataFrame (k : ParseStage) (ts : List Transit) (s : State) :
    (parseFirst k ts s).2.dataFrame = s.dataFrame := by
  induction ts with
  | nil => rfl
  | cons t rest ih => unfold parseFirst; split_ifs <;> simp [ih]

end Sys2Proof.Machine
end

