-- ==== Sys2Proof/Laws/Groups.lean ====
section
/-! SUPPORT. What each operation on one group makes of every group record and every active member
total: said once per operation. What else they leave alone is said in Laws/Frames.lean. -/

namespace Sys2Proof.Machine

variable (s : State)

/-! ### The log takes an offer and leaves the tables -/

@[simp] theorem offer_gc (e : LogEntry) : (offer e s).gc = s.gc := by
  unfold offer; split_ifs <;> rfl

@[simp] theorem offerFor_gc (g : GroupId) (k : LogKind) (c : LogCause) (b : Bool) :
    (offerFor g k c b s).gc = s.gc := by
  unfold offerFor; dsimp only; split <;> simp

@[simp] theorem offerFor_group (g : GroupId) (k : LogKind) (c : LogCause) (b : Bool) (h : GroupId) :
    (offerFor g k c b s).group h = s.group h := by simp [State.group]

@[simp] theorem offerFor_total (g : GroupId) (k : LogKind) (c : LogCause) (b : Bool) (q : QueueId) :
    (offerFor g k c b s).total q = s.total q := by simp [State.total]

/-- An offer appends one entry below the log's capacity, or leaves the entries (R164). -/
theorem offer_entries (e : LogEntry) :
    (offer e s).log.entries = s.log.entries ∨
      ((offer e s).log.entries = s.log.entries ++ [e] ∧ s.log.entries.length < Config.logCapacity) := by
  unfold offer
  split_ifs with h1 h2 h3
  · exact .inl rfl
  · exact .inl rfl
  · exact .inl rfl
  · exact .inr ⟨rfl, not_le.mp h3⟩

/-! ### Totals (R83) -/

/-- The queue of a group's key. -/
def State.groupQueue (s : State) (g : GroupId) : Option QueueId := (s.group g).key.map GroupKey.queue

@[simp] theorem addTotal_group (g : GroupId) (n : Nat) (h : GroupId) :
    (addTotal g n s).group h = s.group h := by
  unfold addTotal; split <;> simp

theorem addTotal_total (g : GroupId) (n : Nat) (q : QueueId) :
    (addTotal g n s).total q = s.total q + if s.groupQueue g = some q then n else 0 := by
  unfold addTotal State.groupQueue
  cases hk : (s.group g).key with
  | none => simp
  | some key =>
    by_cases hq : key.queue = q
    · subst hq; simp
    · simp [State.setTotal_total, hq, Ne.symm hq]

@[simp] theorem subTotal_group (g : GroupId) (n : Nat) (h : GroupId) :
    (subTotal g n s).group h = s.group h := by
  unfold subTotal; split <;> simp

theorem subTotal_total (g : GroupId) (n : Nat) (q : QueueId) :
    (subTotal g n s).total q = s.total q - if s.groupQueue g = some q then n else 0 := by
  unfold subTotal State.groupQueue
  cases hk : (s.group g).key with
  | none => simp
  | some key =>
    by_cases hq : key.queue = q
    · subst hq; simp
    · simp [State.setTotal_total, hq, Ne.symm hq]

theorem groupQueue_congr {s t : State} {g : GroupId} (h : (t.group g).key = (s.group g).key) :
    t.groupQueue g = s.groupQueue g := by simp [State.groupQueue, h]

/-! ### Transitions of one group -/

/-- An onset (R94). -/
theorem onset_group (g h : GroupId) :
    (onset g s).group h = if h = g then
      { s.group g with state := .active, onsetAt := some s.now
                       peak := some (((s.group g).key.map
                         (fun key => (s.queue key.queue).estimate)).getD 0) }
    else s.group h := by
  simp [onset, State.setGroup_group]

theorem onset_total (g : GroupId) (q : QueueId) :
    (onset g s).total q = s.total q + if s.groupQueue g = some q then (s.group g).count else 0 := by
  simp [onset, addTotal_total, State.groupQueue]

/-- The end of an episode (R100, R105). -/
theorem endEpisode_group (g h : GroupId) (c : LogCause) :
    (endEpisode g c s).group h = if h = g then (s.group g).toWatch else s.group h := by
  simp [endEpisode, State.setGroup_group]

theorem endEpisode_total (g : GroupId) (c : LogCause) (q : QueueId) :
    (endEpisode g c s).total q =
      s.total q - if s.groupQueue g = some q then (s.group g).count else 0 := by
  simp [endEpisode, subTotal_total, State.groupQueue]

/-- A collapse (R89). -/
theorem collapse_group (g h : GroupId) :
    (collapse g s).group h =
      if h = g then { (s.group g).toWatch with lingerStart := some s.now } else s.group h := by
  simp [collapse, State.setGroup_group, groupFrame_now (offerFor_groupFrame _ _ _ _ s)]

@[simp] theorem collapse_total (g : GroupId) (q : QueueId) : (collapse g s).total q = s.total q := by
  simp [collapse]

/-- A RESUME (R98). -/
theorem resume_group (g h : GroupId) :
    (resume g s).group h = if h = g then
      { s.group g with state := .active, deadline := none, rampEntry := none, rampStart := none }
    else s.group h := by
  simp [resume, State.setGroup_group]

@[simp] theorem resume_total (g : GroupId) (q : QueueId) : (resume g s).total q = s.total q := by
  simp [resume]

/-- A downward crossing at one group (R97). -/
theorem settle_group (hold : Nat) (g h : GroupId) :
    (settle hold g s).group h =
      if h = g ∧ (s.group g).state = .active then
        { s.group g with state := .settle, deadline := some (deadlineAfter s.now hold) }
      else s.group h := by
  unfold settle
  by_cases hh : h = g
  · subst hh; split <;> simp_all
  · split <;> simp [State.setGroup_group, hh]

@[simp] theorem settle_total (hold : Nat) (g : GroupId) (q : QueueId) :
    (settle hold g s).total q = s.total q := by
  unfold settle; split <;> simp

/-- An enqueue notice at one group (R95). -/
theorem raisePeak_group (n : Nat) (g h : GroupId) :
    (raisePeak n g s).group h =
      if h = g ∧ (s.group g).state.isEpisode = true then
        { s.group g with peak := some (max ((s.group g).peak.getD 0) n) }
      else s.group h := by
  unfold raisePeak
  by_cases he : (s.group g).state.isEpisode = true
  · by_cases hh : h = g
    · subst hh; simp [he]
    · simp [he, hh, State.setGroup_group]
  · simp [he]

@[simp] theorem raisePeak_total (n : Nat) (g : GroupId) (q : QueueId) :
    (raisePeak n g s).total q = s.total q := by
  unfold raisePeak; dsimp only; split_ifs <;> simp

/-- The removal of a group's last member, or of one of many (R88, R89, R90). -/
theorem afterRemoval_group (g h : GroupId) :
    (afterRemoval g s).group h =
      if h = g ∧ (s.group g).count = 0 ∧ (s.group g).state.isEpisode = true then
        { (s.group g).toWatch with lingerStart := some s.now }
      else if h = g ∧ (s.group g).count = 0 ∧ (s.group g).state = .watch then
        { s.group g with lingerStart := some s.now }
      else s.group h := by
  have hnow : (subTotal g 1 s).now = s.now := groupFrame_now (subTotal_groupFrame g 1 s)
  unfold afterRemoval
  dsimp only
  by_cases he : (s.group g).state.isEpisode = true
  · have hw : (s.group g).state ≠ .watch := by intro hw; rw [hw] at he; exact absurd he (by decide)
    by_cases hc : (s.group g).count = 0
    · by_cases hh : h = g
      · subst hh; simp [he, hc, collapse_group, hnow]
      · simp [he, hc, collapse_group, hh]
    · simp [he, hc]
  · by_cases hc : (s.group g).state = .watch ∧ (s.group g).count = 0
    · by_cases hh : h = g
      · subst hh; simp [hc, GroupState.isEpisode]
      · simp [hc, hh, State.setGroup_group, GroupState.isEpisode]
    · have hc' : ¬((s.group g).count = 0 ∧ (s.group g).state = .watch) := fun h' => hc ⟨h'.2, h'.1⟩
      simp [he, hc, hc']

theorem afterRemoval_total (g : GroupId) (q : QueueId) :
    (afterRemoval g s).total q = s.total q -
      if s.groupQueue g = some q ∧ (s.group g).state.isEpisode = true then 1 else 0 := by
  unfold afterRemoval
  dsimp only
  by_cases he : (s.group g).state.isEpisode = true
  · by_cases hc : (s.group g).count = 0 <;> simp [he, hc, subTotal_total]
  · by_cases hc : (s.group g).state = .watch ∧ (s.group g).count = 0
    · simp [hc, GroupState.isEpisode]
    · simp [he, hc]

/-! ### Lists (R82) -/

/-- What a removal makes of every flow record. -/
theorem removeMember_flow (f : FlowId) (g : GroupId) (i : FlowId) :
    (removeMember f g s).flow i =
      let r := s.flow i
      if i = f then
        { r with group := none, prev := none, next := none }
      else
        { r with next := if (s.flow f).prev = some i then (s.flow f).next else r.next
                 prev := if (s.flow f).next = some i then (s.flow f).prev else r.prev } := by
  unfold removeMember
  dsimp only
  cases hp : (s.flow f).prev with
  | none =>
    cases hn : (s.flow f).next with
    | none =>
      by_cases hi : i = f <;> simp [State.setFlow_flow, hi]
    | some n =>
      by_cases hi : i = f
      · subst hi
        by_cases hin : i = n
        · subst hin; simp
        · simp [State.setFlow_flow, hin]
      · by_cases hin : i = n
        · subst hin; simp [State.setFlow_flow, hi]
        · simp [State.setFlow_flow, hi, hin, Ne.symm hin]
  | some p =>
    cases hn : (s.flow f).next with
    | none =>
      by_cases hi : i = f
      · subst hi
        by_cases hip : i = p
        · subst hip; simp
        · simp [State.setFlow_flow, hip]
      · by_cases hip : i = p
        · subst hip; simp [State.setFlow_flow, hi]
        · simp [State.setFlow_flow, hi, hip, Ne.symm hip]
    | some n =>
      by_cases hi : i = f
      · subst hi
        by_cases hip : i = p
        · subst hip
          by_cases hin : i = n
          · subst hin; simp
          · simp [State.setFlow_flow, hin]
        · by_cases hin : i = n
          · subst hin; simp [State.setFlow_flow, hip]
          · simp [State.setFlow_flow, hin, hip]
      · by_cases hip : i = p
        · subst hip
          by_cases hin : i = n
          · subst hin; simp [State.setFlow_flow, hi]
          · simp [State.setFlow_flow, hi, hin, Ne.symm hin]
        · by_cases hin : i = n
          · subst hin; simp [State.setFlow_flow, hi, hip, Ne.symm hip]
          · simp [State.setFlow_flow, hi, hip, hin, Ne.symm hip, Ne.symm hin]

/-- What a removal makes of every group record. -/
theorem removeMember_group (f : FlowId) (g h : GroupId) :
    (removeMember f g s).group h = if h = g then
      { s.group g with
        count := (s.group g).count - 1
        head := if (s.flow f).prev.isNone then (s.flow f).next else (s.group g).head
        tail := if (s.flow f).next.isNone then (s.flow f).prev else (s.group g).tail }
    else s.group h := by
  unfold removeMember
  dsimp only
  split <;> split <;> simp [State.setGroup_group]

@[simp] theorem removeMember_total (f : FlowId) (g : GroupId) (q : QueueId) :
    (removeMember f g s).total q = s.total q := by
  unfold removeMember
  dsimp only
  split <;> split <;> simp

/-- What an append makes of every flow record. -/
theorem appendMember_flow (f : FlowId) (g : GroupId) (i : FlowId) :
    (appendMember f g s).flow i =
      let r := s.flow i
      if i = f then { r with group := some g, prev := (s.group g).tail, next := none }
      else { r with next := if (s.group g).tail = some i then some f else r.next } := by
  unfold appendMember
  dsimp only
  cases ht : (s.group g).tail with
  | none => by_cases hi : i = f <;> simp [State.setFlow_flow, hi]
  | some t =>
    by_cases hi : i = f
    · subst hi
      by_cases hit : i = t
      · subst hit; simp
      · simp [State.setFlow_flow, hit]
    · by_cases hit : i = t
      · subst hit; simp [State.setFlow_flow, hi]
      · simp [State.setFlow_flow, hi, hit, Ne.symm hit]

/-- What an append makes of every group record. -/
theorem appendMember_group (f : FlowId) (g h : GroupId) :
    (appendMember f g s).group h = if h = g then
      { s.group g with
        count := (s.group g).count + 1
        head := if (s.group g).head.isNone then some f else (s.group g).head
        tail := some f
        lingerStart := if (s.group g).state = .watch ∧ (s.group g).count = 0 then none
                       else (s.group g).lingerStart }
    else s.group h := by
  unfold appendMember
  dsimp only
  split <;> simp [State.setGroup_group]

@[simp] theorem appendMember_total (f : FlowId) (g : GroupId) (q : QueueId) :
    (appendMember f g s).total q = s.total q := by
  unfold appendMember
  dsimp only
  split <;> simp

end Sys2Proof.Machine
end

