-- ==== Sys2Proof/Laws/Timers.lean ====
section
/-! SUPPORT. The expiries: when each is due, what taking one can do, and what it leaves alone. -/

namespace Sys2Proof.Machine

/-! ### The conditions (R48, R90, R99, R146, R148) -/

theorem holdDue_iff (s : State) (g : GroupId) :
    holdDue s g = true ↔ (s.group g).state = .settle ∧ (s.group g).deadline = some s.now := by
  simp [holdDue]

theorem holdEndDue_iff (s : State) (g : GroupId) :
    holdEndDue s g = true ↔ (s.group g).state = .ramp ∧ (s.group g).rampStart = none
      ∧ (groupClass s g).endMode = .ends := by
  simp [holdEndDue, and_assoc]

theorem lingerDue_iff (s : State) (g : GroupId) :
    lingerDue s g = true ↔ (s.group g).state = .watch ∧ (s.group g).count = 0
      ∧ ∃ start, (s.group g).lingerStart = some start
          ∧ s.gc.lingerTime ≤ (s.now - start).toNat := by
  unfold lingerDue
  split
  · rename_i h; simp [h]
  · rename_i start h
    simp only [h, Bool.and_eq_true, decide_eq_true_eq, and_assoc, Option.some.injEq, exists_eq_left']
    rfl

theorem quietDue_iff (s : State) (q : QueueId) :
    quietDue s q = true ↔ s.depths.quietTime ≠ 0 ∧ s.mode ≠ .transparent ∧ (s.queue q).estimate ≠ 0
      ∧ s.depths.quietTime ≤ (s.now - (s.queue q).lastActivity).toNat := by
  simp only [quietDue, Bool.and_eq_true, decide_eq_true_eq, and_assoc]
  rfl

theorem entryDue_iff (s : State) (g : GroupId) :
    entryDue s g = true ↔ (s.group g).state = .ramp ∧ ∃ start, (s.group g).rampStart = some start
      ∧ ((groupRamp s g).length ≤ (s.group g).rampEntry.getD 0
        ∨ ∃ e, (groupRamp s g)[(s.group g).rampEntry.getD 0]? = some e
            ∧ e.duration ≤ (s.now - start).toNat) := by
  unfold entryDue
  dsimp only
  split
  · rename_i h; simp [h]
  · rename_i start h
    simp only [h, Bool.and_eq_true, Bool.or_eq_true, decide_eq_true_eq, Option.some.injEq,
      exists_eq_left', elapsed, List.getD_eq_getElem?_getD]
    refine and_congr_right fun _ => or_congr_right' fun hi => ?_
    rw [List.getElem?_eq_getElem (Nat.not_le.mp hi)]
    simp only [Option.getD_some, Option.some.injEq, exists_eq_left']

/-- The condition of an expiry, as the spec states it. -/
theorem timedHolds_iff (s : State) (e : TimedEvent) : timedHolds s e = true ↔ s.expires s.now e := by
  cases e
  · exact quietDue_iff s _
  · exact lingerDue_iff s _
  · exact holdDue_iff s _
  · exact entryDue_iff s _
  · exact holdEndDue_iff s _

/-! ### Taking one -/

/-- An expiry whose condition does not hold does nothing. -/
theorem timedEffect_of_not (s : State) (e : TimedEvent) (h : timedHolds s e = false) :
    timedEffect e s = s := by
  cases e <;> simp_all [timedHolds, timedEffect, quietExpiry, lingerExpiry, holdExpiry, entryExpiry,
    holdEnd]

theorem mem_dropDue (s : State) (e e' : TimedEvent) :
    e' ∈ (s.dropDue e).time.due ↔ e' ∈ s.time.due ∧ e' ≠ e := by
  simp [State.dropDue, State.setDue]

theorem dropDue_of_not_mem (s : State) (e : TimedEvent) (h : e ∉ s.time.due) : s.dropDue e = s := by
  have : s.time.due.filter (fun e' => decide (e' ≠ e)) = s.time.due :=
    List.filter_eq_self.mpr (fun e' he => decide_eq_true (fun heq => h (heq ▸ he)))
  unfold State.dropDue State.setDue
  rw [this]

theorem timedHolds_dropDue (s : State) (e e' : TimedEvent) :
    timedHolds (s.dropDue e') e = timedHolds s e := rfl

/-- All that the command of an expiry can do: its effect once, when it falls on this tick and its
condition holds; otherwise it only stops falling on it. -/
theorem takeTimed_spec (e : TimedEvent) (s : State) :
    (e ∈ s.time.due → timedHolds s e = true → takeTimed e s = timedEffect e (s.dropDue e))
    ∧ (e ∉ s.time.due ∨ timedHolds s e = false → takeTimed e s = s.dropDue e) := by
  unfold takeTimed
  refine ⟨fun h _ => if_pos h, fun h => ?_⟩
  split_ifs with he
  · exact timedEffect_of_not _ _ (h.resolve_left (not_not.mpr he))
  · exact (dropDue_of_not_mem s e he).symm

/-! ### What the tick keeps: a law that each of its parts keeps -/

section
variable {P : State → Prop}

/-- A law that the effect of each expiry keeps, and that does not read which are still to come. -/
theorem takeTimed_keeps (ht : ∀ e s, P s → P (timedEffect e s)) (hd : ∀ e s, P s → P (s.dropDue e))
    (e : TimedEvent) {s : State} (h : P s) : P (takeTimed e s) := by
  unfold takeTimed
  split_ifs
  · exact ht e _ (hd e s h)
  · exact h

theorem timedRest_keeps (ht : ∀ e s, P s → P (takeTimed e s)) {s : State} (h : P s) :
    P (timedRest s) := by
  have all : ∀ (l : List TimedEvent) (s : State), P s → P (l.foldl (fun s e => takeTimed e s) s) := by
    intro l
    induction l with
    | nil => exact fun _ h => h
    | cons e l ih => exact fun s h => ih _ (ht e s h)
  exact all _ s h

theorem sweepVisits_keeps (hv : ∀ i s, P s → P (sweepVisit i s)) (n : Nat) {s : State} (h : P s) :
    P (sweepVisits n s) := by
  induction n generalizing s with
  | zero => exact h
  | succ n ih =>
    unfold sweepVisits
    split
    · exact h
    · split_ifs
      · exact ih (hv _ s h)
      · exact h
      · exact h

theorem walkRest_keeps (hw : ∀ s, P s → P (walkStep s)) (n : Nat) {s : State} (h : P s) :
    P (walkRest n s) := by
  induction n generalizing s with
  | zero => exact h
  | succ n ih =>
    unfold walkRest
    split
    · exact ih (hw s h)
    · exact h

/-- The tick keeps a law that every expiry, visit, end of a pass and walk step keeps, and that the
count itself and the expiries that fall keep. -/
theorem tickOnce_keeps (ht : ∀ e s, P s → P (takeTimed e s)) (hv : ∀ i s, P s → P (sweepVisit i s))
    (hp : ∀ s, P s → P (sweepPassEnd s)) (hw : ∀ s, P s → P (walkStep s))
    (ha : ∀ s, P s → P (fallDue (advanceTick s))) {s : State} (h : P s) : P (tickOnce s) :=
  ha _ (walkRest_keeps hw _ (sweepVisits_keeps hv _ (hp _ (sweepVisits_keeps hv _ (timedRest_keeps ht h)))))

end

end Sys2Proof.Machine
end

