-- ==== Sys2Proof/Laws/Compose.lean ====
section
/-! SUPPORT. A law of the flow, group and total tables that every single write to them keeps is kept by
every operation made of such writes, up to the parse of a cell: said once, for every such law. -/

namespace Sys2Proof.Machine

variable {s t : State}

/-- Every single change of the flow, group and total tables keeps the law `P`. -/
structure GroupWritesKeep (P : State → Prop) : Prop where
  congr : ∀ {s t : State}, P s → t.ft.flows = s.ft.flows → t.gc.groups = s.gc.groups →
    t.gc.totals = s.gc.totals → P t
  onset : ∀ {s : State}, P s → ∀ g, onsetHolds s g = true → P (onset g s)
  endEpisode : ∀ {s : State}, P s → ∀ g c, (s.group g).state.isEpisode = true → P (endEpisode g c s)
  resume : ∀ {s : State}, P s → ∀ g, (s.group g).state.isEpisode = true → P (resume g s)
  settle : ∀ {s : State}, P s → ∀ hold g, P (settle hold g s)
  raisePeak : ∀ {s : State}, P s → ∀ n g, P (raisePeak n g s)
  toRamp : ∀ {s : State}, P s → ∀ g start, (s.group g).state.isEpisode = true →
    P (s.setGroup g { s.group g with
      state := .ramp, deadline := none, rampEntry := some 0, rampStart := some start })
  rampPosition : ∀ {s : State}, P s → ∀ g entry start, (s.group g).state = .ramp →
    P (s.setGroup g { s.group g with rampEntry := some entry, rampStart := start })
  freeGroup : ∀ {s : State}, P s → ∀ g, (s.group g).state = .watch → (s.group g).count = 0 →
    P (s.setGroup g freeGroup)
  leave : ∀ {s : State}, P s → ∀ f, P (leave f s)
  join : ∀ {s : State}, P s → ∀ f side key, (s.flow f).group = none → (s.flow f).state ≠ .free →
    P (join f side key s)
  setFlow : ∀ {s : State}, P s → ∀ i (r : FlowRecord), r.group = (s.flow i).group →
    r.prev = (s.flow i).prev → r.next = (s.flow i).next → r.state ≠ .free → P (s.setFlow i r)
  freeFlow : ∀ {s : State}, P s → ∀ i stamp, (s.flow i).group = none → P (s.setFlow i (freeFlow stamp))

/-! ### What a leave and a search give -/

/-- The membership and state of every flow record after a leave (R88). -/
theorem leave_membership (f i : FlowId) :
    ((leave f s).flow i).group = (if i = f then none else (s.flow i).group)
      ∧ ((leave f s).flow i).state = (s.flow i).state := by
  unfold leave
  split
  · rename_i hg
    by_cases hi : i = f
    · subst hi; simp [hg]
    · simp [hi]
  · rw [groupFrame_flow (afterRemoval_groupFrame _ _), removeMember_flow]
    dsimp only
    by_cases hi : i = f
    · subst hi; simp
    · simp [hi]

theorem findFlowRecord_spec {key : FlowKey} {i : FlowId} (h : findFlowRecord s key = some i) :
    (s.flow i).state ≠ .free ∧ (s.flow i).key = some key := by
  have := List.find?_some h
  simpa using this

theorem findGroup_spec {key : GroupKey} {g : GroupId} (h : findGroup s key = some g) :
    (s.group g).state ≠ .free ∧ (s.group g).key = some key := by
  have := List.find?_some h
  simpa using this

theorem findGroup_none {key : GroupKey} (h : findGroup s key = none) (g : GroupId)
    (hg : (s.group g).state ≠ .free) : (s.group g).key ≠ some key := by
  have := List.find?_eq_none.mp h g (List.mem_finRange g)
  intro e
  exact this (by simp [hg, e])

/-- Group allocation takes a record that is FREE, or in WATCH without members (R86). -/
theorem groupSlot_spec {g : GroupId} (h : groupSlot s = some g) :
    (s.group g).state = .free ∨ ((s.group g).state = .watch ∧ (s.group g).count = 0) := by
  unfold groupSlot at h
  split at h
  · rename_i g' hf
    have hf := List.find?_some hf
    simp only [decide_eq_true_eq] at hf
    cases h
    exact .inl hf
  · have h := List.find?_some h
    simp only [Bool.and_eq_true, decide_eq_true_eq] at h
    exact .inr h

theorem entryDue_ramp {g : GroupId} (h : entryDue s g = true) : (s.group g).state = .ramp := by
  unfold entryDue at h
  dsimp only at h
  split at h
  · exact absurd h (by simp)
  · simp only [Bool.and_eq_true, decide_eq_true_eq] at h; exact h.1

/-! ### Learning (R61 to R63, 4.2.1) -/

/-- The fields of a flow record that tie it to a group. -/
def FlowRecord.links (r : FlowRecord) : Option GroupId × Option FlowId × Option FlowId :=
  (r.group, r.prev, r.next)

theorem setScale_state (r : FlowRecord) (side : Side) (v : Option Nat) :
    (r.setScale side v).state = r.state := by cases side <;> rfl

theorem setScale_links (r : FlowRecord) (side : Side) (v : Option Nat) :
    (r.setScale side v).links = r.links := by cases side <;> rfl

theorem setFin_links (r : FlowRecord) (side : Side) : (r.setFin side).links = r.links := by
  cases side <;> rfl

theorem setFin_state (r : FlowRecord) (side : Side) : (r.setFin side).state = r.state := by
  cases side <;> rfl

theorem learnSynAck_state (side : Side) (scale : Option Nat) (r : FlowRecord) :
    (learnSynAck side scale r).state = r.state := by
  unfold learnSynAck; dsimp only; split <;> simp [setScale_state]

theorem learnSynAck_links (side : Side) (scale : Option Nat) (r : FlowRecord) :
    (learnSynAck side scale r).links = r.links := by
  unfold learnSynAck; dsimp only; split <;> simp [setScale_links]

theorem moveSynAck_links (r : FlowRecord) : (moveSynAck r).links = r.links := by
  unfold moveSynAck; split <;> rfl

theorem moveData_links (r : FlowRecord) : (moveData r).links = r.links := by
  unfold moveData; split <;> rfl

/-- Learning never ties a record to a group or unties it. -/
theorem learn_links (now : Tick) (side : Side) (tcp : TcpPart) (r : FlowRecord) :
    (learn now side tcp r).links = r.links := by
  unfold learn
  dsimp only
  split
  · rfl
  · rw [moveSynAck_links, learnSynAck_links]; rfl
  · rw [moveData_links]; rfl
  · rw [moveData_links]; rfl
  all_goals rfl

/-- A record in use stays in use. -/
theorem learn_state (now : Tick) (side : Side) (tcp : TcpPart) (r : FlowRecord) (h : r.state ≠ .free) :
    (learn now side tcp r).state ≠ .free := by
  unfold learn moveSynAck moveData learnSyn
  dsimp only
  repeat' split
  all_goals simp_all [learnSynAck_state]

namespace GroupWritesKeep

variable {P : State → Prop} (K : GroupWritesKeep P)
include K

theorem offerFor (h : P s) (g : GroupId) (k : LogKind) (c : LogCause) (b : Bool) :
    P (offerFor g k c b s) :=
  have hf : (Machine.offerFor g k c b s).ft.flows = s.ft.flows :=
    (congrArg (fun x => x.ft.flows) (offerFor_groupFrame g k c b s) :)
  K.congr h hf (by simp) (by simp)

theorem testOnset (h : P s) (g : GroupId) : P (testOnset g s) := by
  unfold Machine.testOnset
  split_ifs with ho
  · exact K.onset h g ho
  · exact h

theorem sequenceEnd (h : P s) (g : GroupId) (he : (s.group g).state.isEpisode = true) :
    P (sequenceEnd g s) := K.testOnset (K.endEpisode h g _ he) g

theorem upwardOn (h : P s) (g : GroupId) : P (upwardOn g s) := by
  unfold Machine.upwardOn
  split
  · exact K.testOnset h g
  · split_ifs
    · exact K.resume h g (by simp [*, GroupState.isEpisode])
    · exact h
  · split_ifs
    · exact K.resume h g (by simp [*, GroupState.isEpisode])
    · exact h
  · exact h
  · exact h

theorem reachEnd (h : P s) (g : GroupId) (hr : (s.group g).state = .ramp) : P (reachEnd g s) := by
  unfold Machine.reachEnd
  split_ifs
  · exact K.sequenceEnd h g (by rw [hr]; rfl)
  · exact K.rampPosition h g _ _ hr

theorem advanceEntry (h : P s) (g : GroupId) (hr : (s.group g).state = .ramp) : P (advanceEntry g s) := by
  unfold Machine.advanceEntry
  dsimp only
  split_ifs
  · exact K.rampPosition h g _ _ hr
  · exact K.reachEnd h g hr

theorem testEntry (h : P s) (g : GroupId) : P (testEntry g s) := by
  unfold Machine.testEntry
  split_ifs with hd
  · exact K.advanceEntry h g (entryDue_ramp hd)
  · exact h

theorem enterRamp (h : P s) (g : GroupId) (he : (s.group g).state.isEpisode = true) :
    P (enterRamp g s) := K.testEntry (K.offerFor (K.toRamp h g _ he) g _ _ _) g

theorem drainOn (h : P s) (g : GroupId) : P (drainOn g s) := by
  unfold Machine.drainOn
  split
  · exact K.enterRamp h g (by simp [*, GroupState.isEpisode])
  · exact K.enterRamp h g (by simp [*, GroupState.isEpisode])
  · split_ifs
    · exact K.sequenceEnd h g (by simp [*, GroupState.isEpisode])
    · exact h
  · exact h
  · exact h

theorem releaseOn (h : P s) (g : GroupId) : P (releaseOn g s) := by
  unfold Machine.releaseOn
  split_ifs with he
  · exact K.endEpisode h g _ he
  · exact h

theorem drainEnd (h : P s) : P (drainEnd s) := by
  unfold Machine.drainEnd
  split_ifs
  · exact forGroups_keeps P _ (fun g _ hs => K.testOnset hs g) (K.congr h rfl rfl rfl)
  · exact h

theorem lingerExpiry (h : P s) (g : GroupId) : P (lingerExpiry g s) := by
  unfold Machine.lingerExpiry
  split_ifs with hc
  · exact K.freeGroup h g ((lingerDue_iff s g).mp hc).1 ((lingerDue_iff s g).mp hc).2.1
  · exact h

theorem holdExpiry (h : P s) (g : GroupId) : P (holdExpiry g s) := by
  unfold Machine.holdExpiry
  split_ifs with hc
  · exact K.drainEnd (K.enterRamp h g (by rw [((holdDue_iff s g).mp hc).1]; rfl))
  · exact h

theorem entryExpiry (h : P s) (g : GroupId) : P (entryExpiry g s) := by
  unfold Machine.entryExpiry
  split_ifs with hc
  · exact K.drainEnd (K.advanceEntry h g (entryDue_ramp hc))
  · exact h

theorem holdEnd (h : P s) (g : GroupId) : P (holdEnd g s) := by
  unfold Machine.holdEnd
  split_ifs with hc
  · exact K.drainEnd (K.sequenceEnd h g (by rw [((holdEndDue_iff s g).mp hc).1]; rfl))
  · exact h

theorem freeRecord (h : P s) (i : FlowId) : P (freeRecord i s) :=
  K.freeFlow (K.leave h i) i _ ((leave_membership i i).1.trans (if_pos rfl))

theorem joinRequest (h : P s) (f : FlowId) (side : Side) (key : GroupKey)
    (hs : (s.flow f).state ≠ .free) : P (joinRequest f side key s) := by
  unfold Machine.joinRequest
  split
  · rename_i hg; exact K.join h f side key hg hs
  · split_ifs
    · exact h
    · exact h
    · exact K.join (K.leave h f) f side key ((leave_membership f f).1.trans (if_pos rfl))
        (by rw [(leave_membership f f).2]; exact hs)

theorem requestJoin (h : P s) (i : FlowId) (side : Side) (ip : IpPart) (tcp : TcpPart)
    (q : Option QueueId) (hs : (s.flow i).state ≠ .free) : P (requestJoin i side ip tcp q s) := by
  unfold Machine.requestJoin
  split
  · exact h
  · split_ifs
    · exact K.joinRequest h i side _ hs
    · exact h

/-- A write of a record in use that keeps its ties. -/
theorem setFlow_links (h : P s) (i : FlowId) (r : FlowRecord) (hl : r.links = (s.flow i).links)
    (hs : r.state ≠ .free) : P (s.setFlow i r) :=
  K.setFlow h i r (congrArg Prod.fst hl) (congrArg (fun x => x.2.1) hl) (congrArg (fun x => x.2.2) hl) hs

theorem finTeardown (h : P s) (i : FlowId) (side : Side) (hs : (s.flow i).state ≠ .free) :
    P (finTeardown i side s) := by
  unfold Machine.finTeardown
  dsimp only
  split_ifs
  · exact K.freeRecord (K.setFlow_links h i _ (setFin_links _ _) (by rwa [setFin_state])) i
  · refine K.setFlow_links h i _ ?_ (by simp)
    exact (rfl : FlowRecord.links _ = ((s.flow i).setFin side).links).trans (setFin_links _ _)

theorem teardown (h : P s) (i : FlowId) (side : Side) (tcp : TcpPart)
    (hs : (s.flow i).state ≠ .free) : P (teardown i side tcp s) := by
  unfold Machine.teardown
  split_ifs
  · exact K.freeRecord h i
  · exact K.finTeardown h i side hs
  · exact h

end GroupWritesKeep

/-! ### A join leaves every record's state -/

theorem appendMember_state (f i : FlowId) (g : GroupId) :
    ((appendMember f g s).flow i).state = (s.flow i).state := by
  rw [appendMember_flow]; dsimp only; split_ifs <;> rfl

theorem joinGroup_state (f i : FlowId) (g : GroupId) :
    ((joinGroup f g s).flow i).state = (s.flow i).state := by
  unfold joinGroup
  dsimp only
  split_ifs
  · rfl
  · rw [groupFrame_flow (addTotal_groupFrame _ _ _)]; exact appendMember_state f i g
  · rw [groupFrame_flow (testOnset_groupFrame _ _)]; exact appendMember_state f i g
  · exact appendMember_state f i g

theorem join_state (f i : FlowId) (side : Side) (key : GroupKey) :
    ((join f side key s).flow i).state = (s.flow i).state := by
  have h : ((s.setFlow f { s.flow f with
      responder := some side, joinedQueue := some key.queue }).flow i).state = (s.flow i).state := by
    by_cases hi : i = f
    · subst hi; simp
    · simp [State.setFlow_flow, hi]
  unfold join
  dsimp only
  split
  · rw [joinGroup_state]; exact h
  · split
    · rw [joinGroup_state]; exact h
    · exact h

theorem joinRequest_state (f i : FlowId) (side : Side) (key : GroupKey) :
    ((joinRequest f side key s).flow i).state = (s.flow i).state := by
  unfold joinRequest
  split
  · exact join_state f i side key
  · split_ifs
    · rfl
    · rfl
    · rw [join_state]; exact (leave_membership f i).2

theorem requestJoin_state (f i : FlowId) (side : Side) (ip : IpPart) (tcp : TcpPart)
    (q : Option QueueId) : ((requestJoin f side ip tcp q s).flow i).state = (s.flow i).state := by
  unfold requestJoin
  split
  · rfl
  · split_ifs
    · exact joinRequest_state f i side _
    · rfl

/-! ### A read response changes no group and no flow record beyond its departure (R36, R74) -/

theorem takeReadRecord_tables (r : FrameRecord) :
    (takeReadRecord r s).2.ft = s.ft ∧ (takeReadRecord r s).2.gc = s.gc := by
  unfold takeReadRecord afterLookup
  dsimp only
  split
  · split_ifs <;> exact ⟨rfl, rfl⟩
  · exact ⟨rfl, rfl⟩

theorem decideRead_tables (r : FrameRecord) (m : Mode) (d : Option (QueueId × Nat))
    (a : Option FlowAnswer) (c : Cell) :
    (decideRead r m d a c s).1.ft = s.ft ∧ (decideRead r m d a c s).1.gc = s.gc := by
  have hC : ∀ (w : WindowOutcome) (k : MarkOutcome) (q : Option QueueId),
      (countDecisions w k q s).ft = s.ft ∧ (countDecisions w k q s).gc = s.gc := by
    intro w k q
    unfold countDecisions countMarks countWindow countMark
    repeat' split
    all_goals exact ⟨rfl, rfl⟩
  unfold decideRead
  dsimp only
  split_ifs
  · exact hC _ _ _
  · exact ⟨rfl, rfl⟩

namespace GroupWritesKeep

variable {P : State → Prop} (K : GroupWritesKeep P)
include K

/-! ### One segment (R58) -/

theorem trackSegment (h : P s) (i : FlowId) (side : Side) (ip : IpPart) (tcp : TcpPart)
    (q : Option QueueId) (hs : (s.flow i).state ≠ .free) : P (trackSegment i side ip tcp q s) := by
  have hl := learn_state s.now side tcp (s.flow i) hs
  have hw : ((s.setFlow i (learn s.now side tcp (s.flow i))).flow i).state ≠ .free := by simpa using hl
  exact K.teardown (K.requestJoin (K.setFlow_links h i _ (learn_links _ _ _ _) hl) i side ip tcp q hw)
    i side tcp (by rw [requestJoin_state]; exact hw)

theorem takeSegment (h : P s) (ip : IpPart) (tcp : TcpPart) (q : Option QueueId) :
    P (takeSegment ip tcp q s) := by
  unfold Machine.takeSegment
  split
  · exact K.congr h rfl rfl rfl
  · split
    · rename_i i hi
      exact K.trackSegment h i _ ip tcp q (findFlowRecord_spec hi).1
    · split_ifs
      · split
        · rename_i i hi
          refine K.trackSegment (K.setFlow_links (K.freeRecord h i) i _ ?_ (by simp [newFlow])) i _ ip
            tcp q (by simp [newFlow])
          simp [newFlow, Machine.freeFlow, Machine.freeRecord, FlowRecord.links]
        · exact K.congr h rfl rfl rfl
      · exact h

theorem writeSegment (h : P s) (ip : IpPart) (tcp : TcpPart) (q : Option QueueId) :
    P (writeSegment ip tcp q s) := by
  unfold Machine.writeSegment
  split_ifs
  · exact h
  · exact K.drainEnd (K.takeSegment h ip tcp q)

/-! ### Counts and crossings -/

theorem bump (h : P s) (c : CounterId) : P (s.bump c) := K.congr h rfl rfl rfl

theorem setQueue (h : P s) (q : QueueId) (r : QueueRecord) : P (s.setQueue q r) := K.congr h rfl rfl rfl

theorem enqueue (h : P s) (q : QueueId) (n : Nat) : P (enqueue q n s) := by
  unfold Machine.enqueue
  dsimp only
  split_ifs
  · exact h
  · exact forGroupsOn_keeps P q _ (fun g _ h => K.raisePeak h _ g)
      (forGroupsOn_keeps P q _ (fun g _ h => K.upwardOn h g) (K.setQueue h _ _))
  · exact forGroupsOn_keeps P q _ (fun g _ h => K.raisePeak h _ g) (K.setQueue h _ _)

theorem signalFall (h : P s) (q : QueueId) (a b : Nat) : P (signalFall q a b s) := by
  unfold Machine.signalFall
  dsimp only
  split_ifs
  · exact forGroupsOn_keeps P q _ (fun g _ h => K.settle h _ g) h
  · exact h

theorem departure (h : P s) (q : QueueId) (n : Nat) : P (departure q n s) := by
  unfold Machine.departure
  dsimp only
  split_ifs
  · exact h
  · exact K.signalFall (K.bump (K.setQueue h _ _) _) q _ _
  · exact K.signalFall (K.setQueue h _ _) q _ _

theorem quietExpiry (h : P s) (q : QueueId) : P (quietExpiry q s) := by
  unfold Machine.quietExpiry
  dsimp only
  split_ifs
  · exact K.signalFall (K.bump (K.setQueue h _ _) _) q _ _
  · exact h

theorem timedEffect (h : P s) (e : TimedEvent) : P (timedEffect e s) := by
  cases e
  · exact K.quietExpiry h _
  · exact K.lingerExpiry h _
  · exact K.holdExpiry h _
  · exact K.entryExpiry h _
  · exact K.holdEnd h _

theorem takeTimed (h : P s) (e : TimedEvent) : P (takeTimed e s) :=
  takeTimed_keeps (P := P) (fun e _ h => K.timedEffect h e) (fun _ _ h => K.congr h rfl rfl rfl) e h

/-! ### Cells -/

theorem takeWriteRecord (h : P s) (r : FrameRecord) (q : Option QueueId) : P (takeWriteRecord r q s) := by
  unfold Machine.takeWriteRecord
  dsimp only
  split
  · exact K.writeSegment (K.bump h _) _ _ q
  · exact K.bump h _

theorem accountWrite (h : P s) (p : Profile) (c : Cell) : P (accountWrite p c s).2 := by
  unfold Machine.accountWrite
  split
  · exact h
  · exact K.bump h _
  · exact K.bump h _
  · exact K.bump h _
  · exact K.enqueue h _ _

theorem accountRead (h : P s) (p : Profile) (c : Cell) : P (accountRead p c s).2 := by
  unfold Machine.accountRead
  split
  · exact h
  · exact K.bump h _
  · exact K.bump h _
  · exact K.bump h _
  · exact K.departure h _ _

theorem takeReadRecord (h : P s) (r : FrameRecord) : P (takeReadRecord r s).2 := by
  obtain ⟨h1, h2⟩ := takeReadRecord_tables (s := s) r
  exact K.congr h (by rw [h1]) (by rw [h2]) (by rw [h2])

theorem decideRead (h : P s) (r : FrameRecord) (m : Mode) (d : Option (QueueId × Nat))
    (a : Option FlowAnswer) (c : Cell) : P (decideRead r m d a c s).1 := by
  obtain ⟨h1, h2⟩ := decideRead_tables (s := s) r m d a c
  exact K.congr h (by rw [h1]) (by rw [h2]) (by rw [h2])

theorem nextStage (h : P s) (t : Transit) : P (nextStage t s).2 := by
  unfold Machine.nextStage accountTransit recordTransit decideTransit
  split
  · exact h
  · split <;> split <;>
      first
        | exact h
        | exact K.accountWrite h _ _
        | exact K.accountRead h _ _
        | exact K.takeWriteRecord h _ _
        | exact K.takeReadRecord h _
        | exact K.decideRead h _ _ _ _ _

theorem stageUpTo (k : ParseStage) (r : Transit × State) (h : P r.2) : P (stageUpTo k r).2 := by
  unfold Machine.stageUpTo; split_ifs
  · exact K.nextStage h _
  · exact h

theorem parseTransit (h : P s) (k : ParseStage) (t : Transit) : P (parseTransit k t s).2 :=
  K.stageUpTo k _ (K.stageUpTo k _ (K.stageUpTo k (t, s) h))

theorem parseFirst (h : P s) (k : ParseStage) (ts : List Transit) : P (parseFirst k ts s).2 := by
  induction ts with
  | nil => exact h
  | cons t rest ih =>
    unfold Machine.parseFirst; split_ifs
    · exact K.parseTransit h k t
    · exact ih

end GroupWritesKeep

end Sys2Proof.Machine
end

