-- ==== Sys2Proof/Laws/Accounting.lean ====
section
/-! SUPPORT. The laws of the group table (`State.groupsAccounted`): how one change of one group keeps
them, and that each shared operation on groups, members and flow records does. -/

namespace Sys2Proof.Machine

variable {s t : State}

/-- The laws depend on the groups, the totals, and each flow record's state and group alone. -/
theorem accounted_congr (A : s.groupsAccounted) (hG : ∀ g, t.group g = s.group g)
    (hT : ∀ q, t.total q = s.total q) (hF : ∀ i, (t.flow i).group = (s.flow i).group)
    (hS : ∀ i, (t.flow i).state = .free → (t.flow i).group = none) : t.groupsAccounted := by
  obtain ⟨a1, a2, a3, a4, a5, a6, a7⟩ := A
  refine ⟨fun g => hG g ▸ a1 g, fun g h key => by rw [hG, hG]; exact a2 g h key, fun g => ?_,
    fun g => hG g ▸ a4 g, hS, fun g => hG g ▸ a6 g, fun q => ?_⟩
  · rw [hG, a3]
    simp only [hF]
  · rw [hT, a7]
    refine Finset.sum_congr rfl (fun g _ => ?_)
    simp only [State.activeCount, hG]

/-- One change of group `g` keeps the laws when the group's own record, its members and its queue's
total change together. -/
theorem accounted_update (A : s.groupsAccounted) (g : GroupId)
    (hG : ∀ h, h ≠ g → t.group h = s.group h)
    (hF : ∀ i h, h ≠ g → ((t.flow i).group = some h ↔ (s.flow i).group = some h))
    (hfree : ∀ i, (t.flow i).state = .free → (t.flow i).group = none)
    (hfields : (t.group g).fieldsPresent)
    (hkey : ∀ h key, h ≠ g → (t.group g).key = some key → (s.group h).key ≠ some key)
    (hcount : (t.group g).count = Fintype.card { i : FlowId // (t.flow i).group = some g })
    (hmax : (t.group g).count ≤ Config.memberMax)
    (hone : (t.group g).state.isEpisode = true → 1 ≤ (t.group g).count)
    (htot : ∀ q, t.total q + s.activeCount q g = s.total q + t.activeCount q g) :
    t.groupsAccounted := by
  obtain ⟨a1, a2, a3, a4, a5, a6, a7⟩ := A
  refine ⟨fun h => ?_, fun h h' key e e' => ?_, fun h => ?_, fun h => ?_, hfree, fun h => ?_,
    fun q => ?_⟩
  · by_cases hh : h = g
    · exact hh ▸ hfields
    · exact hG h hh ▸ a1 h
  · by_cases hh : h = g
    · by_cases hh' : h' = g
      · rw [hh, hh']
      · subst hh; rw [hG h' hh'] at e'; exact absurd e' (hkey h' key hh' e)
    · by_cases hh' : h' = g
      · subst hh'; rw [hG h hh] at e; exact absurd e (hkey h key hh e')
      · rw [hG h hh] at e; rw [hG h' hh'] at e'; exact a2 h h' key e e'
  · by_cases hh : h = g
    · exact hh ▸ hcount
    · rw [hG h hh, a3]
      exact Fintype.card_congr (Equiv.subtypeEquivRight (fun i => (hF i h hh).symm))
  · by_cases hh : h = g
    · exact hh ▸ hmax
    · exact hG h hh ▸ a4 h
  · by_cases hh : h = g
    · exact hh ▸ hone
    · exact hG h hh ▸ a6 h
  · have h1 := htot q
    rw [a7] at h1
    have hs : s.activeCount q g + (Finset.univ.erase g).sum (s.activeCount q)
        = Finset.univ.sum (s.activeCount q) := Finset.add_sum_erase _ _ (Finset.mem_univ g)
    have ht : t.activeCount q g + (Finset.univ.erase g).sum (t.activeCount q)
        = Finset.univ.sum (t.activeCount q) := Finset.add_sum_erase _ _ (Finset.mem_univ g)
    have he : (Finset.univ.erase g).sum (t.activeCount q)
        = (Finset.univ.erase g).sum (s.activeCount q) := by
      refine Finset.sum_congr rfl (fun h hm => ?_)
      simp only [State.activeCount, hG h (Finset.ne_of_mem_erase hm)]
    omega

/-- What group `g` adds to the total of its own queue never exceeds that total (R83). -/
theorem activeCount_le_total (A : s.groupsAccounted) (q : QueueId) (g : GroupId) :
    s.activeCount q g ≤ s.total q := by
  rw [A.2.2.2.2.2.2 q]
  exact Finset.single_le_sum (f := s.activeCount q) (fun _ _ => Nat.zero_le _) (Finset.mem_univ g)

/-! ### Transitions that leave the members alone -/

theorem isEpisode_active : GroupState.active.isEpisode = true := rfl
theorem isEpisode_settle : GroupState.settle.isEpisode = true := rfl
theorem isEpisode_ramp : GroupState.ramp.isEpisode = true := rfl

/-- A transition of group `g` that keeps its key and count, leaves every other group and all
memberships, and moves the total by what the group's part in it changes. -/
theorem accounted_transition (A : s.groupsAccounted) (g : GroupId) (r : GroupRecord)
    (hG : ∀ h, t.group h = if h = g then r else s.group h) (hF : ∀ i, t.flow i = s.flow i)
    (hkey : r.key = (s.group g).key) (hcount : r.count = (s.group g).count)
    (hfields : r.fieldsPresent) (hone : r.state.isEpisode = true → 1 ≤ (s.group g).count)
    (htot : ∀ q, t.total q + s.activeCount q g = s.total q +
      if r.state.isEpisode = true ∧ r.key.map GroupKey.queue = some q then r.count else 0) :
    t.groupsAccounted := by
  have hg : t.group g = r := by rw [hG]; simp
  refine accounted_update A g (fun h hh => by rw [hG]; simp [hh]) (fun i h _ => by rw [hF])
    (fun i hi => by rw [hF] at hi ⊢; exact A.2.2.2.2.1 i hi) (hg ▸ hfields) (fun h key hh e e' => ?_)
    ?_ ?_ ?_ ?_
  · rw [hg, hkey] at e
    exact hh (A.2.1 h g key e' e)
  · rw [hg, hcount, A.2.2.1 g]; simp only [hF]
  · rw [hg, hcount]; exact A.2.2.2.1 g
  · rw [hg, hcount]; exact hone
  · intro q
    rw [htot q]
    simp only [State.activeCount, hg]

theorem onset_accounted (A : s.groupsAccounted) (g : GroupId) (ho : onsetHolds s g = true) :
    (onset g s).groupsAccounted := by
  obtain ⟨f1, f2, f3, f4, f5, f6, f7, f8⟩ := A.1 g
  obtain ⟨key, hk⟩ : ∃ key, (s.group g).key = some key := by
    cases hk : (s.group g).key with
    | none => simp [onsetHolds, hk] at ho
    | some key => exact ⟨key, rfl⟩
  simp only [onsetHolds, hk, Bool.and_eq_true, decide_eq_true_eq, ne_eq] at ho
  obtain ⟨⟨⟨⟨hw, hn⟩, hc⟩, -⟩, -⟩ := ho
  have hcount : 1 ≤ (s.group g).count := by omega
  refine accounted_transition A g _ (onset_group s g) (fun i => groupFrame_flow (onset_groupFrame g s) i)
    rfl rfl ⟨?_, ?_, rfl, rfl, ?_, ?_, ?_, ?_⟩ (fun _ => hcount) ?_
  · intro h; exact absurd h (by simp)
  · intro _; simp [hk]
  · simp [f5, hw]
  · simp [f6, hw]
  · intro h; have := f7 h; rw [hw] at this; exact absurd this (by decide)
  · simp only [f8, hw]; simp; omega
  · intro q
    rw [onset_total]
    simp [State.activeCount, hw, GroupState.isEpisode, State.groupQueue]

theorem endEpisode_accounted (A : s.groupsAccounted) (g : GroupId) (c : LogCause)
    (he : (s.group g).state.isEpisode = true) : (endEpisode g c s).groupsAccounted := by
  obtain ⟨f1, f2, f3, f4, f5, f6, f7, f8⟩ := A.1 g
  have hc : 1 ≤ (s.group g).count := A.2.2.2.2.2.1 g he
  have hne : (s.group g).state ≠ .free := by intro h; rw [h] at he; exact absurd he (by decide)
  have hnw : (s.group g).state ≠ .watch := by intro h; rw [h] at he; exact absurd he (by decide)
  refine accounted_transition A g _ (fun h => endEpisode_group s g h c)
    (fun i => groupFrame_flow (endEpisode_groupFrame g c s) i) rfl rfl
    ⟨?_, fun _ => f2 hne, rfl, rfl, rfl, rfl, ?_, ?_⟩ ?_ ?_
  · intro h; exact absurd h (by simp [GroupRecord.toWatch])
  · intro h; exact absurd h (by simp [GroupRecord.toWatch])
  · simp [GroupRecord.toWatch, f8, hnw, Nat.ne_of_gt hc]
  · intro h; exact absurd h (by simp [GroupRecord.toWatch, GroupState.isEpisode])
  · intro q
    have hle := activeCount_le_total A q g
    rw [endEpisode_total]
    have hw : GroupState.watch.isEpisode = false := rfl
    simp only [State.activeCount, he, true_and] at hle ⊢
    simp only [GroupRecord.toWatch, State.groupQueue, hw, Bool.false_eq_true, false_and, if_false]
    by_cases hb : (s.group g).key.map GroupKey.queue = some q <;>
      simp only [hb, if_true, if_false] at hle ⊢ <;> omega

theorem resume_accounted (A : s.groupsAccounted) (g : GroupId)
    (he : (s.group g).state.isEpisode = true) : (resume g s).groupsAccounted := by
  obtain ⟨f1, f2, f3, f4, f5, f6, f7, f8⟩ := A.1 g
  have hne : (s.group g).state ≠ .free := by intro h; rw [h] at he; exact absurd he (by decide)
  have hnw : (s.group g).state ≠ .watch := by intro h; rw [h] at he; exact absurd he (by decide)
  refine accounted_transition A g _ (fun h => resume_group s g h)
    (fun i => groupFrame_flow (resume_groupFrame g s) i) rfl rfl
    ⟨?_, fun _ => f2 hne, ?_, ?_, rfl, rfl, ?_, ?_⟩ (fun _ => A.2.2.2.2.2.1 g he) ?_
  · intro h; exact absurd h (by simp)
  · exact f3.trans he
  · exact f4.trans he
  · intro h; exact absurd h (by simp)
  · simp [f8, hnw]
  · intro q; rw [resume_total]; simp [State.activeCount, he, isEpisode_active]

theorem settle_accounted (A : s.groupsAccounted) (hold : Nat) (g : GroupId) :
    (settle hold g s).groupsAccounted := by
  by_cases ha : (s.group g).state = .active
  · obtain ⟨f1, f2, f3, f4, f5, f6, f7, f8⟩ := A.1 g
    have he : (s.group g).state.isEpisode = true := by rw [ha]; rfl
    refine accounted_transition A g
      { s.group g with state := .settle, deadline := some (deadlineAfter s.now hold) }
      (fun h => by rw [settle_group]; simp [ha]) (fun i => groupFrame_flow (settle_groupFrame hold g s) i)
      rfl rfl ⟨?_, fun _ => f2 (by rw [ha]; decide), ?_, ?_, rfl, ?_, ?_, ?_⟩
      (fun _ => A.2.2.2.2.2.1 g he) ?_
    · intro h; exact absurd h (by simp)
    · exact f3.trans he
    · exact f4.trans he
    · simp [f6, ha]
    · intro h; have := f7 h; rw [ha] at this; exact absurd this (by decide)
    · simp [f8, ha]
    · intro q; rw [settle_total]; simp [State.activeCount, he, isEpisode_settle]
  · have hG : ∀ h, (settle hold g s).group h = s.group h := fun h => by
      rw [settle_group]; simp [ha]
    exact accounted_congr A hG (settle_total s hold g)
      (fun i => by rw [groupFrame_flow (settle_groupFrame hold g s)])
      (fun i => by rw [groupFrame_flow (settle_groupFrame hold g s)]; exact A.2.2.2.2.1 i)

theorem raisePeak_accounted (A : s.groupsAccounted) (n : Nat) (g : GroupId) :
    (raisePeak n g s).groupsAccounted := by
  by_cases he : (s.group g).state.isEpisode = true
  · obtain ⟨f1, f2, f3, f4, f5, f6, f7, f8⟩ := A.1 g
    have hne : (s.group g).state ≠ .free := by intro h; rw [h] at he; exact absurd he (by decide)
    refine accounted_transition A g { s.group g with peak := some (max ((s.group g).peak.getD 0) n) }
      (fun h => by rw [raisePeak_group]; simp [he])
      (fun i => groupFrame_flow (raisePeak_groupFrame n g s) i)
      rfl rfl ⟨fun h => absurd h hne, fun _ => f2 hne, f3, ?_, f5, f6, f7, f8⟩
      (fun _ => A.2.2.2.2.2.1 g he) ?_
    · simp [he]
    · intro q; rw [raisePeak_total]; simp [State.activeCount, he]
  · have hG : ∀ h, (raisePeak n g s).group h = s.group h := fun h => by
      rw [raisePeak_group]; simp [he]
    exact accounted_congr A hG (raisePeak_total s n g)
      (fun i => by rw [groupFrame_flow (raisePeak_groupFrame n g s)])
      (fun i => by rw [groupFrame_flow (raisePeak_groupFrame n g s)]; exact A.2.2.2.2.1 i)

/-- A plain write of a group record that stays in RAMP. -/
theorem rampWrite_accounted (A : s.groupsAccounted) (g : GroupId) (hr : (s.group g).state = .ramp)
    (entry : Nat) (start : Option Tick) :
    (s.setGroup g { s.group g with rampEntry := some entry, rampStart := start }).groupsAccounted := by
  obtain ⟨f1, f2, f3, f4, f5, f6, f7, f8⟩ := A.1 g
  have he : (s.group g).state.isEpisode = true := by rw [hr]; rfl
  have hne : (s.group g).state ≠ .free := by rw [hr]; decide
  refine accounted_transition A g _ (fun h => s.setGroup_group g h _) (fun i => rfl) rfl rfl
    ⟨fun h => absurd h hne, fun _ => f2 hne, f3, f4, f5, ?_, fun _ => hr, f8⟩
    (fun _ => A.2.2.2.2.2.1 g he) ?_
  · simp [hr]
  · intro q; simp [State.activeCount, he]

/-- The write that enters RAMP (R99, R103). -/
theorem toRamp_accounted (A : s.groupsAccounted) (g : GroupId) (start : Tick)
    (he : (s.group g).state.isEpisode = true) : (s.setGroup g { s.group g with
      state := .ramp, deadline := none, rampEntry := some 0, rampStart := some start }).groupsAccounted := by
  obtain ⟨f1, f2, f3, f4, f5, f6, f7, f8⟩ := A.1 g
  have hne : (s.group g).state ≠ .free := by intro h; rw [h] at he; exact absurd he (by decide)
  have hnw : (s.group g).state ≠ .watch := by intro h; rw [h] at he; exact absurd he (by decide)
  refine accounted_transition A g _ (fun h => s.setGroup_group g h _) (fun i => rfl) rfl rfl
    ⟨?_, fun _ => f2 hne, ?_, ?_, rfl, rfl, fun _ => rfl, ?_⟩ (fun _ => A.2.2.2.2.2.1 g he) ?_
  · intro h; exact absurd h (by simp)
  · exact f3.trans he
  · exact f4.trans he
  · simp [f8, hnw]
  · intro q; simp [State.activeCount, he, isEpisode_ramp]

/-- A group without members becomes FREE (R90). -/
theorem freeGroup_accounted (A : s.groupsAccounted) (g : GroupId) (hw : (s.group g).state = .watch)
    (hc : (s.group g).count = 0) : (s.setGroup g freeGroup).groupsAccounted := by
  refine accounted_update A g (fun h hh => by simp [State.setGroup_group, hh]) (fun i h _ => Iff.rfl)
    A.2.2.2.2.1 ?_ ?_ ?_ ?_ ?_ ?_
  · simp [GroupRecord.fieldsPresent, freeGroup, GroupState.isEpisode]
  · intro h key _ e; simp [freeGroup] at e
  · rw [State.setGroup_group, if_pos rfl]
    exact (hc.symm.trans (A.2.2.1 g)).trans (Fintype.card_congr (Equiv.refl _))
  · simp [freeGroup]
  · intro h; simp [freeGroup, GroupState.isEpisode] at h
  · intro q; simp [State.activeCount, freeGroup, GroupState.isEpisode, hw]

/-! ### Leaves -/

/-- The members of a group after one of them leaves. -/
theorem card_remove (F G : FlowId → Option GroupId) (f : FlowId) (g : GroupId) (hf : F f = some g)
    (hG : ∀ i, G i = if i = f then none else F i) :
    Fintype.card { i // G i = some g } + 1 = Fintype.card { i // F i = some g } := by
  rw [Fintype.card_subtype, Fintype.card_subtype]
  have : Finset.univ.filter (fun i => F i = some g)
      = insert f (Finset.univ.filter (fun i => G i = some g)) := by
    ext i
    by_cases hi : i = f
    · subst hi; simp [hf]
    · simp [hG, hi]
  rw [this, Finset.card_insert_of_notMem]
  simp [hG]

/-- The members of a group after one more joins. -/
theorem card_add (F G : FlowId → Option GroupId) (f : FlowId) (g : GroupId) (hf : F f = none)
    (hG : ∀ i, G i = if i = f then some g else F i) :
    Fintype.card { i // G i = some g } = Fintype.card { i // F i = some g } + 1 := by
  rw [Fintype.card_subtype, Fintype.card_subtype]
  have : Finset.univ.filter (fun i => G i = some g)
      = insert f (Finset.univ.filter (fun i => F i = some g)) := by
    ext i
    by_cases hi : i = f
    · subst hi; simp [hG]
    · simp [hG, hi]
  rw [this, Finset.card_insert_of_notMem]
  simp [hf]

theorem leave_accounted (A : s.groupsAccounted) (f : FlowId) : (leave f s).groupsAccounted := by
  cases hg : (s.flow f).group with
  | none => unfold leave; simp only [hg]; exact A
  | some g =>
    have hm := fun i => leave_membership (s := s) f i
    have hcard := card_remove (fun i => (s.flow i).group) (fun i => ((leave f s).flow i).group) f g hg
      (fun i => (hm i).1)
    have hcount := A.2.2.1 g
    obtain ⟨f1, f2, f3, f4, f5, f6, f7, f8⟩ := A.1 g
    have hpos : 1 ≤ (s.group g).count := by omega
    have hne : (s.group g).state ≠ .free := by
      intro h; rw [f1 h] at hpos; simp [freeGroup] at hpos
    have hlv : leave f s = afterRemoval g (removeMember f g s) := by unfold leave; simp only [hg]
    obtain ⟨hd, tl, hrm⟩ : ∃ hd tl, (removeMember f g s).group g
        = { s.group g with count := (s.group g).count - 1, head := hd, tail := tl } :=
      ⟨_, _, (removeMember_group s f g g).trans (if_pos rfl)⟩
    have hkeyq : (removeMember f g s).groupQueue g = s.groupQueue g := groupQueue_congr (by rw [hrm])
    have hgrp := fun h => afterRemoval_group (removeMember f g s) g h
    rw [← hlv] at hgrp
    simp only [hrm] at hgrp
    have hgg := hgrp g
    simp only [true_and, hrm] at hgg
    refine accounted_update A g (fun h hh => ?_) (fun i h hh => ?_) (fun i hi => ?_) ?_ ?_ ?_ ?_ ?_ ?_
    · rw [hgrp]; simp [hh, removeMember_group]
    · rw [(hm i).1]
      by_cases hi : i = f
      · subst hi; simp [hg, Ne.symm hh]
      · simp [hi]
    · rw [(hm i).2] at hi
      rw [(hm i).1]
      split_ifs
      · rfl
      · exact A.2.2.2.2.1 i hi
    · rw [hgg]
      split_ifs with h1 h2
      · refine ⟨?_, fun _ => f2 hne, rfl, rfl, rfl, rfl, ?_, ?_⟩
        · intro h; simp [GroupRecord.toWatch] at h
        · intro h; simp [GroupRecord.toWatch] at h
        · simp [GroupRecord.toWatch, h1.1]
      · refine ⟨fun h => absurd h hne, fun _ => f2 hne, f3, f4, f5, f6, f7, ?_⟩
        simp [h2.1, h2.2]
      · refine ⟨fun h => absurd h hne, fun _ => f2 hne, f3, f4, f5, f6, f7, ?_⟩
        show (s.group g).lingerStart.isSome = _
        rw [f8]
        by_cases hw : (s.group g).state = .watch
        · have hc0 : (s.group g).count - 1 ≠ 0 := fun h => h2 ⟨h, hw⟩
          simp [hw, hc0]; omega
        · simp [hw]
    · intro h key hh e
      rw [hgg] at e
      have : (s.group g).key = some key := by split_ifs at e <;> exact e
      intro e'
      exact hh (A.2.1 h g key e' this)
    · have : ((leave f s).group g).count = (s.group g).count - 1 := by
        rw [hgg]; split_ifs <;> rfl
      omega
    · have : ((leave f s).group g).count = (s.group g).count - 1 := by
        rw [hgg]; split_ifs <;> rfl
      have := A.2.2.2.1 g
      omega
    · intro h
      rw [hgg] at h ⊢
      split_ifs at h ⊢ with h1 h2
      · simp [GroupRecord.toWatch, GroupState.isEpisode] at h
      · rw [show ({ s.group g with
            count := (s.group g).count - 1, head := _, tail := _, lingerStart := _ } :
              GroupRecord).state = (s.group g).state from rfl, h2.2] at h
        exact absurd h (by decide)
      · by_contra hlt
        exact h1 ⟨by simpa using hlt, h⟩
    · intro q
      have hle := activeCount_le_total A q g
      have htot : (leave f s).total q = s.total q -
          if s.groupQueue g = some q ∧ (s.group g).state.isEpisode = true then 1 else 0 := by
        rw [hlv, afterRemoval_total, hkeyq, hrm]; simp
      rw [htot]
      have hac : (leave f s).activeCount q g = if s.groupQueue g = some q ∧
          (s.group g).state.isEpisode = true then (s.group g).count - 1 else 0 := by
        have hk : ((leave f s).group g).key = (s.group g).key := by rw [hgg]; split_ifs <;> rfl
        have hct : ((leave f s).group g).count = (s.group g).count - 1 := by
          rw [hgg]; split_ifs <;> rfl
        unfold State.activeCount State.groupQueue
        rw [hk, hct]
        by_cases hz : (s.group g).count - 1 = 0
        · simp only [hz, ite_self]
        · have hst : ((leave f s).group g).state = (s.group g).state := by
            rw [hgg, if_neg (fun h => hz h.1), if_neg (fun h => hz h.1)]
          rw [hst]
          exact if_congr and_comm rfl rfl
      clear hgg hgrp
      rw [hac]
      simp only [State.activeCount, State.groupQueue] at hle ⊢
      by_cases hb : (s.group g).key.map GroupKey.queue = some q ∧ (s.group g).state.isEpisode = true
      · simp only [hb, and_self, if_true] at hle ⊢; omega
      · have hb' : ¬((s.group g).state.isEpisode = true ∧ (s.group g).key.map GroupKey.queue = some q) :=
          fun h => hb ⟨h.2, h.1⟩
        simp only [hb, hb', if_false]; omega

/-- A write of a flow record that keeps its group. -/
theorem setFlow_accounted (A : s.groupsAccounted) (i : FlowId) (r : FlowRecord)
    (hg : r.group = (s.flow i).group) (hs : r.state = .free → r.group = none) :
    (s.setFlow i r).groupsAccounted := by
  refine accounted_congr A (fun g => rfl) (fun q => rfl) (fun j => ?_) (fun j hj => ?_)
  · by_cases h : j = i
    · subst h; simp [hg]
    · simp [State.setFlow_flow, h]
  · by_cases h : j = i
    · subst h; simp only [State.setFlow_flow, if_true] at hj ⊢; exact hs hj
    · simp only [State.setFlow_flow, h, if_false] at hj ⊢; exact A.2.2.2.2.1 j hj

/-! ### Joins -/

/-- The membership and state of every flow record after an append. -/
theorem appendMember_membership (f i : FlowId) (g : GroupId) :
    ((appendMember f g s).flow i).group = (if i = f then some g else (s.flow i).group)
      ∧ ((appendMember f g s).flow i).state = (s.flow i).state := by
  rw [appendMember_flow]
  dsimp only
  split_ifs <;> exact ⟨rfl, rfl⟩

/-- Flow record `f` enters group `g`, whose record `r` stands in the table or was just allocated there
(R85, R86). -/
theorem joinGroup_accounted (A : s.groupsAccounted) {u : State} (f : FlowId) (g : GroupId) (r : GroupRecord)
    (hG : ∀ h, u.group h = if h = g then r else s.group h) (hF : ∀ i, u.flow i = s.flow i)
    (hT : ∀ q, u.total q = s.total q) (hf : (s.flow f).group = none) (hs : (s.flow f).state ≠ .free)
    (hc : r.count = (s.group g).count) (hr : r.state ≠ .free)
    (hk : ∀ h key, h ≠ g → r.key = some key → (s.group h).key ≠ some key)
    (hq : r = s.group g ∨ ∃ key, r = newGroup key ∧ (s.group g).state.isEpisode = false
      ∧ (s.group g).count = 0) : (joinGroup f g u).groupsAccounted := by
  have hug : u.group g = r := by rw [hG]; simp
  have hfields : ∀ hd tl, GroupRecord.fieldsPresent { r with
      count := r.count + 1
      head := hd
      tail := tl
      lingerStart := if r.state = .watch ∧ r.count = 0 then none else r.lingerStart } := by
    intro hd tl
    rcases hq with rfl | ⟨key, rfl, -, -⟩
    · obtain ⟨f1, f2, f3, f4, f5, f6, f7, f8⟩ := A.1 g
      refine ⟨fun h => absurd h hr, fun _ => f2 hr, f3, f4, f5, f6, f7, ?_⟩
      split_ifs with h
      · simp
      · by_cases hw : (s.group g).state = .watch
        · simp [f8, hw]; exact fun h0 => h ⟨hw, h0⟩
        · simp [f8, hw]
    · simp [GroupRecord.fieldsPresent, newGroup, freeGroup, GroupState.isEpisode]
  have hact : ∀ q, s.activeCount q g =
      if r.state.isEpisode = true ∧ r.key.map GroupKey.queue = some q then r.count else 0 := by
    intro q
    rcases hq with rfl | ⟨key, rfl, he, -⟩
    · rfl
    · rw [State.activeCount, he]
      simp [newGroup, freeGroup, GroupState.isEpisode]
  unfold joinGroup
  simp only [hug]
  split_ifs with hm he hw
  · rcases hq with rfl | ⟨key, rfl, -, -⟩
    · obtain ⟨f1, f2, f3, f4, f5, f6, f7, f8⟩ := A.1 g
      refine accounted_transition A g { s.group g with overflow := true }
        (fun h => by simp only [State.setGroup_group, State.bump_group, hG]; split_ifs <;> rfl)
        (fun i => hF i) rfl rfl
        ⟨fun h => absurd h hr, fun _ => f2 hr, f3, f4, f5, f6, f7, f8⟩ (A.2.2.2.2.2.1 g) (fun q => ?_)
      rw [hact q]
      simp only [State.setGroup_total, State.bump_total, hT]
    · simp [newGroup, freeGroup, Config.memberMax] at hm
  all_goals
    have hm' : r.count + 1 ≤ Config.memberMax := by omega
    have key_step : ∀ v : State, (∀ h, v.group h = (appendMember f g u).group h) →
        (∀ i, v.flow i = (appendMember f g u).flow i) →
        (∀ q, v.total q = s.total q +
          if r.key.map GroupKey.queue = some q ∧ r.state.isEpisode = true then 1 else 0) →
        v.groupsAccounted := by
      intro v vG vF vT
      have hmem := fun i => appendMember_membership (s := u) f i g
      have hvF : ∀ i, (v.flow i).group = if i = f then some g else (s.flow i).group := fun i => by
        rw [vF, (hmem i).1, hF]
      have hcard := card_add (fun i => (s.flow i).group) (fun i => (v.flow i).group) f g hf hvF
      have hvg : ∃ hd tl, v.group g = { r with
          count := r.count + 1
          lingerStart := if r.state = .watch ∧ r.count = 0 then none else r.lingerStart
          head := hd, tail := tl } :=
        ⟨_, _, by rw [vG, appendMember_group, if_pos rfl, hug]⟩
      obtain ⟨hd, tl, hvg⟩ := hvg
      have hcount := A.2.2.1 g
      refine accounted_update A g (fun h hh => ?_) (fun i h hh => ?_) (fun i hi => ?_) ?_ ?_ ?_ ?_ ?_ ?_
      · rw [vG, appendMember_group, if_neg hh, hG, if_neg hh]
      · rw [hvF]
        split_ifs with hi
        · subst hi; simp [hf, Ne.symm hh]
        · rfl
      · rw [vF, (hmem i).2, hF] at hi
        have : i ≠ f := fun h => hs (h ▸ hi)
        rw [hvF, if_neg this]
        exact A.2.2.2.2.1 i hi
      · rw [hvg]; exact hfields hd tl
      · rw [hvg]; exact hk
      · rw [hvg]; show r.count + 1 = _; omega
      · rw [hvg]; exact hm'
      · rw [hvg]; intro _; show 1 ≤ r.count + 1; omega
      · intro q
        have hle := activeCount_le_total A q g
        rw [hact] at hle ⊢
        rw [vT]
        have : v.activeCount q g = if r.state.isEpisode = true ∧ r.key.map GroupKey.queue = some q
            then r.count + 1 else 0 := by unfold State.activeCount; rw [hvg]
        rw [this]
        by_cases hb : r.key.map GroupKey.queue = some q ∧ r.state.isEpisode = true
        · simp only [hb, and_self, if_true]; omega
        · have hb' : ¬(r.state.isEpisode = true ∧ r.key.map GroupKey.queue = some q) :=
            fun h => hb ⟨h.2, h.1⟩
          simp only [hb, hb', if_false]
  · refine key_step _ (fun h => by simp) (fun i => by simp [groupFrame_flow (addTotal_groupFrame _ _ _)]) (fun q => ?_)
    have : ((appendMember f g u).bump Counter.joins).groupQueue g = r.key.map GroupKey.queue := by
      simp [State.groupQueue, appendMember_group, hug]
    rw [addTotal_total, this]
    simp [hT, he]
  · have B := key_step ((appendMember f g u).bump Counter.joins) (fun h => rfl)
      (fun i => rfl) (fun q => by simp [hT, he])
    unfold testOnset
    split_ifs with ho
    · exact onset_accounted B g ho
    · exact B
  · exact key_step _ (fun h => rfl) (fun i => rfl) (fun q => by simp [hT, he])

theorem join_accounted (A : s.groupsAccounted) (f : FlowId) (side : Side) (key : GroupKey)
    (hf : (s.flow f).group = none) (hs : (s.flow f).state ≠ .free) :
    (join f side key s).groupsAccounted := by
  unfold join
  dsimp only
  have B := setFlow_accounted A f { s.flow f with responder := some side, joinedQueue := some key.queue }
    rfl (fun h => absurd h hs)
  generalize hu : s.setFlow f { s.flow f with responder := some side, joinedQueue := some key.queue } = u at B ⊢
  have hf' : (u.flow f).group = none := by rw [← hu]; simp [hf]
  have hs' : (u.flow f).state ≠ .free := by rw [← hu]; simpa using hs
  split
  · rename_i g hg
    obtain ⟨h1, h2⟩ := findGroup_spec hg
    exact joinGroup_accounted B f g (u.group g) (fun h => by split_ifs with e; rw [e]; rfl) (fun _ => rfl)
      (fun _ => rfl) hf' hs' rfl h1 (fun h k hh e e' => hh (B.2.1 h g k e' e)) (.inl rfl)
  · rename_i hn
    split
    · rename_i g hg
      obtain ⟨h1, h2⟩ : (u.group g).state.isEpisode = false ∧ (u.group g).count = 0 := by
        rcases groupSlot_spec hg with h | ⟨h, h'⟩
        · rw [(B.1 g).1 h]; exact ⟨rfl, rfl⟩
        · exact ⟨by rw [h]; rfl, h'⟩
      refine joinGroup_accounted B f g (newGroup key) (fun h => u.setGroup_group g h _) (fun _ => rfl)
        (fun _ => rfl) hf' hs' h2.symm (by simp [newGroup]) (fun h k hh e e' => ?_)
        (.inr ⟨key, rfl, h1, h2⟩)
      cases (Option.some.inj e : key = k)
      refine findGroup_none hn h (fun hfree => ?_) e'
      rw [(B.1 h).1 hfree] at e'
      exact absurd e' (by simp [freeGroup])
    · exact accounted_congr B (fun _ => rfl) (fun _ => rfl) (fun _ => rfl) B.2.2.2.2.1

/-! ### Clears (R106) -/

/-- With every flow and group record FREE and every total 0, the laws hold. -/
theorem empty_accounted (h : s.flowsAndGroupsEmpty) (hF : ∀ i, (s.flow i).group = none) :
    s.groupsAccounted := by
  obtain ⟨-, hG, hT⟩ := h
  refine ⟨fun g => ?_, fun g h key e => ?_, fun g => ?_, fun g => ?_, fun i _ => hF i, fun g e => ?_,
    fun q => ?_⟩
  · rw [hG]; simp [GroupRecord.fieldsPresent, freeGroup, GroupState.isEpisode]
  · rw [hG] at e; simp [freeGroup] at e
  · rw [hG]
    refine (Fintype.card_eq_zero_iff.mpr ?_).symm
    exact ⟨fun x => by have := x.2; rw [hF] at this; exact absurd this (by simp)⟩
  · rw [hG]; simp [freeGroup]
  · rw [hG] at e; simp [freeGroup, GroupState.isEpisode] at e
  · rw [hT]
    symm
    exact Finset.sum_eq_zero (fun g _ => by simp [State.activeCount, hG, freeGroup, GroupState.isEpisode])

/-- The clear of the flow and group tables leaves them empty (R77, R106). -/
theorem clearFlowsAndGroups_flow (i : FlowId) :
    (clearFlowsAndGroups s).flow i = freeFlow (s.flow i).lastSeen := by
  show tableGet flowReset (tableMap flowReset (fun r => freeFlow r.lastSeen) s.ft.flows) i = _
  rw [tableGet_map _ _ _ _ rfl]
  rfl

theorem clearFlowsAndGroups_empty : (clearFlowsAndGroups s).flowsAndGroupsEmpty :=
  ⟨fun i => by rw [clearFlowsAndGroups_flow]; rfl, fun _ => rfl, fun _ => rfl⟩

theorem clearFlowsAndGroups_accounted : (clearFlowsAndGroups s).groupsAccounted :=
  empty_accounted clearFlowsAndGroups_empty (fun i => by rw [clearFlowsAndGroups_flow]; rfl)

/-- The laws read the flow records, the groups and the totals alone. -/
theorem accounted_of_tables (A : s.groupsAccounted) (hf : t.ft.flows = s.ft.flows)
    (hg : t.gc.groups = s.gc.groups) (ht : t.gc.totals = s.gc.totals) : t.groupsAccounted := by
  have hF : ∀ i, t.flow i = s.flow i := fun i => by unfold State.flow; rw [hf]
  exact accounted_congr A (fun g => by unfold State.group; rw [hg])
    (fun q => by unfold State.total; rw [ht]) (fun i => by rw [hF])
    (fun i hi => by rw [hF] at hi ⊢; exact A.2.2.2.2.1 i hi)

/-- The laws of the group table are kept by every write to the flow, group and total tables, and so, by
Laws/Compose.lean, by all that is made of them. -/
theorem accounted_writes : GroupWritesKeep State.groupsAccounted where
  congr := accounted_of_tables
  onset := onset_accounted
  endEpisode := endEpisode_accounted
  resume := resume_accounted
  settle := settle_accounted
  raisePeak := raisePeak_accounted
  toRamp := toRamp_accounted
  rampPosition := fun A g e st hr => rampWrite_accounted A g hr e st
  freeGroup := freeGroup_accounted
  leave := leave_accounted
  join := join_accounted
  setFlow := fun A i r hg _ _ hs => setFlow_accounted A i r hg (fun h => absurd h hs)
  freeFlow := fun A i _ hg => setFlow_accounted A i _ hg.symm (fun _ => rfl)

end Sys2Proof.Machine
end

