-- ==== Sys2Proof/Laws/Chains.lean ====
section
/-! SUPPORT. The laws of the member lists (`State.membersChained`): every write to the flow, group and
total tables keeps them. -/

namespace Sys2Proof.Machine

variable {s t : State}

/-- The list of a group stays its list when the group's record and its members stay as they are in
what ties them. -/
theorem isMemberList_congr {g : GroupId} {l : List FlowId} (h : s.isMemberList g l)
    (hc : (t.group g).count = (s.group g).count) (hh : (t.group g).head = (s.group g).head)
    (ht : (t.group g).tail = (s.group g).tail)
    (hm : ∀ i, (t.flow i).group = some g ↔ (s.flow i).group = some g)
    (hl : ∀ i, (s.flow i).group = some g →
      (t.flow i).next = (s.flow i).next ∧ (t.flow i).prev = (s.flow i).prev) :
    t.isMemberList g l := by
  obtain ⟨h1, h2, h3, h4, h5, h6⟩ := h
  refine ⟨h1, fun i => (h2 i).trans (hm i).symm, hc.trans h3, hh.trans h4, ht.trans h5, fun k hk => ?_⟩
  obtain ⟨e1, e2⟩ := hl l[k] ((h2 _).mp (List.getElem_mem hk))
  rw [e1, e2]
  exact h6 k hk

/-- A change of the group records alone, which keeps what ties the members. -/
theorem chained_groups (C : s.membersChained) (hF : ∀ i, t.flow i = s.flow i)
    (hG : ∀ g, (t.group g).count = (s.group g).count ∧ (t.group g).head = (s.group g).head
      ∧ (t.group g).tail = (s.group g).tail ∧ ((t.group g).state = .free → t.group g = freeGroup)) :
    t.membersChained := by
  obtain ⟨c1, c2, c3, c4⟩ := C
  refine ⟨fun g => ?_, fun i => ?_, fun i => ?_, fun g => (hG g).2.2.2⟩
  · obtain ⟨l, hl⟩ := c1 g
    exact ⟨l, isMemberList_congr hl (hG g).1 (hG g).2.1 (hG g).2.2.1 (fun i => by rw [hF])
      (fun i _ => by rw [hF]; exact ⟨rfl, rfl⟩)⟩
  · rw [hF]; exact c2 i
  · rw [hF]; exact c3 i

/-- A change of one group's record alone. -/
theorem chained_group (C : s.membersChained) (g : GroupId) (r : GroupRecord)
    (hF : ∀ i, t.flow i = s.flow i) (hG : ∀ h, t.group h = if h = g then r else s.group h)
    (hc : r.count = (s.group g).count) (hh : r.head = (s.group g).head) (ht : r.tail = (s.group g).tail)
    (hf : r.state = .free → r = freeGroup) : t.membersChained := by
  refine chained_groups C hF (fun h => ?_)
  rw [hG]
  by_cases e : h = g
  · subst e; simp only [if_true]; exact ⟨hc, hh, ht, hf⟩
  · simp only [e, if_false]; exact ⟨trivial, trivial, trivial, C.2.2.2 h⟩

/-- A write of a flow record that keeps its ties. -/
theorem chained_setFlow (C : s.membersChained) (i : FlowId) (r : FlowRecord)
    (hg : r.group = (s.flow i).group) (hp : r.prev = (s.flow i).prev) (hn : r.next = (s.flow i).next)
    (hf : r.state = .free → r = freeFlow r.lastSeen) : (s.setFlow i r).membersChained := by
  obtain ⟨c1, c2, c3, c4⟩ := C
  have hF : ∀ j, ((s.setFlow i r).flow j).group = (s.flow j).group
      ∧ ((s.setFlow i r).flow j).next = (s.flow j).next ∧ ((s.setFlow i r).flow j).prev = (s.flow j).prev := by
    intro j
    by_cases h : j = i
    · subst h; simp [hg, hp, hn]
    · simp [State.setFlow_flow, h]
  refine ⟨fun g => ?_, fun j hj => ?_, fun j hj => ?_, c4⟩
  · obtain ⟨l, hl⟩ := c1 g
    exact ⟨l, isMemberList_congr hl rfl rfl rfl (fun j => by rw [(hF j).1]) (fun j _ => (hF j).2)⟩
  · rw [(hF j).2.1, (hF j).2.2]
    rw [(hF j).1] at hj
    exact c2 j hj
  · by_cases h : j = i
    · subst h; simp only [State.setFlow_flow, if_true] at hj ⊢; exact hf hj
    · simp only [State.setFlow_flow, h, if_false] at hj ⊢; exact c3 j hj

/-! ### Leaves (R88) -/

/-- The list of a group without its member at position `p`. -/
theorem isMemberList_remove {g : GroupId} {l : List FlowId} (h : s.isMemberList g l) (p : Nat)
    (hp : p < l.length) : (removeMember l[p] g s).isMemberList g (l.eraseIdx p) := by
  obtain ⟨h1, h2, h3, h4, h5, h6⟩ := h
  obtain ⟨hn, hv⟩ := h6 p hp
  have hinj : ∀ a b (ha : a < l.length) (hb : b < l.length), l[a] = l[b] → a = b :=
    fun a b ha hb e => (List.Nodup.getElem_inj_iff h1).mp e
  have hlen : (l.eraseIdx p).length = l.length - 1 := List.length_eraseIdx_of_lt hp
  refine ⟨h1.sublist (List.eraseIdx_sublist l p), fun i => ?_, ?_, ?_, ?_, fun k hk => ?_⟩
  · rw [removeMember_flow]
    dsimp only
    by_cases hi : i = l[p]
    · subst hi
      simp only [if_true]
      constructor
      · intro hm
        exfalso
        obtain ⟨k, hk, e⟩ := List.mem_iff_getElem.mp hm
        rw [List.getElem_eraseIdx] at e
        split_ifs at e with c
        · have := hinj _ _ _ _ e; omega
        · have := hinj _ _ _ _ e; omega
      · intro hm; simp at hm
    · simp only [hi, if_false]
      rw [← h2 i]
      constructor
      · exact fun hm => (List.eraseIdx_sublist l p).subset hm
      · intro hm
        obtain ⟨k, hk, e⟩ := List.mem_iff_getElem.mp hm
        have hkp : k ≠ p := by intro e'; subst e'; exact hi e.symm
        rw [List.mem_iff_getElem]
        by_cases c : k < p
        · exact ⟨k, by omega, by rw [List.getElem_eraseIdx]; simp [c, e]⟩
        · refine ⟨k - 1, by omega, ?_⟩
          rw [List.getElem_eraseIdx]
          have : ¬ k - 1 < p := by omega
          simp only [this, dif_neg, not_false_iff]
          rw [← e]
          congr 1
          omega
  · rw [removeMember_group, if_pos rfl, hlen]; simp only [h3]
  · rw [removeMember_group, if_pos rfl]
    dsimp only
    rw [hv, hn, h4]
    by_cases c : p = 0
    · subst c
      simp [List.head?_eq_getElem?]
    · have : l[p - 1]? = some l[p - 1] := List.getElem?_eq_getElem (by omega)
      simp [c, this, List.head?_eq_getElem?, List.getElem?_eraseIdx, Nat.pos_of_ne_zero c]
  · rw [removeMember_group, if_pos rfl]
    dsimp only
    rw [hv, hn, h5, List.getLast?_eq_getElem?, List.getLast?_eq_getElem?, hlen,
      List.getElem?_eraseIdx]
    by_cases c : p + 1 = l.length
    · have e1 : l[p + 1]? = none := List.getElem?_eq_none (by omega)
      rw [e1]
      simp only [Option.isNone_none, if_true]
      by_cases c0 : p = 0
      · have : l.length - 1 - 1 = 0 := by omega
        simp [c0, this]; omega
      · have : l.length - 1 - 1 = p - 1 := by omega
        have hlt : p - 1 < p := by omega
        simp [c0, this, hlt]
    · have e1 : l[p + 1]? = some l[p + 1] := List.getElem?_eq_getElem (by omega)
      rw [e1]
      simp only [Option.isNone_some, Bool.false_eq_true, if_false]
      have hnl : ¬ l.length - 1 - 1 < p := by omega
      rw [if_neg hnl]
      congr 1
      omega
  · rw [hlen] at hk
    have hel : (l.eraseIdx p)[k]'(by omega) = if h : k < p then l[k] else l[k + 1] :=
      List.getElem_eraseIdx _
    rw [hel, List.getElem?_eraseIdx, List.getElem?_eraseIdx]
    by_cases c : k < p
    · rw [dif_pos c]
      have hne : l[k] ≠ l[p] := fun e => by have := hinj _ _ _ _ e; omega
      obtain ⟨kn, kv⟩ := h6 k (by omega)
      rw [removeMember_flow]
      simp only [hne, if_false, hn, hv, kn, kv]
      constructor
      · by_cases c1 : k + 1 = p
        · have : (if p = 0 then none else l[p - 1]?) = some l[k] := by
            have e0 : p - 1 = k := by omega
            rw [if_neg (by omega), e0]; exact List.getElem?_eq_getElem _
          rw [if_pos this, if_neg (by omega)]
          congr 1
          omega
        · have : (if p = 0 then none else l[p - 1]?) ≠ some l[k] := by
            rw [if_neg (by omega), List.getElem?_eq_getElem (by omega)]
            intro e; have := hinj _ _ _ _ (Option.some.inj e); omega
          rw [if_neg this, if_pos (by omega)]
      · have : l[p + 1]? ≠ some l[k] := by
          intro e
          obtain ⟨hq, e⟩ := List.getElem?_eq_some_iff.mp e
          have := hinj _ _ _ _ e; omega
        rw [if_neg this]
        split_ifs with a b
        · rfl
        · rfl
        · omega
    · rw [dif_neg c]
      have hne : l[k + 1] ≠ l[p] := fun e => by have := hinj _ _ _ _ e; omega
      obtain ⟨kn, kv⟩ := h6 (k + 1) (by omega)
      rw [removeMember_flow]
      simp only [hne, if_false, hn, hv, kn, kv]
      constructor
      · have : (if p = 0 then none else l[p - 1]?) ≠ some l[k + 1] := by
          split_ifs with c0
          · simp
          · rw [List.getElem?_eq_getElem (by omega)]
            intro e; have := hinj _ _ _ _ (Option.some.inj e); omega
        rw [if_neg this, if_neg (by omega)]
      · by_cases c1 : k = p
        · subst c1
          rw [if_pos (List.getElem?_eq_getElem _)]
          split_ifs with a b
          · rfl
          · rfl
          · omega
        · have : l[p + 1]? ≠ some l[k + 1] := by
            intro e
            obtain ⟨hq, e⟩ := List.getElem?_eq_some_iff.mp e
            have := hinj _ _ _ _ e; omega
          rw [if_neg this, if_neg (by omega), if_neg (by omega), if_neg (by omega)]
          congr 1
          omega

theorem leave_chained (C : s.membersChained) (f : FlowId) : (leave f s).membersChained := by
  cases hg : (s.flow f).group with
  | none => unfold leave; simp only [hg]; exact C
  | some g =>
    obtain ⟨c1, c2, c3, c4⟩ := C
    obtain ⟨l, hl⟩ := c1 g
    obtain ⟨p, hp, rfl⟩ := List.mem_iff_getElem.mp ((hl.2.1 f).mpr hg)
    have hrem := isMemberList_remove hl p hp
    obtain ⟨h1, h2, h3, h4, h5, h6⟩ := hl
    obtain ⟨hn, hv⟩ := h6 p hp
    -- the neighbours of the record that leaves are members of the group
    have hprev : ∀ i, (s.flow l[p]).prev = some i → (s.flow i).group = some g := by
      intro i e
      rw [hv] at e
      split_ifs at e
      exact (h2 i).mp (List.mem_of_getElem? e)
    have hnext : ∀ i, (s.flow l[p]).next = some i → (s.flow i).group = some g := by
      intro i e
      rw [hn] at e
      exact (h2 i).mp (List.mem_of_getElem? e)
    have hother : ∀ i, (s.flow i).group ≠ some g → (removeMember l[p] g s).flow i = s.flow i := by
      intro i hi
      have hne : i ≠ l[p] := fun e => hi (e ▸ hg)
      rw [removeMember_flow]
      simp only [hne, if_false]
      rw [if_neg (fun e => hi (hprev i e)), if_neg (fun e => hi (hnext i e))]
    have hstate : ∀ i, ((removeMember l[p] g s).flow i).state = (s.flow i).state := by
      intro i; rw [removeMember_flow]; dsimp only; split_ifs <;> rfl
    have hgne : (s.group g).state ≠ .free := by
      intro h; rw [c4 g h] at h3; simp [freeGroup] at h3; omega
    have R : (removeMember l[p] g s).membersChained := by
      refine ⟨fun h => ?_, fun i hi => ?_, fun i hi => ?_, fun h hh => ?_⟩
      · by_cases e : h = g
        · subst e; exact ⟨_, hrem⟩
        · obtain ⟨l', hl'⟩ := c1 h
          have hgr : (removeMember l[p] g s).group h = s.group h := by
            rw [removeMember_group, if_neg e]
          refine ⟨l', isMemberList_congr hl' (by rw [hgr]) (by rw [hgr]) (by rw [hgr]) (fun i => ?_)
            (fun i hi => ?_)⟩
          · by_cases hi : (s.flow i).group = some g
            · constructor
              · rw [removeMember_flow]
                dsimp only
                by_cases hip : i = l[p]
                · simp [hip]
                · simp [hip]
              · intro h'; rw [hi] at h'; exact absurd (Option.some.inj h').symm e
            · rw [hother i hi]
          · rw [hother i (by rw [hi]; exact fun h' => e (Option.some.inj h'))]; exact ⟨rfl, rfl⟩
      · by_cases hip : i = l[p]
        · subst hip; rw [removeMember_flow]; simp
        · have hi' : (s.flow i).group = none := by
            rw [removeMember_flow] at hi; simpa [hip] using hi
          rw [hother i (by rw [hi']; simp)]
          exact c2 i hi'
      · rw [hstate] at hi
        have hi' : (s.flow i).group = none := by rw [c3 i hi]; rfl
        rw [hother i (by rw [hi']; simp)]
        exact c3 i hi
      · by_cases e : h = g
        · rw [removeMember_group, if_pos e] at hh; exact absurd hh hgne
        · rw [removeMember_group, if_neg e] at hh ⊢; exact c4 h hh
    have hlv : leave l[p] s = afterRemoval g (removeMember l[p] g s) := by
      unfold leave; simp only [hg]
    have hgr : ((removeMember l[p] g s).group g).state ≠ .free := by
      rw [removeMember_group, if_pos rfl]; exact hgne
    rw [hlv]
    refine chained_group R g ((afterRemoval g (removeMember l[p] g s)).group g)
      (fun i => groupFrame_flow (afterRemoval_groupFrame _ _) i) (fun h => ?_) ?_ ?_ ?_ ?_
    · by_cases e : h = g
      · rw [if_pos e, e]
      · rw [afterRemoval_group, if_neg (fun c => e c.1), if_neg (fun c => e c.1), if_neg e]
    all_goals rw [afterRemoval_group]
    all_goals split_ifs
    all_goals first
      | rfl
      | exact fun h => absurd h hgr
      | exact fun h => absurd h (by simp [GroupRecord.toWatch])

theorem freeRecord_chained (C : s.membersChained) (i : FlowId) (stamp : Tick)
    (hg : (s.flow i).group = none) : (s.setFlow i (freeFlow stamp)).membersChained :=
  chained_setFlow C i _ hg.symm (C.2.1 i hg).1.symm (C.2.1 i hg).2.symm (fun _ => rfl)

/-! ### Joins (R82) -/

/-- Flow record `f` is appended to the list of group `g` (R82). -/
theorem appendMember_chained (C : s.membersChained) (f : FlowId) (g : GroupId)
    (hf : (s.flow f).group = none) (hs : (s.flow f).state ≠ .free) (hg : (s.group g).state ≠ .free) :
    (appendMember f g s).membersChained := by
  obtain ⟨c1, c2, c3, c4⟩ := C
  obtain ⟨l, h1, h2, h3, h4, h5, h6⟩ := c1 g
  have hfl : f ∉ l := fun h => by rw [h2, hf] at h; simp at h
  have htail : ∀ i, (s.group g).tail = some i → i ∈ l := fun i e => by
    rw [h5] at e; exact List.mem_of_getLast? e
  have hother : ∀ i, i ≠ f → (s.flow i).group ≠ some g → (appendMember f g s).flow i = s.flow i := by
    intro i hi hn
    rw [appendMember_flow]
    simp only [hi, if_false]
    rw [if_neg (fun e => hn ((h2 i).mp (htail i e)))]
  have hgroup : ∀ i, i ≠ f → ((appendMember f g s).flow i).group = (s.flow i).group := by
    intro i hi; rw [appendMember_flow]; simp [hi]
  have hfg : ((appendMember f g s).flow f).group = some g := by rw [appendMember_flow]; simp
  refine ⟨fun h => ?_, fun i hi => ?_, fun i hi => ?_, fun h hh => ?_⟩
  · by_cases e : h = g
    · subst e
      refine ⟨l ++ [f], ?_, fun i => ?_, ?_, ?_, ?_, fun k hk => ?_⟩
      · rw [List.nodup_append]
        refine ⟨h1, by simp, ?_⟩
        intro a ha b hb
        simp only [List.mem_singleton] at hb
        exact fun e => hfl (hb ▸ e ▸ ha)
      · by_cases hi : i = f
        · subst hi; simp [hfg]
        · rw [hgroup i hi, ← h2 i]; simp [hi]
      · rw [appendMember_group, if_pos rfl]; simp [h3]
      · rw [appendMember_group, if_pos rfl]
        dsimp only
        rw [h4]
        cases l <;> simp
      · rw [appendMember_group, if_pos rfl]; simp
      · rw [appendMember_flow]
        dsimp only
        simp only [List.length_append, List.length_cons, List.length_nil] at hk
        by_cases hkl : k < l.length
        · have hel : (l ++ [f])[k]'(by simp; omega) = l[k] := List.getElem_append_left hkl
          have hne : l[k] ≠ f := fun e => hfl (e ▸ List.getElem_mem hkl)
          rw [hel]
          simp only [hne, if_false]
          obtain ⟨kn, kv⟩ := h6 k hkl
          rw [kn, kv]
          constructor
          · rw [h5, List.getLast?_eq_getElem?]
            by_cases hlast : k + 1 = l.length
            · have e1 : l.length - 1 = k := by omega
              rw [e1, if_pos (List.getElem?_eq_getElem hkl), List.getElem?_append_right (by omega)]
              simp [hlast]
            · rw [List.getElem?_append_left (by omega), if_neg]
              rw [List.getElem?_eq_getElem (by omega)]
              intro e
              have := (List.Nodup.getElem_inj_iff h1).mp (Option.some.inj e)
              omega
          · split_ifs with c
            · rfl
            · rw [List.getElem?_append_left (by omega)]
        · have hk' : k = l.length := by omega
          subst hk'
          have hel : (l ++ [f])[l.length]'(by simp) = f := by simp
          rw [hel]
          simp only [if_true]
          constructor
          · symm; rw [List.getElem?_eq_none_iff]; simp
          · rw [h5, List.getLast?_eq_getElem?]
            split_ifs with c
            · rw [List.getElem?_eq_none_iff]; omega
            · rw [List.getElem?_append_left (by omega)]
    · obtain ⟨l', hl'⟩ := c1 h
      have hgr : (appendMember f g s).group h = s.group h := by rw [appendMember_group, if_neg e]
      refine ⟨l', isMemberList_congr hl' (by rw [hgr]) (by rw [hgr]) (by rw [hgr]) (fun i => ?_)
        (fun i hi => ?_)⟩
      · by_cases hi : i = f
        · subst hi
          rw [hfg, hf]
          simp [Ne.symm e]
        · rw [hgroup i hi]
      · have hif : i ≠ f := fun h' => by rw [h', hf] at hi; simp at hi
        rw [hother i hif (by rw [hi]; exact fun h' => e (Option.some.inj h'))]
        exact ⟨rfl, rfl⟩
  · have hif : i ≠ f := fun h => by rw [h, hfg] at hi; simp at hi
    rw [hgroup i hif] at hi
    rw [hother i hif (by rw [hi]; simp)]
    exact c2 i hi
  · have hst : ((appendMember f g s).flow i).state = (s.flow i).state := appendMember_state f i g
    rw [hst] at hi
    have hif : i ≠ f := fun h => hs (h ▸ hi)
    have hi' : (s.flow i).group = none := by rw [c3 i hi]; rfl
    rw [hother i hif (by rw [hi']; simp)]
    exact c3 i hi
  · by_cases e : h = g
    · rw [appendMember_group, if_pos e] at hh; exact absurd hh hg
    · rw [appendMember_group, if_neg e] at hh ⊢; exact c4 h hh

/-- The laws read the flow and group records alone. -/
theorem chained_of_tables (C : s.membersChained) (hf : t.ft.flows = s.ft.flows)
    (hg : t.gc.groups = s.gc.groups) : t.membersChained := by
  have hG : ∀ g, t.group g = s.group g := fun g => by unfold State.group; rw [hg]
  exact chained_groups C (fun i => by unfold State.flow; rw [hf])
    (fun g => by rw [hG]; exact ⟨rfl, rfl, rfl, C.2.2.2 g⟩)

theorem onset_chained (C : s.membersChained) (g : GroupId) : (onset g s).membersChained :=
  chained_group C g _ (fun i => groupFrame_flow (onset_groupFrame g s) i) (onset_group s g) rfl rfl rfl
    (fun h => absurd h (by simp))

theorem joinGroup_chained (C : s.membersChained) (f : FlowId) (g : GroupId)
    (hf : (s.flow f).group = none) (hs : (s.flow f).state ≠ .free) (hg : (s.group g).state ≠ .free) :
    (joinGroup f g s).membersChained := by
  have B := chained_of_tables (t := (appendMember f g s).bump Counter.joins)
    (appendMember_chained C f g hf hs hg) rfl rfl
  unfold joinGroup
  dsimp only
  split_ifs
  · exact chained_group C g { s.group g with overflow := true } (fun i => rfl)
      (fun h => (s.bump Counter.memberOverflow).setGroup_group g h _) rfl rfl rfl (fun h => absurd h hg)
  · refine chained_of_tables B ?_ ?_
    · exact (congrArg (fun x => x.ft.flows) (addTotal_groupFrame g 1 _) :)
    · unfold addTotal; split <;> rfl
  · unfold testOnset
    split_ifs
    · exact onset_chained B g
    · exact B
  · exact B

theorem join_chained (C : s.membersChained) (f : FlowId) (side : Side) (key : GroupKey)
    (hf : (s.flow f).group = none) (hs : (s.flow f).state ≠ .free) :
    (join f side key s).membersChained := by
  have B := chained_setFlow C f { s.flow f with responder := some side, joinedQueue := some key.queue }
    rfl rfl rfl (fun h => absurd h hs)
  unfold join
  dsimp only
  generalize hu : s.setFlow f { s.flow f with responder := some side, joinedQueue := some key.queue } = u at B ⊢
  have hf' : (u.flow f).group = none := by rw [← hu]; simp [hf]
  have hs' : (u.flow f).state ≠ .free := by rw [← hu]; simpa using hs
  split
  · rename_i g hg
    exact joinGroup_chained B f g hf' hs' (findGroup_spec hg).1
  · split
    · rename_i g hg
      have hcount : (u.group g).count = 0 := by
        rcases groupSlot_spec hg with h | ⟨-, h⟩
        · rw [B.2.2.2 g h]; rfl
        · exact h
      obtain ⟨l, h1, h2, h3, h4, h5, h6⟩ := B.1 g
      have hl : l = [] := List.length_eq_zero_iff.mp (by rw [← h3, hcount])
      subst hl
      refine joinGroup_chained ?_ f g hf' hs' (by simp [newGroup])
      refine chained_group B g (newGroup key) (fun _ => rfl) (fun h => u.setGroup_group g h _)
        ?_ ?_ ?_ (fun h => absurd h (by simp [newGroup]))
      · rw [hcount]; rfl
      · rw [h4]; rfl
      · rw [h5]; rfl
    · exact chained_of_tables B rfl rfl

/-! ### Every write -/

/-- The laws of the member lists are kept by every write to the flow, group and total tables, and so, by
Laws/Compose.lean, by all that is made of them. -/
theorem chained_writes : GroupWritesKeep State.membersChained where
  congr := fun C hf hg _ => chained_of_tables C hf hg
  onset := fun C g _ => onset_chained C g
  endEpisode := fun {s} C g c _ => chained_group C g _
    (fun i => groupFrame_flow (endEpisode_groupFrame g c s) i) (fun h => endEpisode_group s g h c)
    rfl rfl rfl (fun h => absurd h (by simp [GroupRecord.toWatch]))
  resume := fun {s} C g _ => chained_group C g _
    (fun i => groupFrame_flow (resume_groupFrame g s) i) (fun h => resume_group s g h)
    rfl rfl rfl (fun h => absurd h (by simp))
  settle := fun {s} C hold g => chained_groups C
    (fun i => groupFrame_flow (settle_groupFrame hold g s) i) (fun h => by
      rw [settle_group]
      split_ifs with e
      · rw [e.1]; exact ⟨rfl, rfl, rfl, fun h => absurd h (by simp)⟩
      · exact ⟨rfl, rfl, rfl, C.2.2.2 h⟩)
  raisePeak := fun {s} C n g => chained_groups C
    (fun i => groupFrame_flow (raisePeak_groupFrame n g s) i) (fun h => by
      rw [raisePeak_group]
      split_ifs with e
      · obtain ⟨rfl, he⟩ := e
        refine ⟨rfl, rfl, rfl, fun hf => ?_⟩
        rw [show (s.group h).state = .free from hf] at he
        exact absurd he (by decide)
      · exact ⟨rfl, rfl, rfl, C.2.2.2 h⟩)
  toRamp := fun {s} C g start _ => chained_group C g _ (fun _ => rfl) (fun h => s.setGroup_group g h _)
    rfl rfl rfl (fun h => absurd h (by simp))
  rampPosition := fun {s} C g entry start hr => chained_group C g _ (fun _ => rfl)
    (fun h => s.setGroup_group g h _) rfl rfl rfl (fun h => absurd (hr.symm.trans h) (by simp))
  freeGroup := fun {s} C g _ hc => by
    obtain ⟨l, h1, h2, h3, h4, h5, h6⟩ := C.1 g
    have hl : l = [] := List.length_eq_zero_iff.mp (by rw [← h3, hc])
    subst hl
    exact chained_group C g Machine.freeGroup (fun _ => rfl) (fun h => s.setGroup_group g h _)
      (by rw [hc]; rfl) (by rw [h4]; rfl) (by rw [h5]; rfl) (fun _ => rfl)
  leave := leave_chained
  join := join_chained
  setFlow := fun C i r hg hp hn hs => chained_setFlow C i r hg hp hn (fun h => absurd h hs)
  freeFlow := freeRecord_chained

/-- With every flow record and group record FREE, every list is empty. -/
theorem empty_chained (hF : ∀ i, s.flow i = freeFlow (s.flow i).lastSeen)
    (hG : ∀ g, s.group g = freeGroup) : s.membersChained := by
  refine ⟨fun g => ⟨[], ?_⟩, fun i _ => ?_, fun i _ => hF i, fun g _ => hG g⟩
  · refine ⟨by simp, fun i => ?_, ?_, ?_, ?_, fun k hk => absurd hk (by simp)⟩
    · rw [hF]; simp [freeFlow]
    all_goals rw [hG]; rfl
  · rw [hF]; exact ⟨rfl, rfl⟩

end Sys2Proof.Machine
end

