-- ==== Sys2Proof/Laws/Keeps.lean ====
section
/-! SUPPORT. What every plain write keeps, every shared operation keeps: stated once for any
predicate on states, then used for the canonical form of the tables. -/

namespace Sys2Proof.Machine

/-- The predicate `P` survives each plain write that the data path makes of its own. -/
structure DataWritesKeep (P : State → Prop) : Prop where
  setQueue : ∀ {s} q r, P s → P (s.setQueue q r)
  setFlow : ∀ {s} i r, P s → P (s.setFlow i r)
  setGroup : ∀ {s} g r, P s → P (s.setGroup g r)
  setTotal : ∀ {s} q n, P s → P (s.setTotal q n)
  bump : ∀ {s} c, P s → P (s.bump c)
  append : ∀ {s} e, P s → s.log.entries.length < Config.logCapacity →
    P { s with log := { s.log with entries := s.log.entries ++ [e] } }
  flagLogOverflow : ∀ {s}, P s → P s.flagLogOverflow
  flagOnset : ∀ {s}, P s → P s.flagOnset
  flagFlowFull : ∀ {s}, P s → P s.flagFlowFull
  flagGroupFull : ∀ {s}, P s → P s.flagGroupFull
  observe : ∀ {s}, P s → s.mode = .draining → P { s with mode := .observe }

variable {P : State → Prop} (K : DataWritesKeep P) {s : State}
include K

/-! ### Group operations -/

theorem offer_keeps (h : P s) (e : LogEntry) : P (offer e s) := by
  unfold offer
  split_ifs with h1 h2 h3
  · exact h
  · exact h
  · exact K.flagLogOverflow (K.bump _ h)
  · exact K.append e h (not_le.mp h3)

theorem offerFor_keeps (h : P s) (g : GroupId) (k : LogKind) (c : LogCause) (b : Bool) :
    P (offerFor g k c b s) := by
  unfold offerFor; dsimp only; split
  · exact h
  · exact offer_keeps K h _

theorem addTotal_keeps (h : P s) (g : GroupId) (n : Nat) : P (addTotal g n s) := by
  unfold addTotal; split
  · exact h
  · exact K.setTotal _ _ h

theorem subTotal_keeps (h : P s) (g : GroupId) (n : Nat) : P (subTotal g n s) := by
  unfold subTotal; split
  · exact h
  · exact K.setTotal _ _ h

theorem testOnset_keeps (h : P s) (g : GroupId) : P (testOnset g s) := by
  unfold testOnset onset
  split_ifs
  · exact K.flagOnset (K.bump _ (offerFor_keeps K (addTotal_keeps K (K.setGroup _ _ h) _ _) _ _ _ _))
  · exact h

theorem endEpisode_keeps (h : P s) (g : GroupId) (c : LogCause) : P (endEpisode g c s) :=
  K.setGroup _ _ (subTotal_keeps K (offerFor_keeps K h _ _ _ _) _ _)

theorem sequenceEnd_keeps (h : P s) (g : GroupId) : P (sequenceEnd g s) :=
  testOnset_keeps K (endEpisode_keeps K h _ _) _

theorem collapse_keeps (h : P s) (g : GroupId) : P (collapse g s) :=
  K.setGroup _ _ (offerFor_keeps K h _ _ _ _)

theorem afterRemoval_keeps (h : P s) (g : GroupId) : P (afterRemoval g s) := by
  unfold afterRemoval; dsimp only
  split_ifs
  · exact collapse_keeps K (subTotal_keeps K h _ _) _
  · exact subTotal_keeps K h _ _
  · exact K.setGroup _ _ h
  · exact h

theorem resume_keeps (h : P s) (g : GroupId) : P (resume g s) :=
  offerFor_keeps K (K.setGroup _ _ h) _ _ _ _

theorem upwardOn_keeps (h : P s) (g : GroupId) : P (upwardOn g s) := by
  unfold upwardOn
  split <;> (try split_ifs) <;>
    first | exact h | exact testOnset_keeps K h g | exact resume_keeps K h g

theorem upwardCrossing_keeps (h : P s) (q : QueueId) : P (upwardCrossing q s) :=
  forGroupsOn_keeps P q _ (fun g _ hs => upwardOn_keeps K hs g) h

theorem settle_keeps (h : P s) (hold : Nat) (g : GroupId) : P (settle hold g s) := by
  unfold settle
  split <;> first | exact h | exact offerFor_keeps K (K.setGroup _ _ h) _ _ _ _

theorem downwardCrossing_keeps (h : P s) (q : QueueId) : P (downwardCrossing q s) :=
  forGroupsOn_keeps P q _ (fun g _ hs => settle_keeps K hs _ g) h

theorem raisePeak_keeps (h : P s) (n : Nat) (g : GroupId) : P (raisePeak n g s) := by
  unfold raisePeak; dsimp only; split_ifs
  · exact K.setGroup _ _ h
  · exact h

theorem enqueueNotice_keeps (h : P s) (q : QueueId) (n : Nat) : P (enqueueNotice q n s) :=
  forGroupsOn_keeps P q _ (fun g _ hs => raisePeak_keeps K hs n g) h

theorem drainEnd_keeps (h : P s) : P (drainEnd s) := by
  unfold drainEnd
  split_ifs with hd
  · exact forGroups_keeps P _ (fun g _ hs => testOnset_keeps K hs g) (K.observe h hd.1)
  · exact h

theorem reachEnd_keeps (h : P s) (g : GroupId) : P (reachEnd g s) := by
  unfold reachEnd; split_ifs
  · exact sequenceEnd_keeps K h g
  · exact K.setGroup _ _ h

theorem advanceEntry_keeps (h : P s) (g : GroupId) : P (advanceEntry g s) := by
  unfold advanceEntry; dsimp only; split_ifs
  · exact K.setGroup _ _ h
  · exact reachEnd_keeps K h g

theorem testEntry_keeps (h : P s) (g : GroupId) : P (testEntry g s) := by
  unfold testEntry; split_ifs
  · exact advanceEntry_keeps K h g
  · exact h

theorem enterRamp_keeps (h : P s) (g : GroupId) : P (enterRamp g s) :=
  testEntry_keeps K (offerFor_keeps K (K.setGroup _ _ h) _ _ _ _) g

theorem drainOn_keeps (h : P s) (g : GroupId) : P (drainOn g s) := by
  unfold drainOn
  split <;> (try split_ifs) <;>
    first | exact h | exact enterRamp_keeps K h g | exact sequenceEnd_keeps K h g

theorem releaseOn_keeps (h : P s) (g : GroupId) : P (releaseOn g s) := by
  unfold releaseOn; split_ifs
  · exact endEpisode_keeps K h g _
  · exact h

/-! ### Expiries of groups -/

theorem holdExpiry_keeps (h : P s) (g : GroupId) : P (holdExpiry g s) := by
  unfold holdExpiry; split_ifs
  · exact drainEnd_keeps K (enterRamp_keeps K h g)
  · exact h

theorem entryExpiry_keeps (h : P s) (g : GroupId) : P (entryExpiry g s) := by
  unfold entryExpiry; split_ifs
  · exact drainEnd_keeps K (advanceEntry_keeps K h g)
  · exact h

theorem holdEnd_keeps (h : P s) (g : GroupId) : P (holdEnd g s) := by
  unfold holdEnd; split_ifs
  · exact drainEnd_keeps K (sequenceEnd_keeps K h g)
  · exact h

theorem lingerExpiry_keeps (h : P s) (g : GroupId) : P (lingerExpiry g s) := by
  unfold lingerExpiry; split_ifs
  · exact K.setGroup _ _ h
  · exact h

/-! ### Flow operations -/

theorem removeMember_keeps (h : P s) (f : FlowId) (g : GroupId) : P (removeMember f g s) := by
  unfold removeMember; dsimp only
  split <;> split <;> refine K.setGroup _ _ (K.setFlow _ _ ?_) <;>
    first | exact h | exact K.setFlow _ _ h | exact K.setFlow _ _ (K.setFlow _ _ h)

theorem leave_keeps (h : P s) (f : FlowId) : P (leave f s) := by
  unfold leave; split
  · exact h
  · exact afterRemoval_keeps K (removeMember_keeps K h _ _) _

theorem freeRecord_keeps (h : P s) (i : FlowId) : P (freeRecord i s) :=
  K.setFlow _ _ (leave_keeps K h i)

theorem appendMember_keeps (h : P s) (f : FlowId) (g : GroupId) : P (appendMember f g s) := by
  unfold appendMember; dsimp only
  split <;> refine K.setGroup _ _ (K.setFlow _ _ ?_) <;> first | exact h | exact K.setFlow _ _ h

theorem joinGroup_keeps (h : P s) (f : FlowId) (g : GroupId) : P (joinGroup f g s) := by
  unfold joinGroup; dsimp only
  split_ifs
  · exact K.setGroup _ _ (K.bump _ h)
  · exact addTotal_keeps K (K.bump _ (appendMember_keeps K h f g)) _ _
  · exact testOnset_keeps K (K.bump _ (appendMember_keeps K h f g)) _
  · exact K.bump _ (appendMember_keeps K h f g)

theorem join_keeps (h : P s) (f : FlowId) (side : Side) (key : GroupKey) : P (join f side key s) := by
  unfold join; dsimp only
  split
  · exact joinGroup_keeps K (K.setFlow _ _ h) f _
  · split
    · exact joinGroup_keeps K (K.setGroup _ _ (K.setFlow _ _ h)) f _
    · exact K.flagGroupFull (K.bump _ (K.setFlow _ _ h))

theorem joinRequest_keeps (h : P s) (f : FlowId) (side : Side) (key : GroupKey) :
    P (joinRequest f side key s) := by
  unfold joinRequest
  split
  · exact join_keeps K h f side key
  · split_ifs
    · exact h
    · exact h
    · exact join_keeps K (leave_keeps K h f) f side key

theorem finTeardown_keeps (h : P s) (i : FlowId) (side : Side) : P (finTeardown i side s) := by
  unfold finTeardown; dsimp only; split_ifs
  · exact freeRecord_keeps K (K.setFlow _ _ h) i
  · exact K.setFlow _ _ h

theorem requestJoin_keeps (h : P s) (i : FlowId) (side : Side) (ip : IpPart) (tcp : TcpPart)
    (q : Option QueueId) : P (requestJoin i side ip tcp q s) := by
  unfold requestJoin
  split
  · exact h
  · split_ifs
    · exact joinRequest_keeps K h _ _ _
    · exact h

theorem teardown_keeps (h : P s) (i : FlowId) (side : Side) (tcp : TcpPart) :
    P (teardown i side tcp s) := by
  unfold teardown; split_ifs
  · exact freeRecord_keeps K h i
  · exact finTeardown_keeps K h i side
  · exact h

theorem trackSegment_keeps (h : P s) (i : FlowId) (side : Side) (ip : IpPart) (tcp : TcpPart)
    (q : Option QueueId) : P (trackSegment i side ip tcp q s) :=
  teardown_keeps K (requestJoin_keeps K (K.setFlow _ _ h) _ _ _ _ _) _ _ _

theorem takeSegment_keeps (h : P s) (ip : IpPart) (tcp : TcpPart) (q : Option QueueId) :
    P (takeSegment ip tcp q s) := by
  unfold takeSegment
  split
  · exact K.bump _ h
  · split
    · exact trackSegment_keeps K h _ _ _ _ _
    · split_ifs
      · split
        · exact trackSegment_keeps K (K.setFlow _ _ (freeRecord_keeps K h _)) _ _ _ _ _
        · exact K.flagFlowFull (K.bump _ h)
      · exact h

/-! ### The data path -/

theorem writeSegment_keeps (h : P s) (ip : IpPart) (tcp : TcpPart) (q : Option QueueId) :
    P (writeSegment ip tcp q s) := by
  unfold writeSegment; split_ifs
  · exact h
  · exact drainEnd_keeps K (takeSegment_keeps K h ip tcp q)

theorem enqueue_keeps (h : P s) (q : QueueId) (n : Nat) : P (enqueue q n s) := by
  unfold enqueue; dsimp only; split_ifs
  · exact h
  · exact enqueueNotice_keeps K (upwardCrossing_keeps K (K.setQueue _ _ h) q) q _
  · exact enqueueNotice_keeps K (K.setQueue _ _ h) q _

theorem signalFall_keeps (h : P s) (q : QueueId) (a b : Nat) : P (signalFall q a b s) := by
  unfold signalFall; dsimp only; split_ifs
  · exact downwardCrossing_keeps K h q
  · exact h

theorem departure_keeps (h : P s) (q : QueueId) (n : Nat) : P (departure q n s) := by
  unfold departure; dsimp only; split_ifs
  · exact h
  · exact signalFall_keeps K (K.bump _ (K.setQueue _ _ h)) q _ _
  · exact signalFall_keeps K (K.setQueue _ _ h) q _ _

theorem quietExpiry_keeps (h : P s) (q : QueueId) : P (quietExpiry q s) := by
  unfold quietExpiry; dsimp only; split_ifs
  · exact signalFall_keeps K (K.bump _ (K.setQueue _ _ h)) q _ _
  · exact h

theorem timedEffect_keeps (h : P s) (e : TimedEvent) : P (timedEffect e s) := by
  cases e
  · exact quietExpiry_keeps K h _
  · exact lingerExpiry_keeps K h _
  · exact holdExpiry_keeps K h _
  · exact entryExpiry_keeps K h _
  · exact holdEnd_keeps K h _

theorem countMark_keeps (h : P s) (q : QueueId) : P (countMark q s) := by
  unfold countMark; split_ifs
  · exact h
  · exact K.setQueue _ _ h

theorem afterLookup_keeps (h : P s) (ip : IpPart) (tcp : TcpPart) : P (afterLookup ip tcp s) := by
  unfold afterLookup; split_ifs
  · exact K.bump _ h
  · exact h

theorem countWindow_keeps (h : P s) (w : WindowOutcome) : P (countWindow w s) := by
  unfold countWindow; split
  · exact h
  · exact K.bump _ h
  · exact K.bump _ h

theorem countMarks_keeps (h : P s) (m : MarkOutcome) (q : Option QueueId) : P (countMarks m q s) := by
  unfold countMarks; split
  · exact K.bump _ h
  · exact countMark_keeps K (K.bump _ h) _
  · exact h
  · exact h

theorem countDecisions_keeps (h : P s) (w : WindowOutcome) (m : MarkOutcome) (q : Option QueueId) :
    P (countDecisions w m q s) :=
  countMarks_keeps K (countWindow_keeps K h w) m q

theorem takeWriteRecord_keeps (h : P s) (r : FrameRecord) (q : Option QueueId) :
    P (takeWriteRecord r q s) := by
  unfold takeWriteRecord; dsimp only; split
  · exact writeSegment_keeps K (K.bump _ h) _ _ _
  · exact K.bump _ h

theorem accountWrite_keeps (h : P s) (p : Profile) (c : Cell) : P (accountWrite p c s).2 := by
  unfold accountWrite
  split
  · exact h
  · exact K.bump _ h
  · exact K.bump _ h
  · exact K.bump _ h
  · exact enqueue_keeps K h _ _

theorem accountRead_keeps (h : P s) (p : Profile) (c : Cell) : P (accountRead p c s).2 := by
  unfold accountRead
  split
  · exact h
  · exact K.bump _ h
  · exact K.bump _ h
  · exact K.bump _ h
  · exact departure_keeps K h _ _

theorem takeReadRecord_keeps (h : P s) (r : FrameRecord) : P (takeReadRecord r s).2 := by
  unfold takeReadRecord; dsimp only; split
  · exact afterLookup_keeps K (K.bump _ h) _ _
  · exact K.bump _ h

theorem decideRead_keeps (h : P s) (r : FrameRecord) (m : Mode) (d : Option (QueueId × Nat))
    (a : Option FlowAnswer) (c : Cell) : P (decideRead r m d a c s).1 := by
  unfold decideRead; dsimp only; split_ifs
  · exact countDecisions_keeps K h _ _ _
  · exact h

theorem nextStage_keeps (h : P s) (t : Transit) : P (nextStage t s).2 := by
  unfold nextStage accountTransit recordTransit decideTransit
  split
  · exact h
  · split <;> split <;>
      first
        | exact h
        | exact accountWrite_keeps K h _ _
        | exact accountRead_keeps K h _ _
        | exact takeWriteRecord_keeps K h _ _
        | exact takeReadRecord_keeps K h _
        | exact decideRead_keeps K h _ _ _ _ _

theorem stageUpTo_keeps (k : ParseStage) (r : Transit × State) (h : P r.2) : P (stageUpTo k r).2 := by
  unfold stageUpTo; split_ifs
  · exact nextStage_keeps K h _
  · exact h

theorem parseTransit_keeps (h : P s) (k : ParseStage) (t : Transit) : P (parseTransit k t s).2 :=
  stageUpTo_keeps K k _ (stageUpTo_keeps K k _ (stageUpTo_keeps K k (t, s) h))

theorem parseFirst_keeps (h : P s) (k : ParseStage) (ts : List Transit) : P (parseFirst k ts s).2 := by
  induction ts with
  | nil => exact h
  | cons t rest ih =>
    unfold parseFirst; split_ifs
    · exact parseTransit_keeps K h k t
    · exact ih

omit K

/-! ### The canonical form -/

/-- Every write of the data path keeps every table canonical. -/
theorem tablesCanonical_writes : DataWritesKeep State.tablesCanonical where
  setQueue q r h := ⟨h.1, tableWf_set h.2.1 q r, h.2.2⟩
  setFlow i r h := ⟨h.1, h.2.1, h.2.2.1, h.2.2.2.1, tableWf_set h.2.2.2.2.1 i r, h.2.2.2.2.2⟩
  setGroup g r h :=
    ⟨h.1, h.2.1, h.2.2.1, h.2.2.2.1, h.2.2.2.2.1, tableWf_set h.2.2.2.2.2.1 g r, h.2.2.2.2.2.2⟩
  setTotal q n h :=
    ⟨h.1, h.2.1, h.2.2.1, h.2.2.2.1, h.2.2.2.2.1, h.2.2.2.2.2.1,
      tableWf_set h.2.2.2.2.2.2.1 q n, h.2.2.2.2.2.2.2⟩
  bump c h :=
    ⟨h.1, h.2.1, h.2.2.1, h.2.2.2.1, h.2.2.2.2.1, h.2.2.2.2.2.1, h.2.2.2.2.2.2.1,
      h.2.2.2.2.2.2.2.1, tableWf_set h.2.2.2.2.2.2.2.2 c _⟩
  append _ h _ := h
  flagLogOverflow h := h
  flagOnset h := h
  flagFlowFull h := h
  flagGroupFull h := h
  observe h _ := h

/-- The clear of the queue table leaves every table canonical. -/
theorem clearQueues_canonical {s : State} (h : s.tablesCanonical) : (clearQueues s).tablesCanonical :=
  ⟨h.1, tableWf_fill _ _, h.2.2⟩

/-- The clear of the flow and group tables leaves every table canonical. -/
theorem clearFlowsAndGroups_canonical {s : State} (h : s.tablesCanonical) :
    (clearFlowsAndGroups s).tablesCanonical := by
  refine ⟨h.1, h.2.1, h.2.2.1, h.2.2.2.1, ?_, tableWf_nil _, tableWf_nil _, h.2.2.2.2.2.2.2⟩
  exact tableWf_map flowReset (fun r => freeFlow r.lastSeen) s.ft.flows

end Sys2Proof.Machine
end

