-- ==== Sys2Proof/Laws/Link.lean ====
section
/-! SUPPORT. What a parse does to the stream it stands in: only the oldest cell that has still to go through
the stage moves on, and no transaction changes but the cell of a read response. -/

namespace Sys2Proof.Machine

variable {s : State}

theorem sameBut_refl (t : LinkTransaction) : t.sameBut t := by
  cases t <;> simp [LinkTransaction.sameBut]

/-- A stage keeps a transaction's kind, its times and its latency. -/
theorem nextStage_transit (t : Transit) :
    t.transaction.sameBut (nextStage t s).1.transaction
    ∧ (nextStage t s).1.arrivedAt = t.arrivedAt ∧ (nextStage t s).1.latency = t.latency := by
  unfold nextStage accountTransit recordTransit decideTransit
  split
  · exact ⟨sameBut_refl _, rfl, rfl⟩
  · split <;> split <;> rename_i h <;> simp_all [LinkTransaction.sameBut]

theorem accountTransit_awaiting (t : Transit) (h h' : Handed)
    (e : (accountTransit t h s).1.awaiting = some h') : ∃ start, h' = { h with progress := .accounted start } := by
  unfold accountTransit at e
  split at e <;> simp at e
  · obtain ⟨start, -, rfl⟩ := e; exact ⟨start, rfl⟩
  · obtain ⟨start, -, rfl⟩ := e; exact ⟨start, rfl⟩

theorem recordTransit_awaiting (t : Transit) (h h' : Handed) (start : Option (QueueId × Nat))
    (e : (recordTransit t h start s).1.awaiting = some h') :
    t.transaction.isResponse = true
    ∧ ∃ departed answer, h' = { h with progress := .answered departed answer } := by
  unfold recordTransit at e
  split at e <;> simp at e
  rename_i hx
  exact ⟨by rw [hx]; rfl, start, _, e.symm⟩

theorem decideTransit_awaiting (t : Transit) (h : Handed) (departed : Option (QueueId × Nat))
    (answer : Option FlowAnswer) : (decideTransit t h departed answer s).1.awaiting = none := by
  unfold decideTransit; split <;> rfl

theorem isBefore_decision (t : Transit) : t.isBefore .decision = t.awaiting.isSome := by
  unfold Transit.isBefore
  cases t.awaiting with
  | none => rfl
  | some h =>
    obtain ⟨p, m, g⟩ := h
    cases g <;> rfl

theorem stageUpTo_decision (r : Transit × State) : stageUpTo .decision r = nextStage r.1 r.2 := by
  unfold stageUpTo
  rw [isBefore_decision]
  split_ifs with h
  · rfl
  · unfold nextStage; rw [Option.not_isSome_iff_eq_none.mp h]

/-- Every transit after its last stage has ended its parse. -/
theorem parseTransit_ended (t : Transit) (s : State) : (parseTransit .decision t s).1.awaiting = none := by
  have none_stays : ∀ (u : Transit) (v : State), u.awaiting = none → (nextStage u v).1.awaiting = none := by
    intro u v e; unfold nextStage; rw [e]; exact e
  have answered_ends : ∀ (u : Transit) (v : State) (h : Handed) (d : Option (QueueId × Nat))
      (a : Option FlowAnswer), u.awaiting = some { h with progress := .answered d a } →
      (nextStage u v).1.awaiting = none := by
    intro u v h d a e; unfold nextStage; rw [e]; exact decideTransit_awaiting _ _ _ _
  have accounted_ends : ∀ (u : Transit) (v : State) (h : Handed) (d : Option (QueueId × Nat)),
      u.awaiting = some { h with progress := .accounted d } →
      (nextStage (nextStage u v).1 (nextStage u v).2).1.awaiting = none := by
    intro u v h d e
    cases e1 : (nextStage u v).1.awaiting with
    | none => exact none_stays _ _ e1
    | some h' =>
      have e2 := e1
      unfold nextStage at e2; rw [e] at e2
      obtain ⟨-, _, _, rfl⟩ := recordTransit_awaiting _ _ _ _ e2
      exact answered_ends _ _ _ _ _ e1
  unfold parseTransit
  simp only [stageUpTo_decision]
  cases e : t.awaiting with
  | none => exact none_stays _ _ (none_stays _ _ (none_stays t s e))
  | some h =>
    obtain ⟨p, m, g⟩ := h
    cases g with
    | handed =>
      cases e1 : (nextStage t s).1.awaiting with
      | none => exact none_stays _ _ (none_stays _ _ e1)
      | some h' =>
        have e2 := e1
        unfold nextStage at e2; rw [e] at e2
        obtain ⟨_, rfl⟩ := accountTransit_awaiting _ _ _ e2
        exact accounted_ends _ _ _ _ e1
    | accounted d => exact none_stays _ _ (accounted_ends t s ⟨p, m, .accounted d⟩ d e)
    | answered d a => exact none_stays _ _ (none_stays _ _ (answered_ends t s ⟨p, m, .answered d a⟩ d a e))

/-- The oldest cell that has still to go through a stage is the one that does; the rest of the stream
stays. -/
theorem parseFirst_spec (k : ParseStage) (before rest : List Transit) (t : Transit)
    (hb : ∀ y ∈ before, y.isBefore k = false) (ht : t.isBefore k = true) :
    parseFirst k (before ++ t :: rest) s
      = (before ++ (parseTransit k t s).1 :: rest, (parseTransit k t s).2) := by
  induction before with
  | nil => simp [parseFirst, ht]
  | cons a before ih =>
    have ha := hb a (by simp)
    simp [parseFirst, ha, ih (fun y hy => hb y (by simp [hy]))]

/-- When no cell of the stream has still to go through the stage, nothing changes. -/
theorem parseFirst_none (k : ParseStage) (ts : List Transit) (h : ∀ y ∈ ts, y.isBefore k = false) :
    parseFirst k ts s = (ts, s) := by
  induction ts with
  | nil => rfl
  | cons a rest ih => simp [parseFirst, h a (by simp), ih (fun y hy => h y (by simp [hy]))]

end Sys2Proof.Machine
end

