-- ==== Sys2Proof/Laws/Offers.lean ====
section
/-! SUPPORT. What an offer to the log depends on, a list of offers, and what a lookup on the read path
answers. -/

namespace Sys2Proof.Machine

/-- An offer reads the mode, the log, the counters and the alert flags, and it writes the last three by
them alone (R164). -/
theorem offer_report_congr {s t : State} (e : LogEntry)
    (mode : s.mode = .transparent ↔ t.mode = .transparent) (log : s.log = t.log)
    (counters : s.counters = t.counters) (alerts : s.alerts = t.alerts) :
    (offer e s).log = (offer e t).log ∧ (offer e s).counters = (offer e t).counters
      ∧ (offer e s).alerts = (offer e t).alerts := by
  unfold offer
  simp only [mode, log]
  split_ifs <;> simp [log, counters, alerts, State.bump, State.counter, State.flagLogOverflow]

@[simp] theorem offer_mode (e : LogEntry) (s : State) : (offer e s).mode = s.mode := by
  unfold offer; split_ifs <;> rfl

@[simp] theorem offerAll_nil (s : State) : offerAll [] s = s := rfl

@[simp] theorem offerAll_cons (e : LogEntry) (es : List LogEntry) (s : State) :
    offerAll (e :: es) s = offerAll es (offer e s) := rfl

@[simp] theorem offerAll_append (es fs : List LogEntry) (s : State) :
    offerAll (es ++ fs) s = offerAll fs (offerAll es s) := List.foldl_append

@[simp] theorem offerAll_mode (es : List LogEntry) (s : State) : (offerAll es s).mode = s.mode := by
  induction es generalizing s with
  | nil => rfl
  | cons e es ih => simp [ih]

/-- `offer_report_congr` for a list of offers. -/
theorem offerAll_report_congr (es : List LogEntry) {s t : State}
    (mode : s.mode = .transparent ↔ t.mode = .transparent) (log : s.log = t.log)
    (counters : s.counters = t.counters) (alerts : s.alerts = t.alerts) :
    (offerAll es s).log = (offerAll es t).log ∧ (offerAll es s).counters = (offerAll es t).counters
      ∧ (offerAll es s).alerts = (offerAll es t).alerts := by
  induction es generalizing s t with
  | nil => exact ⟨log, counters, alerts⟩
  | cons e es ih =>
    obtain ⟨l, c, a⟩ := offer_report_congr e mode log counters alerts
    exact ih (by simpa using mode) l c a

/-- An offer for a group is the offer of its entry, or nothing for a group without a key (R92). -/
theorem offerFor_eq_offer {s : State} {g : GroupId} {key : GroupKey} (h : (s.group g).key = some key)
    (kind : LogKind) (depth : Nat) (hd : (s.queue key.queue).estimate = depth) :
    offerFor g kind .none false s = offer (s.moveEntry g key kind depth) s := by
  simp [offerFor, h, State.moveEntry, hd]

/-- A final offer for a group is the offer of its END entry, of that kind and cause (R92). -/
theorem offerFor_eq_endEntry {s : State} {g : GroupId} {key : GroupKey} (h : (s.group g).key = some key)
    (kind : LogKind) (cause : LogCause) :
    offerFor g kind cause true s = offer { s.endEntry g key with kind := kind, cause := cause } s := by
  simp only [offerFor, h, State.endEntry, if_true]
  rfl

/-- What the Flow Table answers to a read-path record: a hit is a record in use of the set that holds the
key, with its fields as they stand (R59, R74). -/
theorem readLookup_hit {ip : IpPart} {tcp : TcpPart} {s : State} {a : FlowAnswer}
    (h : readLookup ip tcp s = some a) :
    s.mode ≠ .transparent ∧ ∃ key, canonicalKey ip.version (sourceOf ip tcp) (destinationOf ip tcp)
        = some (key, a.sender)
      ∧ a.record ∈ keyWays s key ∧ (s.flow a.record).state ≠ .free ∧ (s.flow a.record).key = some key
      ∧ a.state = (s.flow a.record).state ∧ a.group = (s.flow a.record).group
      ∧ a.responder = (s.flow a.record).responder
      ∧ ∀ side, (s.flow a.record).responder = some side →
          a.scale = (s.flow a.record).scaleOf side.other := by
  unfold readLookup at h
  split_ifs at h with hm
  split at h
  · cases h
  · rename_i key sender hk
    obtain ⟨i, hi, rfl⟩ := Option.map_eq_some_iff.mp h
    have hp := List.find?_some hi
    simp only [Bool.and_eq_true, decide_eq_true_eq] at hp
    refine ⟨hm, key, hk, List.mem_of_find?_eq_some hi, hp.1, hp.2, rfl, rfl, rfl, fun side hs => ?_⟩
    simp only [hs]

end Sys2Proof.Machine
end

