-- ==== Sys2Proof/Laws/Requests.lean ====
section
/-! SUPPORT. What a request can come to: framing, reserved bits, limits and the answer, and the bytes that
a field spells. -/

namespace Sys2Proof.Machine

variable {s : State} {body ps : List Byte} {n o : Nat}

/-! ### Bytes and fields -/

@[simp] theorem toBytes_length (n v : Nat) : (toBytes n v).length = n := by
  induction n generalizing v with
  | zero => rfl
  | succ n ih => simp [toBytes, ih]

theorem beNat_append_one (l : List Byte) (b : Byte) : beNat (l ++ [b]) = beNat l * 256 + b.toNat := by
  simp [beNat]

/-- The low bytes of a number spell it, as far as they hold it. -/
theorem beNat_toBytes (n v : Nat) : beNat (toBytes n v) = v % 256 ^ n := by
  induction n generalizing v with
  | zero => simp [toBytes, beNat, Nat.mod_one]
  | succ n ih =>
    have hb : (BitVec.ofNat 8 v).toNat = v % 256 := by simp
    rw [toBytes, beNat_append_one, ih, hb, Nat.pow_succ, Nat.mul_comm (256 ^ n) 256, Nat.mod_mul]
    omega

/-- A field that stands whole in a parameter or result list reads as its number. -/
theorem paramNat_field (l r : List Byte) (n v : Nat) :
    paramNat (l ++ (toBytes n v ++ r)) l.length n = v % 256 ^ n := by
  have h : (toBytes n v ++ r).take n = toBytes n v := by
    rw [List.take_append_of_le_length (by simp)]
    exact List.take_of_length_le (by simp)
  simp [paramNat, h, beNat_toBytes]

theorem beNat_lt (l : List Byte) : beNat l < 256 ^ l.length := by
  induction l using List.reverseRecOn with
  | nil => simp [beNat]
  | append_singleton l b ih =>
    have hb : b.toNat < 256 := b.isLt
    rw [beNat_append_one, List.length_append, List.length_singleton, Nat.pow_succ]
    omega

/-- A field of `n` bytes is less than 256^n. -/
theorem paramNat_lt (ps : List Byte) (o n : Nat) : paramNat ps o n < 256 ^ n :=
  lt_of_lt_of_le (beNat_lt _) (Nat.pow_le_pow_right (by omega) (by simp))

/-! ### Framing (R173) -/

theorem framedAs_some (hn : n ≤ 60) : framedAs n body = some ps ↔ framesExactly n body ps := by
  cases body with
  | nil => simp [framedAs, framed, framesExactly]
  | cons len rest =>
    unfold framedAs framed framesExactly
    dsimp only
    constructor
    · intro h
      split_ifs at h with h1
      · dsimp only at h
        split_ifs at h with h2
        · cases h
          refine ⟨?_, h2⟩
          rw [← h2, h1.2, BitVec.ofNat_toNat, BitVec.setWidth_eq]
    · rintro ⟨h1, h2⟩
      cases h1
      have hl : (BitVec.ofNat 8 n).toNat = n := by simp; omega
      rw [hl, if_pos ⟨hn, h2⟩]
      dsimp only
      rw [if_pos h2]

theorem framedAs_none (hn : n ≤ 60) : framedAs n body = none ↔ misframed n body := by
  constructor
  · intro h ps hp
    rw [(framedAs_some hn).mpr hp] at h
    cases h
  · intro h
    cases e : framedAs n body with
    | none => rfl
    | some ps => exact absurd ((framedAs_some hn).mp e) (h ps)

/-- A command with a fixed length: its tests on well-framed parameters. -/
theorem withParams_framed (hn : n ≤ 60) (h : framesExactly n body ps) (k : List Byte → Answer) :
    withParams n body k = k ps := by
  unfold withParams; rw [(framedAs_some hn).mpr h]

/-- A command with a fixed length: BAD_LENGTH at offset 255 (R176). -/
theorem withParams_misframed (hn : n ≤ 60) (h : misframed n body) (k : List Byte → Answer) :
    withParams n body k = .check .badLength frameOffset := by
  unfold withParams; rw [(framedAs_none hn).mpr h]

/-! ### Reserved bits and limits (R176) -/

/-- In a layout of rising offsets the reported byte is the lowest. -/
theorem reservedAt_some {layout : List (Nat × Byte)} (hs : layout.Pairwise (fun a b => a.1 < b.1)) :
    reservedAt layout ps = some o ↔ lowestReserved layout ps o := by
  unfold reservedAt lowestReserved
  constructor
  · intro h
    obtain ⟨⟨o', m⟩, hf, rfl⟩ := Option.map_eq_some_iff.mp h
    obtain ⟨hp, as, bs, rfl, hno⟩ := List.find?_eq_some_iff_append.mp hf
    refine ⟨⟨m, by simp, by simpa using hp⟩, fun o'' m' hm hlt => ?_⟩
    rcases List.mem_append.mp hm with ha | hb
    · have := hno _ ha
      simpa using this
    · rcases List.mem_cons.mp hb with e | hb
      · cases e; exact absurd hlt (lt_irrefl _)
      · have := (List.pairwise_cons.mp (List.pairwise_append.mp hs).2.1).1 _ hb
        exact absurd hlt (by simp only at this ⊢; omega)
  · rintro ⟨⟨m, hm, hr⟩, hlow⟩
    cases hf : layout.find? (fun e => paramByte ps e.1 &&& e.2 != 0) with
    | none =>
      have := List.find?_eq_none.mp hf _ hm
      simp at this; exact absurd this hr
    | some e =>
      obtain ⟨hp, as, bs, rfl, hno⟩ := List.find?_eq_some_iff_append.mp hf
      rcases List.mem_append.mp hm with ha | hb
      · have := hno _ ha
        simp at this; exact absurd this hr
      · rcases List.mem_cons.mp hb with e' | hb
        · rw [← e']; rfl
        · have hlt := (List.pairwise_cons.mp (List.pairwise_append.mp hs).2.1).1 _ hb
          have := hlow e.1 e.2 (by simp) hlt
          simp [this] at hp

theorem reservedAt_none {layout : List (Nat × Byte)} :
    reservedAt layout ps = none ↔ noneReserved layout ps := by
  unfold reservedAt noneReserved
  rw [Option.map_eq_none_iff, List.find?_eq_none]
  constructor
  · intro h o m hm
    have := h (o, m) hm
    simpa using this
  · rintro h ⟨o, m⟩ hm
    simpa using h o m hm

theorem unlessReserved_none {layout : List (Nat × Byte)} (h : noneReserved layout ps) (k : Answer) :
    unlessReserved layout ps k = k := by
  unfold unlessReserved; rw [reservedAt_none.mpr h]

theorem unlessReserved_some {layout : List (Nat × Byte)} (hs : layout.Pairwise (fun a b => a.1 < b.1))
    (h : lowestReserved layout ps o) (k : Answer) :
    unlessReserved layout ps k = .check .reservedSet o := by
  unfold unlessReserved; rw [(reservedAt_some hs).mpr h]

theorem unlessBroken_none {limits : List (Nat × Bool)} (h : ∀ e ∈ limits, e.2 = false) (k : Answer) :
    unlessBroken limits k = k := by
  have : brokenAt limits = none := by
    unfold brokenAt
    rw [Option.map_eq_none_iff, List.find?_eq_none]
    intro e he; simp [h e he]
  unfold unlessBroken; rw [this]

/-! ### Answers (R174 to R177, R181) -/

/-- All that a request can come to: nothing while RST_N is asserted, BUSY while a command is pending, and
its own answer otherwise. -/
theorem takeRequest_spec (code : Byte) (answer : State → Answer) (s : State) :
    (s.running = false → takeRequest code answer s = s)
    ∧ (∀ c, s.running = true → s.port.command = some c →
        takeRequest code answer s = s.answering .busy code [])
    ∧ (s.takesRequests → takeRequest code answer s = applyAnswer code s (answer s)) := by
  unfold takeRequest whenRunning
  refine ⟨fun h => by simp [h], fun c h hc => ?_, fun h => ?_⟩
  · rw [if_pos h]; dsimp only; rw [hc]; rfl
  · rw [if_pos h.1]; dsimp only; rw [h.2]

@[simp] theorem applyAnswer_good (code : Byte) (bytes : List Byte) (t : State) :
    applyAnswer code s (.good bytes t) = t.answering .good code bytes := rfl

@[simp] theorem applyAnswer_busy (code : Byte) : applyAnswer code s .busy = s.answering .busy code [] := rfl

@[simp] theorem applyAnswer_check (code : Byte) (c : SenseCode) (o : Nat) :
    applyAnswer code s (.check c o) = s.refusing code c o := rfl

end Sys2Proof.Machine
end

