-- ==== Sys2Proof/Tests/Slice0.lean ====
section
/-! SUPPORT. The model's own tests: ill-formed commands, the spec's worked examples a step at a time, and
a witness for the hypotheses of every statement. -/

namespace Sys2Proof.Tests

open Sys2Proof Sys2Proof.Machine

/-! ### Helpers -/

/-- The state after a command. -/
def after (i : Instr) (s : State) : State :=
  match exec i s with
  | .next t => t
  | .fault _ | .refused _ => s

/-- Reset, in a mode outside TRANSPARENT, with its sweep pass. -/
def inMode (m : Mode) : State :=
  { State.reset with mode := m, ft := { FlowTable.reset with sweep := some ⟨0, 50000, 0⟩ } }

/-- The state at a tick. -/
def atTick (n : Nat) (s : State) : State :=
  { s with time := { s.time with tick := BitVec.ofNat 32 n } }

/-- The state at a tick on which one expiry falls. -/
def falling (e : TimedEvent) (s : State) : State := s.setDue [e]

/-- 256 bytes, 0 but for the listed runs. -/
def dataOf (runs : List (Nat × List Byte)) : List Byte :=
  runs.foldl (fun d r => d.take r.1 ++ r.2 ++ d.drop (r.1 + r.2.length)) (List.replicate 256 0)

/-- A cell of clean words. -/
def cellOf (data : List Byte) : Cell :=
  { data := data, check := (List.range 32).map (computedCheck { data := data, check := [] }) }

/-- The profile of 2.7, with a queue offset. -/
def profile27 (offset : Nat) : Profile :=
  { frameOffset := 32, sop := ⟨0, 7⟩, multicast := some ⟨0, 6⟩, queueByte := 5, queueLsb := 4
    queueWidth := 9, queueOffset := offset, lengthByte := 6
    ranges := [⟨true, 0, 0x7FFFFFF⟩, ⟨false, 0, 0⟩, ⟨false, 0, 0⟩, ⟨false, 0, 0⟩] }

/-- The cell header of 2.7 with another byte 0 and length. -/
def header27 (first : Byte) (length : List Byte) : Nat × List Byte :=
  (0, [first, 0, 0, 0, 0x13, 0xA6] ++ length)

/-- The SYN-ACK of 2.7: from 10.1.0.33 port 8080 to 10.1.0.20 port 40000. -/
def cell27 : Cell :=
  cellOf (dataOf [header27 0x80 [0, 78], (44, [0x81, 0, 0, 0, 0x08, 0]),
    (50, [0x45, 0x02, 0, 60, 0, 0, 0x40, 0, 64, 6, 0, 0, 10, 1, 0, 33, 10, 1, 0, 20]),
    (70, [0x1F, 0x90, 0x9C, 0x40, 0, 0, 0, 0, 0, 0, 0, 0, 0xA0, 0x12, 0, 1, 0, 0, 0, 0]),
    (90, [2, 4, 0, 0, 4, 2, 8, 10, 0, 0, 0, 0, 0, 0, 0, 0, 1, 3, 3, 7])])

/-- The same segment with 40 bytes of IPv4 options (2.7). -/
def cell27Options : Cell :=
  cellOf (dataOf [header27 0x80 [0, 118], (44, [0x81, 0, 0, 0, 0x08, 0]),
    (50, [0x4F, 0x02, 0, 100, 0, 0, 0x40, 0, 64, 6, 0, 0, 10, 1, 0, 33, 10, 1, 0, 20]),
    (110, [0x1F, 0x90, 0x9C, 0x40, 0, 0, 0, 0, 0, 0, 0, 0, 0xA0, 0x12, 0, 1, 0, 0, 0, 0]),
    (130, [2, 4, 0, 0, 4, 2, 8, 10, 0, 0, 0, 0, 0, 0, 0, 0, 1, 3, 3, 7])])

/-- The cell of 7.9: 10.1.0.20 port 40000 to 10.1.0.33 port 8080, ACK, window 501. -/
def cell79 : Cell :=
  cellOf (dataOf [(0, [0x80, 0, 0, 0, 0, 0x70, 0x05, 0xEE]), (44, [0x81, 0, 0, 0, 0x08, 0]),
    (50, [0x45, 0x02, 0x05, 0xDC, 0x12, 0x34, 0x40, 0, 0x40, 6, 0xB1, 0xE6, 10, 1, 0, 20, 10, 1, 0, 33]),
    (70, [0x9C, 0x40, 0x1F, 0x90, 0, 0, 0, 0, 0, 0, 0x6A, 0x21, 0x80, 0x10, 0x01, 0xF5, 0x3A, 0x5C, 0, 0])])

/-- The aggregator's endpoint of 4.12, and the responder's. -/
def aggregator : Endpoint := ⟨0x0A010014, 40000⟩
def responder : Endpoint := ⟨0x0A010021, 8080⟩
def key412 : FlowKey := { version := .v4, first := aggregator, second := responder }

/-- The key of the aggregator's group on a queue. -/
def groupKey (q : QueueId) : GroupKey := { queue := q, version := .v4, address := 0x0A010014 }

/-- A group in an episode state with so many members. -/
def episode (state : GroupState) (q : QueueId) (count : Nat) : GroupRecord :=
  { freeGroup with state := state, key := some (groupKey q), count := count, onsetAt := some 0
                   peak := some 0 }

/-- The class of 6.6 and 7.7, onset depth 200,000. -/
def class66 : ClassRecord :=
  { classReset with onsetDepth := 200000, releaseDepth := 50000, fanIn := 4, targetDepth := 96000
                    pathAllowance := 24000, rewriteEnable := true, ramp := 2 }

/-- ENFORCE, class 0 as in 6.6, group 9 on queue 12 as given, its total and estimate. -/
def case66 (r : GroupRecord) (total estimate : Nat) : State :=
  ((((inMode .enforce).setClassRecord 0 class66).setGroup 9 r).setTotal 12 total).setQueue 12
    { queueReset with estimate := estimate, peak := estimate }

/-- Sequence 2 of 8.5. -/
def sequence85 : List RampEntry := [⟨500, 128⟩, ⟨1000, 512⟩, ⟨2000, 1024⟩]

/-- A class that names sequence 2, held by every queue, and the sequence of 8.5. -/
def ramping (m : Mode) (g : GroupRecord) : State :=
  ((((inMode m).setRampSequence 2 sequence85).setClassRecord 0 class66).setGroup 9 g).setTotal 12 22

/-! ### Ill-formed commands -/

theorem test_wellFormed_cells :
    (Instr.fullCellWrite 0 0 ⟨List.replicate 255 0, List.replicate 32 0⟩ .later).wellFormed = false
    ∧ (Instr.maskedWrite 0 0 0 ⟨List.replicate 256 0, List.replicate 31 0⟩).wellFormed = false
    ∧ (Instr.readResponse 0 0 ⟨List.replicate 257 0, List.replicate 32 0⟩ false .later).wellFormed = false
    ∧ (Instr.fullCellWrite 0 0 cell27 .later).wellFormed = true := by decide +kernel

theorem test_wellFormed_codes :
    (Instr.invalidCommand 0x43 [0]).wellFormed = false
    ∧ (Instr.invalidCommand 0xF0 [0]).wellFormed = false
    ∧ (Instr.invalidCommand 0x7E [0]).wellFormed = true := by decide

theorem test_wellFormed_release :
    (Instr.releaseGraceful [1, 1]).wellFormed = false
    ∧ (Instr.releaseAbrupt [1, 0]).wellFormed = false
    ∧ (Instr.releaseAbrupt [1, 1]).wellFormed = true := by decide

/-! ### Frames (11.5) -/

theorem test_decodeFrame :
    decodeFrame [0x15, 2, 0x03, 0xE8] = some (.setTick [2, 0x03, 0xE8])
    ∧ decodeFrame [0x22, 1, 1] = some (.releaseAbrupt [1, 1])
    ∧ decodeFrame [0x22, 1, 0] = some (.releaseGraceful [1, 0])
    ∧ decodeFrame [0x43, 1, 0x06] = some (.clearAlert [1, 0x06])
    ∧ decodeFrame [0x7E, 0] = some (.invalidCommand 0x7E [0])
    ∧ decodeFrame [0xF0, 0] = none ∧ decodeFrame [] = none := by decide

/-- No row of the table has bits, and a word spells no command. -/
theorem test_decodeTableWord : decodeTableWord 16 0x1500 = none := rfl

/-! ### The worked examples of the spec -/

/-- 1.8, steps 3 and 5: a tag in use again, and an orphan. -/
theorem test_tags_1_8 :
    let s := { inMode .observe with profile := some (profile27 0) }
    let s3 := after (.readRequest 0 0x8000000 5) (s.setEntry 5 .eligible)
    (s3.entry 5, s3.counter Counter.tagReuse) = (.ineligible, 1)
    ∧ (after (.readResponse 0 5 cell27 false .atArrival) s).counter Counter.orphanResponse = 1 := by
  decide +kernel

/-- 1.9: the check byte before and after a mark. -/
theorem test_checkByte_1_9 :
    computedCheck ⟨[0x45, 0x02, 0x00, 0x54, 0x12, 0x34, 0x40, 0x00], []⟩ 0 = 0x6B
    ∧ computedCheck ⟨[0x45, 0x03, 0x00, 0x54, 0x12, 0x34, 0x40, 0x00], []⟩ 0 = 0x69 := by decide

/-- 2.7 and 2.8: the cell header stage. -/
theorem test_header_2_7 :
    headerStage (profile27 0) cell27 = .accepted 314 78
    ∧ headerStage (profile27 256) cell27 = .badQueue
    ∧ headerStage (profile27 0) (cellOf (dataOf [header27 0xC0 [5, 0xDC]])) = .multicast
    ∧ headerStage (profile27 0) (cellOf (dataOf [header27 0xC0 [0, 0]])) = .badLength
    ∧ headerStage (profile27 0) (cellOf (dataOf [header27 0 [5, 0xDC]])) = .notStart := by
  decide +kernel

/-- 2.7: the record of the SYN-ACK. -/
theorem test_frame_2_7 :
    let r := frameStage (profile27 0) 128 cell27
    r.category = .tcp
    ∧ r.tcp.map (fun t => (t.kind, t.payload, t.windowAt, t.checksumAt, t.scale))
      = some (.synAck, 0, 84, 86, some 7)
    ∧ r.ip.map (fun i => (i.version, i.ecn, i.ecnAt, i.checksumAt)) = some (.v4, 2, 51, some 60)
    ∧ (r.ip.bind fun i => r.tcp.map fun t => (sourceOf i t, destinationOf i t))
      = some (responder, aggregator) := by decide +kernel

/-- 2.7: with 40 bytes of options the segment is TRUNCATED under SHORT and TCP under LONG. -/
theorem test_options_2_7 :
    (frameStage (profile27 0) 128 cell27Options).category = .truncated
    ∧ (frameStage (profile27 0) 128 cell27Options).tcp = none
    ∧ (frameStage (profile27 0) 256 cell27Options).tcp.bind TcpPart.scale = some 7 := by decide +kernel

/-- The state of 3.7: queue 40 in a class of O = 6,000 and L = 2,000, quiet time 500. -/
def case37 (r : QueueRecord) (tick : Nat) : State :=
  atTick tick
    ((({ inMode .observe with depths := { Depths.reset with quietTime := 500 } }.setClassRecord 3
      { classReset with onsetDepth := 6000, releaseDepth := 2000 }).setClassNumber 40 3).setQueue 40 r)

/-- 3.7: step 4 (an enqueue), step 10 (a quiet expiry), step 11 (a departure that underflows). -/
theorem test_queue_3_7 :
    (enqueue 40 1500 (case37 ⟨4500, 4500, 0, 103⟩ 104)).queue 40 = ⟨6000, 6000, 0, 104⟩
    ∧ (after (.quietExpiry 40) (falling (.quiet 40) (case37 ⟨1500, 13500, 0, 122⟩ 622))).queue 40
      = ⟨0, 13500, 0, 122⟩
    ∧ (after (.quietExpiry 40) (falling (.quiet 40) (case37 ⟨1500, 13500, 0, 122⟩ 621))).queue 40
      = ⟨1500, 13500, 0, 122⟩
    ∧ (let t := departure 40 1500 (case37 ⟨0, 13500, 0, 122⟩ 700)
       (t.queue 40, t.counter Counter.depthUnderflow) = (⟨0, 13500, 0, 700⟩, 1)) := by decide +kernel

/-- R141, 3.7 step 10: the expiry of 622 does not act before a tick has found it due; it is made at that
tick, by its command or, with none, before the next tick; at 620 the tick finds it not due. -/
theorem test_expiryAtItsTick_R141 :
    let s (n : Nat) := case37 ⟨1500, 13500, 0, 122⟩ n
    let t := after .tick (s 621)
    after (.quietExpiry 40) (s 622) = s 622 ∧ (after .tick (s 620)).time.due = []
    ∧ t.time.due = [.quiet 40] ∧ (t.queue 40).estimate = 1500
    ∧ ((after (.quietExpiry 40) t).queue 40).estimate = 0 ∧ (after (.quietExpiry 40) t).time.due = []
    ∧ (after .tick t).queue 40 = ⟨0, 13500, 0, 122⟩ := by decide +kernel

/-- 3.7, the end: READ_QUEUE with the peak-clear option. -/
theorem test_readQueue_3_7 :
    let t := after (.readQueue [3, 0, 40, 1]) (case37 ⟨0, 13500, 0, 700⟩ 700)
    (t.queue 40).peak = 0 ∧ paramNat t.port.result.bytes 9 4 = 13500 := by decide +kernel

/-- 4.12: the set index under two seeds, and the records of the set. -/
theorem test_setIndex_4_12 :
    setIndex 0 key412 = 2042 ∧ setIndex 0x1234 key412 = 1375
    ∧ waysOf 2042 = [8168, 8169, 8170, 8171] := by decide +kernel

/-- 4.13, step 2: the SYN-ACK from E2 with scale 9 settles both scales. 4.13, step 6: the visit of record
8,168 falls 2,042 ticks into its pass. -/
theorem test_flow_4_13 :
    let r := { newFlow key412 .syn .e1 with offer := some (.scale 7) }
    ((learnSynAck .e2 (some 9) r).scale1, (learnSynAck .e2 (some 9) r).scale2) = (some 7, some 9)
    ∧ visitDelay 8168 2048 = 2042 := by decide

/-- 4.14: the oldest candidate; then variants A and B. -/
theorem test_fullSet_4_14 :
    let f (st : FlowState) (seen : Tick) : FlowRecord := { freeFlow seen with state := st }
    let s (w1 : FlowState) (w2 : Tick) : State :=
      atTick 300000 (((((inMode .observe).setFlow 1200 (f .opened 250000)).setFlow 1201
        (f w1 280000)).setFlow 1202 (f .opened w2)).setFlow 1203 (f .handshake 295000))
    allocationWay (s .closing 60000) (waysOf 300) = some 1202
    ∧ allocationWay (s .closing 150000) (waysOf 300) = some 1201
    ∧ allocationWay (s .opened 150000) (waysOf 300) = none := by decide +kernel

/-- 5.9, step 4 (too few members) and step 5 (the onset). -/
theorem test_onset_5_9 :
    let s := case66 { newGroup (groupKey 12) with count := 3 } 0 206000
    let s' := case66 { newGroup (groupKey 12) with count := 4 } 0 206000
    testOnset 9 s = s
    ∧ ((testOnset 9 s').group 9).state = .active ∧ (testOnset 9 s').total 12 = 4
    ∧ (testOnset 9 s').log.entries.map (fun e => (e.kind, e.count)) = [(.onset, 4)] := by
  decide +kernel

/-- 5.9, steps 8 and 9: a downward crossing, and the upward one that resumes. -/
theorem test_crossings_5_9 :
    let s := atTick 11900 (case66 (episode .active 12 5) 5 48500)
    let t := downwardCrossing 12 s
    (t.group 9).state = .settle ∧ (t.group 9).deadline = some 13900 ∧ t.total 12 = 5
    ∧ ((upwardCrossing 12 t).group 9).state = .active := by decide +kernel

/-- 5.10, step 2: the last leave of an episode collapses its group. -/
theorem test_collapse_5_10 :
    let s := (case66 { episode .active 12 1 with head := some 7, tail := some 7 } 4 100000).setFlow 7
      { newFlow key412 .data .e2 with group := some 9 }
    let t := leave 7 s
    ((t.group 9).state, (t.group 9).count, t.total 12) = (.watch, 0, 3)
    ∧ (t.group 9).lingerStart = some 0 ∧ t.log.entries.map LogEntry.kind = [.collapse] := by
  decide +kernel

/-- 6.7: the share of a group in RAMP at 640 and at 4,095; 6.8, after step 2. -/
theorem test_share_6_7 :
    let s (m : Nat) := (case66 { episode .ramp 12 22 with rampEntry := some 0, rampStart := some 0 } 22
      40000).setRampSequence 2 [⟨500, m⟩]
    shareOf (s 640) 9 = some 13635 ∧ rewriteRequest (s 640) 9 7 501 = .rewrite 106
    ∧ shareOf (s 4095) 9 = some 87242 ∧ rewriteRequest (s 4095) 9 7 501 = .pass 681
    ∧ shareOf (case66 (episode .active 12 3) 3 100000) 9 = some 38666 := by decide +kernel

/-- 7.7 and 7.8: three checksum updates. -/
theorem test_checksum_7_7 :
    updateChecksum 0x3A5C 0x01F5 0x0017 = 0x3C3A ∧ updateChecksum 0xB1E6 0x4502 0x4503 = 0xB1E5
    ∧ updateChecksum 0xB1E7 0x4501 0x4503 = 0xB1E5 := by decide

/-- 7.8: the mark decision of cells a, c, d, e and f. -/
theorem test_mark_7_8 :
    let ip (ecn : Nat) : IpPart := ⟨.v4, 0, 0, ecn, 51, 0, some 60⟩
    let r (ecn : Nat) : FrameRecord := ⟨.ipOther, some (ip ecn), none⟩
    let s (total : Nat) := ((inMode .enforce).setClassRecord 0 { classReset with markDepth := 60000 }).setTotal
      45 total
    (markDecision (s 3) (r 2) (some (45, 75000)), markDecision (s 3) (r 0) (some (45, 75000)),
      markDecision (s 3) (r 3) (some (45, 75000)), markDecision (s 3) (r 2) (some (45, 55000)),
      markDecision (s 0) (r 2) (some (45, 75000)))
    = (.setCe, .unmarkable, .unaltered, .unaltered, .unaltered) := by decide +kernel

/-- 7.9: both changes of one cell, and the check bytes of words 6, 7 and 10. -/
theorem test_cell_7_9 :
    let c := rewriteCell cell79 (frameStage (profile27 0) 128 cell79) (.rewrite 23) .setCe
    (cell79.check.getD 6 0, cell79.check.getD 7 0, cell79.check.getD 10 0) = (0xAD, 0xA5, 0x1C)
    ∧ (cellWord c 50, cellWord c 60, cellWord c 84, cellWord c 86) = (0x4503, 0xB1E5, 0x0017, 0x3C3A)
    ∧ (c.check.getD 6 0, c.check.getD 7 0, c.check.getD 10 0) = (0xA5, 0xA5, 0x0C) := by decide +kernel

/-- 7.7: the window decision of the aggregator's ACK, and variants a, b and c. -/
theorem test_window_7_7 :
    let s (c : ClassRecord) := (case66 (episode .active 12 22) 22 150000).setClassRecord 0 c
    let a (v : Option Nat) : FlowAnswer := ⟨8168, .opened, .e1, some 9, some .e2, v⟩
    let r := frameStage (profile27 0) 128 cell79
    windowDecision (s class66) r (some (a (some 7))) = .rewrite 23
    ∧ windowDecision (s { class66 with rewriteEnable := false }) r (some (a (some 7))) = .unaltered
    ∧ windowDecision (s class66) r (some (a none)) = .skipScale
    ∧ windowDecision (s { class66 with assumedScale := some 7 }) r (some (a none)) = .rewrite 23 := by
  decide +kernel

/-- R129, row 6 of its table: a decision made after the answer reads the scale of the answer, and the
group as it then stands: after an abrupt release the window passes. -/
theorem test_gap_R129 :
    let h : Handed := ⟨profile27 0, .enforce, .answered (some (7, 90000)) (some
      ⟨8168, .opened, .e1, some 9, some .e2, some 7⟩)⟩
    let s := case66 (episode .active 12 22) 22 150000
    let s := { s with link := { s.link with toSwitch := [⟨.readResponse 1 cell79 false, 0, .short, some h⟩] } }
    (after (.handedCellParse .mToS .decision) s).counter Counter.windowsRewritten = 1
    ∧ (after (.handedCellParse .mToS .decision) (after (.releaseAbrupt [1, 1]) s)).counter
        Counter.windowsRewritten = 0 := by decide +kernel

/-- 8.5: the step at tick 20,500, and the end at 23,500 under HOLD. -/
theorem test_ramp_8_5 :
    let g (i : Nat) (start : Tick) :=
      { episode .ramp 12 22 with rampEntry := some i, rampStart := some start }
    let s (m : EndMode) (i : Nat) (start : Tick) (n : Nat) := atTick n
      (((case66 (g i start) 22 40000).setRampSequence 2 sequence85).setClassRecord 0
        { class66 with endMode := m })
    ((after (.entryExpiry 9) (falling (.entry 9) (s .ends 0 20000 20500))).group 9) = g 1 20500
    ∧ after (.entryExpiry 9) (falling (.entry 9) (s .ends 0 20000 20499)) = s .ends 0 20000 20499
    ∧ (after (.entryExpiry 9) (falling (.entry 9) (s .holds 2 21500 23500))).group 9
      = { g 2 0 with rampStart := none }
    ∧ groupMultiplier (s .ends 2 21500 22000) 9 = 1024 := by decide +kernel

/-- 8.5, the end at 23,500 under END: WATCH, the total falls, and the log says SEQUENCE. -/
theorem test_sequenceEnd_8_5 :
    let s := falling (.entry 9) <| atTick 23500 ((case66
    { episode .ramp 12 22 with rampEntry := some 2, rampStart := some 21500 } 22 40000).setRampSequence 2 sequence85)
    let t := after (.entryExpiry 9) s
    ((t.group 9).state, t.total 12) = (.watch, 0)
    ∧ t.log.entries.map (fun e => (e.kind, e.cause)) = [(.ended, .sequence)] := by decide +kernel

/-- The three groups of 9.7. -/
def case97 : State :=
  atTick 50000 ((((((((case66 freeGroup 5 210000).setRampSequence 2 sequence85).setGroup 2
    (episode .active 12 5)).setGroup 5 { episode .settle 20 3 with deadline := some 50100 }).setGroup 8
    { episode .ramp 33 2 with rampEntry := some 1 }).setClassRecord 1 class66).setClassRecord 2
    { class66 with ramp := 0 }).setClassNumber 20 2)

/-- 9.7: the drain request. -/
theorem test_drain_9_7 :
    let t := after (.releaseGraceful [1, 0]) case97
    (t.mode, (t.group 2).state, (t.group 5).state, (t.group 8).state) = (.draining, .ramp, .watch, .watch)
    ∧ t.log.entries.map (fun e => (e.kind, e.group)) = [(.ramp, 2), (.ramp, 5), (.ended, 5), (.ended, 8)] := by
  decide +kernel

/-- 9.7, tick 53,500: the sequence end, the drain-end report and the onset at the return. -/
theorem test_drainEnd_9_7 :
    let s := falling (.entry 2) <| atTick 53500 ({ case66 freeGroup 5 210000 with mode := .draining }.setRampSequence 2 sequence85)
    let t := after (.entryExpiry 2) (s.setGroup 2
      { episode .ramp 12 5 with rampEntry := some 2, rampStart := some 51500 })
    (t.mode, (t.group 2).state, t.total 12) = (.observe, .active, 5)
    ∧ t.log.entries.map LogEntry.kind = [.ended, .onset] := by decide +kernel

/-- 10.7, step 3: CLEAR_ALERT with clear mask 0x06 at a log of 256 entries. -/
theorem test_clearAlert_10_7 :
    let e : LogEntry := ⟨.settle, .none, 0, 9, groupKey 12, 1, 0, 0, 0⟩
    let s := { inMode .observe with
      log := ⟨List.replicate 256 e, 63, 192⟩, alerts := ⟨true, true, false, false, false, 6⟩ }
    let t := after (.clearAlert [1, 0x06]) s
    s.alertLow = true ∧ t.port.result.bytes = [0x07, 0x01, 0x01, 0x00] ∧ t.alertLow = false := by
  decide +kernel

/-- 10.7, step 2: an offer to a full log. -/
theorem test_fullLog_10_7 :
    let e : LogEntry := ⟨.settle, .none, 0, 9, groupKey 12, 1, 0, 0, 0⟩
    let t := offer e { inMode .observe with log := ⟨List.replicate 256 e, 63, 192⟩ }
    (t.log.entries.length, t.alerts.logOverflow, t.counter Counter.logDiscard) = (256, true, 1) := by
  decide +kernel

/-- 11.8, steps 3 and 4: BUSY meanwhile, then the clears complete. -/
theorem test_stop_11_8 :
    let s := after (.stop [0]) (inMode .enforce)
    (s.mode, s.port.result.status, s.port.result.code) = (.transparent, .pending, 0x23)
    ∧ (after (.identify [0]) s).port.result = ⟨.busy, 0x01, []⟩
    ∧ (after .flowGroupClear { s with port := { s.port with command := some (.clears false true false) } }).port
      = { s.port with result := ⟨.good, 0x23, []⟩, command := none } := by decide +kernel

/-- 11.8, steps 5 to 8. -/
theorem test_requests_11_8 :
    let s5 := after (.setTick [3, 0, 0, 0]) State.reset
    (s5.port.result, s5.port.sense) = (⟨.check, 0x15, []⟩, ⟨.badLength, 255⟩)
    ∧ (after (.setTick [2, 0x03, 0xE8]) s5).time.prescaler = 1000
    ∧ (after (.sense [0]) s5).port.result = ⟨.good, 0x02, [0x02, 0xFF]⟩
    ∧ (after (.invalidCommand 0x7E [0]) s5).port.sense = ⟨.invalidCommand, 255⟩ := by decide +kernel


/-! ### Witnesses: states and operands that meet every statement's hypotheses -/

/-- A state with one command waiting. -/
def waiting (c : Instr) (s : State) : State := { s with pending := [c] }

/-- A DATA segment from the responder of 4.12 to the aggregator. -/
def dataIp : IpPart := ⟨.v4, 0x0A010021, 0x0A010014, 2, 51, 0, some 60⟩
def dataTcp : TcpPart := ⟨8080, 40000, false, false, false, true, .data, 1000, 501, 84, 86, none⟩

/-- OBSERVE, after the first DATA segment of 4.12's flow in queue 12: one flow, one group, one member. -/
def joined : State := writeSegment dataIp dataTcp (some 12) (inMode .observe)

theorem inMode_empty (m : Mode) : (inMode m).flowsAndGroupsEmpty :=
  ⟨fun _ => rfl, fun _ => rfl, fun _ => rfl⟩

theorem joined_group : (joined.group 0).count = 1 ∧ (joined.flow 8168).group = some 0 := by
  decide +kernel

theorem witness_StepRunsFrontCommand :
    (waiting .tick State.reset).pending = .tick :: [] ∧ State.reset.pending = [] := ⟨rfl, rfl⟩

theorem witness_FramesSpellCommands :
    (Instr.wellFormed (.invalidCommand 0 []) = true ∧ frameOf (.invalidCommand 0 []) = some [0])
    ∧ decodeFrame [0xFF] = some (.invalidCommand 0xFF [])
    ∧ ([] : List Bool).length < 8 ∧ (List.replicate 7 true).length < 8 := by decide

theorem witness_TablesStayCanonical :
    (waiting .tick joined).tablesCanonical ∧ ∃ t, step (waiting .tick joined) = .next t := by
  have base : (inMode .observe).tablesCanonical :=
    ⟨tableWf_nil _, tableWf_nil _, tableWf_nil _, tableWf_nil _, tableWf_nil _, tableWf_nil _,
      tableWf_nil _, tableWf_nil _, tableWf_nil _⟩
  exact ⟨writeSegment_keeps tablesCanonical_writes base dataIp dataTcp (some 12), _, rfl⟩

theorem inMode_settings (m : Mode) : (inMode m).settingsLegal := by
  refine ⟨by rintro p ⟨⟩, fun c => ?_, ?_⟩
  · show classReset.legal
    refine ⟨by decide, by decide, by decide, by decide, by decide, by decide, by decide, by decide, ?_,
      by decide⟩
    rintro v ⟨⟩
  · refine ⟨Nat.zero_le _, ?_, ?_, ?_, ?_, ?_, fun r => ?_, ?_⟩
    · show 1 ≤ 200000 ∧ 200000 ≤ timerMax; decide
    · show 1 ≤ 1000000 ∧ 1000000 ≤ timerMax; decide
    · show 1024 ≤ 50000 ∧ 50000 ≤ 65535; decide
    · show 1 ≤ 100000 ∧ 100000 ≤ timerMax; decide
    · show 1 ≤ 100 ∧ 100 ≤ 65535; decide
    · exact ⟨Nat.zero_le _, fun e he => absurd he (List.not_mem_nil (a := e))⟩
    · show 1 ≤ 192 ∧ 192 ≤ Config.logCapacity; decide

theorem inMode_counts (m : Mode) : (inMode m).countsInRange :=
  ⟨fun _ => ⟨Nat.le_refl 0, Nat.zero_le _, Nat.zero_le _⟩, fun _ => Nat.zero_le _, Nat.zero_le _,
    Nat.zero_le _, Nat.zero_le _, Nat.zero_le _⟩

theorem witness_SettingsStayInRange :
    (waiting (.setTick [2, 255, 255]) (inMode .transparent)).settingsLegal
    ∧ ∃ t, step (waiting (.setTick [2, 255, 255]) (inMode .transparent)) = .next t :=
  ⟨inMode_settings .transparent, _, rfl⟩

theorem witness_CountsStayInRange :
    (waiting (.identify [0]) (inMode .enforce)).countsInRange
    ∧ ∃ t, step (waiting (.identify [0]) (inMode .enforce)) = .next t :=
  ⟨inMode_counts .enforce, _, rfl⟩

theorem witness_ModeStaysCoherent :
    (waiting .tick joined).modeCoherent ∧ ∃ t, step (waiting .tick joined) = .next t := by
  have hm : joined.mode = .observe := by decide +kernel
  have hc : joined.port.command = none := by decide +kernel
  have hs : joined.ft.sweep = some ⟨0, 50000, 0⟩ := by decide +kernel
  have hp : joined.ft.sweepPeriod = 50000 := by decide +kernel
  have ht : joined.time.tick = 0 := by decide +kernel
  refine ⟨⟨?_, ⟨?_, ?_⟩, ?_, ?_, ?_, ?_, ?_⟩, _, rfl⟩
  · exact ⟨fun h => absurd (hs.symm.trans h) (by simp), fun h => absurd (hm.symm.trans h) (by decide)⟩
  · show 1024 ≤ joined.ft.sweepPeriod ∧ joined.ft.sweepPeriod ≤ 65535
    rw [hp]; decide
  · intro pass h
    obtain rfl : ⟨0, 50000, 0⟩ = pass := Option.some.inj (hs.symm.trans h)
    show (1024 ≤ 50000 ∧ 50000 ≤ 65535) ∧ 0 ≤ 8192 ∧ (joined.time.tick - 0).toNat ≤ 50000
      ∧ (0 < 8192 → (joined.time.tick - 0).toNat ≤ 0 * 50000 / 8192)
      ∧ (0 < 0 → (0 - 1) * 50000 / 8192 ≤ (joined.time.tick - 0).toNat)
    rw [ht]; decide
  · intro soft queues flows h; exact absurd (hc.symm.trans h) (by simp)
  · intro i h; exact absurd (hc.symm.trans h) (by simp)
  · intro h; exact absurd (hm.symm.trans h) (by decide)
  · intro h; exact absurd (hm.symm.trans h) (by decide)
  · intro h; exact absurd (hm.symm.trans h) (by decide)

theorem joined_accounted : joined.groupsAccounted :=
  accounted_writes.writeSegment (empty_accounted (inMode_empty .observe) (fun _ => rfl)) dataIp dataTcp
    (some 12)

theorem joined_chained : joined.membersChained :=
  chained_writes.writeSegment (empty_chained (fun _ => rfl) (fun _ => rfl)) dataIp dataTcp (some 12)

theorem witness_GroupAccountingHolds :
    (waiting .tick joined).groupsAccounted ∧ ∃ t, step (waiting .tick joined) = .next t :=
  ⟨accounted_of_tables joined_accounted rfl rfl rfl, _, rfl⟩

theorem witness_MemberListsStayChained :
    (waiting .tick joined).membersChained ∧ ∃ t, step (waiting .tick joined) = .next t :=
  ⟨chained_of_tables joined_chained rfl rfl, _, rfl⟩

/-- OBSERVE, with the flow of 4.12 in HANDSHAKE. -/
def oneFlow : State := (inMode .observe).setFlow 8168 (newFlow key412 .syn .e1)

theorem oneFlow_flow (i : FlowId) :
    oneFlow.flow i = if i = 8168 then newFlow key412 .syn .e1 else flowReset := by
  rw [oneFlow, State.setFlow_flow]; rfl

theorem oneFlow_placed : oneFlow.flowsPlaced := by
  refine ⟨fun i h => ?_, fun i j key hi hj _ _ => ?_, fun i => ?_⟩
  · rw [oneFlow_flow] at h ⊢
    split_ifs at h ⊢ with hi
    · subst hi; exact ⟨key412, by decide +kernel⟩
    · exact absurd rfl h
  · rw [oneFlow_flow] at hi hj
    split_ifs at hi hj <;> simp_all [flowReset, freeFlow]
  · rw [oneFlow_flow]
    split_ifs <;> simp [newFlow, flowReset, freeFlow, scaleLegal]

theorem witness_FlowsStayPlaced :
    (waiting (.sweepVisit 8168) oneFlow).flowsPlaced
    ∧ ∃ t, step (waiting (.sweepVisit 8168) oneFlow) = .next t :=
  ⟨oneFlow_placed, _, rfl⟩

theorem profile27_legal : (profile27 0).legal := by
  refine ⟨by decide, by unfold BitPosition.legal; decide, ?_, by decide, by decide, by decide, by decide,
    by decide, by decide, by decide, by decide⟩
  rintro m ⟨⟩
  unfold BitPosition.legal; decide

/-- One transaction inside a direction, waiting for its parse or not. -/
def carrying (d : Direction) (t : LinkTransaction) (h : Option Handed) (s : State) : State :=
  s.setStream d [⟨t, 0, .short, h⟩]

theorem witness_LinkStaysCoherent :
    let s := waiting (.transactionLeaves .mToS) (carrying .mToS (.readResponse 1 cell79 false)
      (some ⟨profile27 0, .enforce, .handed⟩) (inMode .enforce))
    s.linkCoherent ∧ ∃ t, step s = .next t := by
  refine ⟨⟨fun _ => rfl, ?_, ?_, ?_, ?_, ?_⟩, _, rfl⟩
  · rintro tag ⟨⟩
  · rintro p ⟨⟩
  · intro t ht; cases ht
  · intro t ht; simp [waiting, carrying, State.setStream] at ht; subst ht; rfl
  · rintro d t ht h e
    cases d
    · cases ht
    · simp [waiting, carrying, State.setStream, State.stream] at ht
      subst ht; cases e
      exact ⟨rfl, by decide, profile27_legal, fun _ _ _ => rfl⟩

theorem witness_LatencySettingChangesOnce :
    ∃ t, step (waiting (.setLatency [1, 1]) State.reset) = .next t ∧ t.link.latency = .long :=
  ⟨_, rfl, rfl⟩

theorem witness_ModeChangesOnlyAtItsEvents :
    ∃ t, (waiting (.enforce [0]) (inMode .observe)).pending.head? = some (.enforce [0])
      ∧ step (waiting (.enforce [0]) (inMode .observe)) = .next t
      ∧ t.mode ≠ (waiting (.enforce [0]) (inMode .observe)).mode :=
  ⟨_, rfl, rfl, by decide⟩

theorem witness_LinkKeepsItsOrder :
    ∃ t, step (waiting (.readRequest 3 0 255) State.reset) = .next t ∧ (t.inside .sToM).length = 1 :=
  ⟨_, rfl, rfl⟩

theorem witness_ResetLineRules :
    (after .hardwareReset State.reset).running = false ∧ State.reset.running = true
    ∧ (Instr.tick ≠ .resetRelease ∧ Instr.tick ≠ .hardwareReset)
    ∧ (waiting .tick (after .hardwareReset State.reset)).heldInReset
    ∧ ∃ t, step (waiting .tick (after .hardwareReset State.reset)) = .next t :=
  ⟨rfl, rfl, by decide, fun _ => rfl, _, rfl⟩

/-- A state with a CLEAR_FLOWS walk pending. -/
def walking (i : FlowId) : State := (inMode .observe).setCommand (some (.walk i))

theorem witness_RefusedRequestChangesNothingElse :
    (frameOf (.stop [0]) = some (0x23 :: [0]) ∧ (after .hardwareReset State.reset).running = false
      ∧ (walking 8191).port.command = some (.walk 8191))
    ∧ (∃ t, frameOf (.stop [0]) = some (0x23 :: [0]) ∧ (walking 0).running = true
      ∧ exec (.stop [0]) (walking 0) = .next t ∧ t.port.result.status = .busy)
    ∧ (∃ t, exec (.stop []) State.reset = .next t ∧ t.port.result.status = .check)
    ∧ ∃ t, exec (.stop [0]) State.reset = .next t ∧ t.port.result.status = .pending :=
  ⟨⟨rfl, rfl, rfl⟩, ⟨_, rfl, rfl, rfl, rfl⟩, ⟨_, rfl, rfl⟩, _, rfl, rfl⟩

theorem takes (m : Mode) : (inMode m).takesRequests := ⟨rfl, rfl⟩

theorem misframed_short (n : Nat) : misframed (n + 1) [BitVec.ofNat 8 (n + 1)] := by
  rintro ps ⟨h, hl⟩
  cases h; cases hl

theorem misframed_long (n : Nat) (b : Byte) (h : b ≠ BitVec.ofNat 8 n) : misframed n [b] := by
  rintro ps ⟨e, -⟩
  cases e; exact h rfl

theorem witness_MisframedAndUnknownRefused :
    State.reset.takesRequests ∧ misframed 0 [1] ∧ misframed 1 [1] ∧ misframed 2 [2] ∧ misframed 3 [3]
    ∧ misframed 4 [4] :=
  ⟨⟨rfl, rfl⟩, misframed_long 0 1 (by decide), misframed_short 0, misframed_short 1, misframed_short 2,
    misframed_short 3⟩

/-- Byte 3 of a result frame that RST_N ends after four bytes. -/
theorem witness_ResultFrameShowsTheRecord :
    (inMode .enforce).running = true ∧ (inMode .enforce).countsInRange
    ∧ (∀ n, (none : Option Nat) = some n → 3 < n) ∧ (∀ n, some 4 = some n → 3 < n)
    ∧ misoPin (inMode .enforce) (.result (some 4)) 3 = some 0 :=
  ⟨rfl, inMode_counts .enforce, by simp, by simp, rfl⟩

theorem witness_IdentifyAndSenseReport :
    (inMode .draining).takesRequests ∧ (inMode .draining).settingsLegal ∧ (inMode .draining).countsInRange :=
  ⟨takes _, inMode_settings _, inMode_counts _⟩

theorem none_reserved {layout : List (Nat × Byte)} {ps : List Byte}
    (h : ∀ e ∈ layout, paramByte ps e.1 &&& e.2 = 0) : noneReserved layout ps :=
  fun o m he => h (o, m) he

theorem lowest_reserved {layout : List (Nat × Byte)} {ps : List Byte} {o : Nat}
    (h1 : ∃ e ∈ layout, e.1 = o ∧ paramByte ps o &&& e.2 ≠ 0)
    (h2 : ∀ e ∈ layout, e.1 < o → paramByte ps e.1 &&& e.2 = 0) : lowestReserved layout ps o := by
  obtain ⟨⟨_, m⟩, he, rfl, hm⟩ := h1
  exact ⟨⟨m, he, hm⟩, fun o' m' he' ho => h2 (o', m') he' ho⟩

theorem witness_ReadQueueReportsTheRecord :
    (inMode .observe).takesRequests ∧ (inMode .observe).countsInRange
    ∧ lowestReserved readQueueReserved [0x04, 0, 0] 0 ∧ lowestReserved readQueueReserved [0x03, 0, 2] 2
    ∧ (noneReserved readQueueReserved [2, 0, 1] ∧ 512 ≤ (2 : Byte).toNat * 256 + (0 : Byte).toNat)
    ∧ (noneReserved readQueueReserved [1, 255, 1]
        ∧ (511 : QueueId).val = (1 : Byte).toNat * 256 + (255 : Byte).toNat)
    ∧ (inMode .observe).total 511 ≤ 8192 := by
  exact ⟨takes _, inMode_counts _, lowest_reserved (by decide) (by decide),
    lowest_reserved (by decide) (by decide), ⟨none_reserved (by decide), by decide⟩,
    ⟨none_reserved (by decide), by decide⟩, by decide⟩

theorem witness_GroupAndFlowReadsReport :
    (inMode .observe).takesRequests ∧ 128 ≤ (128 : Byte).toNat ∧ (127 : GroupId).val = (127 : Byte).toNat
    ∧ 8192 ≤ (32 : Byte).toNat * 256 + (0 : Byte).toNat
    ∧ (8191 : FlowId).val = (31 : Byte).toNat * 256 + (255 : Byte).toNat :=
  ⟨takes _, by decide⟩

theorem witness_FindFlowFindsByKey :
    (oneFlow.takesRequests ∧ oneFlow.flowsPlaced ∧ aggregator.fits .v4 ∧ responder.fits .v4
      ∧ (oneFlow.flow 8168).state ≠ .free ∧ (oneFlow.flow 8168).key = some key412)
    ∧ (∀ i, ((inMode .observe).flow i).state ≠ .free →
        ((inMode .observe).flow i).key ≠ some key412
          ∧ ((inMode .observe).flow i).key ≠ some { version := .v4, first := responder, second := aggregator })
    ∧ (∀ n, 1 ≤ n → n ≤ 60 → misframed n [0])
    ∧ framesExactly 1 [1, 0x10] [0x10] ∧ framesExactly 1 [1, 0x05] [0x05]
    ∧ framesExactly 12 (12 :: 4 :: List.replicate 11 0) (4 :: List.replicate 11 0)
    ∧ framesExactly 60 (60 :: 6 :: List.replicate 59 0) (6 :: List.replicate 59 0) := by
  refine ⟨⟨⟨rfl, rfl⟩, oneFlow_placed, fun _ => by decide, fun _ => by decide, by decide +kernel,
    by decide +kernel⟩, fun i h => absurd rfl h, fun n h1 _ => ?_, ⟨rfl, rfl⟩, ⟨rfl, rfl⟩, ⟨rfl, rfl⟩,
    ⟨rfl, rfl⟩⟩
  rintro ps ⟨e, hl⟩
  obtain rfl := List.tail_eq_of_cons_eq e
  simp at hl; omega

/-- An entry of the log. -/
def entry : LogEntry := ⟨.collapse, .none, 0, 127, groupKey 511, 0, 0, 0, 0⟩

theorem witness_LogKeepsItsOrder :
    let full := { inMode .observe with log := ⟨List.replicate 256 entry, 63, 192⟩ }
    let room := { inMode .observe with log := ⟨List.replicate 255 entry, 63, 192⟩ }
    let off := { inMode .observe with log := ⟨[], 31, 192⟩ }
    (inMode .transparent).mode = .transparent ∧ off.log.kindMask.getLsbD 5 = false
    ∧ (full.mode ≠ .transparent ∧ full.log.kindMask.getLsbD 5 = true ∧ 256 ≤ full.log.entries.length)
    ∧ (room.mode ≠ .transparent ∧ room.log.entries.length < 256)
    ∧ (inMode .observe).takesRequests ∧ (inMode .observe).log.entries = []
    ∧ full.takesRequests ∧ ∃ rest, full.log.entries = entry :: rest :=
  ⟨rfl, by decide, ⟨by decide, by decide, by decide +kernel⟩, ⟨by decide, by decide +kernel⟩, takes _, rfl,
    ⟨rfl, rfl⟩, _, rfl⟩

theorem witness_CountersReadAndClear :
    (inMode .observe).takesRequests ∧ (inMode .observe).countsInRange ∧ (2 : Byte) &&& 0xFE ≠ 0
    ∧ ((1 : Byte) &&& 0xFE = 0 ∧ 16 < (17 : Byte).toNat)
    ∧ (1 ≤ (16 : Byte).toNat ∧ (16 : Byte).toNat ≤ 16 ∧ 25 < (10 : Byte).toNat + (16 : Byte).toNat)
    ∧ (9 : Byte).toNat + (16 : Byte).toNat ≤ 25 :=
  ⟨takes _, inMode_counts _, by decide⟩

theorem witness_ClearAlertClearsNamedFlags :
    (inMode .observe).takesRequests ∧ (inMode .observe).countsInRange ∧ (1 : Byte) &&& 0xC1 ≠ 0
    ∧ (0x3E : Byte) &&& 0xC1 = 0 :=
  ⟨takes _, inMode_counts _, by decide⟩

theorem witness_SetLatencyLocksTheSetting :
    State.reset.takesRequests ∧ (2 : Byte) &&& 0xFE ≠ 0 ∧ (1 : Byte) &&& 0xFE = 0
    ∧ (after (.setLatency [1, 0]) State.reset).link.locked = true ∧ State.reset.link.locked = false :=
  ⟨⟨rfl, rfl⟩, by decide, by decide, by decide, rfl⟩

theorem misframed_nil (n : Nat) : misframed n [] := by
  rintro ps ⟨h, -⟩; cases h

theorem witness_LoadProfileInstallsWhatBytesSpell :
    ((inMode .observe).takesRequests ∧ (inMode .observe).mode ≠ .transparent)
    ∧ State.reset.takesRequests ∧ State.reset.mode = .transparent ∧ misframed 42 []
    ∧ (framesExactly 42 (42 :: List.replicate 42 8) (List.replicate 42 8)
        ∧ lowestReserved
          [(1, 0xC0), (2, 0xF8), (3, 0xFF), (4, 0x7F), (5, 0xC0), (6, 0x08), (7, 0xC0), (8, 0xFE),
            (10, 0x70), (14, 0xF0), (18, 0x70), (22, 0xF0), (26, 0x70), (30, 0xF0), (34, 0x70), (38, 0xF0)]
          (List.replicate 42 8) 2)
    ∧ ({ profile27 0 with frameOffset := 65 }.encodable
        ∧ lowestBreak { profile27 0 with frameOffset := 65 }.breaks 0)
    ∧ (profile27 0).legal := by
  refine ⟨⟨takes _, by decide⟩, ⟨rfl, rfl⟩, rfl, misframed_nil 42, ⟨⟨rfl, rfl⟩, ?_⟩,
    ⟨⟨by decide, by decide, ?_, by decide, by decide, by decide, by decide, by decide, by decide, by decide⟩,
      Or.inl ⟨rfl, by decide⟩, fun o h => absurd h (Nat.not_lt_zero o)⟩, profile27_legal⟩
  · exact lowest_reserved (by decide) (by decide)
  · rintro m ⟨⟩; decide

theorem class66_legal : class66.legal := by
  refine ⟨by decide, by decide, by decide, by decide, by decide, by decide, by decide, by decide, ?_,
    by decide⟩
  rintro v ⟨⟩

theorem witness_SetClassWritesWhatBytesSpell :
    let reserved : List (Nat × Byte) :=
      [(12, 0xC0), (16, 0xC0), (20, 0xFF), (21, 0xF0), (24, 0x80), (29, 0x7F), (34, 0x7C)]
    ((inMode .draining).takesRequests ∧ (inMode .draining).mode = .draining)
    ∧ (inMode .enforce).takesRequests ∧ (inMode .enforce).mode ≠ .draining ∧ misframed 35 []
    ∧ (framesExactly 35 (35 :: List.replicate 35 4) (List.replicate 35 4)
        ∧ lowestReserved reserved (List.replicate 35 4) 20)
    ∧ (framesExactly 35 (35 :: 8 :: List.replicate 34 0) (8 :: List.replicate 34 0)
        ∧ noneReserved reserved (8 :: List.replicate 34 0)
        ∧ 8 ≤ (paramByte (8 :: List.replicate 34 0) 0).toNat)
    ∧ ({ class66 with onsetDepth := 0 }.encodable
        ∧ lowestBreak { class66 with onsetDepth := 0 }.breaks 1)
    ∧ class66.legal := by
  refine ⟨⟨takes _, rfl⟩, takes _, by decide, misframed_nil 35, ⟨⟨rfl, rfl⟩, ?_⟩,
    ⟨⟨rfl, rfl⟩, none_reserved (by decide), by decide⟩,
    ⟨⟨by decide, by decide, by decide, by decide, by decide, by decide, by decide, by decide, ?_, by decide⟩,
      Or.inl ⟨rfl, rfl⟩, fun o h => ?_⟩, class66_legal⟩
  · exact lowest_reserved (by decide) (by decide)
  · rintro v ⟨⟩
  · obtain rfl : o = 0 := by omega
    simp [ClassRecord.breaks]

theorem witness_SetQueueClassFollowsItsTable :
    (inMode .draining).takesRequests ∧ (inMode .draining).mode = .draining
    ∧ (inMode .observe).mode ≠ .draining ∧ misframed 3 [3] ∧ (4 : Byte) &&& 0xFC ≠ 0
    ∧ ((3 : Byte) &&& 0xFC = 0 ∧ (0x10 : Byte) &&& 0xF0 ≠ 0)
    ∧ ((0x0F : Byte) &&& 0xF0 = 0 ∧ 512 ≤ (2 : Byte).toNat * 256 + (0 : Byte).toNat)
    ∧ ((1 : Byte).toNat * 256 + (255 : Byte).toNat < 512 ∧ 8 ≤ (8 : Byte).toNat)
    ∧ ((511 : QueueId).val = (1 : Byte).toNat * 256 + (255 : Byte).toNat ∧ (7 : ClassId).val = (7 : Byte).toNat) :=
  ⟨takes _, rfl, by decide, misframed_short 2, by decide⟩

theorem sequence85_legal : rampLegal sequence85 := by unfold rampLegal; decide

theorem witness_SetRampWritesWhatBytesSpell :
    (inMode .enforce).takesRequests ∧ (∀ n, 2 ≤ n → n ≤ 60 → misframed n [1, 0])
    ∧ framesExactly 2 [2, 4, 0] [4, 0]
    ∧ (let s := ramping .enforce { episode .ramp 12 22 with rampEntry := some 0, rampStart := some 0 }
       framesExactly 2 [2, 2, 0] [2, 0] ∧ (s.group 9).state = .ramp ∧ (s.group 9).key = some (groupKey 12)
       ∧ (s.classRecord (s.classNumber 12)).ramp = 2)
    ∧ (framesExactly 2 [2, 3, 17] [3, 17] ∧ framesExactly 2 [2, 3, 1] [3, 1]
        ∧ framesExactly 6 [6, 3, 1, 0, 1, 0, 0x11] [3, 1, 0, 1, 0, 0x11])
    ∧ rampInUse (inMode .enforce) 3 = false
    ∧ (sequence85.length ≤ 16 ∧ ∀ e ∈ sequence85, e.duration ≤ 65535 ∧ e.multiplier ≤ 4095)
    ∧ rampLegal sequence85
    ∧ (∀ l, l = [RampEntry.mk 1 1, ⟨0, 4095⟩] → ∃ h : 1 < l.length, l[1].duration = 0
        ∧ ∀ j (hj : j < 1), 0 < l[j].duration)
    ∧ (∀ l, l = [RampEntry.mk 1 1, ⟨65535, 0⟩] → ∃ h : 1 < l.length, l[1].multiplier = 0
        ∧ (∀ e ∈ l, 0 < e.duration) ∧ ∀ j (hj : j < 1), 0 < l[j].multiplier) := by
  refine ⟨takes _, ?_, ⟨rfl, rfl⟩, ⟨⟨rfl, rfl⟩, by decide +kernel, by decide +kernel, by decide +kernel⟩,
    ⟨⟨rfl, rfl⟩, ⟨rfl, rfl⟩, ⟨rfl, rfl⟩⟩, by decide +kernel, by decide, sequence85_legal, ?_, ?_⟩
  · rintro n h1 h2 ps ⟨e, hl⟩
    obtain rfl := List.tail_eq_of_cons_eq e
    simp at hl; omega
  · rintro l rfl
    refine ⟨by decide, rfl, fun j hj => ?_⟩
    obtain rfl : j = 0 := by omega
    exact Nat.one_pos
  · rintro l rfl
    refine ⟨by decide, rfl, by decide, fun j hj => ?_⟩
    obtain rfl : j = 0 := by omega
    exact Nat.one_pos

theorem witness_SetTickRestartsTheCount :
    (inMode .observe).takesRequests ∧ (inMode .observe).mode ≠ .transparent
    ∧ (State.reset.takesRequests ∧ State.reset.mode = .transparent)
    ∧ ¬ ((0 : Byte) = 0 ∧ (1 : Byte) = 0)
    ∧ ∃ t u, exec (.setTick [2, 0, 1]) State.reset = .next t ∧ exec .tick t = .next u :=
  ⟨takes _, by decide, ⟨⟨rfl, rfl⟩, rfl⟩, by decide, _, _, rfl, rfl⟩

theorem witness_SetTimersReplacesAllSix :
    (inMode .draining).takesRequests ∧ (inMode .draining).mode = .draining
    ∧ (inMode .observe).mode ≠ .draining ∧ misframed 20 [20]
    ∧ (framesExactly 20 (20 :: List.replicate 20 1) (List.replicate 20 1)
        ∧ lowestReserved timersReserved (List.replicate 20 1) 0)
    ∧ (∀ f, f = TimersField.mk 0 0 1023 0 timerMax 0 → f.idle ≤ timerMax ∧ f.handshake ≤ timerMax
        ∧ f.sweep ≤ 65535 ∧ f.linger ≤ timerMax ∧ f.quiet ≤ timerMax)
    ∧ (TimersField.mk 1 1 1024 1 timerMax 0xFFFF).legal
    ∧ (oneFlow.takesRequests ∧ (0xFFFF : BitVec 16) ≠ oneFlow.ft.seed
        ∧ (oneFlow.flow 8168).state ≠ .free)
    ∧ ∀ i, ((inMode .observe).flow i).state = .free := by
  refine ⟨takes _, rfl, by decide, misframed_short 19, ⟨⟨rfl, rfl⟩, ?_⟩, ?_, ?_,
    ⟨⟨rfl, rfl⟩, by decide, by decide +kernel⟩, fun _ => rfl⟩
  · exact lowest_reserved (by decide) (by decide)
  · rintro f rfl; decide
  · unfold TimersField.legal; decide

theorem witness_SetAlertReplacesAllThree :
    (inMode .observe).takesRequests
    ∧ lowestReserved alertReserved [0x3F, 2, 0, 0] 1 ∧ lowestReserved alertReserved [0x3F, 1, 0, 0x40] 3
    ∧ (noneReserved alertReserved [0x3F, 1, 1, 0x3F]
        ∧ 256 < (1 : Byte).toNat * 256 + (1 : Byte).toNat)
    ∧ (noneReserved alertReserved [0x3F, 1, 0, 0x3F]
        ∧ (1 : Byte).toNat * 256 + (0 : Byte).toNat = 256) := by
  exact ⟨takes _, lowest_reserved (by decide) (by decide), lowest_reserved (by decide) (by decide),
    ⟨none_reserved (by decide), by decide⟩, none_reserved (by decide), by decide⟩

/-- A profile with an enabled range, loaded. -/
def loaded (m : Mode) : State := { inMode m with profile := some (profile27 0) }

theorem witness_ObserveAndEnforceFollowTheirTables :
    ((inMode .draining).takesRequests ∧ (inMode .draining).mode = .draining)
    ∧ ((inMode .observe).takesRequests ∧ (inMode .observe).mode = .observe)
    ∧ (State.reset.takesRequests ∧ State.reset.mode = .transparent
        ∧ ∀ p, State.reset.profile = some p → ∀ r ∈ p.ranges, r.enabled = false)
    ∧ (loaded .transparent).takesRequests
    ∧ ∃ p, (loaded .transparent).profile = some p ∧ ∃ r ∈ p.ranges, r.enabled = true :=
  ⟨⟨takes _, rfl⟩, ⟨takes _, rfl⟩, ⟨⟨rfl, rfl⟩, rfl, by rintro p ⟨⟩⟩, ⟨rfl, rfl⟩, profile27 0, rfl, by decide⟩

theorem setRamp_legal (m : Mode) : ((inMode m).setRampSequence 2 sequence85).settingsLegal := by
  have h := inMode_settings m
  refine ⟨h.1, h.2.1, h.2.2.1, h.2.2.2.1, h.2.2.2.2.1, h.2.2.2.2.2.1, h.2.2.2.2.2.2.1, h.2.2.2.2.2.2.2.1,
    fun r => ?_, h.2.2.2.2.2.2.2.2.2⟩
  show rampLegal (tableGet [] (tableSet [] [] 2 sequence85) r)
  rw [tableGet_set]
  split_ifs
  · exact sequence85_legal
  · exact ⟨Nat.zero_le _, fun e he => absurd he (List.not_mem_nil (a := e))⟩

theorem ramping_legal (m : Mode) (g : GroupRecord) : (ramping m g).settingsLegal := by
  have h := setRamp_legal m
  refine ⟨h.1, fun c => ?_, h.2.2⟩
  show (tableGet classReset (tableSet classReset [] 0 class66) c).legal
  rw [tableGet_set]
  split_ifs
  · exact class66_legal
  · exact (inMode_settings m).2.1 c

theorem witness_GracefulReleaseDrains :
    let s := ramping .enforce { episode .settle 12 22 with deadline := some 5 }
    let s' := ramping .enforce { episode .ramp 12 22 with rampEntry := some 0, rampStart := some 0 }
    ((2 : Byte) &&& 0xFE ≠ 0 ∧ (inMode .observe).takesRequests ∧ (inMode .observe).mode = .observe
      ∧ (inMode .draining).takesRequests ∧ (inMode .draining).mode = .draining)
    ∧ (s.takesRequests ∧ s.settingsLegal ∧ s.mode = .enforce)
    ∧ ((s.group 9).state = .settle ∧ s.ramp (groupClass s 9).ramp ≠ [])
    ∧ (s'.takesRequests ∧ s'.settingsLegal ∧ s'.mode = .enforce)
    ∧ ((s'.group 9).state = .ramp ∧ (s'.group 9).rampStart = some 0)
    ∧ (inMode .enforce).anyEpisode = false
    ∧ (after (.releaseGraceful [1, 0]) s).mode = .draining := by
  exact ⟨⟨by decide, takes _, rfl, takes _, rfl⟩, ⟨⟨rfl, rfl⟩, ramping_legal _ _, rfl⟩, ⟨by decide +kernel, by decide +kernel⟩,
    ⟨⟨rfl, rfl⟩, ramping_legal _ _, rfl⟩, ⟨by decide +kernel, by decide +kernel⟩, by decide +kernel,
    by decide +kernel⟩

/-- A group that holds as the only episode: it ends at a graceful release, and at 200,000 exactly it opens
again at the return, at 199,999 not. -/
theorem witness_GracefulReleaseDrains_ends :
    let holding := { episode .ramp 12 22 with rampEntry := some 2 }
    let s := (case66 holding 22 200000).setRampSequence 2 sequence85
    let s' := (case66 { episode .active 12 22 with deadline := none } 22 199999)
    (s.endsAtRelease 9 ∧ s.opensAtReturn 9 ∧ (s.group 9).key = some (groupKey 12)
      ∧ s.counter Counter.onsets ≤ 4294967295)
    ∧ (s'.endsAtRelease 9 ∧ ¬ s'.opensAtReturn 9)
    ∧ (s.takesRequests ∧ s.mode = .enforce ∧ s'.takesRequests ∧ s'.mode = .enforce)
    ∧ ((s.group 3).state.isEpisode = false ∧ ¬ s.opensAtReturn 3)
    ∧ (after (.releaseGraceful [1, 0]) s).log.entries.map (fun e => (e.kind, e.group))
      = [(.ended, 9), (.onset, 9)]
    ∧ (after (.releaseGraceful [1, 0]) s').log.entries.map (fun e => (e.kind, e.group))
      = [(.ramp, 9), (.ended, 9)] := by
  refine ⟨?_, ?_, ⟨⟨rfl, rfl⟩, rfl, ⟨rfl, rfl⟩, rfl⟩, ?_, ?_, ?_⟩ <;> decide +kernel

/-- R92, R105: the END entry of an abrupt release, by hand: peak 260,000, duration 17,700 - 10,052. -/
theorem test_release_R105 :
    let s := atTick 17700 (case66 { episode .settle 12 4 with onsetAt := some 10052, peak := some 260000 }
      4 20000)
    (after (.releaseAbrupt [1, 1]) s).log.entries
      = [⟨.ended, .release, 17700, 9, groupKey 12, 4, 20000, 260000, 7648⟩] := by decide +kernel

theorem witness_AbruptReleaseEndsEveryEpisode :
    (inMode .enforce).takesRequests ∧ (inMode .enforce).mode = .enforce
    ∧ (inMode .draining).takesRequests ∧ (inMode .draining).mode = .draining
    ∧ ((ramping .draining (episode .ramp 12 22)).group 9).state.isEpisode = true :=
  ⟨takes _, rfl, takes _, rfl, by decide +kernel⟩

theorem witness_StopAndSoftResetBegin : (inMode .draining).takesRequests := takes _

/-- A state with the clears of a STOP or SOFT_RESET pending. -/
def clearing (soft queues flows : Bool) : State :=
  (inMode .transparent).setCommand (some (.clears soft queues flows))

theorem witness_PendingClearsRun :
    ((clearing true false true).running = true
      ∧ (clearing true false true).port.command = some (.clears true false true))
    ∧ ((clearing false true false).running = true
      ∧ (clearing false true false).port.command = some (.clears false true false))
    ∧ (∀ soft flows, (clearing true true false).port.command ≠ some (.clears soft false flows))
    ∧ (∀ soft queues, (clearing true false true).port.command ≠ some (.clears soft queues false))
    ∧ ∀ i, (clearing true false true).port.command ≠ some (.walk i) := by
  refine ⟨⟨rfl, rfl⟩, ⟨rfl, rfl⟩, ?_, ?_, ?_⟩ <;> simp [clearing, State.setCommand]

theorem witness_ClearFlowsWalksTheTable :
    (inMode .draining).takesRequests ∧ (inMode .draining).mode = .draining
    ∧ (inMode .enforce).takesRequests ∧ (inMode .enforce).mode = .enforce
    ∧ (inMode .observe).takesRequests ∧ (inMode .observe).mode = .observe
    ∧ (walking 8190).running = true ∧ (walking 8190).port.command = some (.walk 8190)
    ∧ (8190 : FlowId).val < 8191 ∧ (8191 : FlowId).val = 8191
    ∧ (walking 8191).port.command = some (.walk 8191) ∧ ((walking 8191).flow 8191).group = none
    ∧ (walking 0).time.refclkCount < (walking 0).time.prescaler
    ∧ (let s := { walking 0 with time := { TimeBase.reset with refclkCount := 100 } }
       s.time.prescaler ≤ s.time.refclkCount) :=
  ⟨takes _, rfl, takes _, rfl, takes _, rfl, rfl, rfl, by decide, by decide, rfl, rfl, by decide, by decide⟩

theorem witness_OnsetFollowsItsCondition :
    let s := case66 { newGroup (groupKey 12) with count := 4 } 0 200000
    (s.group 9).key = some (groupKey 12) ∧ (s.group 9).state = .watch
    ∧ (s.classRecord (s.classNumber 12)).fanIn ≠ 0
    ∧ (s.classRecord (s.classNumber 12)).fanIn ≤ (s.group 9).count
    ∧ (s.classRecord (s.classNumber 12)).onsetDepth ≤ (s.queue 12).estimate ∧ s.mode = .enforce
    ∧ ¬ (s.classRecord (s.classNumber 12)).onsetDepth
        ≤ ((case66 { newGroup (groupKey 12) with count := 4 } 0 199999).queue 12).estimate := by
  decide +kernel

/-- The flow of 4.12 a member of a group in this record. -/
def memberOf (g : GroupRecord) : State :=
  (case66 g 4 100000).setFlow 8168 { newFlow key412 .data .e2 with group := some 9 }

theorem oneFlow_chained : oneFlow.membersChained := by
  refine ⟨fun g => ⟨[], by simp, fun i => ?_, rfl, rfl, rfl, fun k hk => absurd hk (by simp)⟩,
    fun i _ => ?_, fun i h => ?_, fun g _ => rfl⟩
  · rw [oneFlow_flow]; split_ifs <;> simp [newFlow, flowReset, freeFlow]
  · rw [oneFlow_flow]; split_ifs <;> exact ⟨rfl, rfl⟩
  · rw [oneFlow_flow] at h ⊢
    split_ifs at h ⊢ with hi
    · simp [newFlow] at h
    · rfl

/-- The flow of 4.12 in use, and a WATCH group of the aggregator without members, or full. -/
def joinable (count : Nat) : State :=
  oneFlow.setGroup 0 { newGroup (groupKey 12) with count := count, lingerStart := some 0 }

theorem joinable_chained : (joinable 0).membersChained := by
  refine chained_group oneFlow_chained 0 _ (fun _ => rfl) (fun h => State.setGroup_group (s := oneFlow) 0 h _) rfl rfl rfl ?_
  intro h; simp [newGroup] at h

/-- The flow of 4.12 in use, and an episode of the aggregator's group. -/
def joinableEpisode : State := oneFlow.setGroup 0 (episode .ramp 12 254)

theorem witness_MembersJoinAndLeave :
    (oneFlow.flow 8168).group = none
    ∧ joined.isMemberList 0 ([] ++ 8168 :: [])
    ∧ ((joinableEpisode.flow 8168).group = none ∧ (joinableEpisode.flow 8168).state ≠ .free
        ∧ findGroup joinableEpisode (groupKey 12) = some 0 ∧ (joinableEpisode.group 0).count < 255
        ∧ (joinableEpisode.group 0).state.isEpisode = true)
    ∧ ((memberOf { episode .active 12 1 with head := some 8168, tail := some 8168 }).flow 8168).group = some 9
    ∧ (let s := memberOf { episode .active 12 1 with head := some 8168, tail := some 8168 }
       (s.group 9).count = 1 ∧ (s.group 9).state.isEpisode = true ∧ (s.group 9).key = some (groupKey 12))
    ∧ (let s := memberOf { newGroup (groupKey 12) with count := 1, head := some 8168, tail := some 8168 }
       (s.group 9).count = 1 ∧ (s.group 9).state = .watch)
    ∧ 2 ≤ ((memberOf (episode .ramp 12 2)).group 9).count
    ∧ ((joinable 0).membersChained ∧ ((joinable 0).flow 8168).group = none
        ∧ ((joinable 0).flow 8168).state ≠ .free ∧ findGroup (joinable 0) (groupKey 12) = some 0
        ∧ ((joinable 0).group 0).count < 255 ∧ (joinable 0).isMemberList 0 [])
    ∧ (((joinable 255).flow 8168).group = none ∧ ((joinable 255).flow 8168).state ≠ .free
        ∧ findGroup (joinable 255) (groupKey 12) = some 0 ∧ 255 ≤ ((joinable 255).group 0).count) := by
  refine ⟨by decide +kernel, ?_, by decide +kernel, by decide +kernel, by decide +kernel, by decide +kernel,
    by decide +kernel, ⟨joinable_chained, by decide +kernel, by decide +kernel, by decide +kernel,
      by decide +kernel, ?_⟩, by decide +kernel⟩
  · obtain ⟨l, hl⟩ := joined_chained.1 0
    obtain ⟨hc, hf⟩ := joined_group
    have h1 : l.length = 1 := by rw [← hl.2.2.1, hc]
    have hm : (8168 : FlowId) ∈ l := (hl.2.1 8168).mpr hf
    obtain ⟨a, rfl⟩ := List.length_eq_one_iff.mp h1
    obtain rfl := List.mem_singleton.mp hm
    exact hl
  obtain ⟨l, hl⟩ := joinable_chained.1 0
  have h0 : ((joinable 0).group 0).count = 0 := by decide +kernel
  have : l = [] := List.eq_nil_of_length_eq_zero (by rw [← hl.2.2.1, h0])
  exact this ▸ hl

/-- Every group record in WATCH, with so many members in group 5 and one in every other. -/
def fullGroups (count : Nat) : State :=
  { inMode .observe with gc := { Groups.reset with groups := (List.finRange 128).map (fun g =>
      (g, { newGroup (groupKey ⟨g.val, by omega⟩) with count := if g = 5 then count else 1 })) } }

theorem fullGroups_group (count : Nat) (g : GroupId) : (fullGroups count).group g
    = { newGroup (groupKey ⟨g.val, by omega⟩) with count := if g = 5 then count else 1 } := by
  have h : ∀ (v : GroupId → GroupRecord) (l : List GroupId), g ∈ l →
      tableGet freeGroup (l.map (fun g => (g, v g))) g = v g := by
    intro v l
    induction l with
    | nil => intro h; cases h
    | cons a rest ih =>
      intro h
      by_cases e : a = g
      · simp [tableGet, e]
      · simpa [tableGet, e] using ih ((List.mem_cons.mp h).resolve_left (Ne.symm e))
  exact h _ _ (List.mem_finRange g)

/-- A join to a WATCH group that opens at its fan-in threshold of 4 exactly, one that does not; a key that no
group holds, with a record to take and with none. -/
theorem witness_MembersJoinAndLeave_join :
    let s := (case66 { newGroup (groupKey 12) with count := 3 } 0 200000).setFlow 8168
      (newFlow key412 .syn .e1)
    let s' := (fullGroups 1).setFlow 8168 (newFlow key412 .syn .e1)
    let meets (s : State) : Prop := (s.flow 8168).group = none ∧ (s.flow 8168).state ≠ .free
    (meets s ∧ findGroup s (groupKey 12) = some 9 ∧ (s.group 9).count < 255 ∧ (s.group 9).state = .watch
      ∧ (s.queueClass 12).fanIn ≠ 0 ∧ (s.queueClass 12).fanIn ≤ (s.group 9).count + 1
      ∧ (s.queueClass 12).onsetDepth ≤ (s.queue 12).estimate ∧ s.mode = .enforce)
    ∧ (((joinable 0).group 0).state = .watch ∧ (joinable 0).mode = .observe
      ∧ ((joinable 0).queueClass 12).fanIn = 0)
    ∧ (meets oneFlow ∧ findGroup oneFlow (groupKey 12) = none ∧ groupSlot oneFlow = some 0
      ∧ (oneFlow.classRecord (oneFlow.classNumber 12)).fanIn ≠ 1)
    ∧ (meets s' ∧ findGroup s' (groupKey 500) = none ∧ groupSlot s' = none) := by
  refine ⟨?_, ?_, ?_, ?_⟩ <;> decide +kernel

theorem witness_MembersJoinAndLeave_find :
    joined.groupsAccounted ∧ findGroup joined (groupKey 12) = some 0 :=
  ⟨joined_accounted, by decide +kernel⟩

/-- Set 300 of 4.14, way 1 in a state, way 2 last seen at a tick. -/
def set300 (w1 : FlowState) (w2 : Tick) : State :=
  let f (st : FlowState) (seen : Tick) : FlowRecord := { freeFlow seen with state := st }
  atTick 300000 (((((inMode .observe).setFlow 1200 (f .opened 250000)).setFlow 1201 (f w1 280000)).setFlow
    1202 (f .opened w2)).setFlow 1203 (f .handshake 295000))

theorem set300_ways : waysOf 300 = [1200, 1201, 1202, 1203] := by decide +kernel

theorem set2042_ways : waysOf 2042 = [8168, 8169, 8170, 8171] := by decide +kernel

theorem onFour {P : FlowId → Prop} {a b c d : FlowId} (ha : P a) (hb : P b) (hc : P c) (hd : P d) :
    ∀ j ∈ [a, b, c, d], P j := by
  intro j hj
  simp only [List.mem_cons, List.not_mem_nil, or_false] at hj
  rcases hj with rfl | rfl | rfl | rfl <;> assumption

theorem witness_AllocationOrder :
    (((inMode .observe).group 0).state = .free ∧ ∀ h : GroupId, h < 0 → ((inMode .observe).group h).state ≠ .free)
    ∧ ((∀ h, ((fullGroups 0).group h).state ≠ .free)
      ∧ ((fullGroups 0).group 5).state = .watch ∧ ((fullGroups 0).group 5).count = 0
      ∧ ∀ h, h < 5 → ¬ (((fullGroups 0).group h).state = .watch ∧ ((fullGroups 0).group h).count = 0))
    ∧ (∀ h, ¬ (((fullGroups 1).group h).state = .watch ∧ ((fullGroups 1).group h).count = 0))
    ∧ (waysOf 300).Pairwise (· < ·)
    ∧ (∀ i ∈ waysOf 300, ((set300 .closing 60000).flow i).state ≠ .free)
    ∧ (let s := set300 .closing 60000
       (1202 ∈ waysOf 300 ∧ s.ft.idleTime ≤ (s.time.tick - (s.flow 1202).lastSeen).toNat)
       ∧ (∀ j ∈ waysOf 300, ((s.flow j).state = .closing
            ∨ s.ft.idleTime ≤ (s.time.tick - (s.flow j).lastSeen).toNat) →
          (s.time.tick - (s.flow j).lastSeen).toNat ≤ (s.time.tick - (s.flow 1202).lastSeen).toNat
          ∧ (j < 1202 → (s.time.tick - (s.flow j).lastSeen).toNat
              < (s.time.tick - (s.flow 1202).lastSeen).toNat)))
    ∧ (let s := set300 .opened 150000
       ∀ i ∈ waysOf 300, ¬ ((s.flow i).state = .closing
         ∨ s.ft.idleTime ≤ (s.time.tick - (s.flow i).lastSeen).toNat))
    ∧ ((oneFlow.flow 8169).state = .free ∧ ∀ j ∈ waysOf 2042, j < 8169 → (oneFlow.flow j).state ≠ .free) := by
  refine ⟨⟨rfl, fun h hh => absurd hh (Fin.not_lt_zero h)⟩, ⟨?_, ?_, ?_, ?_⟩, ?_, ?_, ?_, ⟨?_, ?_⟩, ?_, ?_, ?_⟩
  · intro h; rw [fullGroups_group]; simp [newGroup]
  · rw [fullGroups_group]; rfl
  · rw [fullGroups_group]; rfl
  · intro h hh; rw [fullGroups_group]; simp [ne_of_lt hh]
  · intro h; rw [fullGroups_group]; simp
  · decide +kernel
  · rw [set300_ways]; exact onFour (by decide +kernel) (by decide +kernel) (by decide +kernel) (by decide +kernel)
  · decide +kernel
  · rw [set300_ways]; exact onFour (by decide +kernel) (by decide +kernel) (by decide +kernel) (by decide +kernel)
  · rw [set300_ways]; exact onFour (by decide +kernel) (by decide +kernel) (by decide +kernel) (by decide +kernel)
  · decide +kernel
  · rw [set2042_ways]; exact onFour (by decide +kernel) (by decide +kernel) (by decide +kernel) (by decide +kernel)

theorem witness_SegmentsMoveTheRecord :
    (oneFlow.flow 8168).state ≠ .free
    ∧ (∀ k, k = SubKind.fin → { dataTcp with kind := k }.kind = .fin)
    ∧ ((oneFlow.setFlow 8168 { newFlow key412 .syn .e1 with fin2 := true }).flow 8168).finOf Side.e1.other = true
    ∧ (oneFlow.flow 8168).finOf Side.e1.other = false
    ∧ (let r := { newFlow key412 .syn .e1 with offer := some (.scale 14) }
       r.initiator = some Side.e2.other ∧ r.offer = some (.scale 14))
    ∧ (let r := { newFlow key412 .syn .e1 with offer := some .noneOffered }
       r.initiator = some Side.e2.other ∧ r.offer = some .noneOffered)
    ∧ (newFlow key412 .data .e1).offer = none
    ∧ (let s := memberOf { episode .active 12 1 with head := some 8168, tail := some 8168 }
       (s.flow 8168).group = some 9 ∧ (s.flow 8168).responder ≠ some .e2
       ∧ (s.group 9).key = some (groupKey 12))
    ∧ (let s := joined
       (s.flow 8168).group = some 0 ∧ (s.flow 8168).responder = some .e2
       ∧ (s.group 0).key ≠ some (groupKey 13)) := by
  refine ⟨by decide +kernel, fun k h => h, ?_⟩
  decide +kernel

/-- Set 2042 held by other flows of recent tick. -/
def fullSet : State :=
  let r (n : Nat) : FlowRecord :=
    { newFlow { key412 with first := ⟨BitVec.ofNat 128 n, 0⟩ } .syn .e1 with state := .opened }
  ((((inMode .observe).setFlow 8168 (r 1)).setFlow 8169 (r 2)).setFlow 8170 (r 3)).setFlow 8171 (r 4)

/-- The miss, the hit and the eviction of `SegmentsMoveTheRecord`: its last part. -/
theorem witness_SegmentsMoveTheRecord_take :
    (inMode .transparent).mode = .transparent ∧ (inMode .observe).mode ≠ .transparent
    ∧ canonicalKey .v4 responder aggregator = some (key412, .e2)
    ∧ (oneFlow.flowsPlaced ∧ (oneFlow.flow 8168).state ≠ .free ∧ (oneFlow.flow 8168).key = some key412)
    ∧ (∀ i ∈ keyWays (inMode .observe) key412, ((inMode .observe).flow i).state ≠ .free →
        ((inMode .observe).flow i).key ≠ some key412)
    ∧ allocationWay (inMode .observe) (keyWays (inMode .observe) key412) = some 8168
    ∧ (∀ i ∈ keyWays fullSet key412, (fullSet.flow i).state ≠ .free → (fullSet.flow i).key ≠ some key412)
    ∧ allocationWay fullSet (keyWays fullSet key412) = none := by
  have h : ∀ s : State, s.ft.seed = 0 → keyWays s key412 = [8168, 8169, 8170, 8171] := by
    intro s hs
    show waysOf (setIndex s.ft.seed key412) = _
    rw [hs]; decide +kernel
  refine ⟨rfl, by decide, by decide, ⟨oneFlow_placed, by decide +kernel, by decide +kernel⟩,
    fun i _ hi => absurd rfl hi, ?_, ?_, ?_⟩
  · rw [h _ rfl]; decide +kernel
  · rw [h _ rfl]
    exact onFour (by decide +kernel) (by decide +kernel) (by decide +kernel) (by decide +kernel)
  · rw [h _ rfl]; decide +kernel

theorem witness_KeysHaveNoDirection :
    aggregator ≠ responder ∧ aggregator = aggregator ∧ (0xFFFFFFFF : Address).toNat < 4294967296 := by decide

theorem witness_MaskedWritesAndRequestsArrive :
    (loaded .observe).running = true ∧ (loaded .observe).inRange 0x7FFFFFF = true
    ∧ (loaded .observe).inRange 0x8000000 = false := by decide +kernel

/-- A start cell with a check error in its flag byte's word, another byte, and a cell whose flag is clear. -/
def badFlagByte : Cell := { cell27 with check := cell27.check.set 0 (cell27.check.getD 0 0 ^^^ 1) }
def badOther : Cell := { cell27 with check := cell27.check.set 31 1 }
def badNotStart : Cell :=
  let c := cellOf (dataOf [header27 0 [0, 78]])
  { c with check := c.check.set 31 1 }

theorem witness_WritesArrive :
    (loaded .observe).running = true ∧ (loaded .transparent).mode = .transparent
    ∧ (loaded .observe).inRange 0x8000000 = false
    ∧ ((loaded .observe).mode ≠ .transparent ∧ (loaded .observe).profile = some (profile27 0)
        ∧ (loaded .observe).inRange 0x7FFFFFF = true)
    ∧ cellClean cell27 = true
    ∧ (cellClean badNotStart = false ∧ byteClean badNotStart 0 = true ∧ cellBit badNotStart ⟨0, 7⟩ = false)
    ∧ (cellClean badFlagByte = false ∧ byteClean badFlagByte 0 = false)
    ∧ (cellClean badOther = false ∧ byteClean badOther 0 = true ∧ cellBit badOther ⟨0, 7⟩ = true) := by
  decide +kernel

theorem witness_ResponsesArrive :
    (loaded .enforce).running = true ∧ (loaded .enforce).entry 255 = .empty
    ∧ ((loaded .enforce).setEntry 255 .ineligible).entry 255 = .ineligible
    ∧ (((loaded .enforce).setEntry 255 .eligible).entry 255 = .eligible
      ∧ ((loaded .enforce).setEntry 255 .eligible).mode ≠ .transparent
      ∧ ((loaded .enforce).setEntry 255 .eligible).profile = some (profile27 0))
    ∧ ((loaded .transparent).setEntry 255 .eligible).mode = .transparent := by decide +kernel

/-- What a cell handed in a mode carries. -/
def handedIn (m : Mode) : Handed := ⟨profile27 0, m, .handed⟩

theorem witness_TransactionsLeaveAtTheirTime :
    (inMode .observe).running = true ∧ (inMode .observe).stream .mToS = []
    ∧ (∃ x, (carrying .sToM (.readRequest 0 0) none (inMode .observe)).stream .sToM = x :: []
        ∧ x.awaiting = none)
    ∧ ∃ x, (carrying .mToS (.readResponse 0 cell79 false) (some (handedIn .enforce)) (inMode .observe)).stream
        .mToS = x :: [] ∧ x.awaiting.isSome = true :=
  ⟨rfl, rfl, ⟨_, rfl, rfl⟩, _, rfl, rfl⟩

theorem witness_HandedWriteIsAccounted :
    let x : Transit := ⟨.fullWrite 0 cell27, 0, .short, some (handedIn .observe)⟩
    let s := carrying .sToM (.fullWrite 0 cell27) (some (handedIn .observe)) (inMode .observe)
    s.running = true ∧ s.link.toMemory = [] ++ x :: [] ∧ (∀ y ∈ ([] : List Transit), y.awaiting = none)
    ∧ x.awaiting = some (handedIn .observe) ∧ (handedIn .observe).progress = .handed
    ∧ x.transaction = .fullWrite 0 cell27 ∧ s.mode ≠ .transparent
    ∧ headerStage (handedIn .observe).profile cell27 = .accepted 314 78 := by
  refine ⟨rfl, rfl, fun y hy => absurd hy (List.not_mem_nil (a := y)), rfl, rfl, rfl, by decide, ?_⟩
  decide +kernel

/-- The record stage alone, of a write whose enqueue was on queue 314, with a TCP part and without. -/
theorem witness_HandedWriteIsAccounted_record :
    let h : Handed := ⟨profile27 0, .observe, .accounted (some (314, 0))⟩
    let x (c : Cell) : Transit := ⟨.fullWrite 0 c, 0, .short, some h⟩
    let s (c : Cell) : State := carrying .sToM (.fullWrite 0 c) (some h) (inMode .observe)
    (∀ c, (s c).running = true ∧ (s c).link.toMemory = [] ++ x c :: [])
    ∧ h.progress = .accounted (some (314, 0))
    ∧ (frameStage (profile27 0) 128 cell27).ip.isSome = true
    ∧ (frameStage (profile27 0) 128 cell27).tcp.isSome = true
    ∧ (frameStage (profile27 0) 128 cell27Options).tcp = none
    ∧ ((after (.handedCellParse .sToM .record) (s cell27)).flow 8168).state = .opened :=
  ⟨fun _ => ⟨rfl, rfl⟩, rfl, by decide +kernel, by decide +kernel, by decide +kernel, by decide +kernel⟩

/-- The header stage alone: an enqueue of 1,518 on queue 7 to an onset depth of 200,000 exactly opens group
9, resumes group 127 and raises the peak of group 0. -/
theorem witness_HandedWriteIsAccounted_crossing :
    let x : Transit := ⟨.fullWrite 0 cell79, 0, .short, some (handedIn .observe)⟩
    let s := carrying .sToM (.fullWrite 0 cell79) (some (handedIn .observe))
      (((((inMode .observe).setClassRecord 0 class66).setGroup 9
        { newGroup (groupKey 7) with count := 4 }).setGroup 127
        { episode .settle 7 1 with deadline := some 0 }).setGroup 0 (episode .active 7 1) |>.setQueue 7
        { queueReset with estimate := 198482, peak := 198482 })
    s.running = true ∧ s.link.toMemory = [] ++ x :: [] ∧ x.awaiting = some (handedIn .observe)
    ∧ (handedIn .observe).progress = .handed ∧ x.transaction = .fullWrite 0 cell79
    ∧ headerStage (handedIn .observe).profile cell79 = .accepted 7 1518 ∧ s.mode ≠ .transparent
    ∧ min ((s.queue 7).estimate + 1518) 4294967295 = 200000
    ∧ s.opensAt 7 200000 9 ∧ s.resumesAt 7 200000 127 ∧ (s.group 0).state.isEpisode = true
    ∧ s.counter Counter.onsets ≤ 4294967295
    ∧ (let u := after (.handedCellParse .sToM .accounting) s
       ((u.group 9).state, (u.group 127).state, (u.group 0).peak) = (.active, .active, some 200000)
       ∧ u.log.entries.map (fun e => (e.kind, e.group)) = [(.onset, 9), (.resume, 127)]) := by
  decide +kernel

theorem witness_HandedResponseIsAccounted :
    let x : Transit := ⟨.readResponse 0 cell79 false, 0, .short, some (handedIn .enforce)⟩
    let s := carrying .mToS (.readResponse 0 cell79 false) (some (handedIn .enforce)) (inMode .observe)
    s.running = true ∧ s.link.toSwitch = [] ++ x :: [] ∧ (∀ y ∈ ([] : List Transit), y.awaiting = none)
    ∧ x.awaiting = some (handedIn .enforce) ∧ (handedIn .enforce).progress = .handed
    ∧ x.transaction = .readResponse 0 cell79 false ∧ (handedIn .enforce).profile.legal
    ∧ cell79.wellFormed = true ∧ cellClean cell79 = true
    ∧ headerStage (handedIn .enforce).profile cell79 = .accepted 7 1518
    ∧ (frameStage (handedIn .enforce).profile (parseWindow x.latency) cell79).tcp.isSome = true := by
  refine ⟨rfl, rfl, fun y hy => absurd hy (List.not_mem_nil (a := y)), rfl, rfl, rfl, profile27_legal, ?_⟩
  decide +kernel

/-- The ACK of 7.9 between two equal endpoints. -/
def cellIneligible : Cell :=
  cellOf (dataOf [(44, [0x81, 0, 0, 0, 0x08, 0]),
    (50, [0x45, 0, 0, 40, 0, 0, 0, 0, 0x40, 6, 0, 0, 10, 1, 0, 20, 10, 1, 0, 20]),
    (70, [0x9C, 0x40, 0x9C, 0x40, 0, 0, 0, 0, 0, 0, 0, 0, 0x50, 0x10, 0, 0, 0, 0, 0, 0])])

/-- The header stage done, nothing departed. -/
def accountedCell : Handed := ⟨profile27 0, .enforce, .accounted none⟩

/-- The record stage alone: the ACK of 7.9 hits the flow of 4.12, misses in an empty table, and misses in
TRANSPARENT; a segment that holds no TCP part; and equal endpoints. -/
theorem witness_HandedResponseIsAccounted_record :
    let x (c : Cell) : Transit := ⟨.readResponse 0 c false, 0, .short, some accountedCell⟩
    let s (c : Cell) (s : State) : State :=
      carrying .mToS (.readResponse 0 c false) (some accountedCell) s
    let record (c : Cell) : FrameRecord := frameStage (profile27 0) 128 c
    (∀ c s', (s c s').link.toSwitch = [] ++ x c :: [])
    ∧ accountedCell.progress = .accounted none
    ∧ ((s cell79 oneFlow).running = true ∧ (s cell79 oneFlow).mode = .observe
      ∧ (s cell79 oneFlow).flowsPlaced ∧ ((s cell79 oneFlow).flow 8168).state ≠ .free
      ∧ ((s cell79 oneFlow).flow 8168).key = some key412)
    ∧ (record cell79).ip.isSome = true ∧ (record cell79).tcp.isSome = true
    ∧ canonicalKey .v4 aggregator responder = some (key412, .e1)
    ∧ (∀ i ∈ keyWays (inMode .enforce) key412, ((inMode .enforce).flow i).state ≠ .free →
        ((inMode .enforce).flow i).key ≠ some key412)
    ∧ (record cell27Options).tcp = none ∧ (inMode .transparent).mode = .transparent
    ∧ ((record cellIneligible).ip.map IpPart.source = (record cellIneligible).ip.map IpPart.destination
      ∧ (record cellIneligible).tcp.map TcpPart.sourcePort
        = (record cellIneligible).tcp.map TcpPart.destinationPort
      ∧ (record cellIneligible).tcp.isSome = true)
    ∧ headerStage (profile27 0) (cellOf (dataOf [header27 0xC0 [5, 0xDC]])) = .multicast
    ∧ headerStage (profile27 0) (cellOf (dataOf [header27 0xC0 [0, 0]])) = .badLength := by
  refine ⟨fun _ _ => rfl, rfl, ⟨rfl, rfl, oneFlow_placed, ?_, ?_⟩, by decide +kernel,
    by decide +kernel, by decide +kernel, fun i _ h => absurd rfl h, by decide +kernel, rfl,
    by decide +kernel, by decide +kernel, by decide +kernel⟩
  · show (oneFlow.flow 8168).state ≠ .free
    decide +kernel
  · show (oneFlow.flow 8168).key = some key412
    decide +kernel

/-- R74: the answer to the ACK of 7.9 by the flow of 4.12, as a member whose responder is E2. -/
theorem test_lookup_R74 :
    let s := (inMode .enforce).setFlow 8168
      { newFlow key412 .data .e2 with state := .opened, group := some 9, responder := some .e2
                                      scale1 := some 7 }
    let t := after (.handedCellParse .mToS .record)
      (carrying .mToS (.readResponse 0 cell79 false) (some accountedCell) s)
    t.link.toSwitch.map (fun x => x.awaiting.map Handed.progress)
      = [some (.answered none (some ⟨8168, .opened, .e1, some 9, some .e2, some 7⟩))]
    ∧ t.counter Counter.parseTcp = 1 := by decide +kernel

/-- The cell of 7.7, its lookup answered. -/
def answeredCell : Handed :=
  ⟨profile27 0, .enforce, .answered (some (7, 90000)) (some ⟨8168, .opened, .e1, some 9, some .e2, some 7⟩)⟩

theorem witness_DecisionsFollowTheirGates :
    let x : Transit := ⟨.readResponse 0 cell79 false, 0, .short, some answeredCell⟩
    let s := carrying .mToS (.readResponse 0 cell79 false) (some answeredCell)
      ((case66 (episode .active 12 22) 22 150000).setTotal 7 2)
    s.running = true ∧ s.link.toSwitch = [] ++ x :: [] ∧ (∀ y ∈ ([] : List Transit), y.awaiting = none)
    ∧ x.awaiting = some answeredCell ∧ x.transaction = .readResponse 0 cell79 false
    ∧ windowDecision s (frameStage (profile27 0) 128 cell79)
        (some ⟨8168, .opened, .e1, some 9, some .e2, some 7⟩) = .rewrite 23
    ∧ windowDecision s (frameStage (profile27 0) 128 cell79) none = .unaltered
    ∧ markDecision s (frameStage (profile27 0) 128 cell79) none = .unaltered := by
  refine ⟨rfl, rfl, fun y hy => absurd hy (List.not_mem_nil (a := y)), rfl, rfl, ?_, ?_, ?_⟩ <;>
    decide +kernel

/-- A departure of 1,518 that takes queue 7 from 51,518 to its release depth of 50,000 exactly. -/
theorem witness_HandedResponseIsAccounted_crossing :
    let s := ((((inMode .observe).setClassRecord 0 class66).setGroup 9 (episode .active 7 4)).setQueue 7
      { queueReset with estimate := 51518, peak := 51518 })
    s.mode ≠ .transparent ∧ s.settlesAt 7 ((s.queue 7).estimate - 1518) 9
    ∧ (inMode .transparent).mode = .transparent := by decide +kernel

theorem witness_CheckBytesAndChecksums :
    cell79.wellFormed = true ∧ cellClean cell79 = true ∧ 0 < 65536 ∧ 65535 < 65536
    ∧ (profile27 0).legal
    ∧ (let r := frameStage (profile27 0) (parseWindow .short) cell79
       let c := rewriteCell cell79 r (.rewrite 65535) .setCe
       (∃ tcp, r.tcp = some tcp) ∧ (∃ ip, r.ip = some ip ∧ ip.checksumAt = some 60)
       ∧ cellByte c 84 ≠ cellByte cell79 84
       ∧ ∀ k, k < 8 → cellByte c (8 * 31 + k) = cellByte cell79 (8 * 31 + k)) := by
  refine ⟨by decide +kernel, by decide +kernel, by decide, by decide, profile27_legal, ?_⟩
  have h : (frameStage (profile27 0) (parseWindow .short) cell79).tcp.isSome = true
      ∧ ((frameStage (profile27 0) (parseWindow .short) cell79).ip.bind IpPart.checksumAt) = some 60 := by
    decide +kernel
  obtain ⟨ip, h1, h2⟩ := Option.bind_eq_some_iff.mp h.2
  exact ⟨Option.isSome_iff_exists.mp h.1, ⟨ip, h1, h2⟩, by decide +kernel, by decide +kernel⟩

/-- The steps of the frame walk on the SYN-ACK of 2.7, and option bytes sound and unsound. -/
theorem witness_ParserReadsItsFieldsOnly_walk :
    cellBit cell27 ⟨0, 7⟩ = true ∧ (314 : QueueId).val = queueNumber (profile27 0) cell27
    ∧ 512 ≤ queueNumber (profile27 256) cell27
    ∧ (1 ≤ cellWord cell27 6 ∧ cellWord cell27 6 ≤ 16383)
    ∧ frameTypeAt cell27 32 0x0800 50
    ∧ ((cellByte cell27 50).toNat / 16 = 4 ∧ (cellByte cell27 50).toNat % 16 = 5)
    ∧ ¬ ((cellByte cell27 56).getLsbD 5 = true ∨ cellWord cell27 56 % 8192 ≠ 0 ∨ (cellByte cell27 59).toNat ≠ 6)
    ∧ (70 + 19 < 128 ∧ 5 ≤ (cellByte cell27 82).toNat / 16 ∧ 20 + 4 * ((cellByte cell27 82).toNat / 16) ≤ 60
      ∧ (cellByte cell27 83).getLsbD 1 = true ∧ 70 + 4 * ((cellByte cell27 82).toNat / 16) ≤ 128)
    ∧ frameTypeAt (cellOf (dataOf [(44, [0x86, 0xDD, 0x60])])) 32 0x86DD 46
    ∧ (OptionsSound [] ∧ ¬ OptionsSound [2]) := by
  refine ⟨by decide +kernel, by decide +kernel, by decide +kernel, by decide +kernel,
    Or.inr (Or.inl (by decide +kernel)), by decide +kernel, by decide +kernel, by decide +kernel,
    Or.inl (by decide +kernel), .nil, fun h => ?_⟩
  cases h

theorem witness_ParserReadsItsFieldsOnly :
    (profile27 0).legal ∧ cell27.wellFormed = true ∧ cell27Options.wellFormed = true
    ∧ ∀ k, k < 64 → cellByte cell27 k = cellByte { cell27 with data := cell27.data.take 64 } k := by
  refine ⟨profile27_legal, by decide +kernel, by decide +kernel, ?_⟩
  intro k hk
  have h : ∀ k : Fin 64, cellByte cell27 k = cellByte { cell27 with data := cell27.data.take 64 } k := by
    decide +kernel
  exact h ⟨k, hk⟩

/-- A group that lingers since tick 0. -/
def lingering (tick : Nat) : State :=
  falling (.linger 9)
    (atTick tick ((inMode .observe).setGroup 9 { newGroup (groupKey 12) with lingerStart := some 0 }))

/-- A state with a sweep pass in progress, begun at tick 0. -/
def sweeping (period next : Nat) : State :=
  { inMode .observe with ft := { FlowTable.reset with sweep := some ⟨0, period, next⟩ } }

theorem witness_TickAndLingerExpiry :
    (State.reset.running = true ∧ State.reset.tickSettled ∧ ¬ State.reset.walkMoves
      ∧ State.reset.time.refclkCount ≤ State.reset.time.prescaler)
    ∧ ((lingering 100000).running = true ∧ (lingering 100000).time.due = [.linger 9])
    ∧ ((atTick 2042 (sweeping 2048 8168)).time.due = []
      ∧ (atTick 2042 (sweeping 2048 8168)).visitFalls 8168)
    ∧ ((atTick 1024 (sweeping 1024 8192)).time.due = [] ∧ (atTick 1024 (sweeping 1024 8192)).sweepOnTime
      ∧ (atTick 1024 (sweeping 1024 8192)).passEnds)
    ∧ (let s := { sweeping 2048 8168 with
          time := { TimeBase.reset with refclkCount := 99 }, port := (walking 0).port }
       s.tickSettled ∧ s.walkMoves)
    ∧ (.linger 9 ∉ State.reset.time.due ∧ ¬ (lingering 99999).expires (lingering 99999).time.tick (.linger 9))
    ∧ ((waiting (.sense [0]) (lingering 100000)).pending.head? ≠ some .tick
      ∧ ∃ t, step (waiting (.sense [0]) (lingering 100000)) = .next t)
    ∧ .linger 9 ∈ (lingering 100000).time.due
    ∧ (lingering 100000).expires (lingering 100000).time.tick (.linger 9) := by
  refine ⟨⟨rfl, ⟨rfl, ?_, ?_⟩, ?_, by decide⟩, ⟨rfl, rfl⟩, ⟨rfl, ⟨_, rfl, rfl, by decide⟩⟩,
    ⟨rfl, ⟨by show 1024 ≤ 50000 ∧ 50000 ≤ 65535; decide, ?_⟩, ⟨_, rfl, by decide⟩⟩,
    ⟨⟨rfl, ?_, ?_⟩, ⟨0, rfl⟩, by decide⟩, ⟨by decide, ?_⟩, ⟨by decide, _, rfl⟩, by decide +kernel,
    ⟨by decide +kernel, by decide +kernel, 0, by decide +kernel, by decide +kernel⟩⟩
  · rintro i ⟨pass, ⟨⟩, -⟩
  · rintro ⟨pass, ⟨⟩, -⟩
  · rintro ⟨⟨i, h⟩, -⟩; cases h
  · rintro pass ⟨⟩; decide
  · rintro i ⟨pass, ⟨⟩, h, h'⟩
    have : (8168 : Nat) = i.val := h
    rw [← this] at h'; revert h'; decide
  · rintro ⟨pass, ⟨⟩, h⟩; revert h; decide
  · rintro ⟨-, -, start, h, h'⟩
    have hs : ((lingering 99999).group 9).lingerStart = some 0 := by decide +kernel
    obtain rfl : 0 = start := Option.some.inj (hs.symm.trans h)
    revert h'; decide +kernel

theorem witness_QuietExpiryReconciles :
    let s (n : Nat) := falling (.quiet 40) ((case37 ⟨2001, 13500, 0, 122⟩ n).setGroup 9 (episode .active 40 3))
    (s 622).running = true ∧ .quiet 40 ∈ (s 622).time.due ∧ .quiet 40 ∉ State.reset.time.due
    ∧ ((s 622).depths.quietTime ≠ 0 ∧ (s 622).mode ≠ .transparent ∧ ((s 622).queue 40).estimate ≠ 0
      ∧ (s 622).depths.quietTime ≤ ((s 622).time.tick - ((s 622).queue 40).lastActivity).toNat)
    ∧ (((s 622).group 9).state = .active
      ∧ ((s 622).classRecord ((s 622).classNumber 40)).releaseDepth < ((s 622).queue 40).estimate)
    ∧ ¬ (s 621).depths.quietTime ≤ ((s 621).time.tick - ((s 621).queue 40).lastActivity).toNat
    ∧ (s 622).settlesAt 40 0 9
    ∧ (after (.quietExpiry 40) (s 622)).log.entries
      = [⟨.settle, .none, 622, 9, groupKey 40, 3, 0, 0, 0⟩] := by
  decide +kernel

theorem witness_SweepVisitsEachRecord :
    let s := sweeping 2048 8168
    s.running = true
    ∧ (s.ft.sweep = some ⟨0, 2048, 8168⟩ ∧ (8168 : Nat) = (8168 : FlowId).val
      ∧ ((atTick 2042 s).time.tick - 0).toNat = (8168 : FlowId).val * 2048 / 8192)
    ∧ ((atTick 2041 s).time.tick - 0).toNat ≠ (8168 : FlowId).val * 2048 / 8192
    ∧ ((atTick 2048 s).time.tick - 0).toNat = 2048 ∧ ((atTick 2047 s).time.tick - 0).toNat ≠ 2048 := by
  decide +kernel

/-- A visit to a silent record of a lingering handshake, to an idle member, and to a record without a group in a
drain that goes on. -/
theorem witness_SweepVisitsEachRecord_leaves :
    let base (r : FlowRecord) : State := (memberOf (episode .ramp 12 1)).setFlow 8168 r
    let s (r : FlowRecord) (m : Mode) : State := atTick 1002042
      { base r with mode := m, ft := { (base r).ft with sweep := some ⟨1000000, 2048, 8168⟩ } }
    let silent := s { newFlow key412 .data .e2 with group := some 9 } .observe
    let idle := s { newFlow key412 .data .e2 with state := .opened, group := some 9 } .observe
    let fresh := s { newFlow key412 .data .e2 with lastSeen := 1002041 } .draining
    (silent.time.tick - 1000000).toNat = (8168 : FlowId).val * 2048 / 8192
    ∧ (silent.ft.handshakeTime ≤ (silent.time.tick - (silent.flow 8168).lastSeen).toNat
      ∧ (silent.flow 8168).state = .handshake)
    ∧ (idle.ft.idleTime ≤ (idle.time.tick - (idle.flow 8168).lastSeen).toNat
      ∧ (idle.flow 8168).state = .opened ∧ ((after (.sweepVisit 8168) idle).group 9).count = 0)
    ∧ ((fresh.flow 8168).group = none ∧ fresh.mode = .draining ∧ fresh.anyEpisode = true) := by
  refine ⟨?_, ?_, ?_, ?_⟩ <;> decide +kernel

theorem witness_RampsEnterAndStep :
    let settled := { episode .settle 12 22 with deadline := some 0 }
    let s := falling (.hold 9) (ramping .enforce settled)
    let empty (e : EndMode) (n : Nat) := falling (.hold 9) ((ramping .enforce settled).setClassRecord 0
      { class66 with ramp := 0, endMode := e, fanIn := n })
    let s' (n : Nat) := falling (.entry 9) (atTick n
      (ramping .enforce { episode .ramp 12 22 with rampEntry := some 1, rampStart := some 0 }))
    (s.running = true ∧ (s.group 9).key = some (groupKey 12) ∧ .hold 9 ∈ s.time.due
      ∧ (s.group 9).state = .settle ∧ (s.group 9).deadline = some s.time.tick
      ∧ s.ramp (s.classRecord (s.classNumber 12)).ramp = ⟨500, 128⟩ :: sequence85.tail)
    ∧ (((empty .holds 4).ramp 0 = [] ∧ (empty .holds 4).mode ≠ .draining
        ∧ ((empty .holds 4).classRecord 0).endMode = .holds ∧ ((empty .holds 4).group 9).state = .settle)
      ∧ ((empty .ends 23).ramp 0 = [] ∧ ((empty .ends 23).classRecord 0).endMode = .ends
        ∧ ((empty .ends 23).group 9).count < ((empty .ends 23).classRecord ((empty .ends 23).classNumber 12)).fanIn))
    ∧ ((s' 999).running = true ∧ ((s' 999).group 9).state = .ramp ∧ ((s' 999).group 9).rampEntry = some 1
      ∧ ((s' 999).group 9).rampStart = some 0 ∧ .entry 9 ∈ (s' 999).time.due
      ∧ ((s' 999).ramp ((s' 999).classRecord ((s' 999).classNumber 12)).ramp)[1]? = some ⟨1000, 512⟩
      ∧ ((s' 999).time.tick - 0).toNat < 1000 ∧ 1000 ≤ ((s' 1000).time.tick - 0).toNat
      ∧ 1 + 1 < ((s' 1000).ramp ((s' 1000).classRecord ((s' 1000).classNumber 12)).ramp).length)
    ∧ .hold 9 ∉ (s' 0).time.due := by decide +kernel

theorem witness_SequencesEnd :
    let c (e : EndMode) (n : Nat) := { class66 with endMode := e, fanIn := n }
    let s (m : Mode) (e : EndMode) (start : Option Tick) (n : Nat) := falling (.entry 9) (atTick 2000 ((ramping m
      { episode .ramp 12 22 with rampEntry := some 2, rampStart := start }).setClassRecord 0 (c e n)))
    let d := (s .draining .holds (some 0) 0).setGroup 127 (episode .ramp 13 1)
    let o := (s .enforce .ends (some 0) 22).setQueue 12 { queueReset with estimate := 200000, peak := 200000 }
    (((s .enforce .holds (some 0) 0).running = true
        ∧ ((s .enforce .holds (some 0) 0).group 9).key = some (groupKey 12)
        ∧ ((s .enforce .holds (some 0) 0).group 9).state = .ramp
        ∧ .entry 9 ∈ (s .enforce .holds (some 0) 0).time.due
        ∧ ((s .enforce .holds (some 0) 0).group 9).rampStart = some 0
        ∧ 2 + 1 = ((s .enforce .holds (some 0) 0).ramp 2).length
        ∧ (((s .enforce .holds (some 0) 0).ramp 2).getLast?.map RampEntry.duration) = some 2000
        ∧ 2000 ≤ ((s .enforce .holds (some 0) 0).time.tick - 0).toNat)
      ∧ (s .enforce .ends (some 0) 0).mode ≠ .draining
      ∧ ((s .enforce .ends (some 0) 23).group 9).count < ((s .enforce .ends (some 0) 23).classRecord 0).fanIn
      ∧ (.holdEnd 9 ∈ (falling (.holdEnd 9) (s .enforce .ends none 0)).time.due
        ∧ ((s .enforce .ends none 0).group 9).rampStart = none
        ∧ ((s .enforce .ends none 0).classRecord 0).endMode = .ends
        ∧ .holdEnd 9 ∉ (s .enforce .ends none 0).time.due))
    ∧ (o.mode = .enforce ∧ (o.classRecord (o.classNumber 12)).fanIn = (o.group 9).count
      ∧ (o.classRecord (o.classNumber 12)).onsetDepth = (o.queue 12).estimate
      ∧ (o.group 9).count ≤ o.total 12
      ∧ (after (.entryExpiry 9) o).log.entries.map LogEntry.kind = [.ended, .onset])
    ∧ (d.mode = .draining ∧ (127 : GroupId) ≠ 9 ∧ (d.group 127).state.isEpisode = true
      ∧ (d.group 9).state = .ramp) := by decide +kernel

/-- The end of the last episode of a drain: at a depth of 200,000 and 22 members for a threshold of 22 the group
opens again, and so does a WATCH group of the queue. -/
theorem witness_SequencesEnd_drain :
    let s := falling (.entry 9) (atTick 2000 ((((ramping .draining
      { episode .ramp 12 22 with rampEntry := some 2, rampStart := some 0 }).setClassRecord 0
      { class66 with fanIn := 22 }).setGroup 127 { newGroup { groupKey 12 with address := 1 } with count := 22 }).setQueue
      12 { queueReset with estimate := 200000, peak := 200000 }))
    (s.mode = .draining ∧ .entry 9 ∈ s.time.due ∧ (s.group 9).state = .ramp
      ∧ (∀ h, h ≠ 9 → (s.group h).state.isEpisode = false))
    ∧ (s.reopens (· = 9) 9 ∧ s.reopens (· = 9) 127 ∧ ¬ s.reopens (· = 9) 0
      ∧ (s.group 9).key = some (groupKey 12) ∧ s.counter Counter.onsets ≤ 4294967295)
    ∧ (after (.entryExpiry 9) s).log.entries.map (fun e => (e.kind, e.group))
      = [(.ended, 9), (.onset, 9), (.onset, 127)] := by
  refine ⟨?_, ?_, ?_⟩ <;> decide +kernel

theorem witness_DrainEndReturnsToObserve :
    let s := { case66 { newGroup (groupKey 12) with count := 4 } 0 200000 with mode := .draining }
    s.reopens (fun _ => False) 9 ∧ s.counter Counter.onsets ≤ 4294967295 ∧
    s.running = true ∧ s.mode = .draining ∧ s.anyEpisode = false ∧ (s.group 9).key = some (groupKey 12)
    ∧ (s.group 0).key = none ∧ (inMode .observe).mode ≠ .draining
    ∧ (ramping .draining (episode .ramp 12 22)).anyEpisode = true := by decide +kernel

theorem witness_ShareFollowsItsStages :
    let s := ramping .enforce { episode .ramp 12 22 with rampEntry := some 2, rampStart := some 0 }
    let e := ramping .enforce { episode .ramp 12 22 with rampEntry := some 3, rampStart := some 0 }
    ((s.group 9).key = some (groupKey 12) ∧ (s.group 9).state = .ramp ∧ (s.group 9).rampEntry = some 2
      ∧ (s.group 9).rampStart = some 0 ∧ (s.ramp (s.classRecord (s.classNumber 12)).ramp)[2]? = some ⟨2000, 1024⟩
      ∧ 1 ≤ s.total 12 ∧ (s.classRecord (s.classNumber 12)).windowFloor
          ≤ (s.classRecord (s.classNumber 12)).windowCeiling)
    ∧ ((e.group 9).rampEntry = some 3 ∧ (e.ramp (e.classRecord (e.classNumber 12)).ramp).length ≤ 3)
    ∧ ((case66 (newGroup (groupKey 12)) 0 0).group 9).state.isEpisode = false
    ∧ ((case66 (episode .active 12 1) 1 0).group 9).state = .active
    ∧ (let z := case66 (episode .ramp 12 1) 1 0
       z.ramp (z.classRecord (z.classNumber 12)).ramp = []) := by decide +kernel

end Sys2Proof.Tests
end

namespace Sys2Proof.Machine

/-! ### The link under its own operations: streams, entries, pins -/

section
variable {s t : State}

/-- An arrival is the state with one more transaction at the tail of its stream (R2, R6). -/
theorem arrive_eq_withArrival (d : Direction) (time : Nat) (x : LinkTransaction)
    (awaiting : Option Handed) (s : State) :
    arrive d time x awaiting s = s.withArrival d
      { transaction := x, arrivedAt := time, latency := s.link.latency, awaiting := awaiting } := by
  cases d <;> rfl

/-- A write of one stream leaves the other. -/
theorem setStream_stream_ne {d d' : Direction} (h : d' ≠ d) (ts : List Transit) (s : State) :
    (s.setStream d ts).stream d' = s.stream d' := by
  match d, d' with
  | .sToM, .sToM | .mToS, .mToS => exact absurd rfl h
  | .sToM, .mToS | .mToS, .sToM => rfl

/-- What one operation on the streams leaves alone, but for stream `d` and the entries of the outstanding
read table: RST_N, the profile, the latency setting and its lock, and the other stream. An entry is ELIGIBLE
after it only if it was before, or a profile is loaded (R5, R8, R19). -/
structure StreamMove (d : Direction) (s t : State) : Prop where
  running : t.running = s.running
  profile : t.profile = s.profile
  latency : t.link.latency = s.link.latency
  locked : t.link.locked = s.link.locked
  other : ∀ d', d' ≠ d → t.stream d' = s.stream d'
  entries : ∀ tag, t.entry tag = .eligible → s.entry tag = .eligible ∨ s.profile.isSome = true

theorem StreamMove.trans {d : Direction} {s t u : State} (h : StreamMove d s t) (h' : StreamMove d t u) :
    StreamMove d s u where
  running := h'.running.trans h.running
  profile := h'.profile.trans h.profile
  latency := h'.latency.trans h.latency
  locked := h'.locked.trans h.locked
  other d' hd := (h'.other d' hd).trans (h.other d' hd)
  entries tag e := (h'.entries tag e).elim (h.entries tag) (fun p => .inr (h.profile ▸ p))

/-- A change outside the link and the profile moves no stream. -/
theorem StreamMove.of_link (d : Direction) (hr : t.running = s.running) (hl : t.link = s.link)
    (hp : t.profile = s.profile) : StreamMove d s t where
  running := hr
  profile := hp
  latency := by rw [hl]
  locked := by rw [hl]
  other d' _ := by cases d' <;> simp only [State.stream, hl]
  entries tag e := .inl (by simpa only [State.entry, hl] using e)

theorem streamMove_setStream (d : Direction) (ts : List Transit) (s : State) :
    StreamMove d s (s.setStream d ts) where
  running := by simp
  profile := by simp
  latency := by simp
  locked := by simp
  other d' h := setStream_stream_ne h ts s
  entries tag e := .inl (by simpa using e)

theorem streamMove_setPins (d : Direction) (p : Departed) (s : State) :
    StreamMove d s (s.setPins d p) where
  running := by simp
  profile := by simp
  latency := by simp
  locked := by simp
  other d' h := by simp
  entries tag e := .inl (by simpa using e)

end

/-! ### What a request leaves: a law of every answer is a law of the request -/

/-- The states that an answer leads to meet `P`. -/
def Answer.Leaves (P : State → Prop) : Answer → Prop
  | .good _ t | .started _ t => P t
  | .busy | .check _ _ => True

section
variable {P : State → Prop} {s : State}

theorem withParams_leaves {n : Nat} {body : List Byte} {k : List Byte → Answer}
    (h : ∀ ps, (k ps).Leaves P) : (withParams n body k).Leaves P := by
  unfold withParams
  split
  · trivial
  · exact h _

theorem unlessReserved_leaves {layout : List (Nat × Byte)} {ps : List Byte} {k : Answer}
    (h : k.Leaves P) : (unlessReserved layout ps k).Leaves P := by
  unfold unlessReserved
  split
  · trivial
  · exact h

theorem unlessBroken_leaves {limits : List (Nat × Bool)} {k : Answer}
    (h : brokenAt limits = none → k.Leaves P) : (unlessBroken limits k).Leaves P := by
  unfold unlessBroken
  split
  · trivial
  · exact h ‹_›

/-- A law that no result or sense record or pending command touches holds after a request when it holds
before it and of every state that the answer leads to. -/
theorem takeRequest_leaves {code : Byte} {answer : State → Answer} (hs : P s)
    (ha : (answer s).Leaves P) (hport : ∀ t p, P t → P { t with port := p }) :
    P (takeRequest code answer s) := by
  unfold takeRequest whenRunning
  split_ifs
  · dsimp only
    split
    · exact hport _ _ hs
    · cases h : answer s with
      | good bytes t => rw [h] at ha; exact hport _ _ ha
      | started command t => rw [h] at ha; exact hport _ _ (hport t _ ha)
      | busy => exact hport _ _ hs
      | check code offset => exact hport _ _ (hport s _ hs)
  · exact hs

end

/-! ### The commands that leave the link and the profile alone -/

/-- RST_N stays released, and the link and the profile are as they were. -/
def LineKept (s t : State) : Prop :=
  (s.running = true → t.running = true) ∧ t.link = s.link ∧ t.profile = s.profile

section
variable {s : State}

theorem lineKept_refl (s : State) : LineKept s s := ⟨id, rfl, rfl⟩

theorem lineKept_writes (s : State) : DataWritesKeep (LineKept s) where
  setQueue _ _ h := h
  setFlow _ _ h := h
  setGroup _ _ h := h
  setTotal _ _ h := h
  bump _ h := h
  append _ h _ := h
  flagLogOverflow h := h
  flagOnset h := h
  flagFlowFull h := h
  flagGroupFull h := h
  observe h _ := h

theorem sweepVisit_lineKept (i : FlowId) {t : State} (h : LineKept s t) : LineKept s (sweepVisit i t) := by
  have K := lineKept_writes s
  unfold sweepVisit
  split_ifs
  · refine drainEnd_keeps K (show LineKept s (visitRecord i t) from ?_)
    unfold visitRecord
    split
    · exact h
    · split_ifs
      · exact freeRecord_keeps K h i
      · exact h
    · split_ifs
      · exact leave_keeps K h i
      · exact h
    · split_ifs
      · exact leave_keeps K h i
      · exact h
  · exact h

theorem sweepPassEnd_lineKept {t : State} (h : LineKept s t) : LineKept s (sweepPassEnd t) := by
  unfold sweepPassEnd
  split_ifs <;> exact h

theorem walkStep_lineKept {t : State} (h : LineKept s t) : LineKept s (walkStep t) := by
  unfold walkStep
  split
  · split_ifs
    · have hf := freeRecord_keeps (lineKept_writes s) (show LineKept s (refclkPeriod t) from h)
      unfold walkPast
      split_ifs <;> exact hf _
    · exact h
  · exact h

theorem takeTimed_lineKept (e : TimedEvent) {t : State} (h : LineKept s t) :
    LineKept s (takeTimed e t) :=
  takeTimed_keeps (P := LineKept s) (fun e _ h => timedEffect_keeps (lineKept_writes s) h e)
    (fun _ _ h => h) e h

theorem tickOnce_lineKept {t : State} (h : LineKept s t) : LineKept s (tickOnce t) :=
  tickOnce_keeps (fun e _ h => takeTimed_lineKept e h) (fun i _ h => sweepVisit_lineKept i h)
    (fun _ h => sweepPassEnd_lineKept h) (fun _ h => walkStep_lineKept h) (fun _ h => h) h

theorem finishClears_lineKept {t : State} (h : LineKept s t) : LineKept s (finishClears t) := by
  unfold finishClears
  split <;> exact h

theorem queueTableClear_lineKept (s : State) : LineKept s (queueTableClear s) := by
  unfold queueTableClear
  split
  · exact finishClears_lineKept (lineKept_refl s)
  · exact lineKept_refl s

theorem flowGroupClear_lineKept (s : State) : LineKept s (flowGroupClear s) := by
  unfold flowGroupClear
  split
  · exact finishClears_lineKept (lineKept_refl s)
  · exact lineKept_refl s

theorem drain_lineKept (s : State) : LineKept s (drain s) :=
  have K := lineKept_writes s
  drainEnd_keeps K (forGroups_keeps _ _ (fun g _ h => drainOn_keeps K h g) (lineKept_refl s))

theorem releaseAll_lineKept (s : State) : LineKept s (releaseAll s) := by
  have h : LineKept s (forGroups s releaseOn) :=
    forGroups_keeps _ _ (fun g _ h => releaseOn_keeps (lineKept_writes s) h g) (lineKept_refl s)
  unfold releaseAll
  generalize forGroups s releaseOn = t at h ⊢
  exact h

/-- A request whose answer leaves the link and the profile alone does so itself. -/
theorem takeRequest_lineKept {code : Byte} {answer : State → Answer}
    (h : (answer s).Leaves (LineKept s)) : LineKept s (takeRequest code answer s) :=
  takeRequest_leaves (lineKept_refl s) h (fun _ _ h => h)

theorem whenRunning_lineKept {f : State → State} (h : LineKept s (f s)) :
    LineKept s (whenRunning s f) := by
  unfold whenRunning
  split_ifs
  · exact h
  · exact lineKept_refl s

/-- The commands of the link itself, the two settings that it reads, and the assertion of RST_N: all other
commands leave the link and the profile alone. -/
def movesLink : Instr → Bool
  | .fullCellWrite _ _ _ _ | .maskedWrite _ _ _ _ | .readRequest _ _ _ | .readResponse _ _ _ _ _
  | .handedCellParse _ _ | .transactionLeaves _ | .hardwareReset | .setLatency _ | .loadProfile _ => true
  | _ => false

theorem releaseAnswer_lineKept (abrupt : Bool) (body : List Byte) :
    (releaseAnswer abrupt body s).Leaves (LineKept s) := by
  refine withParams_leaves fun ps => unlessReserved_leaves ?_
  split
  · trivial
  · trivial
  · trivial
  · exact drain_lineKept s
  · exact releaseAll_lineKept s
  · exact releaseAll_lineKept s

theorem startObserveAnswer_lineKept (body : List Byte) :
    (startObserveAnswer body s).Leaves (LineKept s) := by
  refine withParams_leaves fun ps => ?_
  split
  · trivial
  · trivial
  · trivial
  · split_ifs
    · exact lineKept_refl s
    · trivial

theorem enforceAnswer_lineKept (body : List Byte) : (enforceAnswer body s).Leaves (LineKept s) := by
  refine withParams_leaves fun ps => ?_
  split
  · trivial
  · trivial
  · exact lineKept_refl s
  · exact lineKept_refl s

theorem clearFlowsAnswer_lineKept (body : List Byte) :
    (clearFlowsAnswer body s).Leaves (LineKept s) := by
  refine withParams_leaves fun ps => ?_
  split
  · trivial
  · trivial
  · trivial
  · exact lineKept_refl s

theorem setClassAnswer_lineKept (body : List Byte) : (setClassAnswer body s).Leaves (LineKept s) := by
  unfold setClassAnswer
  split_ifs
  · trivial
  · refine withParams_leaves fun ps => unlessReserved_leaves ?_
    split_ifs
    · exact unlessBroken_leaves fun _ => lineKept_refl s
    · trivial

theorem setQueueClassAnswer_lineKept (body : List Byte) :
    (setQueueClassAnswer body s).Leaves (LineKept s) := by
  unfold setQueueClassAnswer
  split_ifs
  · trivial
  · refine withParams_leaves fun ps => unlessReserved_leaves ?_
    split_ifs
    · exact lineKept_refl s
    · trivial
    · trivial

theorem setRampAnswer_lineKept (body : List Byte) : (setRampAnswer body s).Leaves (LineKept s) := by
  unfold setRampAnswer rampAnswer
  split
  · trivial
  · dsimp only
    split_ifs
    · trivial
    · trivial
    · trivial
    · trivial
    · exact unlessReserved_leaves (unlessBroken_leaves fun _ => lineKept_refl s)
    · trivial

theorem setTickAnswer_lineKept (body : List Byte) : (setTickAnswer body s).Leaves (LineKept s) := by
  refine withParams_leaves fun ps => ?_
  split_ifs
  · trivial
  · trivial
  · exact lineKept_refl s

theorem setTimersAnswer_lineKept (body : List Byte) : (setTimersAnswer body s).Leaves (LineKept s) := by
  unfold setTimersAnswer
  split_ifs
  · trivial
  · refine withParams_leaves fun ps => unlessReserved_leaves (unlessBroken_leaves fun _ => ?_)
    split_ifs
    · trivial
    · exact lineKept_refl s

theorem setAlertAnswer_lineKept (body : List Byte) : (setAlertAnswer body s).Leaves (LineKept s) := by
  refine withParams_leaves fun ps => unlessReserved_leaves ?_
  split_ifs
  · trivial
  · exact lineKept_refl s

theorem readQueueAnswer_lineKept (body : List Byte) : (readQueueAnswer body s).Leaves (LineKept s) := by
  refine withParams_leaves fun ps => unlessReserved_leaves ?_
  split_ifs
  · exact lineKept_refl s
  · exact lineKept_refl s
  · trivial

theorem readGroupAnswer_lineKept (body : List Byte) : (readGroupAnswer body s).Leaves (LineKept s) := by
  refine withParams_leaves fun ps => ?_
  dsimp only
  split_ifs
  · exact lineKept_refl s
  · exact lineKept_refl s
  · trivial

theorem readFlowAnswer_lineKept (body : List Byte) : (readFlowAnswer body s).Leaves (LineKept s) := by
  refine withParams_leaves fun ps => ?_
  split_ifs
  · exact lineKept_refl s
  · trivial

theorem findFlowAnswer_lineKept (body : List Byte) : (findFlowAnswer body s).Leaves (LineKept s) := by
  unfold findFlowAnswer
  split
  · trivial
  · split_ifs
    · trivial
    · refine unlessReserved_leaves ?_
      split
      · trivial
      · split_ifs
        · trivial
        · exact lineKept_refl s

theorem logPeekAnswer_lineKept (body : List Byte) : (logPeekAnswer body s).Leaves (LineKept s) := by
  refine withParams_leaves fun ps => ?_
  split
  · trivial
  · exact lineKept_refl s

theorem logPopAnswer_lineKept (body : List Byte) : (logPopAnswer body s).Leaves (LineKept s) := by
  refine withParams_leaves fun ps => ?_
  split
  · trivial
  · exact lineKept_refl s

theorem countersReadAnswer_lineKept (body : List Byte) :
    (countersReadAnswer body s).Leaves (LineKept s) := by
  refine withParams_leaves fun ps => unlessReserved_leaves ?_
  split_ifs
  · trivial
  · trivial
  · exact lineKept_refl s
  · exact lineKept_refl s

/-- Every command but those of `movesLink` leaves the link, the profile, and a released RST_N. -/
theorem exec_lineKept {t : State} {c : Instr} (hc : movesLink c = false) (h : exec c s = .next t) :
    LineKept s t := by
  cases c with
  | fullCellWrite | maskedWrite | readRequest | readResponse | handedCellParse | transactionLeaves
  | hardwareReset | setLatency | loadProfile => cases hc
  | resetRelease =>
    cases h
    unfold releaseReset
    split_ifs
    · exact lineKept_refl s
    · exact ⟨fun _ => rfl, rfl, rfl⟩
  | tick => cases h; exact whenRunning_lineKept (tickOnce_lineKept (lineKept_refl s))
  | quietExpiry | lingerExpiry | holdExpiry | entryExpiry | holdEnd =>
    cases h; exact whenRunning_lineKept (takeTimed_lineKept _ (lineKept_refl s))
  | sweepVisit => cases h; exact whenRunning_lineKept (sweepVisit_lineKept _ (lineKept_refl s))
  | sweepPassEnd => cases h; exact whenRunning_lineKept (sweepPassEnd_lineKept (lineKept_refl s))
  | drainEndReport =>
    cases h; exact whenRunning_lineKept (drainEnd_keeps (lineKept_writes s) (lineKept_refl s))
  | queueTableClear => cases h; exact whenRunning_lineKept (queueTableClear_lineKept s)
  | flowGroupClear => cases h; exact whenRunning_lineKept (flowGroupClear_lineKept s)
  | clearFlowsWalkStep => cases h; exact whenRunning_lineKept (walkStep_lineKept (lineKept_refl s))
  | identify body | sense body | softReset body | stop body =>
    cases h; exact takeRequest_lineKept (withParams_leaves fun _ => lineKept_refl s)
  | clearAlert body =>
    cases h
    exact takeRequest_lineKept (withParams_leaves fun _ => unlessReserved_leaves (lineKept_refl s))
  | setClass body => cases h; exact takeRequest_lineKept (setClassAnswer_lineKept body)
  | setQueueClass body => cases h; exact takeRequest_lineKept (setQueueClassAnswer_lineKept body)
  | setRamp body => cases h; exact takeRequest_lineKept (setRampAnswer_lineKept body)
  | setTick body => cases h; exact takeRequest_lineKept (setTickAnswer_lineKept body)
  | setTimers body => cases h; exact takeRequest_lineKept (setTimersAnswer_lineKept body)
  | setAlert body => cases h; exact takeRequest_lineKept (setAlertAnswer_lineKept body)
  | startObserve body => cases h; exact takeRequest_lineKept (startObserveAnswer_lineKept body)
  | enforce body => cases h; exact takeRequest_lineKept (enforceAnswer_lineKept body)
  | releaseGraceful body => cases h; exact takeRequest_lineKept (releaseAnswer_lineKept false body)
  | releaseAbrupt body => cases h; exact takeRequest_lineKept (releaseAnswer_lineKept true body)
  | readQueue body => cases h; exact takeRequest_lineKept (readQueueAnswer_lineKept body)
  | readGroup body => cases h; exact takeRequest_lineKept (readGroupAnswer_lineKept body)
  | readFlow body => cases h; exact takeRequest_lineKept (readFlowAnswer_lineKept body)
  | findFlow body => cases h; exact takeRequest_lineKept (findFlowAnswer_lineKept body)
  | clearFlows body => cases h; exact takeRequest_lineKept (clearFlowsAnswer_lineKept body)
  | logPeek body => cases h; exact takeRequest_lineKept (logPeekAnswer_lineKept body)
  | logPop body => cases h; exact takeRequest_lineKept (logPopAnswer_lineKept body)
  | countersRead body => cases h; exact takeRequest_lineKept (countersReadAnswer_lineKept body)
  | invalidCommand code body => cases h; exact takeRequest_lineKept trivial

end
end Sys2Proof.Machine

namespace Sys2Proof.Machine

/-! ### What a parse makes of the transactions of a stream -/

section
variable {s : State}

theorem sameBut_trans {a b c : LinkTransaction} (h : a.sameBut b) (h' : b.sameBut c) : a.sameBut c := by
  cases a <;> cases b <;> simp [LinkTransaction.sameBut] at h <;> cases c <;>
    simp_all [LinkTransaction.sameBut]

theorem sameBut_isResponse {a b : LinkTransaction} (h : a.sameBut b) : b.isResponse = a.isResponse := by
  cases a <;> cases b <;> simp_all [LinkTransaction.sameBut, LinkTransaction.isResponse]

theorem sameBut_isParsed {a b : LinkTransaction} (h : a.sameBut b) : b.isParsed = a.isParsed := by
  cases a <;> cases b <;> simp_all [LinkTransaction.sameBut, LinkTransaction.isParsed]

/-- A law of transactions inside the part that every stage of a parse keeps, a parse keeps. -/
theorem parseTransit_law {Q : Transit → Prop} (hQ : ∀ x s, Q x → Q (nextStage x s).1) (k : ParseStage)
    (x : Transit) (s : State) (h : Q x) : Q (parseTransit k x s).1 := by
  have up : ∀ r : Transit × State, Q r.1 → Q (stageUpTo k r).1 := by
    intro r hr
    unfold stageUpTo
    split_ifs
    · exact hQ _ _ hr
    · exact hr
  exact up _ (up _ (up (x, s) h))

/-- The parse of a stream relates each transaction to what it was, place by place, by any relation that
every stage of a parse keeps. -/
theorem parseFirst_forall₂ {R : Transit → Transit → Prop} (refl : ∀ x, R x x)
    (hR : ∀ x y s, R x y → R x (nextStage y s).1) (k : ParseStage) (ts : List Transit) (s : State) :
    List.Forall₂ R ts (parseFirst k ts s).1 := by
  induction ts with
  | nil => exact .nil
  | cons x rest ih =>
    unfold parseFirst
    split_ifs
    · exact .cons (parseTransit_law (Q := R x) (fun y s => hR x y s) k x s (refl x))
        (List.forall₂_same.mpr fun y _ => refl y)
    · exact .cons (refl x) ih

/-- A law of the transactions of a stream that every stage of a parse keeps. -/
theorem parseFirst_law {Q : Transit → Prop} (hQ : ∀ x s, Q x → Q (nextStage x s).1) (k : ParseStage)
    {ts : List Transit} (s : State) (h : ∀ x ∈ ts, Q x) : ∀ x ∈ (parseFirst k ts s).1, Q x := by
  induction ts with
  | nil => exact h
  | cons x rest ih =>
    obtain ⟨hx, hrest⟩ := List.forall_mem_cons.mp h
    unfold parseFirst
    split_ifs
    · exact List.forall_mem_cons.mpr ⟨parseTransit_law hQ k x s hx, hrest⟩
    · exact List.forall_mem_cons.mpr ⟨hx, ih hrest⟩

/-- No transaction of a stream changes in a parse, but the cell of a read response (R4, R14). -/
theorem parseFirst_sameBut (k : ParseStage) (ts : List Transit) (s : State) :
    List.Forall₂ LinkTransaction.sameBut (ts.map Transit.transaction)
      ((parseFirst k ts s).1.map Transit.transaction) := by
  rw [List.forall₂_map_left_iff, List.forall₂_map_right_iff]
  exact parseFirst_forall₂ (R := fun x y => x.transaction.sameBut y.transaction)
    (fun x => sameBut_refl _) (fun _ y s h => sameBut_trans h (nextStage_transit (s := s) y).1) k ts s

/-! ### Transactions that fit their stream -/

/-- What `State.linkCoherent` asks of one transaction of stream `d`. -/
def Transit.fits (d : Direction) (x : Transit) : Prop :=
  x.transaction.isResponse = decide (d = .mToS)
  ∧ ∀ h, x.awaiting = some h → x.transaction.isParsed = true ∧ h.mode ≠ .transparent ∧ h.profile.legal
      ∧ ∀ departed answer, h.progress = .answered departed answer → x.transaction.isResponse = true

theorem linkCoherent_iff (s : State) : s.linkCoherent ↔
    (s.link.locked = false → s.link.latency = .short)
    ∧ (∀ tag, s.entry tag = .eligible → s.profile.isSome = true)
    ∧ (∀ p, s.profile = some p → p.legal)
    ∧ ∀ d, ∀ x ∈ s.stream d, x.fits d := by
  constructor
  · rintro ⟨lock, entries, legal, memory, switch, handed⟩
    refine ⟨lock, entries, legal, fun d x hx => ⟨?_, handed d x hx⟩⟩
    cases d
    · exact memory x hx
    · exact switch x hx
  · rintro ⟨lock, entries, legal, fits⟩
    exact ⟨lock, entries, legal, fun x hx => (fits .sToM x hx).1, fun x hx => (fits .mToS x hx).1,
      fun d x hx => (fits d x hx).2⟩

/-- A stage leaves the profile and the mode of a handed cell, and only a read response gets an answer. -/
theorem nextStage_awaiting {x : Transit} {h' : Handed} (e : (nextStage x s).1.awaiting = some h') :
    ∃ h, x.awaiting = some h ∧ h'.profile = h.profile ∧ h'.mode = h.mode
      ∧ ∀ departed answer, h'.progress = .answered departed answer → x.transaction.isResponse = true := by
  unfold nextStage at e
  split at e
  · rename_i hx; rw [hx] at e; cases e
  · rename_i h hx
    refine ⟨h, hx, ?_⟩
    split at e
    · obtain ⟨start, rfl⟩ := accountTransit_awaiting _ _ _ e
      exact ⟨rfl, rfl, fun _ _ hp => by cases hp⟩
    · obtain ⟨hr, departed, answer, rfl⟩ := recordTransit_awaiting _ _ _ _ e
      exact ⟨rfl, rfl, fun _ _ _ => hr⟩
    · rw [decideTransit_awaiting] at e; cases e

theorem nextStage_fits (d : Direction) (x : Transit) (s : State) (h : x.fits d) :
    (nextStage x s).1.fits d := by
  obtain ⟨direction, handed⟩ := h
  obtain ⟨same, -, -⟩ := nextStage_transit (s := s) x
  refine ⟨(sameBut_isResponse same).trans direction, fun h' e => ?_⟩
  obtain ⟨h, hx, profile, mode, answered⟩ := nextStage_awaiting e
  obtain ⟨parsed, hm, hp, -⟩ := handed h hx
  rw [sameBut_isParsed same, sameBut_isResponse same, profile, mode]
  exact ⟨parsed, hm, hp, answered⟩

end

/-! ### What one command does to the link -/

/-- A transaction that may arrive now on stream `d`: of that direction, and handed only outside TRANSPARENT
under the profile in force, with nothing of its parse done (R4, R10). -/
def Transit.arrives (d : Direction) (s : State) (x : Transit) : Prop :=
  x.transaction.isResponse = decide (d = .mToS)
  ∧ ∀ h, x.awaiting = some h → x.transaction.isParsed = true ∧ s.mode ≠ .transparent
      ∧ h.mode = s.mode ∧ s.profile = some h.profile ∧ h.progress = .handed

/-- All that the command `c` can do to the link and the profile. -/
inductive LinkStep (c : Instr) (s t : State) : Prop
  | kept (h : LineKept s t)
  | reset (command : c = .hardwareReset) (h : t = assertReset s)
  | latency (body : List Byte) (command : c = .setLatency body) (l : Latency)
      (unlocked : s.link.locked = false) (running : t.running = s.running) (profile : t.profile = s.profile)
      (h : t.link = { s.link with latency := l, locked := true })
  | profile (body : List Byte) (command : c = .loadProfile body) (p : Profile) (legal : p.legal)
      (running : t.running = s.running) (profile : t.profile = some p)
      (h : t.link = { s.link with outstanding := tableMap .empty invalidated s.link.outstanding })
  | parsed (d : Direction) (k : ParseStage) (u : State) (move : StreamMove d s t)
      (h : t.stream d = (parseFirst k (s.stream d) u).1)
  | arrived (d : Direction) (x : Transit) (fits : x.arrives d s) (move : StreamMove d s t)
      (h : t.stream d = s.stream d ++ [x])
  | arrivedParsed (d : Direction) (x : Transit) (fits : x.arrives d s) (u : State)
      (move : StreamMove d s t) (h : t.stream d = (parseFirst .decision (s.stream d ++ [x]) u).1)
  | left (d : Direction) (command : c = .transactionLeaves d) (x : Transit) (move : StreamMove d s t)
      (h : s.stream d = x :: t.stream d)

section
variable {c : Instr} {s t : State}

/-- The parse of a stream touches that stream alone, of all the link. -/
theorem streamMove_parseWaiting (d : Direction) (k : ParseStage) (s : State) :
    StreamMove d s (parseWaiting d k s) := by
  have hf := parseFirst_dataFrame k (s.stream d) s
  exact (StreamMove.of_link d (dataFrame_running hf) (dataFrame_link hf) (dataFrame_profile hf)).trans
    (streamMove_setStream d _ _)

theorem parseWaiting_stream (d : Direction) (k : ParseStage) (s : State) :
    (parseWaiting d k s).stream d = (parseFirst k (s.stream d) s).1 := by
  simp [parseWaiting]

theorem streamMove_arrive (d : Direction) (time : Nat) (x : LinkTransaction) (awaiting : Option Handed)
    (s : State) : StreamMove d s (arrive d time x awaiting s) := streamMove_setStream d _ s

theorem arrive_stream (d : Direction) (time : Nat) (x : LinkTransaction) (awaiting : Option Handed)
    (s : State) : (arrive d time x awaiting s).stream d = s.stream d ++
      [{ transaction := x, arrivedAt := time, latency := s.link.latency, awaiting := awaiting }] := by
  simp [arrive]

/-- A transaction that is not handed joins its stream, after a change `u` of the counters, the flags and
the entries. -/
theorem linkStep_arrive {d : Direction} {u : State} (hu : StreamMove d s u)
    (hs : u.stream d = s.stream d) (time : Nat) (x : LinkTransaction)
    (hx : x.isResponse = decide (d = .mToS)) : LinkStep c s (arrive d time x none u) :=
  .arrived d { transaction := x, arrivedAt := time, latency := u.link.latency, awaiting := none }
    ⟨hx, by simp⟩ (hu.trans (streamMove_arrive d time x none u)) (by rw [arrive_stream, hs])

/-- The hand-off of a cell that meets its conditions (R12, R13, R14). -/
theorem linkStep_handOff {d : Direction} {u : State} (hu : StreamMove d s u)
    (hs : u.stream d = s.stream d) (hmode : u.mode = s.mode) (hm : s.mode ≠ .transparent) {p : Profile}
    (hp : s.profile = some p) (time : Nat) (x : LinkTransaction) (cell : Cell) (parse : ParseTime)
    (hx : x.isResponse = decide (d = .mToS)) (hparsed : x.isParsed = true) :
    LinkStep c s (handOff d time x cell p parse u) := by
  have fits : Transit.arrives d s
      { transaction := x, arrivedAt := time, latency := u.link.latency
        awaiting := some { profile := p, mode := u.mode, progress := .handed } } :=
    ⟨hx, fun h e => by cases e; exact ⟨hparsed, hm, hmode, hp, rfl⟩⟩
  unfold handOff arriveHanded
  split_ifs
  · exact .arrivedParsed d _ fits _
      ((hu.trans (streamMove_arrive d time x _ u)).trans (streamMove_parseWaiting d .decision _))
      (by rw [parseWaiting_stream, arrive_stream, hs])
  · exact .arrived d _ fits (hu.trans (streamMove_arrive d time x _ u)) (by rw [arrive_stream, hs])
  · unfold checkFailure
    split_ifs
    · exact linkStep_arrive (u := (u.bump Counter.linkCheckError).flagLinkCheck)
        (hu.trans (.of_link d rfl rfl rfl)) hs time x hx
    · exact linkStep_arrive hu hs time x hx

theorem whenRunning_linkStep {f : State → State} (h : LinkStep c s (f s)) :
    LinkStep c s (whenRunning s f) := by
  unfold whenRunning
  split_ifs
  · exact h
  · exact .kept (lineKept_refl s)

theorem streamMove_refl (d : Direction) (s : State) : StreamMove d s s := .of_link d rfl rfl rfl

theorem arriveWrite_linkStep (time : Nat) (index : CellIndex) (cell : Cell) (parse : ParseTime) :
    LinkStep c s (arriveWrite time index cell parse s) := by
  unfold arriveWrite
  split
  · exact linkStep_arrive (streamMove_refl _ s) rfl time _ rfl
  · rename_i p hp
    split_ifs with hm
    · exact linkStep_handOff (streamMove_refl _ s) rfl rfl hm.1 hp time _ cell parse rfl rfl
    · exact linkStep_arrive (streamMove_refl _ s) rfl time _ rfl

theorem arriveMasked_linkStep (time : Nat) (index : CellIndex) (mask : BitVec 32) (cell : Cell) :
    LinkStep c s (arriveMasked time index mask cell s) := by
  unfold arriveMasked
  split_ifs
  · exact linkStep_arrive (s := s) (d := .sToM) (u := s.bump Counter.maskedInRange) (.of_link _ rfl rfl rfl) rfl
      time (.maskedWrite index mask cell) rfl
  · exact linkStep_arrive (streamMove_refl _ s) rfl time _ rfl

/-- A write of an entry that is not ELIGIBLE, or under a loaded profile, moves no stream. -/
theorem streamMove_setEntry (d : Direction) (tag : Tag) (e : EntryState)
    (he : e = .eligible → s.profile.isSome = true) : StreamMove d s (s.setEntry tag e) where
  running := rfl
  profile := rfl
  latency := rfl
  locked := rfl
  other d' _ := by simp
  entries tag' h := by
    rw [State.setEntry_entry] at h
    split_ifs at h
    · exact .inr (he h)
    · exact .inl h

/-- A request writes ELIGIBLE only under a loaded profile (R8, R21). -/
theorem requestEntry_eligible {index : CellIndex} (h : requestEntry s index = .eligible) :
    s.profile.isSome = true := by
  unfold requestEntry at h
  split_ifs at h with hr
  cases hp : s.profile with
  | none => simp [State.inRange, hp] at hr
  | some p => rfl

theorem arriveRequest_linkStep (time : Nat) (index : CellIndex) (tag : Tag) :
    LinkStep c s (arriveRequest time index tag s) := by
  have move (u : State) (hu : StreamMove .sToM s u) (hp : u.profile = s.profile) :
      StreamMove .sToM s (u.setEntry tag (requestEntry s index)) :=
    hu.trans (streamMove_setEntry _ tag _ fun e => hp ▸ requestEntry_eligible e)
  unfold arriveRequest
  dsimp only
  split_ifs
  · exact linkStep_arrive (move s (streamMove_refl _ s) rfl) rfl time _ rfl
  · exact linkStep_arrive (move (s.bump Counter.tagReuse) (.of_link _ rfl rfl rfl) rfl) rfl time _ rfl

theorem arriveResponse_linkStep (time : Nat) (tag : Tag) (cell : Cell) (memError : Bool)
    (parse : ParseTime) : LinkStep c s (arriveResponse time tag cell memError parse s) := by
  have move : StreamMove .mToS s (s.setEntry tag .empty) :=
    streamMove_setEntry _ tag .empty (fun e => by cases e)
  unfold arriveResponse
  dsimp only
  split
  · exact linkStep_arrive (s := s) (d := .mToS) (u := s.bump Counter.orphanResponse) (.of_link _ rfl rfl rfl) rfl
      time (.readResponse tag cell memError) rfl
  · rename_i p _ hp
    split_ifs with hm
    · exact linkStep_handOff move rfl rfl hm.1 hp time _ cell parse rfl rfl
    · exact linkStep_arrive move rfl time _ rfl
  · exact linkStep_arrive move rfl time _ rfl
  · exact linkStep_arrive move rfl time _ rfl

theorem leaveStream_linkStep (d : Direction) : LinkStep (.transactionLeaves d) s (leaveStream d s) := by
  unfold leaveStream
  split
  · exact .kept (lineKept_refl s)
  · rename_i x rest hx
    have hf := parseTransit_dataFrame .decision x s
    refine .left d rfl x ?_ (by simpa using hx)
    exact ((StreamMove.of_link d (dataFrame_running hf) (dataFrame_link hf) (dataFrame_profile hf)).trans
      (streamMove_setStream d rest _)).trans (streamMove_setPins d _ _)

/-! ### The two settings (R5, R19, R20) -/

/-- A profile of LOAD_PROFILE that breaks no limit is legal (R18, R20). -/
theorem profileField_legal {ps : List Byte} (h : brokenAt (profileLimits (profileField ps)) = none) :
    (profileField ps).legal := by
  have limits : ∀ e ∈ profileLimits (profileField ps), e.2 = false := by
    simpa [brokenAt, List.find?_eq_none] using h
  simp only [profileLimits, List.forall_mem_append, List.forall_mem_cons] at limits
  obtain ⟨⟨frame, first, width, length, -⟩, ranges⟩ := limits
  simp only [decide_eq_false_iff_not, Bool.and_eq_false_iff, Bool.or_eq_false_iff, beq_eq_false_iff_ne]
    at frame first width length
  have hranges : ∀ r ∈ (profileField ps).ranges, ¬ r.limit < r.base := by
    intro r hr
    obtain ⟨k, hk, rfl⟩ := List.mem_iff_getElem.mp hr
    have := ranges (10 + 8 * k, decide ((profileField ps).ranges[k].limit < (profileField ps).ranges[k].base))
      (List.mem_map.mpr ⟨((profileField ps).ranges[k], k), by simp [List.mem_zipIdx_iff_getElem?], rfl⟩)
    simpa using this
  refine ⟨by omega, ⟨?_, ?_⟩, ?_, ?_, ?_, ⟨by omega, by omega⟩, by omega, ?_, ?_, rfl, ?_⟩
  · simp only [profileField]; omega
  · simp only [profileField]; omega
  · intro m hm
    simp only [profileField] at hm
    split_ifs at hm
    cases hm
    exact ⟨by dsimp only; omega, by dsimp only; omega⟩
  · simp only [profileField]; omega
  · simp only [profileField]; omega
  · simp only [profileField]; omega
  · simp only [profileField] at length ⊢; omega
  · intro r hr
    refine ⟨not_lt.mp (hranges r hr), ?_⟩
    simp only [profileField, List.mem_cons, List.not_mem_nil, or_false] at hr
    rcases hr with rfl | rfl | rfl | rfl <;> simp only [rangeField] <;> omega

theorem loadProfile_linkStep (body : List Byte) :
    LinkStep (.loadProfile body) s (takeRequest 0x11 (loadProfileAnswer body) s) := by
  have h : LineKept s (takeRequest 0x11 (loadProfileAnswer body) s)
      ∨ ∃ p : Profile, p.legal ∧ LineKept (installProfile p s) (takeRequest 0x11 (loadProfileAnswer body) s)
          ∧ (takeRequest 0x11 (loadProfileAnswer body) s).running = s.running := by
    refine takeRequest_leaves (P := fun t => LineKept s t
      ∨ ∃ p : Profile, p.legal ∧ LineKept (installProfile p s) t ∧ t.running = s.running)
      (.inl (lineKept_refl s)) ?_ (fun _ _ h => h)
    unfold loadProfileAnswer
    split_ifs
    · trivial
    · exact withParams_leaves fun ps => unlessReserved_leaves <| unlessBroken_leaves fun hb =>
        .inr ⟨profileField ps, profileField_legal hb, lineKept_refl _, rfl⟩
  obtain h | ⟨p, legal, ⟨-, link, profile⟩, running⟩ := h
  · exact .kept h
  · exact .profile body rfl p legal running profile link

theorem setLatency_linkStep (body : List Byte) :
    LinkStep (.setLatency body) s (takeRequest 0x10 (setLatencyAnswer body) s) := by
  have h : LineKept s (takeRequest 0x10 (setLatencyAnswer body) s)
      ∨ ∃ l : Latency, s.link.locked = false
        ∧ LineKept { s with link := { s.link with latency := l, locked := true } }
            (takeRequest 0x10 (setLatencyAnswer body) s)
          ∧ (takeRequest 0x10 (setLatencyAnswer body) s).running = s.running := by
    refine takeRequest_leaves (P := fun t => LineKept s t
      ∨ ∃ l : Latency, s.link.locked = false
          ∧ LineKept { s with link := { s.link with latency := l, locked := true } } t
          ∧ t.running = s.running)
      (.inl (lineKept_refl s)) ?_ (fun _ _ h => h)
    refine withParams_leaves fun ps => unlessReserved_leaves ?_
    split_ifs with hl
    · trivial
    · exact .inr ⟨_, Bool.eq_false_iff.mpr hl, lineKept_refl _, rfl⟩
    · exact .inr ⟨_, Bool.eq_false_iff.mpr hl, lineKept_refl _, rfl⟩
  obtain h | ⟨l, unlocked, ⟨-, link, profile⟩, running⟩ := h
  · exact .kept h
  · exact .latency body rfl l unlocked running profile link

/-- What each command does to the link and the profile. -/
theorem exec_linkStep (h : exec c s = .next t) : LinkStep c s t := by
  by_cases hc : movesLink c = false
  · exact .kept (exec_lineKept hc h)
  cases c with
  | fullCellWrite time index cell parse =>
    cases h; exact whenRunning_linkStep (arriveWrite_linkStep time index cell parse)
  | maskedWrite time index mask cell =>
    cases h; exact whenRunning_linkStep (arriveMasked_linkStep time index mask cell)
  | readRequest time index tag =>
    cases h; exact whenRunning_linkStep (arriveRequest_linkStep time index tag)
  | readResponse time tag cell memError parse =>
    cases h; exact whenRunning_linkStep (arriveResponse_linkStep time tag cell memError parse)
  | hardwareReset => cases h; exact .reset rfl rfl
  | setLatency body => cases h; exact setLatency_linkStep body
  | loadProfile body => cases h; exact loadProfile_linkStep body
  | handedCellParse d k =>
    cases h
    exact whenRunning_linkStep
      (.parsed d k s (streamMove_parseWaiting d k s) (parseWaiting_stream d k s))
  | transactionLeaves d => cases h; exact whenRunning_linkStep (leaveStream_linkStep d)
  | _ => exact absurd rfl hc

/-- A step idles on an empty queue, or runs the command at the front of the queue. -/
theorem step_eq (h : step s = .next t) :
    (s.pending = [] ∧ t = s)
    ∨ ∃ c rest, s.pending = c :: rest ∧ exec c { s with pending := rest } = .next t := by
  unfold step at h
  split at h
  · rename_i hp; cases h; exact .inl ⟨hp, rfl⟩
  · rename_i c rest hp; exact .inr ⟨c, rest, hp, h⟩

end
end Sys2Proof.Machine

namespace Sys2Proof.Machine

/-! ### The laws of the link over every step (R2, R4, R5, R8, R10, R14, R16) -/

section
variable {c : Instr} {s t : State}

theorem linkCoherent_congr (h : s.linkCoherent) (link : t.link = s.link) (profile : t.profile = s.profile) :
    t.linkCoherent := by
  have stream : ∀ d, t.stream d = s.stream d := fun d => by cases d <;> simp only [State.stream, link]
  have entry : ∀ tag, t.entry tag = s.entry tag := fun tag => by simp only [State.entry, link]
  rw [linkCoherent_iff] at h ⊢
  simpa only [link, profile, stream, entry] using h

/-- One stream moves, and its transactions fit it: the link stays coherent. -/
theorem linkCoherent_move {d : Direction} (h : s.linkCoherent) (m : StreamMove d s t)
    (hs : ∀ x ∈ t.stream d, x.fits d) : t.linkCoherent := by
  obtain ⟨lock, entries, legal, fits⟩ := (linkCoherent_iff s).mp h
  refine (linkCoherent_iff t).mpr ⟨?_, ?_, ?_, fun d' => ?_⟩
  · rw [m.locked, m.latency]; exact lock
  · rw [m.profile]; exact fun tag e => (m.entries tag e).elim (entries tag) id
  · rw [m.profile]; exact legal
  · by_cases hd : d' = d
    · rw [hd]; exact hs
    · rw [m.other d' hd]; exact fits d'

/-- Under a legal profile, what may arrive fits its stream. -/
theorem arrives_fits {d : Direction} {x : Transit} (h : s.linkCoherent) (hx : x.arrives d s) : x.fits d := by
  obtain ⟨direction, handed⟩ := hx
  refine ⟨direction, fun h' e => ?_⟩
  obtain ⟨parsed, hm, mode, profile, progress⟩ := handed h' e
  exact ⟨parsed, mode ▸ hm, ((linkCoherent_iff s).mp h).2.2.1 _ profile,
    fun _ _ e' => by rw [progress] at e'; cases e'⟩

/-- A hardware reset leaves both streams empty, no entry, no profile, and SHORT (R16). -/
theorem reset_linkCoherent (h : t.link = Link.reset) (hp : t.profile = none) : t.linkCoherent := by
  have stream : ∀ d, t.stream d = [] := fun d => by cases d <;> simp only [State.stream, h] <;> rfl
  refine (linkCoherent_iff t).mpr ⟨fun _ => by rw [h]; rfl, fun tag e => ?_, by simp [hp], by simp [stream]⟩
  rw [State.entry, h] at e; cases e

/-- Every command keeps the link coherent. -/
theorem linkStep_coherent (h : s.linkCoherent) (hl : LinkStep c s t) : t.linkCoherent := by
  obtain ⟨lock, entries, legal, fits⟩ := (linkCoherent_iff s).mp h
  cases hl with
  | kept k => exact linkCoherent_congr h k.2.1 k.2.2
  | reset _ e => rw [e]; exact reset_linkCoherent rfl rfl
  | latency _ _ l _ _ profile link =>
    have stream : ∀ d, t.stream d = s.stream d := fun d => by cases d <;> simp only [State.stream, link]
    have entry : ∀ tag, t.entry tag = s.entry tag := fun tag => by simp only [State.entry, link]
    refine (linkCoherent_iff t).mpr ⟨fun e => ?_, ?_, ?_, ?_⟩
    · rw [link] at e; cases e
    · simpa only [entry, profile] using entries
    · simpa only [profile] using legal
    · simpa only [stream] using fits
  | profile _ _ p hp _ profile link =>
    have stream : ∀ d, t.stream d = s.stream d := fun d => by cases d <;> simp only [State.stream, link]
    refine (linkCoherent_iff t).mpr ⟨?_, fun tag e => ?_, fun p' e => ?_, ?_⟩
    · simpa only [link] using lock
    · rw [profile]; rfl
    · rw [profile] at e; cases e; exact hp
    · simpa only [stream] using fits
  | parsed d k u move e =>
    exact linkCoherent_move h move (e ▸ parseFirst_law (nextStage_fits d) k u (fits d))
  | arrived d x hx move e =>
    exact linkCoherent_move h move (e ▸ List.forall_mem_append.mpr
      ⟨fits d, List.forall_mem_singleton.mpr (arrives_fits h hx)⟩)
  | arrivedParsed d x hx u move e =>
    exact linkCoherent_move h move (e ▸ parseFirst_law (nextStage_fits d) .decision u
      (List.forall_mem_append.mpr ⟨fits d, List.forall_mem_singleton.mpr (arrives_fits h hx)⟩))
  | left d _ x move e => exact linkCoherent_move h move fun y hy => fits d y (e ▸ List.mem_cons_of_mem x hy)

/-- Settles O10: every command that moves the link keeps its laws, stream by stream. -/
theorem linkStaysCoherent : Obligations.LinkStaysCoherent := by
  intro s t h hs
  obtain ⟨-, rfl⟩ | ⟨c, rest, -, hc⟩ := step_eq hs
  · exact h
  · exact linkStep_coherent (s := { s with pending := rest }) h (exec_linkStep hc)

/-- Settles O12: of the commands that move the link, only SET_LATENCY and the reset touch the setting. -/
theorem latencySettingChangesOnce : Obligations.LatencySettingChangesOnce := by
  intro s t hs
  obtain ⟨-, rfl⟩ | ⟨c, rest, hp, hc⟩ := step_eq hs
  · exact .inl rfl
  cases exec_linkStep hc with
  | kept k => exact .inl (by rw [k.2.1])
  | reset command _ => exact .inr (.inl (by rw [hp, command]; rfl))
  | latency body command l unlocked _ _ link =>
    exact .inr (.inr ⟨unlocked, by rw [link], body, by rw [hp, command]; rfl⟩)
  | profile _ _ _ _ _ _ link => exact .inl (by rw [link])
  | parsed _ _ _ move _ | arrived _ _ _ move _ | arrivedParsed _ _ _ _ move _ | left _ _ _ move _ =>
    exact .inl (by rw [move.latency, move.locked])

theorem inside_eq_of_link (d : Direction) (h : t.stream d = s.stream d) : t.inside d = s.inside d := by
  rw [State.inside, State.inside, h]

/-- The stream inside the part as it was, place by place. -/
theorem inside_sameBut_refl (d : Direction) (h : t.stream d = s.stream d) :
    List.Forall₂ LinkTransaction.sameBut (s.inside d) (t.inside d) := by
  rw [inside_eq_of_link d h]
  exact List.forall₂_same.mpr fun x _ => sameBut_refl x

/-- Settles O14: one stream moves at a time, by an arrival, a parse, a leaving or the reset. -/
theorem linkKeepsItsOrder : Obligations.LinkKeepsItsOrder := by
  intro d s t hs
  obtain ⟨-, rfl⟩ | ⟨c, rest, hp, hc⟩ := step_eq hs
  · exact .inr (.inl (inside_sameBut_refl d rfl))
  have moved (d' : Direction) (move : StreamMove d' { s with pending := rest } t) (hd : d ≠ d') :
      List.Forall₂ LinkTransaction.sameBut (s.inside d) (t.inside d) :=
    inside_sameBut_refl d (move.other d hd)
  cases exec_linkStep hc with
  | kept k =>
    exact .inr (.inl (inside_sameBut_refl d (by cases d <;> simp only [State.stream, k.2.1])))
  | reset command e =>
    exact .inl ⟨by rw [hp, command]; rfl, by rw [e]; cases d <;> rfl⟩
  | latency _ _ _ _ _ _ link | profile _ _ _ _ _ _ link =>
    exact .inr (.inl (inside_sameBut_refl d (by cases d <;> simp only [State.stream, link])))
  | parsed d' k u move e =>
    by_cases hd : d = d'
    · subst hd
      refine .inr (.inl ?_)
      rw [State.inside, State.inside, e]
      exact parseFirst_sameBut k _ u
    · exact .inr (.inl (moved d' move hd))
  | arrived d' x _ move e =>
    by_cases hd : d = d'
    · subst hd
      refine .inr (.inr (.inl ⟨x.transaction, ?_⟩))
      rw [State.inside, State.inside, e, List.map_append]
      exact List.forall₂_same.mpr fun y _ => sameBut_refl y
    · exact .inr (.inl (moved d' move hd))
  | arrivedParsed d' x _ u move e =>
    by_cases hd : d = d'
    · subst hd
      refine .inr (.inr (.inl ⟨x.transaction, ?_⟩))
      have := parseFirst_sameBut .decision (({ s with pending := rest } : State).stream d ++ [x]) u
      rw [List.map_append] at this
      rw [State.inside, State.inside, e]
      exact this
    · exact .inr (.inl (moved d' move hd))
  | left d' command x move e =>
    by_cases hd : d = d'
    · subst hd
      refine .inr (.inr (.inr ⟨x.transaction, t.inside d, ?_, rfl, by rw [hp, command]; rfl⟩))
      exact congrArg (List.map Transit.transaction) e
    · exact .inr (.inl (moved d' move hd))

/-! ### The reset line (R16, R138, R181) -/

/-- While RST_N is asserted a command other than its two edges does nothing. -/
theorem exec_held (hr : s.running = false) (h1 : c ≠ .resetRelease) (h2 : c ≠ .hardwareReset) :
    exec c s = .next s := by
  have asleep (f : State → State) : whenRunning s f = s := if_neg (by simp [hr])
  cases c with
  | resetRelease => exact absurd rfl h1
  | hardwareReset => exact absurd rfl h2
  | _ => exact congrArg Host.Outcome.next (asleep _)

/-- Only a hardware reset asserts RST_N. -/
theorem linkStep_released (hl : LinkStep c s t) (hc : c ≠ .hardwareReset) (hr : s.running = true) :
    t.running = true := by
  cases hl with
  | kept k => exact k.1 hr
  | reset command _ => exact absurd command hc
  | latency _ _ _ _ running | profile _ _ _ _ running => exact running.trans hr
  | parsed _ _ _ move | arrived _ _ _ move | arrivedParsed _ _ _ _ move | left _ _ _ move =>
    exact move.running.trans hr

theorem releaseReset_running (s : State) : (releaseReset s).running = true := by
  unfold releaseReset
  split_ifs with h
  · exact h
  · rfl

/-- Settles O15: `exec_held` and the two edges; a part that is held was just reset, or was held before. -/
theorem resetLineRules : Obligations.ResetLineRules := by
  refine ⟨fun s => rfl, fun s h => ?_, fun s h => ?_, fun s c h h1 h2 => exec_held h h1 h2,
    fun s t held hs ht => ?_⟩
  · exact congrArg Host.Outcome.next (if_neg (by simp [h]))
  · exact congrArg Host.Outcome.next (if_pos h)
  · obtain ⟨-, rfl⟩ | ⟨c, rest, -, hc⟩ := step_eq hs
    · exact held ht
    by_cases h2 : c = .hardwareReset
    · subst h2; cases hc; rfl
    have hr : s.running = false := Bool.eq_false_iff.mpr fun hr => by
      rw [linkStep_released (s := { s with pending := rest }) (exec_linkStep hc) h2 hr] at ht; cases ht
    by_cases h1 : c = .resetRelease
    · subst h1
      cases hc
      rw [releaseReset_running] at ht; cases ht
    rw [exec_held (s := { s with pending := rest }) hr h1 h2] at hc
    cases hc
    have heldRest : ({ s with pending := rest } : State) = { State.reset with
        running := false, draws := s.draws, pending := rest } := by rw [held hr]
    exact heldRest

/-- Settles O26: the reserved bits, then the lock flag, then bit 0. -/
theorem setLatencyLocksTheSetting : Obligations.SetLatencyLocksTheSetting := by
  intro s b ready
  have frame (b : Byte) : framesExactly 1 [1, b] [b] := ⟨rfl, rfl⟩
  have run (b : Byte) : exec (.setLatency [1, b]) s = .next (applyAnswer 0x10 s
      (unlessReserved bitZeroReserved [b]
        (if s.link.locked then .check .locked 0
         else .good [] { s with link := { s.link with
          latency := if b.getLsbD 0 then .long else .short, locked := true } }))) := by
    refine congrArg Host.Outcome.next (((takeRequest_spec 0x10 _ s).2.2 ready).trans ?_)
    rw [setLatencyAnswer, withParams_framed (by omega) (frame b)]
    rfl
  have free (b : Byte) (hb : b &&& 0xFE = 0) : noneReserved bitZeroReserved [b] := by
    intro o m hm
    simp only [bitZeroReserved, List.mem_singleton, Prod.mk.injEq] at hm
    obtain ⟨rfl, rfl⟩ := hm
    exact hb
  refine ⟨fun hb => ?_, fun hb hl => ?_, fun hl => ⟨?_, ?_⟩⟩
  · have low : lowestReserved bitZeroReserved [b] 0 :=
      ⟨⟨0xFE, by simp [bitZeroReserved], hb⟩, fun o' _ _ h => absurd h (Nat.not_lt_zero o')⟩
    rw [run, unlessReserved_some (by simp [bitZeroReserved]) low]
    rfl
  · rw [run, unlessReserved_none (free b hb), if_pos hl]
    rfl
  · rw [run, unlessReserved_none (free 0 rfl), if_neg (by simp [hl])]
    rfl
  · rw [run, unlessReserved_none (free 1 rfl), if_neg (by simp [hl])]
    rfl

/-! ### The part right after reset -/

theorem reset_settingsLegal : State.reset.settingsLegal := by
  refine ⟨fun p h => (by cases h), fun c => ?_, ?_⟩
  · show ClassRecord.legal classReset
    simp [ClassRecord.legal, classReset, Config.countMax]
  · refine ⟨by decide, by decide, by decide, by decide, by decide, by decide, fun r => ?_, by decide⟩
    exact ⟨Nat.zero_le _, fun e he => by cases he⟩

theorem reset_countsInRange : State.reset.countsInRange :=
  ⟨fun _ => ⟨le_refl _, Nat.zero_le _, Nat.zero_le _⟩, fun _ => Nat.zero_le _, Nat.zero_le _, Nat.zero_le _,
    Nat.zero_le _, Nat.zero_le _⟩

theorem reset_flowsAndGroupsEmpty : State.reset.flowsAndGroupsEmpty :=
  ⟨fun _ => rfl, fun _ => rfl, fun _ => rfl⟩

theorem reset_modeCoherent : State.reset.modeCoherent :=
  ⟨⟨fun _ => rfl, fun _ => rfl⟩, ⟨by decide, fun _ h => (by cases h)⟩, fun _ _ _ h => (by cases h),
    fun _ h => (by cases h), fun _ _ => reset_flowsAndGroupsEmpty, fun h => (by cases h),
    fun h => (by cases h)⟩

theorem reset_flowsPlaced : State.reset.flowsPlaced := by
  refine ⟨fun _ h => absurd rfl h, fun _ _ _ h => absurd rfl h, fun i => ⟨?_, ?_, ?_⟩⟩
  · intro n h; cases h
  · intro n h; cases h
  · intro n h; cases h

/-- Settles O11: every table is empty, every setting at its value of 11.7. -/
theorem resetMeetsEveryLaw : Obligations.ResetMeetsEveryLaw :=
  ⟨⟨tableWf_nil _, tableWf_nil _, tableWf_nil _, tableWf_nil _, tableWf_nil _, tableWf_nil _, tableWf_nil _,
      tableWf_nil _, tableWf_nil _⟩,
    reset_settingsLegal, reset_countsInRange, reset_modeCoherent,
    empty_accounted reset_flowsAndGroupsEmpty (fun _ => rfl), empty_chained (fun _ => rfl) (fun _ => rfl),
    reset_flowsPlaced, reset_linkCoherent rfl rfl, fun h => (by cases h)⟩

end
end Sys2Proof.Machine

namespace Sys2Proof.Machine

/-! ### Arrivals (R4, R8 to R15, R21, R171) -/

section
variable {s : State}

theorem whenRunning_released (h : s.running = true) (f : State → State) : whenRunning s f = f s := if_pos h

/-- The range test: a profile is loaded, and an enabled range of it contains the index (R21). -/
theorem inRange_iff (s : State) (index : CellIndex) : s.inRange index = true ↔
    ∃ p, s.profile = some p ∧ ∃ r ∈ p.ranges, r.enabled = true ∧ r.base ≤ index.val ∧ index.val ≤ r.limit := by
  unfold State.inRange
  cases s.profile with
  | none => simp
  | some p => simp [and_assoc]

/-- A write of an entry reads as `State.setEntry_entry` says, entry by entry. -/
theorem setEntry_outstanding (s : State) (tag tag' : Tag) (e : EntryState) :
    tableGet .empty (s.setEntry tag e).link.outstanding tag' = if tag' = tag then e else s.entry tag' :=
  s.setEntry_entry tag tag' e

/-- Settles O45. -/
theorem maskedWritesAndRequestsArrive : Obligations.MaskedWritesAndRequestsArrive := by
  refine ⟨inRange_iff, fun s c c' => s.bump_counter c c', fun s time index mask cell hr => ?_,
    fun s time index tag hr => ?_⟩
  · refine congrArg Host.Outcome.next ((whenRunning_released hr _).trans ?_)
    unfold arriveMasked
    split_ifs <;> exact arrive_eq_withArrival _ _ _ _ _
  · refine ⟨_, fun tag' => setEntry_outstanding s tag tag' (requestEntry s index), ?_⟩
    refine congrArg Host.Outcome.next ((whenRunning_released hr _).trans ?_)
    unfold arriveRequest
    dsimp only
    split_ifs <;> exact arrive_eq_withArrival _ _ _ _ _

/-- Parsing a handed cell with its arrival is its arrival and then the parse, when no earlier cell of the
stream waits (R14, log 4). -/
theorem arriveHanded_atArrival (d : Direction) (time : Nat) (x : LinkTransaction) (h : Handed) (s : State) :
    arriveHanded d time x h .atArrival s = if s.waiting d = true then arriveHanded d time x h .later s
      else parseWaiting d .decision (arriveHanded d time x h .later s) := by
  cases hw : s.waiting d <;> simp [arriveHanded, hw]

theorem arriveHanded_later (d : Direction) (time : Nat) (x : LinkTransaction) (h : Handed) (s : State) :
    arriveHanded d time x h .later s = s.withArrival d
      { transaction := x, arrivedAt := time, latency := s.link.latency, awaiting := some h } := by
  rw [arriveHanded, if_neg (by simp)]
  exact arrive_eq_withArrival d time x (some h) s

/-- When no cell of a stream waits, a parse of it changes nothing. -/
theorem parseWaiting_idle {d : Direction} (h : s.waiting d = false) : parseWaiting d .decision s = s := by
  have hb : ∀ y ∈ s.stream d, y.isBefore .decision = false := fun y hy => by
    rw [isBefore_decision]; simpa using List.any_eq_false.mp h y hy
  rw [parseWaiting, parseFirst_none _ _ hb]
  cases d <;> rfl

/-- A transaction that is not handed leaves the stream waiting or not as it was. -/
theorem waiting_arrive_none (d : Direction) (time : Nat) (x : LinkTransaction) (s : State) :
    (arrive d time x none s).waiting d = s.waiting d := by
  simp [State.waiting, arrive_stream]

/-- Parsing at arrival changes nothing for a transaction that is not handed. -/
theorem arrive_none_atArrival (d : Direction) (time : Nat) (x : LinkTransaction) (s : State) :
    arrive d time x none s = if s.waiting d = true then arrive d time x none s
      else parseWaiting d .decision (arrive d time x none s) := by
  split_ifs with h
  · rfl
  · exact (parseWaiting_idle ((waiting_arrive_none d time x s).trans (Bool.eq_false_iff.mpr h))).symm

/-- What the hand-off of a cell comes to, when it is not parsed at its arrival: by the check-byte test (R12)
and, of an unclean cell, by the start-of-packet flag (R13). -/
theorem handOff_later (d : Direction) (time : Nat) (x : LinkTransaction) (c : Cell) (p : Profile)
    (s : State) :
    (cellClean c = true → handOff d time x c p .later s = s.withArrival d
      { transaction := x, arrivedAt := time, latency := s.link.latency
        awaiting := some { profile := p, mode := s.mode, progress := .handed } })
    ∧ (cellClean c = false → byteClean c p.sop.byte = true → cellBit c p.sop = false →
      handOff d time x c p .later s = s.withArrival d
        { transaction := x, arrivedAt := time, latency := s.link.latency, awaiting := none })
    ∧ (cellClean c = false → byteClean c p.sop.byte = false ∨ cellBit c p.sop = true →
      handOff d time x c p .later s = (s.bump Counter.linkCheckError).flagLinkCheck.withArrival d
        { transaction := x, arrivedAt := time, latency := s.link.latency, awaiting := none }) := by
  unfold handOff checkFailure isCountedCheckError
  refine ⟨fun hc => ?_, fun hc hb hs => ?_, fun hc hbs => ?_⟩
  · rw [if_pos hc]; exact arriveHanded_later _ _ _ _ _
  · rw [if_neg (by simp [hc]), if_neg (by simp [hb, hs])]; exact arrive_eq_withArrival _ _ _ _ _
  · rw [if_neg (by simp [hc]), if_pos (by simpa using hbs)]; exact arrive_eq_withArrival _ _ _ _ _

/-- Parsing at arrival, at the hand-off (log 4). The check-byte test changes no stream. -/
theorem handOff_atArrival (d : Direction) (time : Nat) (x : LinkTransaction) (c : Cell) (p : Profile)
    (s : State) : handOff d time x c p .atArrival s = if s.waiting d = true then handOff d time x c p .later s
      else parseWaiting d .decision (handOff d time x c p .later s) := by
  have hw : (checkFailure p c s).waiting d = s.waiting d := by
    unfold checkFailure; split_ifs <;> rfl
  unfold handOff
  split_ifs with hc h h
  · rw [arriveHanded_atArrival, if_pos h]
  · rw [arriveHanded_atArrival, if_neg h]
  · rfl
  · have := arrive_none_atArrival d time x (checkFailure p c s)
    rwa [hw, if_neg h] at this

theorem arriveWrite_atArrival (time : Nat) (index : CellIndex) (c : Cell) (s : State) :
    arriveWrite time index c .atArrival s = if s.waiting .sToM = true then arriveWrite time index c .later s
      else parseWaiting .sToM .decision (arriveWrite time index c .later s) := by
  unfold arriveWrite
  split
  · exact arrive_none_atArrival _ _ _ _
  · split_ifs with hm h h
    · rw [handOff_atArrival, if_pos h]
    · rw [handOff_atArrival, if_neg h]
    · rfl
    · have := arrive_none_atArrival .sToM time (.fullWrite index c) s
      rwa [if_neg h] at this

/-- A write outside every range, or in TRANSPARENT, is only forwarded (R4). -/
theorem arriveWrite_forwarded (time : Nat) (index : CellIndex) (c : Cell) (parse : ParseTime)
    (h : s.mode = .transparent ∨ s.inRange index = false) :
    arriveWrite time index c parse s = s.withArrival .sToM
      { transaction := .fullWrite index c, arrivedAt := time, latency := s.link.latency
        awaiting := none } := by
  unfold arriveWrite
  split
  · exact arrive_eq_withArrival _ _ _ _ _
  · rw [if_neg (by rintro ⟨hm, hi⟩; rcases h with h | h <;> simp_all)]
    exact arrive_eq_withArrival _ _ _ _ _

/-- A write in range outside TRANSPARENT meets the hand-off conditions (R4). -/
theorem arriveWrite_handOff (time : Nat) (index : CellIndex) (c : Cell) (parse : ParseTime) {p : Profile}
    (hm : s.mode ≠ .transparent) (hp : s.profile = some p) (hi : s.inRange index = true) :
    arriveWrite time index c parse s = handOff .sToM time (.fullWrite index c) c p parse s := by
  unfold arriveWrite
  rw [hp]
  exact if_pos ⟨hm, hi⟩

/-- Settles O46: the cases of `handOff_later`, and `arriveWrite_atArrival`. -/
theorem writesArrive : Obligations.WritesArrive := by
  intro s time index cell hr carried
  have run (parse : ParseTime) : exec (.fullCellWrite time index cell parse) s
      = .next (arriveWrite time index cell parse s) :=
    congrArg Host.Outcome.next (whenRunning_released hr _)
  refine ⟨fun h => ?_, fun p hm hp hi => ?_, arriveWrite time index cell .later s, run .later, ?_⟩
  · rw [run, arriveWrite_forwarded _ _ _ _ h]
  · obtain ⟨clean, uncounted, counted⟩ := handOff_later .sToM time (.fullWrite index cell) cell p s
    rw [run, arriveWrite_handOff _ _ _ _ hm hp hi]
    exact ⟨fun hc => by rw [clean hc], fun hc hb hs => by rw [uncounted hc hb hs],
      fun hc hbs => by rw [counted hc hbs]; rfl⟩
  · rw [run, arriveWrite_atArrival]
    have hrun := linkStep_released (exec_linkStep (run .later)) (by simp) hr
    split_ifs
    · rfl
    · exact (congrArg Host.Outcome.next (whenRunning_released hrun _)).symm

/-- A read response whose entry is not EMPTY ends it, and meets the hand-off conditions when the entry was
ELIGIBLE, the mode is not TRANSPARENT and its memory-error flag is clear (R10). -/
theorem arriveResponse_handOff (time : Nat) (tag : Tag) (c : Cell) (memError : Bool) (parse : ParseTime)
    {p : Profile} (he : s.entry tag = .eligible) (hm : s.mode ≠ .transparent) (hme : memError = false)
    (hp : s.profile = some p) : arriveResponse time tag c memError parse s
      = handOff .mToS time (.readResponse tag c memError) c p parse (s.setEntry tag .empty) := by
  simp [arriveResponse, he, hp, hm, hme]

/-- A read response that is not handed is only forwarded, its entry ended (R10). -/
theorem arriveResponse_forwarded (time : Nat) (tag : Tag) (c : Cell) (memError : Bool) (parse : ParseTime)
    (he : s.entry tag ≠ .empty)
    (h : s.entry tag = .ineligible ∨ s.mode = .transparent ∨ memError = true ∨ s.profile = none) :
    arriveResponse time tag c memError parse s
      = arrive .mToS time (.readResponse tag c memError) none (s.setEntry tag .empty) := by
  unfold arriveResponse
  dsimp only
  split
  · exact absurd ‹_› he
  · rw [if_neg (by rintro ⟨hm, hme⟩; simp_all)]
  · rfl
  · rfl

/-- A read response whose entry is EMPTY is an orphan, counted and forwarded (R11). -/
theorem arriveResponse_orphan (time : Nat) (tag : Tag) (c : Cell) (memError : Bool) (parse : ParseTime)
    (he : s.entry tag = .empty) : arriveResponse time tag c memError parse s
      = arrive .mToS time (.readResponse tag c memError) none (s.bump Counter.orphanResponse) := by
  simp [arriveResponse, he]

theorem arriveResponse_atArrival (time : Nat) (tag : Tag) (c : Cell) (memError : Bool) (s : State) :
    arriveResponse time tag c memError .atArrival s
      = if s.waiting .mToS = true then arriveResponse time tag c memError .later s
        else parseWaiting .mToS .decision (arriveResponse time tag c memError .later s) := by
  by_cases he : s.entry tag = .empty
  · simp only [arriveResponse_orphan _ _ _ _ _ he]
    exact arrive_none_atArrival _ _ _ (s.bump Counter.orphanResponse)
  by_cases h : s.entry tag = .ineligible ∨ s.mode = .transparent ∨ memError = true ∨ s.profile = none
  · simp only [arriveResponse_forwarded _ _ _ _ _ he h]
    exact arrive_none_atArrival _ _ _ (s.setEntry tag .empty)
  · simp only [not_or] at h
    obtain ⟨hi, hm, hme, hp⟩ := h
    obtain ⟨p, hp⟩ := Option.ne_none_iff_exists'.mp hp
    have he' : s.entry tag = .eligible := by
      cases e : s.entry tag
      · exact absurd e he
      · rfl
      · exact absurd e hi
    simp only [arriveResponse_handOff _ _ _ _ _ he' hm (Bool.eq_false_iff.mpr hme) hp]
    exact handOff_atArrival _ _ _ _ _ (s.setEntry tag .empty)

/-- Settles O47: an orphan, a response only forwarded, or a hand-off by `handOff_later`. -/
theorem responsesArrive : Obligations.ResponsesArrive := by
  intro s time tag cell memError hr carried
  have run (parse : ParseTime) : exec (.readResponse time tag cell memError parse) s
      = .next (arriveResponse time tag cell memError parse s) :=
    congrArg Host.Outcome.next (whenRunning_released hr _)
  refine ⟨fun he => ?_, fun he => ⟨_, fun tag' => setEntry_outstanding s tag tag' .empty, fun h => ?_,
    fun p hel hm hme hp => ?_⟩, arriveResponse time tag cell memError .later s, run .later, ?_⟩
  · rw [run, arriveResponse_orphan _ _ _ _ _ he, arrive_eq_withArrival]; rfl
  · rw [run, arriveResponse_forwarded _ _ _ _ _ he (h.imp_right (Or.imp_right .inl)), arrive_eq_withArrival]
    rfl
  · obtain ⟨clean, uncounted, counted⟩ :=
      handOff_later .mToS time (.readResponse tag cell memError) cell p (s.setEntry tag .empty)
    rw [run, arriveResponse_handOff _ _ _ _ _ hel hm hme hp]
    exact ⟨fun hc => by rw [clean hc]; rfl, fun hc hb hs => by rw [uncounted hc hb hs]; rfl,
      fun hc hbs => by rw [counted hc hbs]; rfl⟩
  · rw [run, arriveResponse_atArrival]
    have hrun := linkStep_released (exec_linkStep (run .later)) (by simp) hr
    split_ifs
    · rfl
    · exact (congrArg Host.Outcome.next (whenRunning_released hrun _)).symm

/-! ### Leaving (R2, R3, R6) -/

/-- A cell whose parse has ended goes through no further stage. -/
theorem parseTransit_of_ended {x : Transit} (k : ParseStage) (h : x.awaiting = none) (s : State) :
    parseTransit k x s = (x, s) := by
  have up : stageUpTo k (x, s) = (x, s) := if_neg (by simp [Transit.isBefore, h])
  rw [parseTransit, up, up, up]

/-- The oldest cell of a stream that has still to go through a stage does so, and nothing else of the stream
moves (R14, R58). -/
theorem parseWaiting_eq {d : Direction} {k : ParseStage} {before after : List Transit} {x : Transit}
    (hs : s.stream d = before ++ x :: after) (hb : ∀ y ∈ before, y.isBefore k = false)
    (hx : x.isBefore k = true) : parseWaiting d k s
      = (parseTransit k x s).2.setStream d (before ++ (parseTransit k x s).1 :: after) := by
  rw [parseWaiting, hs, parseFirst_spec k before after x hb hx]

theorem setStream_setStream (d : Direction) (ts us : List Transit) (s : State) :
    (s.setStream d ts).setStream d us = s.setStream d us := by cases d <;> rfl

/-- A stage changes nothing of when a transaction arrived and under which setting (R6). -/
theorem parseTransit_times (k : ParseStage) (x : Transit) (s : State) :
    (parseTransit k x s).1.arrivedAt = x.arrivedAt ∧ (parseTransit k x s).1.latency = x.latency :=
  parseTransit_law (Q := fun y => y.arrivedAt = x.arrivedAt ∧ y.latency = x.latency)
    (fun y s h => by
      obtain ⟨-, arrived, latency⟩ := nextStage_transit (s := s) y
      exact ⟨arrived.trans h.1, latency.trans h.2⟩) k x s ⟨rfl, rfl⟩

/-- Settles O48: a cell that still waits is parsed first, and what leaves then is what the parse left. -/
theorem transactionsLeaveAtTheirTime : Obligations.TransactionsLeaveAtTheirTime := by
  refine ⟨fun s α exchange time => ?_, fun s d hr => ?_⟩
  · unfold State.passesExchange
    cases s.link.latency <;> rfl
  have run (u : State) (hu : u.running = true) : exec (.transactionLeaves d) u = .next (leaveStream d u) :=
    congrArg Host.Outcome.next (whenRunning_released hu _)
  refine ⟨fun hd => ?_, fun x rest hd hx => ?_, fun x rest hd hx => ?_⟩
  · rw [run s hr, leaveStream, hd]
  · rw [run s hr, leaveStream, hd]
    dsimp only
    rw [parseTransit_of_ended _ hx]
    cases d <;> cases x.latency <;> rfl
  · have parse : exec (.handedCellParse d .decision) s = .next (parseWaiting d .decision s) :=
      congrArg Host.Outcome.next (whenRunning_released hr _)
    have hu := linkStep_released (exec_linkStep parse) (by simp) hr
    refine ⟨_, parse, ?_⟩
    have stream : (parseWaiting d .decision s).stream d = (parseTransit .decision x s).1 :: rest := by
      rw [parseWaiting_eq (before := []) hd (by simp) (by rw [isBefore_decision, hx])]
      simp
    obtain ⟨arrived, latency⟩ := parseTransit_times .decision x s
    rw [run s hr, run _ hu, leaveStream, leaveStream, hd, stream]
    dsimp only
    rw [parseTransit_of_ended _ (parseTransit_ended x s),
      parseWaiting_eq (before := []) hd (by simp) (by rw [isBefore_decision, hx]), arrived, latency,
      setStream_setStream]

end
end Sys2Proof.Machine

namespace Sys2Proof.Machine

/-! ### The cell header stage (R22 to R25) -/

section
variable {c c' : Cell} {p : Profile}

/-- The bits of a number, the low ones first, spell it as far as they go. -/
theorem foldl_testBit (n w : Nat) :
    (List.range w).foldl (fun acc j => acc + 2 ^ j * (n.testBit j).toNat) 0 = n % 2 ^ w := by
  induction w with
  | zero => simp [Nat.mod_one]
  | succ w ih => rw [List.range_succ, List.foldl_append, ih, Nat.mod_pow_succ, ← Nat.toNat_testBit]; rfl

/-- The queue field is spelled by the two bytes that end at the byte of the profile (R23). -/
theorem queueFieldBit_eq (hp : p.legal) {j : Nat} (hj : j < p.queueWidth) :
    queueFieldBit p c j
      = (cellWord { c with data := 0 :: c.data } p.queueByte / 2 ^ p.queueLsb).testBit j := by
  obtain ⟨-, -, -, -, lsb, width, first, -⟩ := hp
  have word : cellWord { c with data := 0 :: c.data } p.queueByte
      = 2 ^ 8 * (cellByte { c with data := 0 :: c.data } p.queueByte).toNat + (cellByte c p.queueByte).toNat := by
    simp [cellWord, cellByte, Nat.mul_comm]
  rw [word, Nat.testBit_div_two_pow, Nat.testBit_two_pow_mul_add _ (cellByte c p.queueByte).isLt, queueFieldBit]
  split_ifs with h1 h2 h2
  · exact congrArg _ (Nat.add_comm _ _)
  · omega
  · omega
  · obtain ⟨b, hb⟩ := Nat.exists_eq_succ_of_ne_zero (n := p.queueByte) (by omega)
    rw [hb, Nat.add_comm p.queueLsb j]
    rfl

/-- The queue number as the field of two bytes, plus the offset (R23). -/
theorem queueNumber_eq (hp : p.legal) (c : Cell) :
    queueNumber p c = cellWord { c with data := 0 :: c.data } p.queueByte / 2 ^ p.queueLsb
      % 2 ^ p.queueWidth + p.queueOffset := by
  rw [queueNumber, ← foldl_testBit]
  congr 1
  refine List.foldl_ext _ _ _ fun acc j hj => ?_
  rw [queueFieldBit_eq hp (List.mem_range.mp hj)]

/-- The header stage reads only the first 64 bytes of a cell (R7, R22 to R24). -/
theorem headerStage_congr (hp : p.legal) (h : ∀ k, k < 64 → cellByte c k = cellByte c' k) :
    headerStage p c = headerStage p c' := by
  obtain ⟨-, sop, multicast, byte, -, -, -, -, length, -⟩ := hp
  have bit (b : BitPosition) (hb : b.legal) : cellBit c b = cellBit c' b := by
    rw [cellBit, cellBit, h b.byte (Nat.lt_succ_of_le hb.1)]
  have queue : queueNumber p c = queueNumber p c' := by
    simp only [queueNumber, queueFieldBit, h p.queueByte (by omega), h (p.queueByte - 1) (by omega)]
  have packet : packetLength p c = packetLength p c' := by
    rw [packetLength, packetLength, cellWord, cellWord, h p.lengthByte (by omega),
      h (p.lengthByte + 1) (by omega)]
  have flag : multicastFlag p c = multicastFlag p c' := by
    unfold multicastFlag
    split
    · rfl
    · exact bit _ (multicast _ ‹_›)
  simp only [headerStage, bit p.sop sop, queue, packet, flag]

/-- The multicast flag is set when the profile places it and its bit is 1 (R24). -/
theorem multicastFlag_iff : multicastFlag p c = true ↔ ∃ m, p.multicast = some m ∧ cellBit c m = true := by
  unfold multicastFlag
  cases p.multicast <;> simp

/-- The header stage of a start cell whose queue number is legal: the tests of R25 on length and flag. -/
theorem headerStage_start (hs : cellBit c p.sop = true) (q : QueueId) (hq : q.val = queueNumber p c) :
    headerStage p c = if packetLength p c = 0 ∨ 16383 < packetLength p c then .badLength
      else if multicastFlag p c then .multicast else .accepted q (packetLength p c) := by
  have hlt : queueNumber p c < 512 := hq ▸ q.isLt
  have : (⟨queueNumber p c, hlt⟩ : QueueId) = q := Fin.ext hq.symm
  rw [headerStage, if_neg (by simp [hs]), dif_pos hlt, this]

/-! ### The frame stage (R27 to R34) -/

theorem parseWindow_bounds (l : Latency) : 128 ≤ parseWindow l ∧ parseWindow l ≤ 256 := by
  cases l <;> decide

/-- Two cells of one length that agree in a span agree in its list of bytes. -/
theorem dataSpan_congr (hl : c.data.length = c'.data.length) (i n : Nat)
    (h : ∀ k, i ≤ k → k < i + n → cellByte c k = cellByte c' k) :
    (c.data.drop i).take n = (c'.data.drop i).take n := by
  apply List.ext_getElem
  · simp [hl]
  · intro k h1 h2
    simp only [List.length_take, List.length_drop] at h1 h2
    have := h (i + k) (by omega) (by omega)
    rw [cellByte, cellByte, List.getD_eq_getElem _ _ (by omega), List.getD_eq_getElem _ _ (by omega)] at this
    simpa using this

theorem cellWord_congr {i : Nat} (h0 : cellByte c i = cellByte c' i)
    (h1 : cellByte c (i + 1) = cellByte c' (i + 1)) : cellWord c i = cellWord c' i := by
  rw [cellWord, cellWord, h0, h1]

section
variable {w : Nat} (hl : c.data.length = c'.data.length)
  (h : ∀ k, k < w → cellByte c k = cellByte c' k)
include h

theorem etherType_congr {f : Nat} (hf : f + 22 ≤ w) : etherType c f = etherType c' f := by
  have word (i : Nat) (hi : i < f + 21) : cellWord c i = cellWord c' i :=
    cellWord_congr (h i (by omega)) (h (i + 1) (by omega))
  simp only [etherType, word (f + 12) (by omega), word (f + 16) (by omega), word (f + 20) (by omega)]

include hl

theorem tcpWalk_congr (ip : IpPart) (t ipLength ipHeader : Nat) :
    tcpWalk w c ip t ipLength ipHeader = tcpWalk w c' ip t ipLength ipHeader := by
  unfold tcpWalk
  by_cases ht : w ≤ t + 19
  · rw [if_pos ht, if_pos ht]
  have byte (k : Nat) (hk : k ≤ 19) : cellByte c (t + k) = cellByte c' (t + k) := h _ (by omega)
  have word (k : Nat) (hk : k ≤ 18) : cellWord c (t + k) = cellWord c' (t + k) :=
    cellWord_congr (byte k (by omega)) (byte (k + 1) (by omega))
  have word0 : cellWord c t = cellWord c' t := word 0 (by omega)
  simp only [byte 12 (by omega), byte 13 (by omega), word0, word 2 (by omega), word 14 (by omega)]
  rw [if_neg ht, if_neg ht]
  split_ifs with h1 h2 h3 hs
  · rfl
  · rfl
  · rfl
  · have hw : t + 4 * ((cellByte c' (t + 12)).toNat / 16) ≤ w := by
      by_contra hc; exact h3 ⟨hs, by omega⟩
    rw [dataSpan_congr hl _ _ fun k _ hk => h k (by omega)]
  · rfl

theorem ipv4Walk_congr {i : Nat} (hi : i + 20 ≤ w) : ipv4Walk w c i = ipv4Walk w c' i := by
  have byte (k : Nat) (hk : k ≤ 19) : cellByte c (i + k) = cellByte c' (i + k) := h _ (by omega)
  have word (k : Nat) (hk : k ≤ 18) : cellWord c (i + k) = cellWord c' (i + k) :=
    cellWord_congr (byte k (by omega)) (byte (k + 1) (by omega))
  have address (k : Nat) (hk : k ≤ 16) : cellAddress c (i + k) 4 = cellAddress c' (i + k) 4 := by
    rw [cellAddress, cellAddress, dataSpan_congr hl _ _ fun j _ hj => h j (by omega)]
  have byte0 : cellByte c i = cellByte c' i := byte 0 (by omega)
  simp only [ipv4Walk, byte0, byte 1 (by omega), byte 6 (by omega), byte 9 (by omega), word 2 (by omega),
    word 6 (by omega), address 12 (by omega), address 16 (by omega), tcpWalk_congr hl h]

theorem ipv6Walk_congr {i : Nat} (hi : i + 40 ≤ w) : ipv6Walk w c i = ipv6Walk w c' i := by
  have byte (k : Nat) (hk : k ≤ 39) : cellByte c (i + k) = cellByte c' (i + k) := h _ (by omega)
  have word4 : cellWord c (i + 4) = cellWord c' (i + 4) :=
    cellWord_congr (byte 4 (by omega)) (byte 5 (by omega))
  have address (k : Nat) (hk : k ≤ 24) : cellAddress c (i + k) 16 = cellAddress c' (i + k) 16 := by
    rw [cellAddress, cellAddress, dataSpan_congr hl _ _ fun j _ hj => h j (by omega)]
  have byte0 : cellByte c i = cellByte c' i := byte 0 (by omega)
  simp only [ipv6Walk, byte0, byte 1 (by omega), byte 6 (by omega), word4, address 8 (by omega),
    address 24 (by omega), tcpWalk_congr hl h]

end

/-- The byte after the type of a frame at `f` (R28). -/
theorem etherType_bound (c : Cell) (f : Nat) : f + 14 ≤ (etherType c f).2 ∧ (etherType c f).2 ≤ f + 22 := by
  unfold etherType
  split_ifs <;> exact ⟨by dsimp only; omega, by dsimp only; omega⟩

/-- The frame stage reads only the parse window of a cell (R7, R27). -/
theorem frameStage_congr (hp : p.legal) (l : Latency) (hl : c.data.length = c'.data.length)
    (h : ∀ k, k < parseWindow l → cellByte c k = cellByte c' k) :
    frameStage p (parseWindow l) c = frameStage p (parseWindow l) c' := by
  have hw := (parseWindow_bounds l).1
  have hf : p.frameOffset ≤ 64 := hp.1
  have hb := (etherType_bound c' p.frameOffset).2
  simp only [frameStage, etherType_congr h (f := p.frameOffset) (by omega),
    ipv4Walk_congr hl h (i := (etherType c' p.frameOffset).2) (by omega),
    ipv6Walk_congr hl h (i := (etherType c' p.frameOffset).2) (by omega)]

/-- The address at cell byte `i`, as a number. -/
theorem cellAddress_toNat (c : Cell) (i : Nat) {n : Nat} (hn : n ≤ 16) :
    (cellAddress c i n).toNat = paramNat c.data i n := by
  have hlt : paramNat c.data i n < 2 ^ 128 :=
    lt_of_lt_of_le (paramNat_lt _ _ _) ((Nat.pow_le_pow_right (by omega) hn).trans (by norm_num))
  rw [cellAddress, BitVec.toNat_ofNat, ← paramNat, Nat.mod_eq_of_lt hlt]

theorem cellWord_lt (c : Cell) (i : Nat) : cellWord c i < 65536 := by
  have h0 := (cellByte c i).isLt
  have h1 := (cellByte c (i + 1)).isLt
  unfold cellWord
  omega

/-- The type that the walk over at most two tags finds (R28). -/
theorem etherType_of_frameTypeAt {f t i : Nat} (h : frameTypeAt c f t i) : etherType c f = (t, i) := by
  have tag (x : Nat) : isVlanType x = true ↔ x = 0x8100 ∨ x = 0x88A8 := by simp [isVlanType]
  unfold etherType
  rcases h with ⟨h1, rfl, rfl⟩ | ⟨h1, h2, rfl, rfl⟩ | ⟨h1, h2, rfl, rfl⟩
  · simp [Bool.eq_false_iff.mpr (mt (tag _).mp h1)]
  · simp [(tag _).mpr h1, Bool.eq_false_iff.mpr (mt (tag _).mp h2)]
  · simp [(tag _).mpr h1, (tag _).mpr h2]

/-- The walk at a TCP header goes by the tests of R31 to R33 in their order. -/
theorem tcpWalk_shows (w : Nat) (c : Cell) (ip : IpPart) (t total header : Nat) :
    showsWalk (tcpWalk w c ip t total header) w c ip t total header := by
  unfold tcpWalk
  refine ⟨fun h => if_pos h, fun h hw => ?_, fun h h5 hw => ⟨fun hs ht => ?_, fun hs => ?_⟩⟩
  · rw [if_neg (by omega)]
    dsimp only
    by_cases h5 : (cellByte c (t + 12)).toNat / 16 < 5
    · exact if_pos h5
    · rw [if_neg h5, if_pos (hw.resolve_left h5)]
      rfl
  · rw [if_neg (by omega)]
    dsimp only
    rw [if_neg (by omega), if_neg (by omega), if_pos ⟨hs, ht⟩]
    rfl
  · rw [if_neg (by omega)]
    dsimp only
    rw [if_neg (by omega), if_neg (by omega), if_neg (by
      rintro ⟨h1, h2⟩
      rcases hs with hs | hs
      · rw [hs] at h1; cases h1
      · omega)]
    refine ⟨_, rfl, ?_, ?_, rfl, rfl, rfl, rfl, rfl, rfl, rfl, rfl, rfl, rfl⟩
    · simpa using Nat.mod_eq_of_lt (cellWord_lt c t)
    · simpa using Nat.mod_eq_of_lt (cellWord_lt c (t + 2))

/-- The IP part that the walk forms at an IPv4 header (R29). -/
def ipv4Part (c : Cell) (i : Nat) : IpPart :=
  { version := .v4, source := cellAddress c (i + 12) 4, destination := cellAddress c (i + 16) 4
    ecn := (cellByte c (i + 1)).toNat % 4, ecnAt := i + 1, ecnShift := 0, checksumAt := some (i + 10) }

/-- The IP part that the walk forms at an IPv6 header (R30). -/
def ipv6Part (c : Cell) (i : Nat) : IpPart :=
  { version := .v6, source := cellAddress c (i + 8) 16, destination := cellAddress c (i + 24) 16
    ecn := (cellByte c (i + 1)).toNat / 16 % 4, ecnAt := i + 1, ecnShift := 4, checksumAt := none }

theorem ipv4Part_shows (c : Cell) (i : Nat) : showsIpv4 (ipv4Part c i) c i :=
  ⟨rfl, cellAddress_toNat c _ (by omega), cellAddress_toNat c _ (by omega), rfl, rfl, rfl, rfl⟩

theorem ipv6Part_shows (c : Cell) (i : Nat) : showsIpv6 (ipv6Part c i) c i :=
  ⟨rfl, cellAddress_toNat c _ (by omega), cellAddress_toNat c _ (by omega), rfl, rfl, rfl, rfl⟩

/-- The fragment and protocol tests of an IPv4 header (R29): past them the walk goes no further. -/
abbrev ipv4Stops (c : Cell) (i : Nat) : Prop :=
  (cellByte c (i + 6)).getLsbD 5 = true ∨ cellWord c (i + 6) % 8192 ≠ 0 ∨ (cellByte c (i + 9)).toNat ≠ 6

/-- The walk at an IPv4 header, test by test (R29). -/
theorem ipv4Walk_shows (w : Nat) (c : Cell) (i : Nat) :
    let first := (cellByte c i).toNat
    (first / 16 ≠ 4 ∨ first % 16 < 5 → ipv4Walk w c i = ⟨.malformed, none, none⟩)
    ∧ (first / 16 = 4 → 5 ≤ first % 16 →
        (ipv4Stops c i → ipv4Walk w c i = ⟨.ipOther, some (ipv4Part c i), none⟩)
        ∧ (¬ ipv4Stops c i → showsWalk (ipv4Walk w c i) w c (ipv4Part c i) (i + 4 * (first % 16))
            (cellWord c (i + 2)) (4 * (first % 16)))) := by
  refine ⟨fun h => if_pos h, fun h4 h5 => ⟨fun h => ?_, fun h => ?_⟩⟩
  · rw [ipv4Walk, if_neg (by omega)]
    by_cases h1 : (cellByte c (i + 6)).getLsbD 5 = true ∨ cellWord c (i + 6) % 8192 ≠ 0
    · exact if_pos h1
    · exact (if_neg h1).trans (if_pos ((or_assoc.mpr h).resolve_left h1))
  · rw [ipv4Walk, if_neg (by omega)]
    obtain ⟨h1, h2⟩ := not_or.mp (mt or_assoc.mp h)
    dsimp only
    rw [if_neg h1, if_neg h2]
    exact tcpWalk_shows _ _ _ _ _ _

/-- The walk at an IPv6 header, test by test (R30). -/
theorem ipv6Walk_shows (w : Nat) (c : Cell) (i : Nat) :
    ((cellByte c i).toNat / 16 ≠ 6 → ipv6Walk w c i = ⟨.malformed, none, none⟩)
    ∧ ((cellByte c i).toNat / 16 = 6 →
      ((cellByte c (i + 6)).toNat ≠ 6 → ipv6Walk w c i = ⟨.ipOther, some (ipv6Part c i), none⟩)
      ∧ ((cellByte c (i + 6)).toNat = 6 →
          showsWalk (ipv6Walk w c i) w c (ipv6Part c i) (i + 40) (cellWord c (i + 4)) 0)) := by
  refine ⟨fun h => if_pos h, fun h6 => ⟨fun h => ?_, fun h => ?_⟩⟩
  · rw [ipv6Walk, if_neg (by omega)]
    exact if_pos h
  · rw [ipv6Walk, if_neg (by omega)]
    dsimp only
    rw [if_neg (by omega)]
    exact tcpWalk_shows _ _ _ _ _ _

/-! ### The option walk (R33) -/

/-- The step of the option walk over an option with a length byte. -/
theorem optionWalk_option {fuel : Nat} {kind len : Byte} {value : List Byte} {found : Option Nat}
    (h0 : kind ≠ 0) (h1 : kind ≠ 1) : optionWalk (fuel + 1) (kind :: len :: value) found =
      if len.toNat < 2 ∨ value.length < len.toNat - 2 then none
      else optionWalk fuel (value.drop (len.toNat - 2))
        (if kind = 3 ∧ len = 3 ∧ found = none then some (min 14 (value.headD 0).toNat) else found) := by
  rw [optionWalk, if_neg h0, if_neg h1]

/-- A kind without a length byte is unsound. -/
theorem optionWalk_single {fuel : Nat} {kind : Byte} {found : Option Nat} (h0 : kind ≠ 0) (h1 : kind ≠ 1) :
    optionWalk (fuel + 1) [kind] found = none := by
  rw [optionWalk, if_neg h0, if_neg h1]

/-- Fuel above the number of option bytes is never used up. -/
theorem optionWalk_fuel {a b : Nat} {options : List Byte} (found : Option Nat)
    (ha : options.length < a) (hb : options.length < b) :
    optionWalk a options found = optionWalk b options found := by
  induction a generalizing b options found with
  | zero => omega
  | succ a ih =>
    obtain ⟨b, rfl⟩ : ∃ b', b = b' + 1 := ⟨b - 1, by omega⟩
    match options with
    | [] => rfl
    | [kind] =>
      by_cases h0 : kind = 0
      · simp [optionWalk, h0]
      by_cases h1 : kind = 1
      · rw [optionWalk, optionWalk, if_neg h0, if_neg h0, if_pos h1, if_pos h1]
        exact ih _ (by simpa using ha) (by simpa using hb)
      · rw [optionWalk_single h0 h1, optionWalk_single h0 h1]
    | kind :: len :: value =>
      simp only [List.length_cons] at ha hb
      by_cases h0 : kind = 0
      · simp [optionWalk, h0]
      by_cases h1 : kind = 1
      · rw [optionWalk, optionWalk, if_neg h0, if_neg h0, if_pos h1, if_pos h1]
        exact ih _ (by simp; omega) (by simp; omega)
      · rw [optionWalk_option h0 h1, optionWalk_option h0 h1]
        split_ifs
        · rfl
        · exact ih _ (by simp; omega) (by simp; omega)
        · exact ih _ (by simp; omega) (by simp; omega)

/-- The walk reaches the end exactly over sound options, and keeps what it found before (R33). -/
theorem optionWalk_found {fuel : Nat} {options : List Byte} (h : options.length < fuel) :
    (OptionsSound options → ∀ v, optionWalk fuel options (some v) = some (some v))
    ∧ (¬ OptionsSound options → ∀ found, optionWalk fuel options found = none) := by
  induction fuel generalizing options with
  | zero => omega
  | succ fuel ih =>
    match options with
    | [] => exact ⟨fun _ _ => rfl, fun hn => absurd .nil hn⟩
    | kind :: rest =>
      simp only [List.length_cons] at h
      by_cases h0 : kind = 0
      · subst h0
        exact ⟨fun _ v => by simp [optionWalk], fun hn => absurd (.endOfList rest) hn⟩
      by_cases h1 : kind = 1
      · subst h1
        have hs : OptionsSound (1 :: rest) ↔ OptionsSound rest :=
          ⟨fun hs => by
            cases hs with
            | noOperation _ hs => exact hs
            | option _ _ _ _ _ h1 => exact absurd rfl h1, .noOperation rest⟩
        obtain ⟨sound, unsound⟩ := ih (options := rest) (by omega)
        rw [hs]
        exact ⟨fun hr v => by simp [optionWalk, sound hr v], fun hr f => by simp [optionWalk, unsound hr f]⟩
      match rest with
      | [] =>
        refine ⟨fun hs => ?_, fun _ found => optionWalk_single h0 h1⟩
        cases hs with
        | endOfList => exact absurd rfl h0
        | noOperation => exact absurd rfl h1
      | len :: value =>
        have hs : OptionsSound (kind :: len :: value) ↔ ¬ (len.toNat < 2 ∨ value.length < len.toNat - 2)
            ∧ OptionsSound (value.drop (len.toNat - 2)) := by
          constructor
          · intro hs
            cases hs with
            | endOfList => exact absurd rfl h0
            | noOperation => exact absurd rfl h1
            | option _ _ value rest _ _ h2 hl hr =>
              refine ⟨by simp; omega, ?_⟩
              rwa [List.drop_left' hl]
          · rintro ⟨hl, hr⟩
            have := OptionsSound.option kind len (value.take (len.toNat - 2)) _ h0 h1 (by omega)
              (by simp; omega) hr
            rwa [List.take_append_drop] at this
        obtain ⟨sound, unsound⟩ := ih (options := value.drop (len.toNat - 2)) (by simp at h ⊢; omega)
        rw [hs]
        refine ⟨fun ⟨hl, hr⟩ v => ?_, fun hn found => ?_⟩
        · rw [optionWalk_option h0 h1, if_neg hl, if_neg (by simp)]
          exact sound hr v
        · rw [optionWalk_option h0 h1]
          split_ifs with hl
          · rfl
          · exact unsound (fun hr => hn ⟨hl, hr⟩) _
          · exact unsound (fun hr => hn ⟨hl, hr⟩) _

theorem offeredScale_eq {options : List Byte} {fuel : Nat} (h : options.length < fuel) :
    offeredScale options = (optionWalk fuel options none).getD none := by
  rw [offeredScale, optionWalk_fuel none (Nat.lt_succ_self _) h]

/-- A SYN offers the scale of the first window scale option of length 3, when its options are sound (R33). -/
theorem offeredScale_first (value : Byte) (rest : List Byte) :
    (OptionsSound rest → offeredScale (3 :: 3 :: value :: rest) = some (min 14 value.toNat))
    ∧ (¬ OptionsSound rest → offeredScale (3 :: 3 :: value :: rest) = none) := by
  have step : offeredScale (3 :: 3 :: value :: rest)
      = (optionWalk (rest.length + 3) rest (some (min 14 value.toNat))).getD none := by
    rw [offeredScale, optionWalk_option (by decide) (by decide), if_neg (by simp)]
    rfl
  obtain ⟨sound, unsound⟩ := optionWalk_found (options := rest) (fuel := rest.length + 3) (by omega)
  rw [step]
  exact ⟨fun h => by rw [sound h]; rfl, fun h => by rw [unsound h]; rfl⟩

/-- Any other option is stepped over (R33). -/
theorem offeredScale_skip {kind len : Byte} {value rest : List Byte} (h0 : kind ≠ 0) (h1 : kind ≠ 1)
    (h2 : 2 ≤ len.toNat) (hl : value.length = len.toNat - 2) (h3 : kind ≠ 3 ∨ len ≠ 3) :
    offeredScale (kind :: len :: (value ++ rest)) = offeredScale rest := by
  have hskip : ¬ (kind = 3 ∧ len = 3 ∧ (none : Option Nat) = none) := by
    rintro ⟨h, h', -⟩
    exact h3.elim (· h) (· h')
  rw [offeredScale, optionWalk_option h0 h1, if_neg (by simp; omega), if_neg hskip, List.drop_left' hl,
    ← offeredScale_eq (by simp; omega)]

/-- Settles O53: the parts above, each a test or a field of the two stages. -/
theorem parserReadsItsFieldsOnly : Obligations.ParserReadsItsFieldsOnly := by
  refine ⟨fun p c hp => queueNumber_eq hp c, fun p c c' hp h => headerStage_congr hp h,
    fun p l c c' hp hc hc' h => frameStage_congr hp l ?_ h, fun p c => ?_, fun p l c t i ht => ?_,
    rfl, fun rest => rfl, fun rest => rfl, fun kind h0 h1 => ?_, fun kind len value h0 h1 hl => ?_,
    fun kind len value rest h0 h1 h2 hl h3 => offeredScale_skip h0 h1 h2 hl h3, offeredScale_first⟩
  · simp only [Cell.wellFormed, Bool.and_eq_true, beq_iff_eq] at hc hc'
    rw [hc.1, hc'.1]
  · refine ⟨fun hs => if_pos hs, fun hs hq => ?_, fun q hs hq => ?_⟩
    · rw [headerStage, if_neg (by simp [hs]), dif_neg (by omega)]
    · rw [headerStage_start hs q hq]
      refine ⟨fun h => if_pos h, fun h1 h2 hm => ?_, fun h1 h2 hm => ?_⟩
      · rw [if_neg (by unfold packetLength; omega), if_pos (multicastFlag_iff.mpr hm)]
      · rw [if_neg (by unfold packetLength; omega), if_neg (mt multicastFlag_iff.mp hm)]
        rfl
  · obtain ⟨bad4, walk4⟩ := ipv4Walk_shows (parseWindow l) c i
    obtain ⟨bad6, walk6⟩ := ipv6Walk_shows (parseWindow l) c i
    simp only [frameStage, etherType_of_frameTypeAt ht]
    refine ⟨fun h h' => by rw [if_neg h, if_neg h'], fun h hb => by rw [if_pos h, bad4 hb],
      fun h h4 h5 => ⟨_, ipv4Part_shows c i, ?_⟩, fun h h' => ?_, fun h h6 => ⟨_, ipv6Part_shows c i, ?_⟩⟩
    · rw [if_pos h]
      cases l <;> exact walk4 h4 h5
    · rw [if_neg (by omega), if_pos h, bad6 h']
    · rw [if_neg (by omega), if_pos h]
      cases l <;> exact walk6 h6
  · rw [offeredScale, optionWalk_single h0 h1]
    rfl
  · rw [offeredScale, optionWalk_option h0 h1, if_pos hl]
    rfl

end
end Sys2Proof.Machine

namespace Sys2Proof.Machine

/-! ### Check bytes (R12) -/

section
variable {c : Cell}

/-- The bits that a sum of powers of two is made of. -/
theorem foldl_bits_testBit (f : Nat → Bool) (n i : Nat) :
    ((List.range n).foldl (fun acc j => acc + 2 ^ j * (f j).toNat) 0).testBit i = (decide (i < n) && f i)
    ∧ (List.range n).foldl (fun acc j => acc + 2 ^ j * (f j).toNat) 0 < 2 ^ n := by
  induction n with
  | zero => simp
  | succ n ih =>
    obtain ⟨bits, lt⟩ := ih
    rw [List.range_succ, List.foldl_append]
    simp only [List.foldl_cons, List.foldl_nil]
    rw [Nat.add_comm, Nat.testBit_two_pow_mul_add _ lt, bits]
    refine ⟨?_, ?_⟩
    · rcases lt_trichotomy i n with h | rfl | h
      · simp [h, Nat.lt_succ_of_lt h]
      · cases f i <;> simp
      · have : (f n).toNat.testBit (i - n) = false := Nat.testBit_lt_two_pow
          ((Bool.toNat_lt _).trans_le (Nat.one_lt_two_pow (by omega : i - n ≠ 0)))
        simp [this, show ¬ i < n by omega, show ¬ i < n + 1 by omega]
    · have := Bool.toNat_le (f n)
      rw [Nat.pow_succ]
      nlinarith

/-- A byte's parity is whether it holds an odd number of ones. -/
theorem onesOf_parity (b : Byte) : onesOf b % 2 = (parity b).toNat := by
  have all : ∀ x : Fin 256, onesOf (BitVec.ofFin x) % 2 = (parity (BitVec.ofFin x)).toNat := by
    decide +kernel
  exact all b.toFin

/-- Bit `i` of a computed check byte is the parity of byte `i` of its word. -/
theorem computedCheck_getLsbD (c : Cell) (w : Nat) {i : Nat} (hi : i < 8) :
    (computedCheck c w).getLsbD i = parity (cellByte c (8 * w + i)) := by
  rw [computedCheck, BitVec.getLsbD_ofNat, (foldl_bits_testBit (fun i => parity (cellByte c (8 * w + i))) 8 i).1]
  simp [hi]

/-- A byte agrees with its check bit exactly when the two hold an even number of ones (R12). -/
theorem parity_eq_iff (b : Byte) (bit : Bool) : bit = parity b ↔ (onesOf b + bit.toNat) % 2 = 0 := by
  rw [Nat.add_mod, onesOf_parity]
  cases bit <;> cases parity b <;> simp

theorem wordClean_iff (c : Cell) (w : Nat) : wordClean c w = true ↔
    ∀ i, i < 8 → (onesOf (cellByte c (8 * w + i)) + ((c.check.getD w 0).getLsbD i).toNat) % 2 = 0 := by
  rw [wordClean, beq_iff_eq]
  refine ⟨fun h i hi => ?_, fun h => BitVec.eq_of_getLsbD_eq fun i hi => ?_⟩
  · rw [← parity_eq_iff, h, computedCheck_getLsbD c w hi]
  · rw [computedCheck_getLsbD c w hi, parity_eq_iff]
    exact h i hi

theorem cellClean_iff (c : Cell) : cellClean c = true ↔ ∀ w, w < 32 → wordClean c w = true := by
  simp [cellClean, List.all_eq_true]

/-- A cell is clean when each byte holds, with its check bit, an even number of ones (R12). -/
theorem cellClean_iff_bytes (c : Cell) : cellClean c = true ↔ ∀ i, i < 256 →
    (onesOf (c.data.getD i 0) + ((c.check.getD (i / 8) 0).getLsbD (i % 8)).toNat) % 2 = 0 := by
  simp only [cellClean_iff, wordClean_iff]
  refine ⟨fun h i hi => ?_, fun h w hw i hi => ?_⟩
  · have := h (i / 8) (by omega) (i % 8) (by omega)
    rwa [Nat.div_add_mod] at this
  · have := h (8 * w + i) (by omega)
    rwa [show (8 * w + i) / 8 = w by omega, show (8 * w + i) % 8 = i by omega] at this

/-! ### Checksums (R133) -/

/-- The ones'-complement sum of three 16-bit words, folded twice. -/
theorem updateChecksum_spec {c w w' : Nat} (hc : c < 65536) (hw : w < 65536) (hw' : w' < 65536) :
    let sum := (65535 - c) + (65535 - w) + w'
    updateChecksum c w w' < 65536
    ∧ (65535 - updateChecksum c w w') % 65535 = sum % 65535
    ∧ (updateChecksum c w w' = 65535 ↔ sum = 0) := by
  intro sum
  have hs : sum ≤ 196605 := by omega
  have h : updateChecksum c w w' = 65535 - foldCarry (foldCarry sum) := rfl
  rw [h]
  clear_value sum
  unfold foldCarry
  omega

theorem updateChecksum_lt (c w w' : Nat) : updateChecksum c w w' < 65536 :=
  Nat.lt_succ_of_le (Nat.sub_le _ _)

/-! ### New data under old check bytes (R14, R135) -/

theorem wordBytes_eq_iff {data data' : List Byte} (hl : data.length = data'.length) (v : Nat) :
    wordBytes data v = wordBytes data' v ↔
      ∀ k, k < 8 → data.getD (8 * v + k) 0 = data'.getD (8 * v + k) 0 := by
  have byte (l : List Byte) (k : Nat) (hk : k < 8) : l.getD (8 * v + k) 0 = (wordBytes l v).getD k 0 := by
    simp only [wordBytes, List.getD_eq_getElem?_getD]
    rw [List.getElem?_take_of_lt hk, List.getElem?_drop]
  refine ⟨fun h k hk => by rw [byte _ k hk, byte _ k hk, h], fun h => ?_⟩
  apply List.ext_getElem
  · simp [wordBytes, hl]
  · intro k h1 h2
    have hk : k < 8 := by simp only [wordBytes, List.length_take] at h1; omega
    have := h k hk
    rw [byte _ k hk, byte _ k hk, List.getD_eq_getElem _ _ h1, List.getD_eq_getElem _ _ h2] at this
    exact this

theorem withData_check {data : List Byte} {v : Nat} (hv : v < c.check.length) :
    (withData c data).check.getD v 0 = if wordBytes data v = wordBytes c.data v then c.check.getD v 0
      else computedCheck (withData c data) v := by
  have : (withData c data).check[v]? = some (if wordBytes data v = wordBytes c.data v then c.check[v]
      else computedCheck (withData c data) v) := by
    simp [withData, List.getElem?_eq_getElem hv]
    rfl
  rw [List.getD_eq_getElem?_getD, this, List.getD_eq_getElem _ _ hv]
  rfl

theorem wordClean_of_computed {v : Nat} (h : c.check.getD v 0 = computedCheck c v) : wordClean c v = true := by
  rw [wordClean, h, beq_self_eq_true]

/-- A word keeps its check byte when none of its bytes is altered, and is clean when one is (R14). -/
theorem withData_word {data : List Byte} {v : Nat} (hl : data.length = c.data.length)
    (hv : v < c.check.length) :
    ((∀ k, k < 8 → cellByte (withData c data) (8 * v + k) = cellByte c (8 * v + k)) →
      (withData c data).check.getD v 0 = c.check.getD v 0)
    ∧ ((∃ k, k < 8 ∧ cellByte (withData c data) (8 * v + k) ≠ cellByte c (8 * v + k)) →
      wordClean (withData c data) v = true) := by
  have same : wordBytes data v = wordBytes c.data v ↔
      ∀ k, k < 8 → cellByte (withData c data) (8 * v + k) = cellByte c (8 * v + k) := wordBytes_eq_iff hl v
  refine ⟨fun h => ?_, fun ⟨k, hk, h⟩ => wordClean_of_computed ?_⟩
  · rw [withData_check hv, if_pos (same.mpr h)]
  · rw [withData_check hv, if_neg fun e => h (same.mp e k hk)]

/-- New data of the same length under a clean cell gives a clean cell (R14). -/
theorem withData_clean {data : List Byte} (hl : data.length = c.data.length) (hk : c.check.length = 32)
    (hc : cellClean c = true) : cellClean (withData c data) = true := by
  refine (cellClean_iff _).mpr fun v hv => ?_
  obtain ⟨kept, anew⟩ := withData_word (c := c) (v := v) hl (by omega)
  by_cases h : ∀ k, k < 8 → cellByte (withData c data) (8 * v + k) = cellByte c (8 * v + k)
  · have old := (wordClean_iff c v).mp ((cellClean_iff c).mp hc v hv)
    refine (wordClean_iff _ v).mpr fun i hi => ?_
    rw [kept h, h i hi]
    exact old i hi
  · push Not at h
    exact anew h

/-! ### What the decisions write (R128, R132, R133, R135) -/

/-- The two bytes of a list at `i`, most significant first; of a cell's data, `cellWord`. -/
abbrev wordAt (data : List Byte) (i : Nat) : Nat := (data.getD i 0).toNat * 256 + (data.getD (i + 1) 0).toNat

theorem getD_set (data : List Byte) {i : Nat} (hi : i < data.length) (k : Nat) (b : Byte) :
    (data.set i b).getD k 0 = if k = i then b else data.getD k 0 := by
  simp only [List.getD_eq_getElem?_getD, List.getElem?_set]
  split_ifs with h1 h2 h2
  · rfl
  · exact absurd h1.symm h2
  · exact absurd h2.symm h1
  · rfl

@[simp] theorem writeWord_length (data : List Byte) (i v : Nat) : (writeWord data i v).length = data.length := by
  simp [writeWord]

theorem writeWord_getD {data : List Byte} {i : Nat} (hi : i + 1 < data.length) (v k : Nat) :
    (writeWord data i v).getD k 0 = if k = i + 1 then BitVec.ofNat 8 v
      else if k = i then BitVec.ofNat 8 (v / 256) else data.getD k 0 := by
  rw [writeWord, getD_set _ (by simpa using hi), getD_set _ (by omega)]

/-- A 16-bit field reads as what was written to it. -/
theorem wordAt_writeWord {data : List Byte} {i v : Nat} (hi : i + 1 < data.length) (hv : v < 65536) :
    wordAt (writeWord data i v) i = v := by
  rw [wordAt, writeWord_getD hi, writeWord_getD hi, if_neg (by omega), if_pos rfl, if_pos rfl]
  simp only [BitVec.toNat_ofNat]
  omega

/-- Where the walks place the fields of an IP header at some byte `i` within the window `w` (R27 to R30). -/
def IpPart.Placed (ip : IpPart) (w : Nat) : Prop :=
  ∃ i, ip.ecnAt = i + 1 ∧ i + 20 ≤ w ∧ (ip.ecnShift = 0 ∨ ip.ecnShift = 4)
    ∧ ∀ x, ip.checksumAt = some x → x = i + 10

/-- Where the walks place the fields of a record within the window `w` of the cell: a TCP header at some byte
`t`, behind the IP header (R27 to R31). -/
structure FrameRecord.Placed (r : FrameRecord) (w : Nat) (c : Cell) : Prop where
  ip : ∀ ip, r.ip = some ip → ip.Placed w
  tcp : ∀ tcp, r.tcp = some tcp → ∃ t, tcp.windowAt = t + 14 ∧ tcp.checksumAt = t + 16 ∧ t + 19 < w
    ∧ tcp.window = cellWord c (t + 14) ∧ ∃ ip, r.ip = some ip ∧ ip.ecnAt + 19 ≤ t

theorem tcpWalk_placed (w : Nat) (c : Cell) (ip : IpPart) (t total header : Nat) :
    (tcpWalk w c ip t total header).ip = some ip
    ∧ ∀ tcp, (tcpWalk w c ip t total header).tcp = some tcp → tcp.windowAt = t + 14
      ∧ tcp.checksumAt = t + 16 ∧ t + 19 < w ∧ tcp.window = cellWord c (t + 14) := by
  unfold tcpWalk
  dsimp only
  split_ifs with h1
  · exact ⟨rfl, fun _ h => (by cases h)⟩
  · exact ⟨rfl, fun _ h => (by cases h)⟩
  · exact ⟨rfl, fun _ h => (by cases h)⟩
  · exact ⟨rfl, fun _ h => (by cases h)⟩
  all_goals exact ⟨rfl, fun tcp h => by cases h; exact ⟨rfl, rfl, by omega, rfl⟩⟩

/-- A record of a TCP walk behind a placed IP header is placed. -/
theorem tcpWalk_isPlaced {w : Nat} {ip : IpPart} {t : Nat} (total header : Nat)
    (hip : ip.Placed w) (ht : ip.ecnAt + 19 ≤ t) :
    (tcpWalk w c ip t total header).Placed w c := by
  obtain ⟨hr, htcp⟩ := tcpWalk_placed w c ip t total header
  refine ⟨fun ip' h => ?_, fun tcp h => ?_⟩
  · rw [hr] at h; cases h; exact hip
  · obtain ⟨h1, h2, h3, h4⟩ := htcp tcp h
    exact ⟨t, h1, h2, h3, h4, ip, hr, ht⟩

/-- A record without a TCP part, behind a placed IP header. -/
theorem ipRecord_isPlaced {w : Nat} {ip : IpPart} (category : Category)
    (hip : ip.Placed w) : (ipRecord category ip).Placed w c :=
  ⟨fun ip' h => by cases h; exact hip, fun _ h => (by cases h)⟩

theorem bareRecord_isPlaced {w : Nat} (category : Category) :
    FrameRecord.Placed { category := category, ip := none, tcp := none } w c :=
  ⟨fun _ h => (by cases h), fun _ h => (by cases h)⟩

/-- Every record of the frame stage is placed in the parse window. -/
theorem frameStage_placed {p : Profile} (hp : p.legal) (l : Latency) (c : Cell) :
    (frameStage p (parseWindow l) c).Placed (parseWindow l) c := by
  have hw := (parseWindow_bounds l).1
  have hf : p.frameOffset ≤ 64 := hp.1
  have hb := (etherType_bound c p.frameOffset).2
  have hv4 (i : Nat) (hi : i + 20 ≤ parseWindow l) : (ipv4Walk (parseWindow l) c i).Placed (parseWindow l) c := by
    unfold ipv4Walk
    dsimp only
    have placed : (ipv4Part c i).Placed (parseWindow l) :=
      ⟨i, rfl, hi, .inl rfl, fun x h => by cases h; rfl⟩
    split_ifs
    · exact bareRecord_isPlaced _
    · exact ipRecord_isPlaced _ placed
    · exact ipRecord_isPlaced _ placed
    · exact tcpWalk_isPlaced _ _ placed (by show i + 1 + 19 ≤ _; omega)
  have hv6 (i : Nat) (hi : i + 20 ≤ parseWindow l) : (ipv6Walk (parseWindow l) c i).Placed (parseWindow l) c := by
    unfold ipv6Walk
    dsimp only
    have placed : (ipv6Part c i).Placed (parseWindow l) :=
      ⟨i, rfl, hi, .inr rfl, fun x h => (by cases h)⟩
    split_ifs
    · exact bareRecord_isPlaced _
    · exact ipRecord_isPlaced _ placed
    · exact tcpWalk_isPlaced _ _ placed (by show i + 1 + 19 ≤ _; omega)
  unfold frameStage
  dsimp only
  split_ifs
  · exact hv4 _ (by omega)
  · exact hv6 _ (by omega)
  · exact bareRecord_isPlaced _

/-- The bytes that a window rewrite writes (R135). -/
abbrev TcpPart.writes (tcp : TcpPart) (k : Nat) : Prop :=
  k = tcp.windowAt ∨ k = tcp.windowAt + 1 ∨ k = tcp.checksumAt ∨ k = tcp.checksumAt + 1

/-- The bytes that a mark writes (R135). -/
abbrev IpPart.writes (ip : IpPart) (k : Nat) : Prop :=
  k = ip.ecnAt ∨ ∃ x, ip.checksumAt = some x ∧ (k = x ∨ k = x + 1)

/-- The data after the window decision (R128). -/
def windowBytes (c : Cell) (r : FrameRecord) (window : WindowOutcome) : List Byte :=
  match window, r.tcp with
  | .rewrite field, some tcp => writeWindow c tcp field c.data
  | _, _ => c.data

/-- The data after the mark decision (R132). -/
def markBytes (c : Cell) (r : FrameRecord) (mark : MarkOutcome) (data : List Byte) : List Byte :=
  match mark, r.ip with
  | .setCe, some ip => writeMark c ip data
  | _, _ => data

theorem rewriteCell_eq (c : Cell) (r : FrameRecord) (window : WindowOutcome) (mark : MarkOutcome) :
    rewriteCell c r window mark = withData c (markBytes c r mark (windowBytes c r window)) := rfl

@[simp] theorem withData_byte (c : Cell) (data : List Byte) (k : Nat) :
    cellByte (withData c data) k = data.getD k 0 := rfl

theorem getD_set_ne (data : List Byte) {i k : Nat} (h : k ≠ i) (b : Byte) :
    (data.set i b).getD k 0 = data.getD k 0 := by
  simp only [List.getD_eq_getElem?_getD, List.getElem?_set_ne h.symm]

theorem writeWord_getD_ne (data : List Byte) {i k : Nat} (h0 : k ≠ i) (h1 : k ≠ i + 1) (v : Nat) :
    (writeWord data i v).getD k 0 = data.getD k 0 := by
  rw [writeWord, getD_set_ne _ h1, getD_set_ne _ h0]

theorem wordAt_writeWord_ne (data : List Byte) {i j : Nat} (h : j + 1 < i ∨ i + 1 < j) (v : Nat) :
    wordAt (writeWord data i v) j = wordAt data j := by
  rw [wordAt, writeWord_getD_ne _ (by omega) (by omega), writeWord_getD_ne _ (by omega) (by omega)]

@[simp] theorem writeWindow_length (c : Cell) (tcp : TcpPart) (field : Nat) (data : List Byte) :
    (writeWindow c tcp field data).length = data.length := by simp [writeWindow]

@[simp] theorem writeMark_length (c : Cell) (ip : IpPart) (data : List Byte) :
    (writeMark c ip data).length = data.length := by
  unfold writeMark
  dsimp only
  split <;> simp

theorem writeWindow_getD_other (c : Cell) {tcp : TcpPart} (field : Nat) (data : List Byte) {k : Nat}
    (h : ¬ tcp.writes k) : (writeWindow c tcp field data).getD k 0 = data.getD k 0 := by
  simp only [TcpPart.writes, not_or] at h
  obtain ⟨h1, h2, h3, h4⟩ := h
  rw [writeWindow, writeWord_getD_ne _ h3 h4, writeWord_getD_ne _ h1 h2]

theorem writeMark_getD_other (c : Cell) {ip : IpPart} (data : List Byte) {k : Nat} (h : ¬ ip.writes k) :
    (writeMark c ip data).getD k 0 = data.getD k 0 := by
  simp only [IpPart.writes, not_or, not_exists, not_and] at h
  obtain ⟨h1, h2⟩ := h
  unfold writeMark
  dsimp only
  split
  · exact getD_set_ne _ h1 _
  · rename_i x hx
    obtain ⟨h3, h4⟩ := h2 x hx
    rw [writeWord_getD_ne _ h3 h4, getD_set_ne _ h1]

/-- A window rewrite leaves the field and, for it, the updated checksum (R128, R133). -/
theorem writeWindow_words (c : Cell) {tcp : TcpPart} {field : Nat} {data : List Byte}
    (hc : tcp.checksumAt = tcp.windowAt + 2) (hl : tcp.windowAt + 3 < data.length) (hf : field < 65536) :
    wordAt (writeWindow c tcp field data) tcp.windowAt = field
    ∧ wordAt (writeWindow c tcp field data) tcp.checksumAt
      = updateChecksum (cellWord c tcp.checksumAt) tcp.window field := by
  unfold writeWindow
  refine ⟨?_, wordAt_writeWord (by simp; omega) (updateChecksum_lt _ _ _)⟩
  rw [wordAt_writeWord_ne _ (.inl (by omega)), wordAt_writeWord (by omega) hf]

/-- A mark leaves the marked byte and, of an IPv4 header, the checksum updated for its word (R132, R133). -/
theorem writeMark_fields (c : Cell) {ip : IpPart} {data : List Byte} {w : Nat} (hp : ip.Placed w)
    (hl : w ≤ data.length) : (writeMark c ip data).getD ip.ecnAt 0 = markedByte c ip
      ∧ ∀ x, ip.checksumAt = some x → wordAt (writeMark c ip data) x
        = updateChecksum (cellWord c x) (cellWord c (ip.ecnAt - 1))
            ((cellByte c (ip.ecnAt - 1)).toNat * 256 + (markedByte c ip).toNat) := by
  obtain ⟨i, he, hi, -, hx⟩ := hp
  unfold writeMark
  dsimp only
  split
  · rename_i hn
    exact ⟨by rw [getD_set _ (by omega), if_pos rfl], fun x h => by rw [hn] at h; cases h⟩
  · rename_i y hy
    have := hx y hy
    refine ⟨?_, fun x h => ?_⟩
    · rw [writeWord_getD_ne _ (by omega) (by omega), getD_set _ (by omega), if_pos rfl]
    · rw [hy] at h; cases h
      exact wordAt_writeWord (by simp; omega) (updateChecksum_lt _ _ _)

section
variable {r : FrameRecord} {w : WindowOutcome} {m : MarkOutcome}

@[simp] theorem windowBytes_length (c : Cell) (r : FrameRecord) (w : WindowOutcome) :
    (windowBytes c r w).length = c.data.length := by
  unfold windowBytes; split <;> simp

@[simp] theorem markBytes_length (c : Cell) (r : FrameRecord) (m : MarkOutcome) (data : List Byte) :
    (markBytes c r m data).length = data.length := by
  unfold markBytes; split <;> simp

/-- What no window rewrite of the record writes stays. -/
theorem windowBytes_getD_other {k : Nat}
    (h : ∀ tcp field, r.tcp = some tcp → w = .rewrite field → ¬ tcp.writes k) :
    (windowBytes c r w).getD k 0 = cellByte c k := by
  unfold windowBytes
  split
  · exact writeWindow_getD_other c _ _ (h _ _ ‹_› rfl)
  · rfl

/-- What no mark of the record writes stays. -/
theorem markBytes_getD_other {data : List Byte} {k : Nat}
    (h : ∀ ip, r.ip = some ip → m = .setCe → ¬ ip.writes k) :
    (markBytes c r m data).getD k 0 = data.getD k 0 := by
  unfold markBytes
  split
  · exact writeMark_getD_other c _ (h _ ‹_› rfl)
  · rfl

/-- A byte that a rewritten cell shows otherwise belongs to a field that one of the decisions writes (R135). -/
theorem rewriteCell_altered {k : Nat} (h : cellByte (rewriteCell c r w m) k ≠ cellByte c k) :
    (∃ tcp field, r.tcp = some tcp ∧ w = .rewrite field ∧ tcp.writes k)
    ∨ ∃ ip, r.ip = some ip ∧ m = .setCe ∧ ip.writes k := by
  by_contra hn
  rw [not_or] at hn
  obtain ⟨hw, hm⟩ := hn
  refine h ?_
  rw [rewriteCell_eq, withData_byte,
    markBytes_getD_other fun ip hr hs hk => hm ⟨ip, hr, hs, hk⟩,
    windowBytes_getD_other fun tcp field hr hs hk => hw ⟨tcp, field, hr, hs, hk⟩]

/-- The two sets of fields of a placed record do not meet. -/
theorem FrameRecord.Placed.disjoint {v : Nat} (hp : r.Placed v c) {ip : IpPart} {tcp : TcpPart}
    (hip : r.ip = some ip) (htcp : r.tcp = some tcp) {k : Nat} (h : tcp.writes k) : ¬ ip.writes k := by
  obtain ⟨t, h1, h2, -, -, ip', hip', h3⟩ := hp.tcp tcp htcp
  obtain ⟨i, h4, -, -, h5⟩ := hp.ip ip hip
  rw [hip] at hip'; cases hip'
  rintro (hk | ⟨x, hx, hk⟩)
  · unfold TcpPart.writes at h; omega
  · have := h5 x hx
    unfold TcpPart.writes at h; omega

/-- What a window rewrite leaves in the cell, marked or not (R128, R133). -/
theorem rewriteCell_window {v : Nat} (hp : r.Placed v c) (hl : v ≤ c.data.length) {tcp : TcpPart}
    {field : Nat} (htcp : r.tcp = some tcp) (hf : field < 65536) :
    cellWord (rewriteCell c r (.rewrite field) m) tcp.windowAt = field
    ∧ cellWord (rewriteCell c r (.rewrite field) m) tcp.checksumAt
      = updateChecksum (cellWord c tcp.checksumAt) tcp.window field := by
  obtain ⟨t, h1, h2, h3, -, -⟩ := hp.tcp tcp htcp
  have kept (k : Nat) (hk : tcp.writes k) : cellByte (rewriteCell c r (.rewrite field) m) k
      = (writeWindow c tcp field c.data).getD k 0 := by
    rw [rewriteCell_eq, withData_byte, markBytes_getD_other fun ip hip _ => hp.disjoint hip htcp hk]
    simp only [windowBytes, htcp]
  obtain ⟨hw, hc⟩ := writeWindow_words c (tcp := tcp) (field := field) (data := c.data) (by omega) (by omega) hf
  refine ⟨Eq.trans ?_ hw, Eq.trans ?_ hc⟩
  · rw [cellWord, kept _ (.inl rfl), kept _ (.inr (.inl rfl))]
  · rw [cellWord, kept _ (.inr (.inr (.inl rfl))), kept _ (.inr (.inr (.inr rfl)))]

/-- What a mark leaves in the cell, its window rewritten or not (R132, R133). -/
theorem rewriteCell_mark {v : Nat} (hp : r.Placed v c) (hl : v ≤ c.data.length) {ip : IpPart}
    (hip : r.ip = some ip) : cellByte (rewriteCell c r w .setCe) ip.ecnAt = markedByte c ip
      ∧ ∀ x, ip.checksumAt = some x → cellWord (rewriteCell c r w .setCe) x
        = updateChecksum (cellWord c x) (cellWord c (ip.ecnAt - 1))
            (cellWord (rewriteCell c r w .setCe) (ip.ecnAt - 1)) := by
  obtain ⟨hb, hx⟩ := writeMark_fields c (data := windowBytes c r w) (hp.ip ip hip) (by simpa using hl)
  have shown (k : Nat) : cellByte (rewriteCell c r w .setCe) k
      = (writeMark c ip (windowBytes c r w)).getD k 0 := by
    rw [rewriteCell_eq, withData_byte]
    simp only [markBytes, hip]
  obtain ⟨i, he, -, -, hat⟩ := hp.ip ip hip
  refine ⟨(shown _).trans hb, fun x h => ?_⟩
  have before : cellByte (rewriteCell c r w .setCe) (ip.ecnAt - 1) = cellByte c (ip.ecnAt - 1) := by
    rw [shown, writeMark_getD_other, windowBytes_getD_other]
    · intro tcp field htcp _ hk
      obtain ⟨t, h1, h2, -, -, ip', hip', h3⟩ := hp.tcp tcp htcp
      rw [hip] at hip'; cases hip'
      unfold TcpPart.writes at hk; omega
    · rintro (hk | ⟨y, hy, hk⟩)
      · omega
      · have := hat y hy; omega
  have word : cellWord (rewriteCell c r w .setCe) (ip.ecnAt - 1)
      = (cellByte c (ip.ecnAt - 1)).toNat * 256 + (markedByte c ip).toNat := by
    rw [cellWord, before, show ip.ecnAt - 1 + 1 = ip.ecnAt by omega, shown, hb]
  rw [word, ← hx x h, cellWord, shown, shown]

theorem rewriteCell_wellFormed (h : c.wellFormed = true) : (rewriteCell c r w m).wellFormed = true := by
  simpa [Cell.wellFormed, rewriteCell_eq, withData] using h

/-- A rewritten clean cell is clean (R14). -/
theorem rewriteCell_clean (h : c.wellFormed = true) (hc : cellClean c = true) :
    cellClean (rewriteCell c r w m) = true := by
  simp only [Cell.wellFormed, Bool.and_eq_true, beq_iff_eq] at h
  rw [rewriteCell_eq]
  exact withData_clean (by simp) h.2 hc

/-- The bits of the marked byte (R132). -/
theorem markedByte_getLsbD (c : Cell) {ip : IpPart} (hs : ip.ecnShift = 0 ∨ ip.ecnShift = 4) {b : Nat}
    (hb : b < 8) : (markedByte c ip).getLsbD b
      = if b = ip.ecnShift ∨ b = ip.ecnShift + 1 then true else (cellByte c ip.ecnAt).getLsbD b := by
  rw [markedByte]
  generalize cellByte c ip.ecnAt = x
  rcases hs with hs | hs <;> rw [hs] <;> interval_cases b <;> simp

/-- Settles O52. -/
theorem checkBytesAndChecksums : Obligations.CheckBytesAndChecksums := by
  refine ⟨fun c _ => cellClean_iff_bytes c, fun c w w' => updateChecksum_spec,
    fun c r w m h hc => rewriteCell_clean h hc, fun p l c w m hp hw => ?_⟩
  intro r c'
  have placed : r.Placed (parseWindow l) c := frameStage_placed hp l c
  have hw' := hw
  simp only [Cell.wellFormed, Bool.and_eq_true, beq_iff_eq] at hw'
  have hl : parseWindow l ≤ c.data.length := hw'.1 ▸ (parseWindow_bounds l).2
  refine ⟨fun tcp field htcp hw hf => ?_, fun ip hip hm => ?_, fun k hk => rewriteCell_altered hk,
    fun v hv => ?_⟩
  · subst hw
    obtain ⟨t, h1, -, -, h4, -⟩ := placed.tcp tcp htcp
    have := rewriteCell_window (m := m) placed hl htcp (Nat.lt_succ_of_le hf)
    rwa [h4, ← h1] at this
  · subst hm
    obtain ⟨marked, checksum⟩ := rewriteCell_mark (w := w) placed hl hip
    obtain ⟨i, -, -, shift, -⟩ := placed.ip ip hip
    refine ⟨fun b hb => ?_, checksum⟩
    rw [marked]
    exact markedByte_getLsbD c shift hb
  · obtain ⟨kept, anew⟩ := withData_word (c := c) (data := markBytes c r m (windowBytes c r w)) (v := v)
      (by simp) (by omega)
    exact ⟨kept, fun h b hb => (wordClean_iff _ v).mp (anew h) b hb⟩

end
end
end Sys2Proof.Machine

namespace Sys2Proof.Machine

/-! ### The counters of the link and the parser (R171): what the tables count, they leave alone

The counters numbered below 14 are those of the parser, the link and the queue records. The operations on
flows, groups and crossings move only counters numbered from 14 on. -/

section
variable {c : CounterId} (hc : c.val < 14) {s : State}
include hc

theorem bump_counter_below {b : CounterId} (hb : 14 ≤ b.val) (s : State) :
    (s.bump b).counter c = s.counter c := by
  rw [State.bump_counter, if_neg]
  rintro rfl
  omega

theorem offer_counter (e : LogEntry) (s : State) : (offer e s).counter c = s.counter c := by
  unfold offer
  split_ifs
  · rfl
  · rfl
  · exact bump_counter_below hc (by decide) s
  · rfl

theorem offerFor_counter (g : GroupId) (k : LogKind) (a : LogCause) (b : Bool) (s : State) :
    (offerFor g k a b s).counter c = s.counter c := by
  unfold offerFor
  dsimp only
  split
  · rfl
  · exact offer_counter hc _ s

omit hc in
theorem addTotal_counter (g : GroupId) (n : Nat) (s : State) : (addTotal g n s).counter c = s.counter c := by
  unfold addTotal; split <;> rfl

omit hc in
theorem subTotal_counter (g : GroupId) (n : Nat) (s : State) : (subTotal g n s).counter c = s.counter c := by
  unfold subTotal; split <;> rfl

theorem testOnset_counter (g : GroupId) (s : State) : (testOnset g s).counter c = s.counter c := by
  unfold testOnset
  split_ifs
  · simp only [onset, State.flagOnset_counter, bump_counter_below hc (show 14 ≤ Counter.onsets.val by decide),
      offerFor_counter hc, addTotal_counter, State.setGroup_counter]
  · rfl

theorem collapse_counter (g : GroupId) (s : State) : (collapse g s).counter c = s.counter c := by
  simp only [collapse, State.setGroup_counter, offerFor_counter hc]

theorem afterRemoval_counter (g : GroupId) (s : State) : (afterRemoval g s).counter c = s.counter c := by
  unfold afterRemoval
  dsimp only
  split_ifs
  · rw [collapse_counter hc, subTotal_counter]
  · exact subTotal_counter g 1 s
  · rfl
  · rfl

omit hc in
theorem removeMember_counter (f : FlowId) (g : GroupId) (s : State) :
    (removeMember f g s).counter c = s.counter c := by
  unfold removeMember
  dsimp only
  split <;> split <;> rfl

theorem leave_counter (f : FlowId) (s : State) : (leave f s).counter c = s.counter c := by
  unfold leave
  split
  · rfl
  · rw [afterRemoval_counter hc, removeMember_counter]

theorem freeRecord_counter (i : FlowId) (s : State) : (freeRecord i s).counter c = s.counter c := by
  simp only [freeRecord, State.setFlow_counter, leave_counter hc]

omit hc in
theorem appendMember_counter (f : FlowId) (g : GroupId) (s : State) :
    (appendMember f g s).counter c = s.counter c := by
  unfold appendMember
  dsimp only
  split <;> rfl

theorem joinGroup_counter (f : FlowId) (g : GroupId) (s : State) :
    (joinGroup f g s).counter c = s.counter c := by
  have appended : ((appendMember f g s).bump Counter.joins).counter c = s.counter c := by
    rw [bump_counter_below hc (by decide), appendMember_counter]
  unfold joinGroup
  dsimp only
  split_ifs
  · exact bump_counter_below hc (by decide) s
  · rw [addTotal_counter, appended]
  · rw [testOnset_counter hc, appended]
  · exact appended

theorem join_counter (f : FlowId) (side : Side) (key : GroupKey) (s : State) :
    (join f side key s).counter c = s.counter c := by
  unfold join
  dsimp only
  split
  · rw [joinGroup_counter hc, State.setFlow_counter]
  · split
    · rw [joinGroup_counter hc, State.setGroup_counter, State.setFlow_counter]
    · rw [State.flagGroupFull_counter, bump_counter_below hc (by decide), State.setFlow_counter]

theorem joinRequest_counter (f : FlowId) (side : Side) (key : GroupKey) (s : State) :
    (joinRequest f side key s).counter c = s.counter c := by
  unfold joinRequest
  split
  · exact join_counter hc f side key s
  · split_ifs
    · rfl
    · rfl
    · rw [join_counter hc, leave_counter hc]

theorem requestJoin_counter (i : FlowId) (side : Side) (ip : IpPart) (tcp : TcpPart) (q : Option QueueId)
    (s : State) : (requestJoin i side ip tcp q s).counter c = s.counter c := by
  unfold requestJoin
  split
  · rfl
  · split_ifs
    · exact joinRequest_counter hc i side _ s
    · rfl

theorem teardown_counter (i : FlowId) (side : Side) (tcp : TcpPart) (s : State) :
    (teardown i side tcp s).counter c = s.counter c := by
  unfold teardown finTeardown
  dsimp only
  split_ifs
  · exact freeRecord_counter hc i s
  · rw [freeRecord_counter hc, State.setFlow_counter]
  · rfl
  · rfl

theorem trackSegment_counter (i : FlowId) (side : Side) (ip : IpPart) (tcp : TcpPart) (q : Option QueueId)
    (s : State) : (trackSegment i side ip tcp q s).counter c = s.counter c := by
  rw [trackSegment, teardown_counter hc, requestJoin_counter hc, State.setFlow_counter]

theorem takeSegment_counter (ip : IpPart) (tcp : TcpPart) (q : Option QueueId) (s : State) :
    (takeSegment ip tcp q s).counter c = s.counter c := by
  unfold takeSegment
  split
  · exact bump_counter_below hc (by decide) s
  · split
    · exact trackSegment_counter hc _ _ ip tcp q s
    · split_ifs
      · split
        · rw [trackSegment_counter hc, State.setFlow_counter, freeRecord_counter hc]
        · exact bump_counter_below hc (by decide) s
      · rfl

theorem drainEnd_counter (s : State) : (drainEnd s).counter c = s.counter c := by
  unfold drainEnd
  split_ifs
  · exact forGroups_keeps (fun t => t.counter c = s.counter c) testOnset
      (fun g t h => (testOnset_counter hc g t).trans h) rfl
  · rfl

/-- A write-path segment moves no counter of the link and the parser. -/
theorem writeSegment_counter (ip : IpPart) (tcp : TcpPart) (q : Option QueueId) (s : State) :
    (writeSegment ip tcp q s).counter c = s.counter c := by
  unfold writeSegment
  split_ifs
  · rfl
  · rw [drainEnd_counter hc, takeSegment_counter hc]

theorem upwardOn_counter (g : GroupId) (s : State) : (upwardOn g s).counter c = s.counter c := by
  have resumed : (resume g s).counter c = s.counter c := by
    rw [resume, offerFor_counter hc, State.setGroup_counter]
  unfold upwardOn
  split
  · exact testOnset_counter hc g s
  · split_ifs
    · exact resumed
    · rfl
  · split_ifs
    · exact resumed
    · rfl
  · rfl
  · rfl

omit hc in
theorem raisePeak_counter (n : Nat) (g : GroupId) (s : State) : (raisePeak n g s).counter c = s.counter c := by
  unfold raisePeak
  dsimp only
  split_ifs <;> rfl

/-- An enqueue moves no counter of the link and the parser. -/
theorem enqueue_counter (q : QueueId) (n : Nat) (s : State) : (enqueue q n s).counter c = s.counter c := by
  have notice (t : State) (e : Nat) : (enqueueNotice q e t).counter c = t.counter c :=
    forGroupsOn_keeps (fun u => u.counter c = t.counter c) q _
      (fun g u h => (raisePeak_counter e g u).trans h) rfl
  have upward (t : State) : (upwardCrossing q t).counter c = t.counter c :=
    forGroupsOn_keeps (fun u => u.counter c = t.counter c) q _
      (fun g u h => (upwardOn_counter hc g u).trans h) rfl
  unfold enqueue
  dsimp only
  split_ifs
  · rfl
  · rw [notice, upward, State.setQueue_counter]
  · rw [notice, State.setQueue_counter]

theorem signalFall_counter (q : QueueId) (a b : Nat) (s : State) :
    (signalFall q a b s).counter c = s.counter c := by
  have settled (hold : Nat) (g : GroupId) (u : State) : (settle hold g u).counter c = u.counter c := by
    unfold settle
    split
    · rw [offerFor_counter hc, State.setGroup_counter]
    all_goals rfl
  unfold signalFall
  dsimp only
  split_ifs
  · exact forGroupsOn_keeps (fun u => u.counter c = s.counter c) q _
      (fun g u h => (settled _ g u).trans h) rfl
  · rfl

/-- A departure counts depth_underflow when the estimate falls short, and moves no other counter of the link
and the parser (R44). -/
theorem departure_counter (q : QueueId) (n : Nat) (hm : s.mode ≠ .transparent) :
    (departure q n s).counter c = if c = Counter.depthUnderflow ∧ (s.queue q).estimate < n
      then saturate (s.counter c + 1) else s.counter c := by
  unfold departure
  dsimp only
  rw [if_neg hm, signalFall_counter hc]
  by_cases hn : (s.queue q).estimate < n
  · rw [if_pos hn, State.bump_counter]
    by_cases hd : c = Counter.depthUnderflow
    · subst hd; simp [hn]
    · simp [hd]
  · simp [hn]

end
end Sys2Proof.Machine

namespace Sys2Proof.Machine

/-! ### The streams are read by no other block

A write of a stream before an operation of the data path is the same write after it: so the stages of a parse
find the same tables whether or not the stream that they stand in has moved on (R26, R36, R129). -/

section
variable (d : Direction) (ts : List Transit) (s : State)

/-! Single writes. -/

@[simp] theorem setGroup_setStream (g : GroupId) (r : GroupRecord) :
    (s.setStream d ts).setGroup g r = (s.setGroup g r).setStream d ts := by cases d <;> rfl

@[simp] theorem setFlow_setStream (i : FlowId) (r : FlowRecord) :
    (s.setStream d ts).setFlow i r = (s.setFlow i r).setStream d ts := by cases d <;> rfl

@[simp] theorem setTotal_setStream (q : QueueId) (n : Nat) :
    (s.setStream d ts).setTotal q n = (s.setTotal q n).setStream d ts := by cases d <;> rfl

@[simp] theorem setQueue_setStream (q : QueueId) (r : QueueRecord) :
    (s.setStream d ts).setQueue q r = (s.setQueue q r).setStream d ts := by cases d <;> rfl

@[simp] theorem bump_setStream (c : CounterId) :
    (s.setStream d ts).bump c = (s.bump c).setStream d ts := by cases d <;> rfl

@[simp] theorem flagLogOverflow_setStream :
    (s.setStream d ts).flagLogOverflow = s.flagLogOverflow.setStream d ts := by cases d <;> rfl

@[simp] theorem flagOnset_setStream :
    (s.setStream d ts).flagOnset = s.flagOnset.setStream d ts := by cases d <;> rfl

@[simp] theorem flagFlowFull_setStream :
    (s.setStream d ts).flagFlowFull = s.flagFlowFull.setStream d ts := by cases d <;> rfl

@[simp] theorem flagGroupFull_setStream :
    (s.setStream d ts).flagGroupFull = s.flagGroupFull.setStream d ts := by cases d <;> rfl

/-! Operations on groups. -/

@[simp] theorem offer_setStream (e : LogEntry) :
    offer e (s.setStream d ts) = (offer e s).setStream d ts := by
  simp only [offer, State.setStream_mode, State.setStream_log]
  split_ifs
  · rfl
  · rfl
  · simp
  · cases d <;> rfl

@[simp] theorem offerFor_setStream (g : GroupId) (k : LogKind) (a : LogCause) (b : Bool) :
    offerFor g k a b (s.setStream d ts) = (offerFor g k a b s).setStream d ts := by
  cases h : (s.group g).key <;> simp [offerFor, h]

@[simp] theorem addTotal_setStream (g : GroupId) (n : Nat) :
    addTotal g n (s.setStream d ts) = (addTotal g n s).setStream d ts := by
  cases h : (s.group g).key <;> simp [addTotal, h]

@[simp] theorem subTotal_setStream (g : GroupId) (n : Nat) :
    subTotal g n (s.setStream d ts) = (subTotal g n s).setStream d ts := by
  cases h : (s.group g).key <;> simp [subTotal, h]

@[simp] theorem testOnset_setStream (g : GroupId) :
    testOnset g (s.setStream d ts) = (testOnset g s).setStream d ts := by
  have condition : onsetHolds (s.setStream d ts) g = onsetHolds s g := by cases d <;> rfl
  unfold testOnset
  rw [condition]
  split_ifs
  · simp [onset]
  · rfl

@[simp] theorem collapse_setStream (g : GroupId) :
    collapse g (s.setStream d ts) = (collapse g s).setStream d ts := by
  simp [collapse]

@[simp] theorem afterRemoval_setStream (g : GroupId) :
    afterRemoval g (s.setStream d ts) = (afterRemoval g s).setStream d ts := by
  simp only [afterRemoval, State.setStream_group]
  split_ifs <;> simp

theorem forGroups_setStream (f : GroupId → State → State)
    (hf : ∀ g t, f g (t.setStream d ts) = (f g t).setStream d ts) :
    forGroups (s.setStream d ts) f = (forGroups s f).setStream d ts := by
  unfold forGroups
  generalize List.finRange 128 = l
  induction l generalizing s with
  | nil => rfl
  | cons g l ih => rw [List.foldl_cons, List.foldl_cons, hf, ih]

@[simp] theorem drainEnd_setStream : drainEnd (s.setStream d ts) = (drainEnd s).setStream d ts := by
  have mode : ({ s.setStream d ts with mode := .observe } : State)
      = ({ s with mode := .observe } : State).setStream d ts := by cases d <;> rfl
  simp only [drainEnd, State.setStream_mode, State.setStream_anyEpisode, mode]
  split_ifs
  · exact forGroups_setStream d ts _ testOnset fun g t => testOnset_setStream d ts t g
  · rfl

/-! Operations on flow records. -/

@[simp] theorem removeMember_setStream (f : FlowId) (g : GroupId) :
    removeMember f g (s.setStream d ts) = (removeMember f g s).setStream d ts := by
  cases hp : (s.flow f).prev <;> cases hn : (s.flow f).next <;> simp [removeMember, hp, hn]

@[simp] theorem leave_setStream (f : FlowId) :
    leave f (s.setStream d ts) = (leave f s).setStream d ts := by
  cases h : (s.flow f).group <;> simp [leave, h]

@[simp] theorem freeRecord_setStream (i : FlowId) :
    freeRecord i (s.setStream d ts) = (freeRecord i s).setStream d ts := by
  simp [freeRecord]

@[simp] theorem appendMember_setStream (f : FlowId) (g : GroupId) :
    appendMember f g (s.setStream d ts) = (appendMember f g s).setStream d ts := by
  cases h : (s.group g).tail <;> simp [appendMember, h]

@[simp] theorem joinGroup_setStream (f : FlowId) (g : GroupId) :
    joinGroup f g (s.setStream d ts) = (joinGroup f g s).setStream d ts := by
  simp only [joinGroup, State.setStream_group]
  split_ifs <;> simp

@[simp] theorem join_setStream (f : FlowId) (side : Side) (key : GroupKey) :
    join f side key (s.setStream d ts) = (join f side key s).setStream d ts := by
  have find (t : State) : findGroup (t.setStream d ts) key = findGroup t key := by cases d <;> rfl
  have slot (t : State) : groupSlot (t.setStream d ts) = groupSlot t := by cases d <;> rfl
  simp only [join, State.setStream_flow, setFlow_setStream, find, slot]
  split
  · simp
  · split <;> simp

@[simp] theorem joinRequest_setStream (f : FlowId) (side : Side) (key : GroupKey) :
    joinRequest f side key (s.setStream d ts) = (joinRequest f side key s).setStream d ts := by
  simp only [joinRequest, State.setStream_flow]
  split
  · simp
  · simp only [State.setStream_group]
    split_ifs <;> simp

@[simp] theorem requestJoin_setStream (i : FlowId) (side : Side) (ip : IpPart) (tcp : TcpPart)
    (q : Option QueueId) :
    requestJoin i side ip tcp q (s.setStream d ts) = (requestJoin i side ip tcp q s).setStream d ts := by
  unfold requestJoin
  split
  · rfl
  · split_ifs <;> simp

@[simp] theorem teardown_setStream (i : FlowId) (side : Side) (tcp : TcpPart) :
    teardown i side tcp (s.setStream d ts) = (teardown i side tcp s).setStream d ts := by
  simp only [teardown, finTeardown, State.setStream_flow]
  split_ifs <;> simp

@[simp] theorem trackSegment_setStream (i : FlowId) (side : Side) (ip : IpPart) (tcp : TcpPart)
    (q : Option QueueId) :
    trackSegment i side ip tcp q (s.setStream d ts) = (trackSegment i side ip tcp q s).setStream d ts := by
  simp [trackSegment]

theorem findFlowRecord_setStream (key : FlowKey) :
    findFlowRecord (s.setStream d ts) key = findFlowRecord s key := by cases d <;> rfl

theorem allocationWay_setStream (ways : List FlowId) :
    allocationWay (s.setStream d ts) ways = allocationWay s ways := by
  have oldest : oldestCandidate (s.setStream d ts) ways = oldestCandidate s ways := by
    induction ways with
    | nil => rfl
    | cons i rest ih =>
      have candidate : isCandidate (s.setStream d ts) i = isCandidate s i := by cases d <;> rfl
      simp only [oldestCandidate, ih, candidate, State.setStream_now, State.setStream_flow]
  simp only [allocationWay, oldest, State.setStream_flow]

@[simp] theorem takeSegment_setStream (ip : IpPart) (tcp : TcpPart) (q : Option QueueId) :
    takeSegment ip tcp q (s.setStream d ts) = (takeSegment ip tcp q s).setStream d ts := by
  have ways (key : FlowKey) : keyWays (s.setStream d ts) key = keyWays s key := by cases d <;> rfl
  simp only [takeSegment, findFlowRecord_setStream, allocationWay_setStream, ways]
  split
  · simp
  · split
    · simp
    · split_ifs
      · split <;> simp
      · rfl

@[simp] theorem writeSegment_setStream (ip : IpPart) (tcp : TcpPart) (q : Option QueueId) :
    writeSegment ip tcp q (s.setStream d ts) = (writeSegment ip tcp q s).setStream d ts := by
  simp only [writeSegment, State.setStream_mode, takeSegment_setStream, drainEnd_setStream]
  split_ifs <;> rfl

/-! The stages of a parse. -/

theorem takeWriteRecord_setStream (r : FrameRecord) (q : Option QueueId) :
    takeWriteRecord r q (s.setStream d ts) = (takeWriteRecord r q s).setStream d ts := by
  simp only [takeWriteRecord, bump_setStream, writeSegment_setStream]
  split <;> rfl

theorem takeReadRecord_setStream (r : FrameRecord) :
    takeReadRecord r (s.setStream d ts)
      = ((takeReadRecord r s).1, (takeReadRecord r s).2.setStream d ts) := by
  have look (ip : IpPart) (tcp : TcpPart) (t : State) :
      readLookup ip tcp (t.setStream d ts) = readLookup ip tcp t := by cases d <;> rfl
  have after (ip : IpPart) (tcp : TcpPart) (t : State) :
      afterLookup ip tcp (t.setStream d ts) = (afterLookup ip tcp t).setStream d ts := by
    simp only [afterLookup, State.setStream_mode, bump_setStream]
    split_ifs <;> rfl
  simp only [takeReadRecord, bump_setStream, look, after]
  split <;> rfl

theorem decideRead_setStream (r : FrameRecord) (m : Mode) (departed : Option (QueueId × Nat))
    (a : Option FlowAnswer) (c : Cell) : decideRead r m departed a c (s.setStream d ts)
      = ((decideRead r m departed a c s).1.setStream d ts, (decideRead r m departed a c s).2) := by
  have window : windowDecision (s.setStream d ts) r a = windowDecision s r a := by cases d <;> rfl
  have mark : markDecision (s.setStream d ts) r departed = markDecision s r departed := by cases d <;> rfl
  have counted (t : State) (w : WindowOutcome) :
      countWindow w (t.setStream d ts) = (countWindow w t).setStream d ts := by
    cases w <;> simp [countWindow]
  have marked (t : State) (q : QueueId) :
      countMark q (t.setStream d ts) = (countMark q t).setStream d ts := by
    simp only [countMark, State.setStream_mode, State.setStream_queue, setQueue_setStream]
    split_ifs <;> rfl
  have marks (t : State) (w : MarkOutcome) (q : Option QueueId) :
      countMarks w q (t.setStream d ts) = (countMarks w q t).setStream d ts := by
    cases w <;> cases q <;> simp [countMarks, marked]
  simp only [decideRead, window, mark, countDecisions, counted, marks]
  split_ifs <;> rfl

end
end Sys2Proof.Machine

namespace Sys2Proof.Machine

/-! ### Events over the groups, one group at a time (R96) -/

/-- What an event does to one group leaves every other group, and all that no group operation touches. -/
structure GroupAction (f : GroupId → State → State) : Prop where
  frame : ∀ g u, (f g u).groupFrame = u.groupFrame
  other : ∀ {g h}, h ≠ g → ∀ u, (f g u).group h = u.group h

/-- What an event over the groups comes to: built up group by group in ascending index, where each group is met
as it was at the start, in a state that differs only by what the groups before it brought (R96). -/
theorem GroupAction.induct {f : GroupId → State → State} (A : GroupAction f) {s : State}
    {P : List GroupId → State → Prop} (base : P [] s)
    (step : ∀ l g u, g ∉ l → u.groupFrame = s.groupFrame → u.group g = s.group g → P l u →
      P (l ++ [g]) (f g u)) : P (List.finRange 128) (forGroups s f) := by
  have all : ∀ (todo done : List GroupId) (u : State), (done ++ todo).Nodup → u.groupFrame = s.groupFrame →
      (∀ g ∈ todo, u.group g = s.group g) → P done u →
      P (done ++ todo) (todo.foldl (fun u g => f g u) u) := by
    intro todo
    induction todo with
    | nil => intro done u _ _ _ h; simpa using h
    | cons g todo ih =>
      intro done u hd hf hg h
      obtain ⟨hnot, hrest⟩ := (List.nodup_middle.mp hd).notMem, (List.nodup_middle.mp hd).of_cons
      have := ih (done ++ [g]) (f g u) (by simpa using hd) ((A.frame g u).trans hf)
        (fun h hh => ?_) (step done g u (fun hm => hnot (by simp [hm])) hf (hg g (by simp)) h)
      · simpa using this
      · have hne : h ≠ g := fun e => hnot (by simp [← e, hh])
        rw [A.other hne, hg h (by simp [hh])]
  exact all (List.finRange 128) [] s (List.nodup_finRange 128) rfl (fun _ _ => rfl) base

/-- Every group after an event over the groups is what its own action made of it. -/
theorem GroupAction.group {f : GroupId → State → State} (A : GroupAction f) {s : State}
    {G : GroupId → GroupRecord}
    (own : ∀ g u, u.groupFrame = s.groupFrame → u.group g = s.group g → (f g u).group g = G g) (g : GroupId) :
    (forGroups s f).group g = G g := by
  have := A.induct (s := s) (P := fun l u => ∀ h ∈ l, u.group h = G h) (by simp)
    (fun l g u hg hf hu ih h hh => by
      rcases List.mem_append.mp hh with hl | hl
      · have hne : h ≠ g := fun e => hg (e ▸ hl)
        rw [A.other hne, ih h hl]
      · rw [List.mem_singleton.mp hl, own g u hf hu])
  exact this g (List.mem_finRange g)

/-- Every active member total after an event over the groups, from what each action adds to it (R83). -/
theorem GroupAction.total {f : GroupId → State → State} (A : GroupAction f) {s : State} (q : QueueId)
    {n : GroupId → Nat} (own : ∀ g u, u.groupFrame = s.groupFrame → u.group g = s.group g →
      (f g u).total q = u.total q + n g) :
    (forGroups s f).total q = s.total q + Finset.univ.sum n := by
  rw [Fin.sum_univ_def]
  exact A.induct (P := fun l u => u.total q = s.total q + (l.map n).sum) rfl
    (fun l g u _ hf hu ih => by rw [own g u hf hu, ih, List.map_append, List.sum_append, ← Nat.add_assoc]; simp)

/-- An event on the groups of one queue is such an event, too. -/
theorem GroupAction.onQueue {f : GroupId → State → State} (A : GroupAction f) (q : QueueId) :
    GroupAction (fun g s => if (s.group g).key.map GroupKey.queue = some q then f g s else s) where
  frame g u := by
    split_ifs
    · exact A.frame g u
    · rfl
  other hne u := by
    split_ifs
    · exact A.other hne u
    · rfl

/-! ### Crossings and notices at one group (R93 to R98) -/

theorem testOnset_group_ne {g h : GroupId} (hne : h ≠ g) (u : State) :
    (testOnset g u).group h = u.group h := by
  unfold testOnset
  split_ifs
  · rw [onset_group, if_neg hne]
  · rfl

theorem groupAction_upwardOn : GroupAction upwardOn where
  frame := upwardOn_groupFrame
  other {g h} hne u := by
    unfold upwardOn
    split
    · exact testOnset_group_ne hne u
    · split_ifs
      · rw [resume_group, if_neg hne]
      · rfl
    · split_ifs
      · rw [resume_group, if_neg hne]
      · rfl
    · rfl
    · rfl

theorem groupAction_raisePeak (n : Nat) : GroupAction (raisePeak n) where
  frame := raisePeak_groupFrame n
  other {g h} hne u := by rw [raisePeak_group, if_neg fun e => hne e.1]

theorem groupAction_settle (hold : Nat) : GroupAction (settle hold) where
  frame := settle_groupFrame hold
  other {g h} hne u := by rw [settle_group, if_neg fun e => hne e.1]

/-! ### The log through an event -/

/-- An offer to the log reads the mode and the log alone. -/
theorem offer_log_congr {s t : State} (e : LogEntry) (mode : s.mode = t.mode) (log : s.log = t.log) :
    (offer e s).log = (offer e t).log := by
  unfold offer
  rw [mode, log]
  split_ifs <;> simp [log]

@[simp] theorem offerMove_mode (g : GroupId) (k : LogKind) (depth : Nat) (s t : State) :
    (offerMove g k depth s t).mode = t.mode := by
  unfold offerMove
  split
  · rfl
  · exact offer_mode _ t

theorem offer_alerts_onset (e : LogEntry) (s : State) : (offer e s).alerts.onset = s.alerts.onset := by
  unfold offer
  split_ifs <;> rfl

theorem offerFor_alerts_onset (g : GroupId) (k : LogKind) (c : LogCause) (b : Bool) (s : State) :
    (offerFor g k c b s).alerts.onset = s.alerts.onset := by
  unfold offerFor
  dsimp only
  split
  · rfl
  · exact offer_alerts_onset _ s

/-- An offer moves no counter but log_discard. -/
theorem offer_counter_ne {c : CounterId} (hc : c ≠ Counter.logDiscard) (e : LogEntry) (s : State) :
    (offer e s).counter c = s.counter c := by
  unfold offer
  split_ifs
  · rfl
  · rfl
  · exact (State.bump_counter _ _ _).trans (if_neg hc)
  · rfl

theorem offerFor_counter_ne {c : CounterId} (hc : c ≠ Counter.logDiscard) (g : GroupId) (k : LogKind)
    (a : LogCause) (b : Bool) (s : State) : (offerFor g k a b s).counter c = s.counter c := by
  unfold offerFor
  dsimp only
  split
  · rfl
  · exact offer_counter_ne hc _ s

/-- The log after the offer of a transition of group `g`, from a state `t` with the same log: as `offerMove`
gives it, when the group has the key and the count that it has in `s`, and its queue that estimate (R92). -/
theorem offerFor_log_eq {s t u : State} {g : GroupId} (k : LogKind) {depth : Nat}
    (key : (u.group g).key = (s.group g).key) (count : (u.group g).count = (s.group g).count)
    (now : u.now = s.now) (estimate : ∀ key, (s.group g).key = some key → (u.queue key.queue).estimate = depth)
    (mode : u.mode = t.mode) (log : u.log = t.log) :
    (offerFor g k .none false u).log = (offerMove g k depth s t).log := by
  unfold offerMove
  cases hk : (s.group g).key with
  | none => simpa [offerFor, key, hk] using log
  | some gk =>
    rw [offerFor_eq_offer (key.trans hk) k depth (estimate gk hk)]
    have entry : u.moveEntry g gk k depth = s.moveEntry g gk k depth := by
      simp only [State.moveEntry, count]
      rw [show u.time.tick = s.time.tick from now]
    rw [entry]
    exact offer_log_congr _ mode log

/-! ### The onset condition and an onset (R93, R94) -/

theorem onsetHolds_iff (s : State) (g : GroupId) : onsetHolds s g = true ↔
    ∃ key, (s.group g).key = some key ∧ (s.group g).state = .watch ∧ (s.queueClass key.queue).fanIn ≠ 0
      ∧ (s.queueClass key.queue).fanIn ≤ (s.group g).count
      ∧ (s.queueClass key.queue).onsetDepth ≤ (s.queue key.queue).estimate
      ∧ (s.mode = .observe ∨ s.mode = .enforce) := by
  unfold onsetHolds
  dsimp only
  cases (s.group g).key with
  | none => simp
  | some key => simp [and_assoc]

/-- The state in which an onset offers its entry: the group ACTIVE, the total raised. -/
def onsetOpened (g : GroupId) (u : State) : State :=
  addTotal g (u.group g).count (u.setGroup g { u.group g with
    state := .active, onsetAt := some u.now
    peak := some (((u.group g).key.map (fun key => (u.queue key.queue).estimate)).getD 0) })

theorem onset_eq (g : GroupId) (u : State) : onset g u
    = ((offerFor g .onset .none false (onsetOpened g u)).bump Counter.onsets).flagOnset := rfl

theorem onsetOpened_frame (g : GroupId) (u : State) : (onsetOpened g u).groupFrame = u.groupFrame := by
  simp [onsetOpened]

theorem onsetOpened_log (g : GroupId) (u : State) : (onsetOpened g u).log = u.log := by
  unfold onsetOpened addTotal
  split <;> rfl

theorem onset_onsets (g : GroupId) (u : State) :
    (onset g u).counter Counter.onsets = saturate (u.counter Counter.onsets + 1) := by
  rw [onset_eq, State.flagOnset_counter, State.bump_counter, if_pos rfl, offerFor_counter_ne (by decide),
    onsetOpened, addTotal_counter, State.setGroup_counter]

theorem onset_alerts_onset (g : GroupId) (u : State) : (onset g u).alerts.onset = true := rfl

/-- An onset of a group on queue `q`, as `offerMove` gives its entry (R92, R94). -/
theorem onset_log {s t u : State} {g : GroupId} {q : QueueId} {depth : Nat} (hf : u.groupFrame = s.groupFrame)
    (hg : u.group g = s.group g) (hq : (s.group g).key.map GroupKey.queue = some q)
    (he : (s.queue q).estimate = depth) (mode : u.mode = t.mode) (log : u.log = t.log) :
    (onset g u).log = (offerMove g .onset depth s t).log := by
  have hf' := (onsetOpened_frame g u).trans hf
  have own : (onsetOpened g u).group g = { u.group g with
      state := .active, onsetAt := some u.now
      peak := some (((u.group g).key.map (fun key => (u.queue key.queue).estimate)).getD 0) } := by
    simp [onsetOpened]
  rw [onset_eq]
  refine offerFor_log_eq .onset (by rw [own, hg]) (by rw [own, hg]) (groupFrame_now hf') (fun key hk => ?_)
    ((groupFrame_mode hf').trans ((groupFrame_mode hf).symm.trans mode)) ((onsetOpened_log g u).trans log)
  rw [hk] at hq
  rw [groupFrame_queue hf', Option.some.inj hq, he]

theorem resume_log {s t u : State} {g : GroupId} {q : QueueId} {depth : Nat} (hf : u.groupFrame = s.groupFrame)
    (hg : u.group g = s.group g) (hq : (s.group g).key.map GroupKey.queue = some q)
    (he : (s.queue q).estimate = depth) (mode : u.mode = t.mode) (log : u.log = t.log) :
    (resume g u).log = (offerMove g .resume depth s t).log := by
  refine offerFor_log_eq .resume (by simp [hg]) (by simp [hg]) (groupFrame_now hf) (fun key hk => ?_) mode log
  rw [hk] at hq
  rw [State.setGroup_queue, groupFrame_queue hf, Option.some.inj hq, he]

theorem resume_alerts_onset (g : GroupId) (u : State) : (resume g u).alerts.onset = u.alerts.onset :=
  offerFor_alerts_onset _ _ _ _ _

theorem resume_onsets (g : GroupId) (u : State) :
    (resume g u).counter Counter.onsets = u.counter Counter.onsets :=
  offerFor_counter_ne (by decide) _ _ _ _ _

/-! ### An upward crossing (R46, R98) -/

/-- What an enqueue that takes the estimate of `q` to `e` brings the groups of `s`, before the notice: the
groups that open and that resume, with their totals, entries, flag and count (R46, R83, R93, R94, R98). -/
structure Crossed (s : State) (q : QueueId) (e : Nat) (u : State) : Prop where
  group : ∀ g, u.group g = if s.opensAt q e g then
      { s.group g with state := .active, onsetAt := some s.now, peak := some e }
    else if s.resumesAt q e g then
      { s.group g with state := .active, deadline := none, rampEntry := none, rampStart := none }
    else s.group g
  total : ∀ q', u.total q' = s.total q' + if q' = q then
    Finset.univ.sum (fun g => if s.opensAt q e g then (s.group g).count else 0) else 0
  log : u.log = (((List.finRange 128).filter (fun g => decide (s.opensAt q e g ∨ s.resumesAt q e g))).foldl
    (fun t g => offerMove g (if s.opensAt q e g then .onset else .resume) e s t) s).log
  onset : u.alerts.onset = (s.alerts.onset || decide (∃ g, s.opensAt q e g))
  onsets : s.counter Counter.onsets ≤ 4294967295 → u.counter Counter.onsets = min (s.counter Counter.onsets
    + ((List.finRange 128).filter (fun g => decide (s.opensAt q e g))).length) 4294967295

/-- An estimate that does not rise over the onset depth brings the groups nothing. -/
theorem crossed_of_no_crossing {s u : State} {q : QueueId} {e : Nat}
    (h : ¬ ((s.queue q).estimate < (s.queueClass q).onsetDepth ∧ (s.queueClass q).onsetDepth ≤ e))
    (hgc : u.gc = s.gc) (hlog : u.log = s.log) (halerts : u.alerts = s.alerts)
    (hcounters : u.counters = s.counters) : Crossed s q e u := by
  have opens (g : GroupId) : ¬ s.opensAt q e g := fun ho => h ⟨ho.2.1, ho.2.2.1⟩
  have resumes (g : GroupId) : ¬ s.resumesAt q e g := fun ho => h ⟨ho.2.1, ho.2.2.1⟩
  refine ⟨fun g => ?_, fun q' => ?_, ?_, ?_, fun hm => ?_⟩
  · rw [if_neg (opens g), if_neg (resumes g), State.group, hgc]; rfl
  · simp [opens, State.total, hgc]
  · simp [opens, resumes, hlog]
  · simp [opens, halerts]
  · simpa [opens, State.counter, hcounters] using hm

end Sys2Proof.Machine

namespace Sys2Proof.Machine

/-! ### An upward crossing opens and resumes groups (R46, R93, R98) -/

/-- What an upward crossing does at one group: an onset where its condition holds, a RESUME out of SETTLE and
RAMP outside DRAINING (R98). -/
theorem upwardOn_eq (g : GroupId) (u : State) : upwardOn g u = if onsetHolds u g then onset g u
    else if (u.mode = .observe ∨ u.mode = .enforce)
      ∧ ((u.group g).state = .settle ∨ (u.group g).state = .ramp) then resume g u else u := by
  have closed (hw : (u.group g).state ≠ .watch) : onsetHolds u g = false := by
    rw [Bool.eq_false_iff, Ne, onsetHolds_iff]
    rintro ⟨-, -, h, -⟩
    exact hw h
  unfold upwardOn
  cases h : (u.group g).state with
  | watch => simp [testOnset]
  | settle => simp [closed (by simp [h])]
  | ramp => simp [closed (by simp [h])]
  | active => simp [closed (by simp [h])]
  | free => simp [closed (by simp [h])]

section
variable {s u : State} {q : QueueId} {r : QueueRecord} {g : GroupId}
  (hx : (s.queue q).estimate < (s.queueClass q).onsetDepth ∧ (s.queueClass q).onsetDepth ≤ r.estimate)
  (hf : u.groupFrame = (s.setQueue q r).groupFrame) (hg : u.group g = s.group g)
include hx hf hg

/-- While the crossing is signalled, the onset condition of a group of the queue is that it opens (R93). -/
theorem onsetHolds_crossing (hk : (s.group g).key.map GroupKey.queue = some q) :
    onsetHolds u g = true ↔ s.opensAt q r.estimate g := by
  obtain ⟨key, hkey, hq⟩ := Option.map_eq_some_iff.mp hk
  have hclass : u.queueClass q = s.classRecord (s.classNumber q) :=
    (groupFrame_queueClass hf q).trans (State.setQueue_queueClass s q r q)
  have hmode : u.mode = s.mode := (groupFrame_mode hf).trans (State.setQueue_mode s q r)
  have hqueue : u.queue q = r := by rw [groupFrame_queue hf]; simp
  rw [onsetHolds_iff, hg, hmode]
  constructor
  · rintro ⟨key', hkey', hw, hfan, hcount, -, hm⟩
    obtain rfl : key = key' := Option.some.inj (hkey.symm.trans hkey')
    rw [hq, hclass] at hfan hcount
    exact ⟨hk, hx.1, hx.2, hm, hw, hfan, hcount⟩
  · rintro ⟨-, -, -, hm, hw, hfan, hcount⟩
    refine ⟨key, hkey, hw, ?_⟩
    rw [hq, hclass, hqueue]
    exact ⟨hfan, hcount, hx.2, hm⟩

/-- What an upward crossing does at one group, read off the state before the enqueue (R98). -/
theorem upwardOn_crossing : (if (u.group g).key.map GroupKey.queue = some q then upwardOn g u else u)
    = if s.opensAt q r.estimate g then onset g u else if s.resumesAt q r.estimate g then resume g u else u := by
  have hmode : u.mode = s.mode := (groupFrame_mode hf).trans (State.setQueue_mode s q r)
  by_cases hk : (s.group g).key.map GroupKey.queue = some q
  · have resumes : ((u.mode = .observe ∨ u.mode = .enforce)
        ∧ ((u.group g).state = .settle ∨ (u.group g).state = .ramp)) ↔ s.resumesAt q r.estimate g := by
      rw [hmode, hg]
      exact ⟨fun ho => ⟨hk, hx.1, hx.2, ho⟩, fun ho => ho.2.2.2⟩
    rw [if_pos (hg ▸ hk), upwardOn_eq]
    exact if_congr (onsetHolds_crossing hx hf hg hk) rfl (if_congr resumes rfl rfl)
  · rw [hg, if_neg hk, if_neg (fun ho => hk ho.1), if_neg (fun ho => hk ho.1)]

end

@[simp] theorem foldl_offerMove_mode (k : GroupId → LogKind) (depth : Nat) (s : State) (l : List GroupId)
    (t : State) : (l.foldl (fun t g => offerMove g (k g) depth s t) t).mode = t.mode := by
  induction l generalizing t with
  | nil => rfl
  | cons g l ih => rw [List.foldl_cons, ih, offerMove_mode]

/-- What a row of offers makes of the log depends on the log and the mode alone. -/
theorem foldl_offerMove_log_congr (k : GroupId → LogKind) (depth : Nat) (s : State) (l : List GroupId)
    {t u : State} (mode : t.mode = u.mode) (log : t.log = u.log) :
    (l.foldl (fun t g => offerMove g (k g) depth s t) t).log
      = (l.foldl (fun t g => offerMove g (k g) depth s t) u).log := by
  induction l generalizing t u with
  | nil => exact log
  | cons g l ih =>
    refine ih (by simpa using mode) ?_
    dsimp only [offerMove]
    split
    · exact log
    · exact offer_log_congr _ mode log

/-! An event that opens the groups of `O` and resumes those of `R`, all on queue `q` (R94, R98). -/

section
variable {f : GroupId → State → State} (A : GroupAction f) {s : State} {q : QueueId}
  {O R : GroupId → Prop} [DecidablePred O] [DecidablePred R]
  (own : ∀ g u, u.groupFrame = s.groupFrame → u.group g = s.group g →
    f g u = if O g then onset g u else if R g then resume g u else u)
include A own

theorem openings_group (hq : ∀ g, O g → (s.group g).key.map GroupKey.queue = some q) :
    ∀ g, (forGroups s f).group g = if O g then
      { s.group g with state := .active, onsetAt := some s.now, peak := some (s.queue q).estimate }
    else if R g then
      { s.group g with state := .active, deadline := none, rampEntry := none, rampStart := none }
    else s.group g := by
  refine A.group (s := s) fun g u hf hg => ?_
  rw [own g u hf hg]
  split_ifs with ho hr
  · obtain ⟨key, hkey, hkq⟩ := Option.map_eq_some_iff.mp (hq g ho)
    rw [onset_group, if_pos rfl, hg, groupFrame_now hf, hkey, Option.map_some, hkq, groupFrame_queue hf]
    rfl
  · rw [resume_group, if_pos rfl, hg]
  · exact hg

theorem openings_total (hq : ∀ g, O g → (s.group g).key.map GroupKey.queue = some q) (q' : QueueId) :
    (forGroups s f).total q' = s.total q' + if q' = q then
      Finset.univ.sum (fun g => if O g then (s.group g).count else 0) else 0 := by
  have added := A.total (s := s) q' (n := fun g => if O g ∧ q' = q then (s.group g).count else 0)
    fun g u hf hg => by
      rw [own g u hf hg]
      by_cases ho : O g
      · have queue : u.groupQueue g = some q := by rw [State.groupQueue, hg, hq g ho]
        simp [ho, onset_total, queue, hg, eq_comm]
      · by_cases hr : R g <;> simp [ho, hr]
  rw [added]
  by_cases h : q' = q <;> simp [h]

theorem openings_log (hq : ∀ g, O g ∨ R g → (s.group g).key.map GroupKey.queue = some q) :
    (forGroups s f).log = (((List.finRange 128).filter (fun g => decide (O g ∨ R g))).foldl
      (fun t g => offerMove g (if O g then .onset else .resume) (s.queue q).estimate s t) s).log := by
  refine A.induct (s := s) (P := fun l u => u.log = ((l.filter _).foldl _ s).log) rfl
    fun l g u _ hf hg ih => ?_
  have mode := (groupFrame_mode hf).trans (foldl_offerMove_mode (fun g => if O g then .onset else .resume)
    (s.queue q).estimate s (l.filter fun g => decide (O g ∨ R g)) s).symm
  rw [own g u hf hg, List.filter_append, List.foldl_append]
  split_ifs with ho hr
  · simpa [ho] using onset_log hf hg (hq g (.inl ho)) rfl mode ih
  · simpa [ho, hr] using resume_log hf hg (hq g (.inr hr)) rfl mode ih
  · simpa [ho, hr] using ih

theorem openings_onset [Decidable (∃ g, O g)] :
    (forGroups s f).alerts.onset = (s.alerts.onset || decide (∃ g, O g)) := by
  have flagged := A.induct (s := s) (P := fun l u => u.alerts.onset
    = (s.alerts.onset || l.any fun g => decide (O g))) (by simp) fun l g u _ hf hg ih => by
      rw [own g u hf hg, List.any_append]
      split_ifs with ho hr
      · simp [onset_alerts_onset, ho]
      · simpa [resume_alerts_onset, ho] using ih
      · simpa [ho] using ih
  have some_opens : (List.finRange 128).any (fun g => decide (O g)) = decide (∃ g, O g) := by
    rw [Bool.eq_iff_iff]
    simp
  rw [← some_opens]
  exact flagged

theorem openings_onsets (hm : s.counter Counter.onsets ≤ 4294967295) :
    (forGroups s f).counter Counter.onsets = min (s.counter Counter.onsets
      + ((List.finRange 128).filter (fun g => decide (O g))).length) 4294967295 := by
  refine A.induct (s := s) (P := fun l u => u.counter Counter.onsets
    = min (s.counter Counter.onsets + (l.filter _).length) 4294967295)
    (by simpa using (Nat.min_eq_left hm).symm) fun l g u _ hf hg ih => ?_
  rw [own g u hf hg, List.filter_append]
  split_ifs with ho hr
  · rw [onset_onsets, ih, saturate, Config.countMax, List.length_append]
    simp only [ho, decide_true, List.filter_cons_of_pos, List.filter_nil, List.length_cons, List.length_nil]
    omega
  · simpa [resume_onsets, ho] using ih
  · simpa [ho] using ih

end

/-- An upward crossing brings the groups what the estimate's rise over the onset depth calls for (R46, R98). -/
theorem crossed_upwardCrossing {s : State} {q : QueueId} {r : QueueRecord}
    (hx : (s.queue q).estimate < (s.queueClass q).onsetDepth ∧ (s.queueClass q).onsetDepth ≤ r.estimate) :
    Crossed s q r.estimate (upwardCrossing q (s.setQueue q r)) := by
  have A := groupAction_upwardOn.onQueue q
  have own (g : GroupId) (u : State) := @upwardOn_crossing s u q r g hx
  have depth : ((s.setQueue q r).queue q).estimate = r.estimate := by simp
  rw [upwardCrossing, forGroupsOn]
  refine ⟨?_, ?_, ?_, ?_, ?_⟩
  · exact depth ▸ openings_group A (s := s.setQueue q r) (O := s.opensAt q r.estimate)
      (R := s.resumesAt q r.estimate) own (fun g h => h.1)
  · exact openings_total A (s := s.setQueue q r) (O := s.opensAt q r.estimate) (R := s.resumesAt q r.estimate)
      own (fun g h => h.1)
  · refine (openings_log A (s := s.setQueue q r) (O := s.opensAt q r.estimate) (R := s.resumesAt q r.estimate)
      own (q := q) (fun g h => h.elim (·.1) (·.1))).trans ?_
    rw [depth]
    exact foldl_offerMove_log_congr _ _ s _ rfl rfl
  · exact openings_onset A (s := s.setQueue q r) (O := s.opensAt q r.estimate) (R := s.resumesAt q r.estimate) own
  · exact openings_onsets A (s := s.setQueue q r) (O := s.opensAt q r.estimate) (R := s.resumesAt q r.estimate) own

end Sys2Proof.Machine

namespace Sys2Proof.Machine

/-! ### An enqueue outside TRANSPARENT (R43, R46, R95) -/

/-- The estimate of `q` after an enqueue of length `n` (R43). -/
def raisedEstimate (q : QueueId) (n : Nat) (s : State) : Nat := min ((s.queue q).estimate + n) 4294967295

/-- The depth record of `q` after an enqueue of length `n` (R43). -/
def enqueuedRecord (q : QueueId) (n : Nat) (s : State) : QueueRecord :=
  { s.queue q with
    estimate := raisedEstimate q n s
    peak := max (s.queue q).peak (raisedEstimate q n s)
    lastActivity := s.time.tick }

/-- The state in which an enqueue gives its notice: the record written, an upward crossing signalled (R46). -/
def enqueueCrossed (q : QueueId) (n : Nat) (s : State) : State :=
  if (s.queue q).estimate < (s.queueClass q).onsetDepth ∧ (s.queueClass q).onsetDepth ≤ raisedEstimate q n s
  then upwardCrossing q (s.setQueue q (enqueuedRecord q n s)) else s.setQueue q (enqueuedRecord q n s)

section
variable {s : State} (q : QueueId) (n : Nat)

theorem crossed_enqueueCrossed : Crossed s q (raisedEstimate q n s) (enqueueCrossed q n s) := by
  unfold enqueueCrossed
  split_ifs with hx
  · exact crossed_upwardCrossing (r := enqueuedRecord q n s) hx
  · exact crossed_of_no_crossing hx rfl rfl rfl rfl

theorem enqueueCrossed_groupFrame :
    (enqueueCrossed q n s).groupFrame = (s.setQueue q (enqueuedRecord q n s)).groupFrame := by
  unfold enqueueCrossed
  split_ifs
  · exact upwardCrossing_groupFrame q _
  · rfl

/-- A notice raises the peaks of the queue's episodes (R95). -/
theorem enqueueNotice_group (e : Nat) : ∀ g, (enqueueNotice q e s).group g =
    if (s.group g).key.map GroupKey.queue = some q ∧ (s.group g).state.isEpisode = true then
      { s.group g with peak := some (max ((s.group g).peak.getD 0) e) } else s.group g := by
  refine ((groupAction_raisePeak e).onQueue q).group (s := s) fun g u _ hg => ?_
  rw [hg, ite_and]
  split_ifs with hk he
  · rw [raisePeak_group, hg, if_pos ⟨rfl, he⟩]
  · rw [raisePeak_group, hg, if_neg (fun h => he h.2)]
  · exact hg

/-- A notice leaves the totals, the log, the flags and the counters (R95). -/
theorem enqueueNotice_rest (e : Nat) : (enqueueNotice q e s).total = s.total ∧ (enqueueNotice q e s).log = s.log
    ∧ (enqueueNotice q e s).alerts = s.alerts ∧ (enqueueNotice q e s).counter = s.counter := by
  refine forGroupsOn_keeps (fun t => t.total = s.total ∧ t.log = s.log ∧ t.alerts = s.alerts
    ∧ t.counter = s.counter) q _ (fun g t h => ?_) ⟨rfl, rfl, rfl, rfl⟩
  unfold raisePeak
  dsimp only
  split_ifs <;> exact h

variable (hm : s.mode ≠ .transparent)
include hm

theorem enqueue_eq : enqueue q n s = enqueueNotice q (raisedEstimate q n s) (enqueueCrossed q n s) := by
  unfold enqueue
  rw [if_neg hm]
  rfl

theorem enqueue_groupFrame :
    (enqueue q n s).groupFrame = (s.setQueue q (enqueuedRecord q n s)).groupFrame := by
  rw [enqueue_eq q n hm, enqueueNotice_groupFrame, enqueueCrossed_groupFrame]

/-- An enqueue writes the record of its queue and no other (R43). -/
theorem enqueue_queue (q' : QueueId) :
    (enqueue q n s).queue q' = if q' = q then enqueuedRecord q n s else s.queue q' := by
  rw [groupFrame_queue (enqueue_groupFrame q n hm), State.setQueue_queue]

/-- What an enqueue makes of every group: onsets and RESUMEs of an upward crossing, then the notice (R46, R94,
R95, R98). -/
theorem enqueue_group (g : GroupId) : (enqueue q n s).group g =
    if s.opensAt q (raisedEstimate q n s) g then
      { s.group g with state := .active, onsetAt := some s.time.tick, peak := some (raisedEstimate q n s) }
    else if s.resumesAt q (raisedEstimate q n s) g then
      { s.group g with state := .active, deadline := none, rampEntry := none, rampStart := none
                       peak := some (max ((s.group g).peak.getD 0) (raisedEstimate q n s)) }
    else if (s.group g).key.map GroupKey.queue = some q ∧ (s.group g).state.isEpisode = true then
      { s.group g with peak := some (max ((s.group g).peak.getD 0) (raisedEstimate q n s)) }
    else s.group g := by
  have crossed := (crossed_enqueueCrossed (s := s) q n).group g
  rw [enqueue_eq q n hm, enqueueNotice_group, crossed]
  split_ifs with ho hr <;> simp_all [GroupState.isEpisode, State.now]

/-- An enqueue moves totals, log, flag and count by its crossing alone (R46, R83, R94). -/
theorem enqueue_rest : (enqueue q n s).total = (enqueueCrossed q n s).total
    ∧ (enqueue q n s).log = (enqueueCrossed q n s).log ∧ (enqueue q n s).alerts = (enqueueCrossed q n s).alerts
    ∧ (enqueue q n s).counter = (enqueueCrossed q n s).counter := by
  rw [enqueue_eq q n hm]
  exact enqueueNotice_rest q _

end

end Sys2Proof.Machine

namespace Sys2Proof.Machine

/-! ### The stages of one parse (R14, R26, R36) -/

section
variable {x : Transit} {h : Handed} {s : State}

theorem isBefore_of_handed (hx : x.awaiting = some h) (k : ParseStage) :
    x.isBefore k = decide (h.progress.number < stageNumber k) := by
  rw [Transit.isBefore, hx]

theorem isBefore_of_ended (k : ParseStage) (hx : x.awaiting = none) : x.isBefore k = false := by
  rw [Transit.isBefore, hx]

theorem stageUpTo_before {k : ParseStage} (hb : x.isBefore k = true) : stageUpTo k (x, s) = nextStage x s :=
  if_pos hb

theorem stageUpTo_past {k : ParseStage} {r : Transit × State} (hb : r.1.isBefore k = false) :
    stageUpTo k r = r := if_neg (by simp [hb])

/-- A parse to `k` whose next stage is the last that it has to go through is that stage. -/
theorem parseTransit_one {k : ParseStage} (hb : x.isBefore k = true)
    (he : (nextStage x s).1.isBefore k = false) : parseTransit k x s = nextStage x s := by
  rw [parseTransit, stageUpTo_before hb, stageUpTo_past he, stageUpTo_past he]

/-- A parse to `k` with two stages before it is the one and then the other. -/
theorem parseTransit_two {k : ParseStage} {y : Transit} {u : State} (hb : x.isBefore k = true)
    (hn : nextStage x s = (y, u)) (hy : y.isBefore k = true) (he : (nextStage y u).1.isBefore k = false) :
    parseTransit k x s = nextStage y u := by
  rw [parseTransit, stageUpTo_before hb, hn, stageUpTo_before hy, stageUpTo_past he]

/-- A whole parse with three stages before its end is the three, one after the other. -/
theorem parseTransit_three {k : ParseStage} {y z : Transit} {u v : State} (hb : x.isBefore k = true)
    (hn : nextStage x s = (y, u)) (hy : y.isBefore k = true) (hn' : nextStage y u = (z, v))
    (hz : z.isBefore k = true) : parseTransit k x s = nextStage z v := by
  rw [parseTransit, stageUpTo_before hb, hn, stageUpTo_before hy, hn', stageUpTo_before hz]

theorem nextStage_handed (hx : x.awaiting = some h) (hp : h.progress = .handed) :
    nextStage x s = accountTransit x h s := by
  simp only [nextStage, hx, hp]

theorem nextStage_accounted {start : Option (QueueId × Nat)} (hx : x.awaiting = some h)
    (hp : h.progress = .accounted start) : nextStage x s = recordTransit x h start s := by
  simp only [nextStage, hx, hp]

theorem nextStage_answered {start : Option (QueueId × Nat)} {a : Option FlowAnswer}
    (hx : x.awaiting = some h) (hp : h.progress = .answered start a) :
    nextStage x s = decideTransit x h start a s := by
  simp only [nextStage, hx, hp]

end

/-- The parse of the first cell of a stream that has still to go through a stage (R58). -/
theorem exec_handedCellParse {s : State} {d : Direction} {k : ParseStage} {before after : List Transit}
    {x : Transit} (hr : s.running = true) (hs : s.stream d = before ++ x :: after)
    (hb : ∀ y ∈ before, y.awaiting = none) (hx : x.isBefore k = true) {y : Transit} {u : State}
    (hp : parseTransit k x s = (y, u)) :
    exec (.handedCellParse d k) s = .next (u.setStream d (before ++ y :: after)) := by
  refine congrArg Host.Outcome.next ((whenRunning_released hr _).trans ?_)
  rw [parseWaiting_eq hs (fun y hy => isBefore_of_ended k (hb y hy)) hx, hp]

/-! ### The parse of a handed write -/

section
variable {x : Transit} {h : Handed} {s : State} {index : CellIndex} {cell : Cell}
  (hx : x.awaiting = some h) (ht : x.transaction = .fullWrite index cell)
include hx ht

/-- The record stage ends the parse of a write (R36). -/
theorem parseTransit_write_record {k : ParseStage} {start : Option (QueueId × Nat)}
    (hp : h.progress = .accounted start) (hk : 2 ≤ stageNumber k) : parseTransit k x s
      = ({ x with awaiting := none }, takeWriteRecord (handedRecord x h cell) (start.map Prod.fst) s) := by
  have stage : nextStage x s
      = ({ x with awaiting := none }, takeWriteRecord (handedRecord x h cell) (start.map Prod.fst) s) := by
    rw [nextStage_accounted hx hp]
    simp only [recordTransit, ht]
  rw [← stage]
  refine parseTransit_one ?_ ?_
  · rw [isBefore_of_handed hx, hp]
    exact decide_eq_true hk
  · rw [stage]; exact isBefore_of_ended k rfl

variable (hp : h.progress = .handed)
include hp

theorem nextStage_write : nextStage x s = (
    { x with awaiting := (accountWrite h.profile cell s).1.map fun p => { h with progress := .accounted p } },
    (accountWrite h.profile cell s).2) := by
  rw [nextStage_handed hx hp]
  simp only [accountTransit, ht]

/-- The header stage ends the parse of a write that starts no packet or names a bad queue (R22, R25). -/
theorem parseTransit_write_ended (k : ParseStage) {u : State} (ha : accountWrite h.profile cell s = (none, u)) :
    parseTransit k x s = ({ x with awaiting := none }, u) := by
  have stage : nextStage x s = ({ x with awaiting := none }, u) := by
    rw [nextStage_write hx ht hp, ha]; rfl
  rw [← stage]
  refine parseTransit_one ?_ ?_
  · rw [isBefore_of_handed hx, hp]; cases k <;> rfl
  · rw [stage]; exact isBefore_of_ended k rfl

theorem parseTransit_write_accounting {u : State} {start : Option (QueueId × Nat)}
    (ha : accountWrite h.profile cell s = (some start, u)) : parseTransit .accounting x s
      = ({ x with awaiting := some { h with progress := .accounted start } }, u) := by
  have stage : nextStage x s = ({ x with awaiting := some { h with progress := .accounted start } }, u) := by
    rw [nextStage_write hx ht hp, ha]; rfl
  rw [← stage]
  refine parseTransit_one ?_ ?_
  · rw [isBefore_of_handed hx, hp]; rfl
  · rw [stage]; rfl

/-- A whole parse of a write is the header stage and then the record stage (R26, R36). -/
theorem parseTransit_write_decision {u : State} {start : Option (QueueId × Nat)}
    (ha : accountWrite h.profile cell s = (some start, u)) : parseTransit .decision x s
      = ({ x with awaiting := none }, takeWriteRecord (handedRecord x h cell) (start.map Prod.fst) u) := by
  have stage : nextStage x s = ({ x with awaiting := some { h with progress := .accounted start } }, u) := by
    rw [nextStage_write hx ht hp, ha]; rfl
  let y : Transit := { x with awaiting := some { h with progress := .accounted start } }
  have after : nextStage y u
      = ({ x with awaiting := none }, takeWriteRecord (handedRecord x h cell) (start.map Prod.fst) u) := by
    rw [nextStage_accounted (x := y) rfl rfl]
    simp only [recordTransit, y, ht]
    rfl
  rw [← after]
  refine parseTransit_two (isBefore_of_handed hx _ |>.trans (by rw [hp]; rfl)) stage rfl ?_
  rw [after]; rfl

end

/-! ### The parse of a handed read response -/

section
variable {x : Transit} {h : Handed} {s : State} {tag : Tag} {cell : Cell} {e : Bool}
  (hx : x.awaiting = some h) (ht : x.transaction = .readResponse tag cell e)
include hx ht

theorem nextStage_response_record {start : Option (QueueId × Nat)} (hp : h.progress = .accounted start) :
    nextStage x s = (
      { x with awaiting := some { h with progress := .answered start (takeReadRecord (handedRecord x h cell) s).1 } },
      (takeReadRecord (handedRecord x h cell) s).2) := by
  rw [nextStage_accounted hx hp]
  simp only [recordTransit, ht]

theorem nextStage_response_decision {start : Option (QueueId × Nat)} {a : Option FlowAnswer}
    (hp : h.progress = .answered start a) : nextStage x s = (
      { x with
        awaiting := none
        transaction := .readResponse tag (decideRead (handedRecord x h cell) h.mode start a cell s).2 e },
      (decideRead (handedRecord x h cell) h.mode start a cell s).1) := by
  rw [nextStage_answered hx hp]
  simp only [decideTransit, ht]

/-- The record stage of a read response leaves its decisions to be taken (R74). -/
theorem parseTransit_response_record {start : Option (QueueId × Nat)} (hp : h.progress = .accounted start) :
    parseTransit .record x s = (
      { x with awaiting := some { h with progress := .answered start (takeReadRecord (handedRecord x h cell) s).1 } },
      (takeReadRecord (handedRecord x h cell) s).2) := by
  rw [← nextStage_response_record hx ht hp]
  refine parseTransit_one (isBefore_of_handed hx _ |>.trans (by rw [hp]; rfl)) ?_
  rw [nextStage_response_record hx ht hp]; rfl

/-- The decision stage ends the parse of a read response (R129). -/
theorem parseTransit_response_answered {start : Option (QueueId × Nat)} {a : Option FlowAnswer}
    (hp : h.progress = .answered start a) : parseTransit .decision x s = (
      { x with
        awaiting := none
        transaction := .readResponse tag (decideRead (handedRecord x h cell) h.mode start a cell s).2 e },
      (decideRead (handedRecord x h cell) h.mode start a cell s).1) := by
  rw [← nextStage_response_decision hx ht hp]
  refine parseTransit_one (isBefore_of_handed hx _ |>.trans (by rw [hp]; rfl)) ?_
  rw [nextStage_response_decision hx ht hp]; rfl

variable (hp : h.progress = .handed)
include hp

theorem nextStage_response : nextStage x s = (
    { x with awaiting := (accountRead h.profile cell s).1.map fun p => { h with progress := .accounted p } },
    (accountRead h.profile cell s).2) := by
  rw [nextStage_handed hx hp]
  simp only [accountTransit, ht]

/-- The header stage ends the parse of a response that starts no packet or names a bad queue (R22, R25). -/
theorem parseTransit_response_ended (k : ParseStage) {u : State}
    (ha : accountRead h.profile cell s = (none, u)) :
    parseTransit k x s = ({ x with awaiting := none }, u) := by
  have stage : nextStage x s = ({ x with awaiting := none }, u) := by
    rw [nextStage_response hx ht hp, ha]; rfl
  rw [← stage]
  refine parseTransit_one ?_ ?_
  · rw [isBefore_of_handed hx, hp]; cases k <;> rfl
  · rw [stage]; exact isBefore_of_ended k rfl

theorem parseTransit_response_accounting {u : State} {start : Option (QueueId × Nat)}
    (ha : accountRead h.profile cell s = (some start, u)) : parseTransit .accounting x s
      = ({ x with awaiting := some { h with progress := .accounted start } }, u) := by
  have stage : nextStage x s = ({ x with awaiting := some { h with progress := .accounted start } }, u) := by
    rw [nextStage_response hx ht hp, ha]; rfl
  rw [← stage]
  refine parseTransit_one ?_ ?_
  · rw [isBefore_of_handed hx, hp]; rfl
  · rw [stage]; rfl

/-- A whole parse of a response is the header stage, the Flow Table's answer and the decisions (R26, R74,
R129). -/
theorem parseTransit_response_decision {u v : State} {start : Option (QueueId × Nat)} {a : Option FlowAnswer}
    (ha : accountRead h.profile cell s = (some start, u))
    (hv : takeReadRecord (handedRecord x h cell) u = (a, v)) : parseTransit .decision x s = (
      { x with
        awaiting := none
        transaction := .readResponse tag (decideRead (handedRecord x h cell) h.mode start a cell v).2 e },
      (decideRead (handedRecord x h cell) h.mode start a cell v).1) := by
  let y : Transit := { x with awaiting := some { h with progress := .accounted start } }
  let z : Transit := { x with awaiting := some { h with progress := .answered start a } }
  have first : nextStage x s = (y, u) := by
    rw [nextStage_response hx ht hp, ha]; rfl
  have second : nextStage y u = (z, v) := by
    have record : handedRecord y { h with progress := .accounted start } cell = handedRecord x h cell := rfl
    rw [nextStage_response_record (x := y) rfl ht rfl, record, hv]
  rw [parseTransit_three (isBefore_of_handed hx _ |>.trans (by rw [hp]; rfl)) first rfl second rfl,
    nextStage_response_decision (x := z) rfl ht rfl]
  rfl

end
end Sys2Proof.Machine

namespace Sys2Proof.Machine

/-! ### What a parse leaves alone -/

theorem sameControl_of_dataFrame {s t : State} (hf : t.dataFrame = s.dataFrame) : s.sameControl t :=
  ⟨dataFrame_running hf, dataFrame_profile hf, dataFrame_classOf hf, dataFrame_classes hf,
    dataFrame_quietTime hf, dataFrame_idleTime hf, dataFrame_handshakeTime hf, dataFrame_sweepPeriod hf,
    dataFrame_seed hf, dataFrame_sweep hf, dataFrame_lingerTime hf, dataFrame_time hf, dataFrame_kindMask hf,
    dataFrame_level hf, dataFrame_mask hf, dataFrame_port hf, dataFrame_draws hf, dataFrame_pending hf⟩

theorem sameControl_setStream {s t : State} (d : Direction) (ts : List Transit) (h : s.sameControl t) :
    s.sameControl (t.setStream d ts) := by cases d <;> exact h

/-! ### The record stage of a write -/

theorem categoryCounter_below (c : Category) : (categoryCounter c).val < 14 := by cases c <;> decide

theorem categoryCounter_ne_badLength (c : Category) : categoryCounter c ≠ Counter.badLength := by
  cases c <;> decide

theorem categoryCounter_ne_multicastSkipped (c : Category) : categoryCounter c ≠ Counter.multicastSkipped := by
  cases c <;> decide

theorem drainEnd_depths (s : State) : (drainEnd s).depths = s.depths := by
  unfold drainEnd
  split_ifs
  · exact (groupFrame_depths
      (forGroups_groupFrame (s := { s with mode := .observe }) testOnset testOnset_groupFrame)).trans rfl
  · rfl

theorem writeSegment_depths (ip : IpPart) (tcp : TcpPart) (q : Option QueueId) (s : State) :
    (writeSegment ip tcp q s).depths = s.depths := by
  unfold writeSegment
  split_ifs
  · rfl
  · rw [drainEnd_depths, flowFrame_depths (takeSegment_flowFrame ip tcp q s)]

section
variable (r : FrameRecord) (q : Option QueueId) {s : State}

/-- The record stage of a write does not touch the depth records (R26, R36). -/
theorem takeWriteRecord_depths : (takeWriteRecord r q s).depths = s.depths := by
  unfold takeWriteRecord
  dsimp only
  split
  · exact writeSegment_depths _ _ _ _
  · rfl

/-- Of the counters of the link and the parser, the record stage moves that of the category alone (R37). -/
theorem takeWriteRecord_counter {c : CounterId} (hc : c.val < 14) :
    (takeWriteRecord r q s).counter c = (s.bump (categoryCounter r.category)).counter c := by
  unfold takeWriteRecord
  dsimp only
  split
  · exact writeSegment_counter hc _ _ _ _
  · rfl

/-- In TRANSPARENT the Flow Table takes nothing (R52). -/
theorem takeWriteRecord_transparent (hm : s.mode = .transparent) :
    takeWriteRecord r q s = s.bump (categoryCounter r.category) := by
  unfold takeWriteRecord
  dsimp only
  split
  · exact if_pos hm
  · rfl

theorem takeWriteRecord_of_no_tcp (ht : r.tcp = none) :
    takeWriteRecord r q s = s.bump (categoryCounter r.category) := by
  simp [takeWriteRecord, ht]

theorem takeWriteRecord_of_tcp {ip : IpPart} {tcp : TcpPart} (hi : r.ip = some ip) (ht : r.tcp = some tcp) :
    takeWriteRecord r q s = writeSegment ip tcp q (s.bump (categoryCounter r.category)) := by
  simp [takeWriteRecord, hi, ht]

end

theorem setStream_sToM {s t : State} (ts : List Transit) (hl : t.link = s.link) :
    t.setStream .sToM ts = { t with link := { s.link with toMemory := ts } } := by rw [← hl]; rfl

/-- A whole parse of a write that the header stage does not end. -/
theorem write_record_after_accounting {s u : State} {before after : List Transit} {x : Transit} {h : Handed}
    {index : CellIndex} {cell : Cell} {start : Option (QueueId × Nat)} (hr : s.running = true)
    (hs : s.stream .sToM = before ++ x :: after) (hb : ∀ y ∈ before, y.awaiting = none)
    (hx : x.awaiting = some h) (hp : h.progress = .handed) (ht : x.transaction = .fullWrite index cell)
    (ha : accountWrite h.profile cell s = (some start, u)) :
    exec (.handedCellParse .sToM .accounting) s = .next (u.setStream .sToM
      (before ++ { x with awaiting := some { h with progress := .accounted start } } :: after))
    ∧ exec (.handedCellParse .sToM .decision) s
      = .next ((takeWriteRecord (handedRecord x h cell) (start.map Prod.fst) u).setStream .sToM
        (before ++ { x with awaiting := none } :: after))
    ∧ exec (.handedCellParse .sToM .decision) s = exec (.handedCellParse .sToM .record) (u.setStream .sToM
      (before ++ { x with awaiting := some { h with progress := .accounted start } } :: after)) := by
  have waits (k : ParseStage) : x.isBefore k = true := by rw [isBefore_of_handed hx, hp]; cases k <;> rfl
  have whole := exec_handedCellParse hr hs hb (waits .decision) (parseTransit_write_decision hx ht hp ha)
  refine ⟨exec_handedCellParse hr hs hb (waits .accounting) (parseTransit_write_accounting hx ht hp ha),
    whole, whole.trans ?_⟩
  have hu : u.running = true := by
    have := dataFrame_running (accountWrite_dataFrame h.profile cell s)
    rw [ha] at this
    exact this.trans hr
  let y : Transit := { x with awaiting := some { h with progress := .accounted start } }
  have record := exec_handedCellParse (s := u.setStream .sToM (before ++ y :: after)) (k := .record) hu
    (State.setStream_stream_self _ _ _) hb rfl
    (parseTransit_write_record (x := y) (index := index) (cell := cell) rfl ht rfl le_rfl)
  rw [record, takeWriteRecord_setStream, setStream_setStream]
  rfl

end Sys2Proof.Machine

namespace Sys2Proof.Machine

/-! ### The stages of a handed write alone (R36, R46, R58) -/

section
variable {s : State} {before after : List Transit} {x : Transit} {h : Handed} {index : CellIndex}
  {cell : Cell} (hr : s.running = true) (hs : s.link.toMemory = before ++ x :: after)
  (hb : ∀ y ∈ before, y.awaiting = none) (hx : x.awaiting = some h)
  (ht : x.transaction = .fullWrite index cell)
include hr hs hb hx ht

/-- The record stage of a write alone (R36, R58). -/
theorem write_record_stage {start : Option (QueueId × Nat)} (hp : h.progress = .accounted start) :
    exec (.handedCellParse .sToM .record) s = .next ((takeWriteRecord (frameStage h.profile
      (parseWindow x.latency) cell) (start.map Prod.fst) s).setStream .sToM
        (before ++ { x with awaiting := none } :: after)) :=
  exec_handedCellParse (d := .sToM) hr hs hb (by rw [isBefore_of_handed hx, hp]; rfl)
    (parseTransit_write_record hx ht hp le_rfl)

variable (hp : h.progress = .handed)
include hp

/-- The header stage alone, of a write whose cell enqueues (R46, R95, R98). -/
theorem write_accounting_stage {q : QueueId} {n : Nat} (hh : headerStage h.profile cell = .accepted q n)
    (hm : s.mode ≠ .transparent) :
    let e := min ((s.queue q).estimate + n) 4294967295
    ∃ u, exec (.handedCellParse .sToM .accounting) s = .next u
      ∧ u.link = { s.link with toMemory :=
          before ++ { x with awaiting := some { h with progress := .accounted (some (q, 0)) } } :: after }
      ∧ s.sameControl u ∧ u.ft = s.ft ∧ u.mode = s.mode
      ∧ (∀ g, u.group g =
          if s.opensAt q e g then
            { s.group g with state := .active, onsetAt := some s.time.tick, peak := some e }
          else if s.resumesAt q e g then
            { s.group g with state := .active, deadline := none, rampEntry := none, rampStart := none
                             peak := some (max ((s.group g).peak.getD 0) e) }
          else if (s.group g).key.map GroupKey.queue = some q ∧ (s.group g).state.isEpisode = true then
            { s.group g with peak := some (max ((s.group g).peak.getD 0) e) }
          else s.group g)
      ∧ (∀ q', u.total q' = s.total q' + if q' = q then
          Finset.univ.sum (fun g => if s.opensAt q e g then (s.group g).count else 0) else 0)
      ∧ u.log = (((List.finRange 128).filter (fun g => decide (s.opensAt q e g ∨ s.resumesAt q e g))).foldl
          (fun t g => offerMove g (if s.opensAt q e g then .onset else .resume) e s t) s).log
      ∧ u.alerts.onset = (s.alerts.onset || decide (∃ g, s.opensAt q e g))
      ∧ (s.counter Counter.onsets ≤ 4294967295 → u.counter Counter.onsets = min (s.counter Counter.onsets
          + ((List.finRange 128).filter (fun g => decide (s.opensAt q e g))).length) 4294967295) := by
  intro e
  have accepted : accountWrite h.profile cell s = (some (some (q, 0)), enqueue q n s) := by
    unfold accountWrite; rw [hh]
  have crossed := crossed_enqueueCrossed (s := s) q n
  have frame := enqueue_groupFrame q n hm
  obtain ⟨total, log, alerts, counter⟩ := enqueue_rest (s := s) q n hm
  refine ⟨_, (write_record_after_accounting hr hs hb hx hp ht accepted).1, ?_, ?_, ?_, ?_, ?_, ?_, ?_, ?_, ?_⟩
  · rw [setStream_sToM _ (groupFrame_link frame)]; rfl
  · exact sameControl_setStream _ _ (sameControl_of_dataFrame (enqueue_dataFrame q n s))
  · exact (groupFrame_ft frame :)
  · exact (groupFrame_mode frame :)
  · exact enqueue_group q n hm
  · exact fun q' => (congrFun total q').trans (crossed.total q')
  · exact log.trans crossed.log
  · exact (congrArg Alerts.onset alerts).trans crossed.onset
  · exact fun hc => (congrFun counter _).trans (crossed.onsets hc)

end

theorem queue_of_depths {s t : State} (h : t.depths = s.depths) (q : QueueId) : t.queue q = s.queue q := by
  rw [State.queue, h, State.queue]

/-! The state that a whole parse of a write leaves, but for the stream (R26, R36). -/

/-- The header stage and, where it does not end the parse, the record stage. -/
def writeParsed (p : Profile) (r : FrameRecord) (cell : Cell) (s : State) : State :=
  match (accountWrite p cell s).1 with
  | none => (accountWrite p cell s).2
  | some start => takeWriteRecord r (start.map Prod.fst) (accountWrite p cell s).2

section
variable {s : State} {p : Profile} {r : FrameRecord} {cell : Cell}

theorem writeParsed_notStart (hh : headerStage p cell = .notStart) : writeParsed p r cell s = s := by
  simp [writeParsed, accountWrite, hh]

theorem writeParsed_badQueue (hh : headerStage p cell = .badQueue) :
    writeParsed p r cell s = s.bump Counter.badQueue := by
  simp [writeParsed, accountWrite, hh]

theorem writeParsed_badLength (hh : headerStage p cell = .badLength) :
    writeParsed p r cell s = takeWriteRecord r none (s.bump Counter.badLength) := by
  simp [writeParsed, accountWrite, hh]

theorem writeParsed_multicast (hh : headerStage p cell = .multicast) :
    writeParsed p r cell s = takeWriteRecord r none (s.bump Counter.multicastSkipped) := by
  simp [writeParsed, accountWrite, hh]

theorem writeParsed_accepted {q : QueueId} {n : Nat} (hh : headerStage p cell = .accepted q n) :
    writeParsed p r cell s = takeWriteRecord r (some q) (enqueue q n s) := by
  simp [writeParsed, accountWrite, hh]

theorem writeParsed_of_ended (ha : (accountWrite p cell s).1 = none) :
    writeParsed p r cell s = (accountWrite p cell s).2 := by
  simp [writeParsed, ha]

theorem writeParsed_of_start {start : Option (QueueId × Nat)} (ha : (accountWrite p cell s).1 = some start) :
    writeParsed p r cell s = takeWriteRecord r (start.map Prod.fst) (accountWrite p cell s).2 := by
  simp [writeParsed, ha]

theorem writeParsed_dataFrame : (writeParsed p r cell s).dataFrame = s.dataFrame := by
  unfold writeParsed
  split <;> simp

/-- The header stage goes on with every start cell but of a bad queue (R25, R26). -/
theorem accountWrite_goes_on (hn : headerStage p cell ≠ .notStart) (hq : headerStage p cell ≠ .badQueue) :
    ∃ start, (accountWrite p cell s).1 = some start := by
  unfold accountWrite
  split <;> simp_all

/-- The header stage moves no category counter (R37). -/
theorem accountWrite_category (c : Category) :
    (accountWrite p cell s).2.counter (categoryCounter c) = s.counter (categoryCounter c) := by
  unfold accountWrite
  split
  · rfl
  · exact (s.bump_counter _ _).trans (if_neg (by cases c <;> decide))
  · exact (s.bump_counter _ _).trans (if_neg (by cases c <;> decide))
  · exact (s.bump_counter _ _).trans (if_neg (by cases c <;> decide))
  · exact enqueue_counter (categoryCounter_below c) _ _ _

theorem enqueue_transparent (hm : s.mode = .transparent) (q : QueueId) (n : Nat) : enqueue q n s = s :=
  if_pos hm

/-- In TRANSPARENT the header stage only counts (R52). -/
theorem accountWrite_transparent (hm : s.mode = .transparent) : (accountWrite p cell s).2.mode = .transparent
    ∧ (accountWrite p cell s).2.ft = s.ft ∧ (accountWrite p cell s).2.gc = s.gc := by
  unfold accountWrite
  split <;> simp [enqueue_transparent hm, hm]

theorem writeParsed_transparent (hm : s.mode = .transparent) :
    (writeParsed p r cell s).ft = s.ft ∧ (writeParsed p r cell s).gc = s.gc := by
  obtain ⟨mode, ft, gc⟩ := accountWrite_transparent (p := p) (cell := cell) hm
  unfold writeParsed
  split
  · exact ⟨ft, gc⟩
  · rw [takeWriteRecord_transparent _ _ mode]
    exact ⟨ft, gc⟩

end

/-- A whole parse of a handed write, the only cell of its stream to change (R14, R26, R36). -/
theorem exec_write_decision {s : State} {before after : List Transit} {x : Transit} {h : Handed}
    {index : CellIndex} {cell : Cell} (hr : s.running = true) (hs : s.link.toMemory = before ++ x :: after)
    (hb : ∀ y ∈ before, y.awaiting = none) (hx : x.awaiting = some h) (hp : h.progress = .handed)
    (ht : x.transaction = .fullWrite index cell) : exec (.handedCellParse .sToM .decision) s
      = .next ((writeParsed h.profile (frameStage h.profile (parseWindow x.latency) cell) cell s).setStream .sToM
        (before ++ { x with awaiting := none } :: after)) := by
  cases ha : (accountWrite h.profile cell s).1 with
  | none =>
    rw [writeParsed_of_ended ha]
    exact exec_handedCellParse (d := .sToM) hr hs hb (by rw [isBefore_of_handed hx, hp]; rfl)
      (parseTransit_write_ended hx ht hp .decision (Prod.ext ha rfl))
  | some start =>
    rw [writeParsed_of_start ha]
    exact (write_record_after_accounting hr hs hb hx hp ht (Prod.ext ha rfl)).2.1

/-- Settles O49: the whole parse by `writeParsed` and its cases, the record stage alone by `takeWriteRecord`, the
header stage alone by the crossing of an enqueue. -/
theorem handedWriteIsAccounted : Obligations.HandedWriteIsAccounted := by
  refine ⟨fun s before after x h index cell hr hs hb hx hp ht => ?_,
    ?_, fun s before after x h index cell q n hr hs hb hx hp ht hh hm =>
      write_accounting_stage hr hs hb hx ht hp hh hm⟩
  · have frame := writeParsed_dataFrame (s := s) (p := h.profile) (cell := cell)
      (r := frameStage h.profile (parseWindow x.latency) cell)
    have link := setStream_sToM (before ++ { x with awaiting := none } :: after) (dataFrame_link frame)
    refine ⟨_, exec_write_decision hr hs hb hx hp ht, congrArg State.link link,
      sameControl_setStream _ _ (sameControl_of_dataFrame frame), fun hh => ?_, fun hh => ?_, fun hh => ?_,
      fun hh => ?_, fun q n hh => ⟨fun hm => ?_, fun hm => ⟨?_, fun q' hq => ?_⟩⟩, fun hn hq => ?_,
      fun hm => ?_, fun hn hq => ?_⟩
    · rw [writeParsed_notStart hh]; rfl
    · rw [writeParsed_badQueue hh]; rfl
    · rw [writeParsed_badLength hh]
      refine ⟨takeWriteRecord_depths _ _, (takeWriteRecord_counter _ _ (by decide)).trans ?_⟩
      rw [State.bump_counter, if_neg (categoryCounter_ne_badLength _).symm, State.bump_counter, if_pos rfl]
      rfl
    · rw [writeParsed_multicast hh]
      refine ⟨takeWriteRecord_depths _ _, (takeWriteRecord_counter _ _ (by decide)).trans ?_⟩
      rw [State.bump_counter, if_neg (categoryCounter_ne_multicastSkipped _).symm, State.bump_counter, if_pos rfl]
      rfl
    · rw [writeParsed_accepted hh, enqueue_transparent hm]
      exact takeWriteRecord_depths _ _
    · rw [writeParsed_accepted hh, State.setStream_queue, queue_of_depths (takeWriteRecord_depths _ _),
        enqueue_queue q n hm, if_pos rfl]
      rfl
    · rw [writeParsed_accepted hh, State.setStream_queue, queue_of_depths (takeWriteRecord_depths _ _),
        enqueue_queue q n hm, if_neg hq]
    · obtain ⟨start, ha⟩ := accountWrite_goes_on (s := s) hn hq
      rw [writeParsed_of_start ha]
      refine (takeWriteRecord_counter _ _ (categoryCounter_below _)).trans ?_
      rw [State.bump_counter, if_pos rfl, accountWrite_category]
      rfl
    · exact writeParsed_transparent hm
    · obtain ⟨start, ha⟩ := accountWrite_goes_on (s := s) hn hq
      obtain ⟨accounting, -, whole⟩ := write_record_after_accounting hr hs hb hx hp ht (Prod.ext ha rfl)
      exact ⟨_, accounting, whole⟩
  · intro s before after x h index cell start hr hs hb hx hp ht record counted link
    have stage := write_record_stage hr hs hb hx ht hp
    refine ⟨fun hno => ?_, fun ip tcp hi htcp => ?_⟩
    · rw [stage, takeWriteRecord_of_no_tcp _ _ hno]
      rfl
    · rw [stage, takeWriteRecord_of_tcp _ _ hi htcp,
        setStream_sToM (s := s) _ (dataFrame_link (writeSegment_dataFrame ip tcp _ counted))]

end Sys2Proof.Machine

namespace Sys2Proof.Machine

/-! ### A downward crossing settles groups (R47, R97) -/

theorem settle_log {s t u : State} {g : GroupId} {q : QueueId} {depth hold : Nat}
    (hf : u.groupFrame = s.groupFrame) (hg : u.group g = s.group g) (ha : (s.group g).state = .active)
    (hq : (s.group g).key.map GroupKey.queue = some q) (he : (s.queue q).estimate = depth)
    (mode : u.mode = t.mode) (log : u.log = t.log) :
    (settle hold g u).log = (offerMove g .settle depth s t).log := by
  unfold settle
  rw [hg, ha]
  refine offerFor_log_eq .settle (by simp) (by simp) (groupFrame_now hf) (fun key hk => ?_) mode log
  rw [hk] at hq
  rw [State.setGroup_queue, groupFrame_queue hf, Option.some.inj hq, he]

/-- Outside ACTIVE a downward crossing does nothing to a group (R97). -/
theorem settle_of_not_active {g : GroupId} {u : State} (hold : Nat) (ha : (u.group g).state ≠ .active) :
    settle hold g u = u := by
  unfold settle
  split
  · exact absurd ‹_› ha
  all_goals rfl

section
variable {s : State} {q : QueueId}

/-- The groups of `q` that a downward crossing finds ACTIVE (R97). -/
abbrev State.fallsAt (s : State) (q : QueueId) (g : GroupId) : Prop :=
  (s.group g).key.map GroupKey.queue = some q ∧ (s.group g).state = .active

theorem downwardCrossing_at {g : GroupId} {u : State} (hold : Nat) (hg : u.group g = s.group g) :
    (if (u.group g).key.map GroupKey.queue = some q then settle hold g u else u)
      = if s.fallsAt q g then settle hold g u else u := by
  rw [ite_and, hg]
  split_ifs with hk ha
  · rfl
  · exact settle_of_not_active hold (hg ▸ ha)
  · rfl

/-- Every group after a downward crossing (R97). -/
theorem downwardCrossing_group : ∀ g, (downwardCrossing q s).group g = if s.fallsAt q g then
      { s.group g with
        state := .settle
        deadline := some (s.time.tick + BitVec.ofNat 32 (s.queueClass q).holdTime) }
    else s.group g := by
  unfold downwardCrossing forGroupsOn
  refine ((groupAction_settle _).onQueue q).group (s := s) fun g u hf hg => ?_
  rw [downwardCrossing_at _ hg]
  split_ifs with hk
  · rw [settle_group, hg, if_pos ⟨rfl, hk.2⟩, groupFrame_now hf]
    rfl
  · exact hg

theorem downwardCrossing_total (q' : QueueId) : (downwardCrossing q s).total q' = s.total q' :=
  forGroupsOn_keeps (fun t => t.total q' = s.total q') q _ (fun g t h => (settle_total t _ g q').trans h) rfl

/-- The entries of a downward crossing, in ascending group order (R97). -/
theorem downwardCrossing_log : (downwardCrossing q s).log
    = (((List.finRange 128).filter (fun g => decide (s.fallsAt q g))).foldl
        (fun t g => offerMove g .settle (s.queue q).estimate s t) s).log := by
  unfold downwardCrossing forGroupsOn
  refine ((groupAction_settle _).onQueue q).induct (s := s) (P := fun l u => u.log = ((l.filter _).foldl _ s).log)
    rfl fun l g u _ hf hg ih => ?_
  have mode := (groupFrame_mode hf).trans (foldl_offerMove_mode (fun _ => .settle)
    (s.queue q).estimate s (l.filter fun g => decide (s.fallsAt q g)) s).symm
  rw [downwardCrossing_at _ hg, List.filter_append, List.foldl_append]
  by_cases hk : s.fallsAt q g
  · rw [if_pos hk, List.filter_cons_of_pos (p := fun g => decide (s.fallsAt q g)) (decide_eq_true hk)]
    exact settle_log hf hg hk.2 hk.1 rfl mode ih
  · rw [if_neg hk, List.filter_cons_of_neg (p := fun g => decide (s.fallsAt q g)) (mt of_decide_eq_true hk)]
    exact ih

end

/-! ### A departure outside TRANSPARENT (R44, R47) -/

/-- The depth record of `q` after a departure of length `n` (R44). -/
def departedRecord (q : QueueId) (n : Nat) (s : State) : QueueRecord :=
  { s.queue q with estimate := (s.queue q).estimate - n, lastActivity := s.now }

/-- The state in which a departure signals its fall (R44). -/
def departed (q : QueueId) (n : Nat) (s : State) : State :=
  if (s.queue q).estimate < n then (s.setQueue q (departedRecord q n s)).bump Counter.depthUnderflow
  else s.setQueue q (departedRecord q n s)

section
variable {s : State} (q : QueueId) (n : Nat)

/-- The departed state differs in one depth record and one counter. -/
theorem departed_rest : (departed q n s).gc = s.gc ∧ (departed q n s).log = s.log
    ∧ (departed q n s).mode = s.mode ∧ (departed q n s).ft = s.ft ∧ (departed q n s).time = s.time
    ∧ (departed q n s).depths = (s.setQueue q (departedRecord q n s)).depths := by
  unfold departed
  split_ifs <;> exact ⟨rfl, rfl, rfl, rfl, rfl, rfl⟩

theorem departed_queue (q' : QueueId) :
    (departed q n s).queue q' = if q' = q then departedRecord q n s else s.queue q' := by
  obtain ⟨-, -, -, -, -, depths⟩ := departed_rest (s := s) q n
  rw [queue_of_depths depths, State.setQueue_queue]

theorem departed_queueClass (q' : QueueId) : (departed q n s).queueClass q' = s.queueClass q' := by
  unfold departed
  split_ifs <;> rfl

theorem departed_group (g : GroupId) : (departed q n s).group g = s.group g := by
  rw [State.group, (departed_rest q n).1]; rfl

theorem departed_fallsAt (g : GroupId) : (departed q n s).fallsAt q g ↔ s.fallsAt q g := by
  rw [State.fallsAt, departed_group]

/-- What a departure signals (R47). -/
theorem departure_eq (hm : s.mode ≠ .transparent) : departure q n s
    = if (s.queueClass q).releaseDepth < (s.queue q).estimate
        ∧ (s.queue q).estimate - n ≤ (s.queueClass q).releaseDepth
      then downwardCrossing q (departed q n s) else departed q n s := by
  rw [← departed_queueClass q n q]
  unfold departure
  rw [if_neg hm]
  rfl

theorem departure_groupFrame (hm : s.mode ≠ .transparent) :
    (departure q n s).groupFrame = (departed q n s).groupFrame := by
  rw [departure_eq q n hm]
  split_ifs
  · exact forGroupsOn_groupFrame q _ (settle_groupFrame _)
  · rfl

/-- Every group after a departure (R47, R97). -/
theorem departure_group (hm : s.mode ≠ .transparent) (g : GroupId) : (departure q n s).group g =
    if s.settlesAt q ((s.queue q).estimate - n) g then
      { s.group g with
        state := .settle
        deadline := some (s.time.tick + BitVec.ofNat 32 (s.classRecord (s.classNumber q)).holdTime) }
    else s.group g := by
  rw [departure_eq q n hm]
  split_ifs with hx hs hs
  · rw [downwardCrossing_group, if_pos ((departed_fallsAt q n g).mpr ⟨hs.1, hs.2.1⟩), departed_group,
      departed_queueClass, (departed_rest q n).2.2.2.2.1]
    rfl
  · rw [downwardCrossing_group, if_neg, departed_group]
    intro hf
    obtain ⟨hk, ha⟩ := (departed_fallsAt q n g).mp hf
    exact hs ⟨hk, ha, hx.1, hx.2⟩
  · exact absurd ⟨hs.2.2.1, hs.2.2.2⟩ hx
  · exact departed_group q n g

theorem departure_total (hm : s.mode ≠ .transparent) (q' : QueueId) :
    (departure q n s).total q' = s.total q' := by
  have kept : (departed q n s).total q' = s.total q' := by rw [State.total, (departed_rest q n).1]; rfl
  rw [departure_eq q n hm]
  split_ifs
  · rw [downwardCrossing_total, kept]
  · exact kept

/-- The entries of a departure (R47, R97). -/
theorem departure_log (hm : s.mode ≠ .transparent) : (departure q n s).log
    = (((List.finRange 128).filter (fun g => decide (s.settlesAt q ((s.queue q).estimate - n) g))).foldl
        (fun t g => offerMove g .settle ((s.queue q).estimate - n) s t) s).log := by
  obtain ⟨-, log, mode, -, time, -⟩ := departed_rest (s := s) q n
  rw [departure_eq q n hm]
  split_ifs with hx
  · have same (g : GroupId) (t : State) : offerMove g .settle ((departed q n s).queue q).estimate (departed q n s) t
        = offerMove g .settle ((s.queue q).estimate - n) s t := by
      simp only [offerMove, State.moveEntry, departed_group, time, departed_queue, if_pos]
      rfl
    have falls (g : GroupId) : decide ((departed q n s).fallsAt q g)
        = decide (s.settlesAt q ((s.queue q).estimate - n) g) := by
      refine decide_eq_decide.mpr ((departed_fallsAt q n g).trans ?_)
      exact ⟨fun hf => ⟨hf.1, hf.2, hx.1, hx.2⟩, fun hs => ⟨hs.1, hs.2.1⟩⟩
    rw [downwardCrossing_log]
    simp only [same, falls]
    exact foldl_offerMove_log_congr _ _ s _ mode log
  · have none_settles : (List.finRange 128).filter
        (fun g => decide (s.settlesAt q ((s.queue q).estimate - n) g)) = [] :=
      List.filter_eq_nil_iff.mpr fun g _ hs =>
        hx ⟨(of_decide_eq_true hs).2.2.1, (of_decide_eq_true hs).2.2.2⟩
    rw [none_settles]
    exact log

theorem departure_queue (hm : s.mode ≠ .transparent) (q' : QueueId) :
    (departure q n s).queue q' = if q' = q then departedRecord q n s else s.queue q' := by
  rw [groupFrame_queue (departure_groupFrame q n hm), departed_queue]

theorem departure_ft (hm : s.mode ≠ .transparent) : (departure q n s).ft = s.ft :=
  (groupFrame_ft (departure_groupFrame q n hm)).trans (departed_rest q n).2.2.2.1

theorem departure_mode (hm : s.mode ≠ .transparent) : (departure q n s).mode = s.mode :=
  (groupFrame_mode (departure_groupFrame q n hm)).trans (departed_rest q n).2.2.1

theorem departure_transparent (hm : s.mode = .transparent) : departure q n s = s := if_pos hm

end
end Sys2Proof.Machine

namespace Sys2Proof.Machine

/-! ### The record stage and the decision stage of a read response (R74, R122, R137) -/

/-- What the stages of a read response after its departure may move: counters from 14 on and, outside
TRANSPARENT, the mark count of the queue that the cell departed from. -/
structure MarksOnly (q : Option QueueId) (s t : State) : Prop where
  log : t.log = s.log
  mode : t.mode = s.mode
  counter : ∀ c : CounterId, c.val < 14 → t.counter c = s.counter c
  queue : ∀ q', ∃ marks, t.queue q' = { s.queue q' with marks := marks }
  otherQueue : ∀ q', q ≠ some q' → t.queue q' = s.queue q'
  depths : q = none ∨ s.mode = .transparent → t.depths = s.depths

section
variable {s t u : State} {q : Option QueueId}

theorem marksOnly_refl : MarksOnly q s s where
  log := rfl
  mode := rfl
  counter _ _ := rfl
  queue q' := ⟨(s.queue q').marks, rfl⟩
  otherQueue _ _ := rfl
  depths _ := rfl

theorem MarksOnly.trans (h : MarksOnly q s t) (h' : MarksOnly q t u) : MarksOnly q s u where
  log := h'.log.trans h.log
  mode := h'.mode.trans h.mode
  counter c hc := (h'.counter c hc).trans (h.counter c hc)
  queue q' := by
    obtain ⟨m, hm⟩ := h.queue q'
    obtain ⟨m', hm'⟩ := h'.queue q'
    exact ⟨m', by rw [hm', hm]⟩
  otherQueue q' hq := (h'.otherQueue q' hq).trans (h.otherQueue q' hq)
  depths hd := (h'.depths (hd.imp_right h.mode.trans)).trans (h.depths hd)

theorem marksOnly_bump {b : CounterId} (hb : 14 ≤ b.val) : MarksOnly q s (s.bump b) where
  log := rfl
  mode := rfl
  counter _ hc := bump_counter_below hc hb s
  queue q' := ⟨(s.queue q').marks, rfl⟩
  otherQueue _ _ := rfl
  depths _ := rfl

theorem marksOnly_countMark (q : QueueId) : MarksOnly (some q) s (countMark q s) := by
  unfold countMark
  split_ifs with hm
  · exact marksOnly_refl
  · refine ⟨rfl, rfl, fun _ _ => rfl, fun q' => ?_, fun q' hq => ?_, fun hd => ?_⟩
    · rw [State.setQueue_queue]
      split_ifs with hq
      · exact ⟨_, by rw [hq]⟩
      · exact ⟨_, rfl⟩
    · rw [State.setQueue_queue, if_neg fun e => hq (congrArg some e.symm)]
    · exact absurd hd (by simp [hm])

theorem marksOnly_countDecisions (w : WindowOutcome) (m : MarkOutcome) :
    MarksOnly q s (countDecisions w m q s) := by
  have window : MarksOnly q s (countWindow w s) := by
    cases w with
    | unaltered => exact marksOnly_refl
    | skipScale => exact marksOnly_bump (by decide)
    | rewrite _ => exact marksOnly_bump (by decide)
  refine window.trans ?_
  cases m with
  | unaltered => exact marksOnly_refl
  | unmarkable => exact marksOnly_bump (by decide)
  | setCe =>
    cases q with
    | none => exact marksOnly_refl
    | some q => exact (marksOnly_bump (by decide)).trans (marksOnly_countMark q)

theorem marksOnly_decideRead (r : FrameRecord) (m : Mode) (start : Option (QueueId × Nat))
    (a : Option FlowAnswer) (c : Cell) : MarksOnly (start.map Prod.fst) s (decideRead r m start a c s).1 := by
  unfold decideRead
  split_ifs
  · exact marksOnly_countDecisions _ _
  · exact marksOnly_refl

/-- The record stage counts the category and, of two equal endpoints, flow_ineligible (R37, R54, R74). -/
theorem marksOnly_takeReadRecord (r : FrameRecord) :
    MarksOnly q (s.bump (categoryCounter r.category)) (takeReadRecord r s).2 := by
  unfold takeReadRecord afterLookup
  dsimp only
  split
  · split_ifs
    · exact marksOnly_bump (by decide)
    · exact marksOnly_refl
  · exact marksOnly_refl

end

/-! ### The window decision lowers the field (R117, R128) -/

theorem fieldValue_pos (share scale : Nat) : 1 ≤ fieldValue share scale := by
  unfold fieldValue
  split_ifs with h0
  · exact le_rfl
  · decide
  · exact Nat.one_le_iff_ne_zero.mpr h0

theorem fieldValue_lt (share scale : Nat) : fieldValue share scale < 65536 := by
  unfold fieldValue
  split_ifs <;> omega

section
variable {s : State} {r : FrameRecord} {a : Option FlowAnswer} {field : Nat}

theorem rewriteRequest_lowers {g : GroupId} {scale original : Nat}
    (h : rewriteRequest s g scale original = .rewrite field) : 1 ≤ field ∧ field < original ∧ field < 65536 := by
  unfold rewriteRequest at h
  split at h
  · cases h
  · split_ifs at h with hl
    obtain rfl := ShareAnswer.rewrite.inj h
    exact ⟨fieldValue_pos _ _, hl, fieldValue_lt _ _⟩

theorem groupDecision_lowers {ip : IpPart} {tcp : TcpPart} {answer : FlowAnswer} {g : GroupId}
    (h : groupDecision s ip tcp answer g = .rewrite field) : 1 ≤ field ∧ field < tcp.window ∧ field < 65536 := by
  unfold groupDecision at h
  split at h
  · cases h
  · dsimp only at h
    split_ifs at h
    split at h
    · cases h
    · split at h
      · rename_i hr
        obtain rfl := WindowOutcome.rewrite.inj h
        exact rewriteRequest_lowers hr
      · cases h
      · cases h

/-- A window rewrite is of a TCP record, to a lower field of 1 or more. -/
theorem windowDecision_lowers (h : windowDecision s r a = .rewrite field) :
    ∀ tcp, r.tcp = some tcp → 1 ≤ field ∧ field < tcp.window ∧ field < 65536 := by
  intro tcp htcp
  unfold windowDecision at h
  split at h
  · rename_i ip tcp' a' hip htcp'
    obtain rfl : tcp' = tcp := Option.some.inj (htcp'.symm.trans htcp)
    split at h
    · cases h
    · split at h
      · cases h
      · split at h
        · cases h
        · exact groupDecision_lowers h
  · cases h

end

/-! ### The cell of a decided read response (R14, R135) -/

section
variable {s : State} {r : FrameRecord} {m : Mode} {start : Option (QueueId × Nat)} {a : Option FlowAnswer}
  {c : Cell} {v : Nat}

/-- The decided cell is the cell as it was, or a rewritten one (R122). -/
theorem decideRead_cell (r : FrameRecord) (m : Mode) (start : Option (QueueId × Nat)) (a : Option FlowAnswer)
    (c : Cell) (s : State) : (decideRead r m start a c s).2 = c
    ∨ m.rewrites = true
      ∧ (decideRead r m start a c s).2 = rewriteCell c r (windowDecision s r a) (markDecision s r start) := by
  unfold decideRead
  split_ifs with h
  · exact .inr ⟨h, rfl⟩
  · exact .inl rfl

theorem decideRead_observe (hm : m = .observe) : (decideRead r m start a c s).2 = c := by
  subst hm; rfl

theorem decideRead_wellFormed (h : c.wellFormed = true) : (decideRead r m start a c s).2.wellFormed = true := by
  obtain e | ⟨-, e⟩ := decideRead_cell r m start a c s
  · rw [e]; exact h
  · rw [e]; exact rewriteCell_wellFormed h

theorem decideRead_clean (h : c.wellFormed = true) (hc : cellClean c = true) :
    cellClean (decideRead r m start a c s).2 = true := by
  obtain e | ⟨-, e⟩ := decideRead_cell r m start a c s
  · rw [e]; exact hc
  · rw [e]; exact rewriteCell_clean h hc

/-- Only the fields of the record that the Rewrite Unit may write change, inside the window (R7, R135). -/
theorem decideRead_altered (hp : r.Placed v c) {k : Nat}
    (h : cellByte (decideRead r m start a c s).2 k ≠ cellByte c k) : isRewritable r k ∧ k < v := by
  obtain e | ⟨-, e⟩ := decideRead_cell r m start a c s
  · exact absurd (congrArg (cellByte · k) e) h
  rw [e] at h
  obtain ⟨tcp, field, htcp, -, hk⟩ | ⟨ip, hip, -, hk⟩ := rewriteCell_altered h
  · obtain ⟨t, hw, hc, ht, -⟩ := hp.tcp tcp htcp
    exact ⟨.inl ⟨tcp, htcp, hk⟩, by unfold TcpPart.writes at hk; omega⟩
  · obtain ⟨i, he, hi, -, hat⟩ := hp.ip ip hip
    refine ⟨.inr ⟨ip, hip, hk⟩, ?_⟩
    obtain rfl | ⟨x, hx, hk⟩ := hk
    · omega
    · have := hat x hx; omega

/-- A cell whose window is not rewritten keeps its window field, marked or not (R128). -/
theorem rewriteCell_window_kept {w : WindowOutcome} {k : MarkOutcome} (hp : r.Placed v c) {tcp : TcpPart}
    (htcp : r.tcp = some tcp) (hw : ∀ field, w ≠ .rewrite field) :
    cellWord (rewriteCell c r w k) tcp.windowAt = cellWord c tcp.windowAt := by
  have kept {i : Nat} (hi : tcp.writes i) : cellByte (rewriteCell c r w k) i = cellByte c i := by
    by_contra h
    obtain ⟨-, field, -, he, -⟩ | ⟨ip, hip, -, hk⟩ := rewriteCell_altered h
    · exact hw field he
    · exact hp.disjoint hip htcp hi hk
  rw [cellWord, kept (.inl rfl), kept (.inr (.inl rfl))]
  rfl

/-- A window field that changes falls, to 1 or more (R117, R128). -/
theorem decideRead_window (hp : r.Placed v c) (hl : v ≤ c.data.length) {tcp : TcpPart} (htcp : r.tcp = some tcp)
    (h : cellWord (decideRead r m start a c s).2 tcp.windowAt ≠ cellWord c tcp.windowAt) :
    1 ≤ cellWord (decideRead r m start a c s).2 tcp.windowAt
    ∧ cellWord (decideRead r m start a c s).2 tcp.windowAt < cellWord c tcp.windowAt := by
  obtain e | ⟨-, e⟩ := decideRead_cell r m start a c s
  · exact absurd (congrArg (cellWord · tcp.windowAt) e) h
  rw [e] at h ⊢
  obtain ⟨t, hat, -, -, hwindow, -⟩ := hp.tcp tcp htcp
  cases hd : windowDecision s r a with
  | rewrite field =>
    obtain ⟨hpos, hlt, hmax⟩ := windowDecision_lowers hd tcp htcp
    rw [(rewriteCell_window hp hl htcp hmax).1, hat, ← hwindow]
    exact ⟨hpos, hlt⟩
  | unaltered => exact absurd (rewriteCell_window_kept hp htcp (by simp [hd])) h
  | skipScale => exact absurd (rewriteCell_window_kept hp htcp (by simp [hd])) h

end
end Sys2Proof.Machine

namespace Sys2Proof.Machine

/-! ### The header stage of a read response (R22 to R26, R44) -/

section
variable {s : State} {p : Profile} {cell : Cell}

theorem accountRead_goes_on (hn : headerStage p cell ≠ .notStart) (hq : headerStage p cell ≠ .badQueue) :
    ∃ start, (accountRead p cell s).1 = some start := by
  unfold accountRead
  split <;> simp_all

/-- A departure moves no category counter (R37, R44). -/
theorem departure_category (q : QueueId) (n : Nat) (c : Category) :
    (departure q n s).counter (categoryCounter c) = s.counter (categoryCounter c) := by
  by_cases hm : s.mode = .transparent
  · rw [departure_transparent q n hm]
  · rw [departure_counter (categoryCounter_below c) q n hm, if_neg]
    rintro ⟨h, -⟩
    revert h
    cases c <;> decide

/-- The header stage of a read response moves no category counter, no flow record and no mode (R37). -/
theorem accountRead_rest : (∀ c, (accountRead p cell s).2.counter (categoryCounter c) = s.counter (categoryCounter c))
    ∧ (accountRead p cell s).2.ft = s.ft ∧ (accountRead p cell s).2.mode = s.mode := by
  have other {b : CounterId} (hb : b = Counter.badQueue ∨ b = Counter.badLength ∨ b = Counter.multicastSkipped)
      (c : Category) : (s.bump b).counter (categoryCounter c) = s.counter (categoryCounter c) := by
    refine (s.bump_counter _ _).trans (if_neg ?_)
    obtain rfl | rfl | rfl := hb <;> cases c <;> decide
  unfold accountRead
  split
  · exact ⟨fun _ => rfl, rfl, rfl⟩
  · exact ⟨other (.inl rfl), rfl, rfl⟩
  · exact ⟨other (.inr (.inl rfl)), rfl, rfl⟩
  · exact ⟨other (.inr (.inr rfl)), rfl, rfl⟩
  · refine ⟨departure_category _ _, ?_⟩
    by_cases hm : s.mode = .transparent
    · rw [departure_transparent _ _ hm]
      exact ⟨rfl, rfl⟩
    · exact ⟨departure_ft _ _ hm, departure_mode _ _ hm⟩

/-- In TRANSPARENT the header stage only counts (R52). -/
theorem accountRead_transparent (hm : s.mode = .transparent) : (accountRead p cell s).2.depths = s.depths
    ∧ (accountRead p cell s).2.gc = s.gc ∧ (accountRead p cell s).2.log = s.log := by
  unfold accountRead
  split <;> simp [departure_transparent _ _ hm]

end

/-! ### The state and the cell that a whole parse of a read response leaves, but for the stream (R26, R129) -/

/-- The header stage and, where it does not end the parse, the Flow Table's answer and the decisions. -/
def responseParsed (p : Profile) (r : FrameRecord) (m : Mode) (cell : Cell) (s : State) : State × Cell :=
  match (accountRead p cell s).1 with
  | none => ((accountRead p cell s).2, cell)
  | some start =>
    decideRead r m start (takeReadRecord r (accountRead p cell s).2).1 cell
      (takeReadRecord r (accountRead p cell s).2).2

section
variable {s : State} {p : Profile} {r : FrameRecord} {m : Mode} {cell : Cell}

theorem responseParsed_notStart (hh : headerStage p cell = .notStart) :
    responseParsed p r m cell s = (s, cell) := by
  simp [responseParsed, accountRead, hh]

theorem responseParsed_badQueue (hh : headerStage p cell = .badQueue) :
    responseParsed p r m cell s = (s.bump Counter.badQueue, cell) := by
  simp [responseParsed, accountRead, hh]

theorem responseParsed_of_ended (ha : (accountRead p cell s).1 = none) :
    responseParsed p r m cell s = ((accountRead p cell s).2, cell) := by
  simp [responseParsed, ha]

theorem responseParsed_of_start {start : Option (QueueId × Nat)} (ha : (accountRead p cell s).1 = some start) :
    responseParsed p r m cell s = decideRead r m start (takeReadRecord r (accountRead p cell s).2).1 cell
      (takeReadRecord r (accountRead p cell s).2).2 := by
  simp [responseParsed, ha]

theorem responseParsed_dataFrame : (responseParsed p r m cell s).1.dataFrame = s.dataFrame := by
  unfold responseParsed
  split <;> simp

/-- After the header stage a parse changes no group and no flow record (R36, R74). -/
theorem responseParsed_tables : (responseParsed p r m cell s).1.ft = (accountRead p cell s).2.ft
    ∧ (responseParsed p r m cell s).1.gc = (accountRead p cell s).2.gc := by
  unfold responseParsed
  split
  · exact ⟨rfl, rfl⟩
  · obtain ⟨ft, gc⟩ := takeReadRecord_tables (s := (accountRead p cell s).2) r
    obtain ⟨ft', gc'⟩ := decideRead_tables (s := (takeReadRecord r (accountRead p cell s).2).2) r m _ _ cell
    exact ⟨ft'.trans ft, gc'.trans gc⟩

/-- The stages behind the header stage count the category and may mark the departed queue (R37, R137). -/
theorem responseParsed_marksOnly {start : Option (QueueId × Nat)} (ha : (accountRead p cell s).1 = some start) :
    MarksOnly (start.map Prod.fst) ((accountRead p cell s).2.bump (categoryCounter r.category))
      (responseParsed p r m cell s).1 := by
  rw [responseParsed_of_start ha]
  exact (marksOnly_takeReadRecord r).trans (marksOnly_decideRead r m start _ cell)

theorem responseParsed_mode : (responseParsed p r m cell s).1.mode = s.mode := by
  have mode := (accountRead_rest (s := s) (p := p) (cell := cell)).2.2
  cases ha : (accountRead p cell s).1 with
  | none => rw [responseParsed_of_ended ha, mode]
  | some start => exact (responseParsed_marksOnly ha).mode.trans mode

/-- In TRANSPARENT a parse discards the departure and marks nothing (R52). -/
theorem responseParsed_transparent (hm : s.mode = .transparent) : (responseParsed p r m cell s).1.depths = s.depths
    ∧ (responseParsed p r m cell s).1.gc = s.gc ∧ (responseParsed p r m cell s).1.log = s.log := by
  obtain ⟨depths, gc, log⟩ := accountRead_transparent (p := p) (cell := cell) hm
  have mode := (accountRead_rest (s := s) (p := p) (cell := cell)).2.2
  refine ⟨?_, responseParsed_tables.2.trans gc, ?_⟩
  · cases ha : (accountRead p cell s).1 with
    | none => rw [responseParsed_of_ended ha, depths]
    | some start => exact ((responseParsed_marksOnly ha).depths (.inr (mode.trans hm))).trans depths
  · cases ha : (accountRead p cell s).1 with
    | none => rw [responseParsed_of_ended ha, log]
    | some start => exact (responseParsed_marksOnly ha).log.trans log

theorem responseParsed_category (hn : headerStage p cell ≠ .notStart) (hq : headerStage p cell ≠ .badQueue) :
    (responseParsed p r m cell s).1.counter (categoryCounter r.category)
      = saturate (s.counter (categoryCounter r.category) + 1) := by
  obtain ⟨start, ha⟩ := accountRead_goes_on (s := s) hn hq
  rw [(responseParsed_marksOnly ha).counter _ (categoryCounter_below _), State.bump_counter, if_pos rfl,
    accountRead_rest.1]

/-- A start cell refused for its length or flag counts under that cause and its category, and departs from no
queue (R25, R37). -/
theorem responseParsed_refused {b : CounterId} (hb : b.val < 14) (hc : b ≠ categoryCounter r.category)
    (ha : accountRead p cell s = (some none, s.bump b)) : (responseParsed p r m cell s).1.depths = s.depths
      ∧ (responseParsed p r m cell s).1.gc = s.gc
      ∧ (responseParsed p r m cell s).1.counter b = saturate (s.counter b + 1) := by
  have marks := responseParsed_marksOnly (r := r) (m := m) (congrArg Prod.fst ha)
  have state : (accountRead p cell s).2 = s.bump b := congrArg Prod.snd ha
  refine ⟨(marks.depths (.inl rfl)).trans (by rw [state]; rfl), responseParsed_tables.2.trans (by rw [state]; rfl), ?_⟩
  rw [marks.counter b hb, State.bump_counter, if_neg hc, state, State.bump_counter, if_pos rfl]

/-- What holds of the cell as it was and of every decided cell holds of the cell of a whole parse. -/
theorem responseParsed_cell {P : Cell → Prop} (same : P cell)
    (decided : ∀ start a u, P (decideRead r m start a cell u).2) : P (responseParsed p r m cell s).2 := by
  unfold responseParsed
  split
  · exact same
  · exact decided _ _ _

end
end Sys2Proof.Machine

namespace Sys2Proof.Machine

/-! ### The departure of an accepted read response (R44, R47, R97) -/

section
variable {s : State} {p : Profile} {r : FrameRecord} {m : Mode} {cell : Cell} {q : QueueId} {n : Nat}
  (hh : headerStage p cell = .accepted q n)
include hh

theorem accountRead_accepted : accountRead p cell s = (some (some (q, (s.queue q).estimate)), departure q n s) := by
  unfold accountRead
  rw [hh]
  rfl

variable (hm : s.mode ≠ .transparent)
include hm

/-- The depth records after an accepted response: the departure, and marks of its queue (R44, R50). -/
theorem responseParsed_queue : ((responseParsed p r m cell s).1.queue q).estimate = (s.queue q).estimate - n
    ∧ ((responseParsed p r m cell s).1.queue q).peak = (s.queue q).peak
    ∧ ((responseParsed p r m cell s).1.queue q).lastActivity = s.time.tick
    ∧ ∀ q', q' ≠ q → (responseParsed p r m cell s).1.queue q' = s.queue q' := by
  have accounted := accountRead_accepted (s := s) hh
  have marks := responseParsed_marksOnly (r := r) (m := m) (congrArg Prod.fst accounted)
  have before (q' : QueueId) : ((accountRead p cell s).2.bump (categoryCounter r.category)).queue q'
      = if q' = q then departedRecord q n s else s.queue q' :=
    (congrArg (State.queue · q') (congrArg Prod.snd accounted)).trans (departure_queue q n hm q')
  obtain ⟨marked, hq⟩ := marks.queue q
  rw [before, if_pos rfl] at hq
  refine ⟨by rw [hq]; rfl, by rw [hq]; rfl, by rw [hq]; rfl, fun q' hne => ?_⟩
  rw [marks.otherQueue q' (by simpa using hne.symm), before, if_neg hne]

/-- A departure that falls short counts depth_underflow (R44). -/
theorem responseParsed_underflow (hn : (s.queue q).estimate < n) :
    (responseParsed p r m cell s).1.counter Counter.depthUnderflow
      = saturate (s.counter Counter.depthUnderflow + 1) := by
  have accounted := accountRead_accepted (s := s) hh
  have below : Counter.depthUnderflow.val < 14 := by decide
  have other : Counter.depthUnderflow ≠ categoryCounter r.category := by cases r.category <;> decide
  rw [(responseParsed_marksOnly (congrArg Prod.fst accounted)).counter _ below, State.bump_counter, if_neg other,
    accounted, departure_counter below q n hm, if_pos ⟨rfl, hn⟩]

omit hm in
theorem responseParsed_group (g : GroupId) :
    (responseParsed p r m cell s).1.group g = (departure q n s).group g := by
  rw [State.group, responseParsed_tables.2, accountRead_accepted hh, State.group]

omit hm in
theorem responseParsed_total (q' : QueueId) :
    (responseParsed p r m cell s).1.total q' = (departure q n s).total q' := by
  rw [State.total, responseParsed_tables.2, accountRead_accepted hh, State.total]

omit hm in
theorem responseParsed_log : (responseParsed p r m cell s).1.log = (departure q n s).log := by
  have accounted := accountRead_accepted (s := s) hh
  exact (responseParsed_marksOnly (congrArg Prod.fst accounted)).log.trans
    (congrArg (fun a => a.2.log) accounted)

end

/-! ### Running the stages of a read response -/

theorem setStream_mToS {s t : State} (ts : List Transit) (hl : t.link = s.link) :
    t.setStream .mToS ts = { t with link := { s.link with toSwitch := ts } } := by rw [← hl]; rfl

section
variable {s : State} {before after : List Transit} {x : Transit} {h : Handed} {tag : Tag} {cell : Cell}
  {e : Bool} (hr : s.running = true) (hs : s.stream .mToS = before ++ x :: after)
  (hb : ∀ y ∈ before, y.awaiting = none) (hx : x.awaiting = some h)
  (ht : x.transaction = .readResponse tag cell e)
include hr hs hb hx ht

/-- The record stage of a response alone (R74). -/
theorem exec_response_record {start : Option (QueueId × Nat)} (hp : h.progress = .accounted start) :
    exec (.handedCellParse .mToS .record) s = .next ((takeReadRecord (handedRecord x h cell) s).2.setStream .mToS
      (before ++
        { x with awaiting := some { h with progress := .answered start (takeReadRecord (handedRecord x h cell) s).1 } }
        :: after)) :=
  exec_handedCellParse hr hs hb (by rw [isBefore_of_handed hx, hp]; rfl)
    (parseTransit_response_record hx ht hp)

/-- The decision stage of a response alone (R129). -/
theorem exec_response_answered {start : Option (QueueId × Nat)} {a : Option FlowAnswer}
    (hp : h.progress = .answered start a) : exec (.handedCellParse .mToS .decision) s
      = .next ((decideRead (handedRecord x h cell) h.mode start a cell s).1.setStream .mToS
        (before ++
          { x with
            awaiting := none
            transaction := .readResponse tag (decideRead (handedRecord x h cell) h.mode start a cell s).2 e }
          :: after)) :=
  exec_handedCellParse hr hs hb (by rw [isBefore_of_handed hx, hp]; rfl)
    (parseTransit_response_answered hx ht hp)

variable (hp : h.progress = .handed)
include hp

/-- The header stage of a response alone (R26). -/
theorem exec_response_accounting : exec (.handedCellParse .mToS .accounting) s
    = .next ((accountRead h.profile cell s).2.setStream .mToS (before ++
      { x with awaiting := (accountRead h.profile cell s).1.map fun p => { h with progress := .accounted p } }
      :: after)) := by
  refine exec_handedCellParse hr hs hb (by rw [isBefore_of_handed hx, hp]; rfl) ?_
  cases ha : (accountRead h.profile cell s).1 with
  | none => exact parseTransit_response_ended hx ht hp .accounting (Prod.ext ha rfl)
  | some start => exact parseTransit_response_accounting hx ht hp (Prod.ext ha rfl)

/-- A whole parse of a response (R26, R129). -/
theorem exec_response_decision : exec (.handedCellParse .mToS .decision) s
    = .next ((responseParsed h.profile (handedRecord x h cell) h.mode cell s).1.setStream .mToS (before ++
      { x with
        awaiting := none
        transaction := .readResponse tag (responseParsed h.profile (handedRecord x h cell) h.mode cell s).2 e }
      :: after)) := by
  refine exec_handedCellParse hr hs hb (by rw [isBefore_of_handed hx, hp]; rfl) ?_
  cases ha : (accountRead h.profile cell s).1 with
  | none =>
    rw [responseParsed_of_ended ha, parseTransit_response_ended hx ht hp .decision (Prod.ext ha rfl), ← ht]
  | some start =>
    rw [responseParsed_of_start ha]
    exact parseTransit_response_decision hx ht hp (Prod.ext ha rfl) rfl

/-- A whole parse of a response is its header stage, its record stage and then its decisions (R26, R129). -/
theorem response_stages {start : Option (QueueId × Nat)} (ha : (accountRead h.profile cell s).1 = some start) :
    ∃ v, exec (.handedCellParse .mToS .record) ((accountRead h.profile cell s).2.setStream .mToS (before ++
        { x with awaiting := some { h with progress := .accounted start } } :: after)) = .next v
      ∧ exec (.handedCellParse .mToS .decision) s = exec (.handedCellParse .mToS .decision) v := by
  let u := (accountRead h.profile cell s).2
  let y : Transit := { x with awaiting := some { h with progress := .accounted start } }
  let a := (takeReadRecord (handedRecord x h cell) u).1
  let w := (takeReadRecord (handedRecord x h cell) u).2
  let z : Transit := { x with awaiting := some { h with progress := .answered start a } }
  have hu : u.running = true := (dataFrame_running (accountRead_dataFrame h.profile cell s)).trans hr
  have hw : w.running = true := (dataFrame_running (takeReadRecord_dataFrame _ u)).trans hu
  have record := exec_response_record (s := u.setStream .mToS (before ++ y :: after)) (x := y) hu
    (State.setStream_stream_self _ _ _) hb rfl ht rfl
  have same : handedRecord y { h with progress := .accounted start } cell = handedRecord x h cell := rfl
  rw [same, takeReadRecord_setStream, setStream_setStream] at record
  refine ⟨_, record, ?_⟩
  have decision := exec_response_answered (s := w.setStream .mToS (before ++ z :: after)) (x := z) hw
    (State.setStream_stream_self _ _ _) hb rfl ht rfl
  have same' : handedRecord z { h with progress := .answered start a } cell = handedRecord x h cell := rfl
  rw [same', decideRead_setStream, setStream_setStream] at decision
  rw [exec_response_decision hr hs hb hx ht hp, responseParsed_of_start ha]
  exact decision.symm

end

/-! ### What the Flow Table answers (R54, R74) -/

section
variable {s : State} {r : FrameRecord} {ip : IpPart} {tcp : TcpPart}

theorem takeReadRecord_of_tcp (hi : r.ip = some ip) (ht : r.tcp = some tcp) : takeReadRecord r s
    = (readLookup ip tcp (s.bump (categoryCounter r.category)),
      afterLookup ip tcp (s.bump (categoryCounter r.category))) := by
  simp [takeReadRecord, hi, ht]

/-- A record without a TCP part, or in TRANSPARENT, is not looked up (R52, R74). -/
theorem takeReadRecord_missed (h : r.tcp = none ∨ s.mode = .transparent) :
    takeReadRecord r s = (none, s.bump (categoryCounter r.category)) := by
  unfold takeReadRecord
  split
  · rename_i ip tcp hi ht
    have hm : s.mode = .transparent := h.resolve_left (by simp [ht])
    simp [readLookup, afterLookup, hm]
  · rfl

/-- A record of two equal endpoints is a miss (R54). -/
theorem readLookup_of_equal (h : sourceOf ip tcp = destinationOf ip tcp) : readLookup ip tcp s = none := by
  simp [readLookup, canonicalKey, h]

/-- The lookup finds the record that holds the key, when every record is placed in its set (R59). -/
theorem findFlowRecord_of_placed {i : FlowId} {key : FlowKey} (P : s.flowsPlaced)
    (hi : (s.flow i).state ≠ .free) (hk : (s.flow i).key = some key) : findFlowRecord s key = some i := by
  obtain ⟨placed, unique, -⟩ := P
  obtain ⟨key', hk', -, hway⟩ := placed i hi
  obtain rfl : key' = key := Option.some.inj (hk'.symm.trans hk)
  cases hf : findFlowRecord s key' with
  | none =>
    have := List.find?_eq_none.mp hf i hway
    simp [hi, hk] at this
  | some j =>
    obtain ⟨hj, hkj⟩ := findFlowRecord_spec hf
    rw [unique j i key' hj hi hkj hk]

theorem findFlowRecord_eq_none {key : FlowKey}
    (h : ∀ i ∈ keyWays s key, (s.flow i).state ≠ .free → (s.flow i).key ≠ some key) :
    findFlowRecord s key = none := by
  refine List.find?_eq_none.mpr fun i hi => ?_
  simpa using h i hi

variable {key : FlowKey} {sender : Side} (hm : s.mode ≠ .transparent)
  (hk : canonicalKey ip.version (sourceOf ip tcp) (destinationOf ip tcp) = some (key, sender))
include hm hk

theorem readLookup_miss (hf : findFlowRecord s key = none) : readLookup ip tcp s = none := by
  simp [readLookup, hm, hk, hf]

theorem readLookup_found {i : FlowId} (hf : findFlowRecord s key = some i) : ∃ a, readLookup ip tcp s = some a := by
  simp [readLookup, hm, hk, hf]

/-- The answer for a key that record `i` holds is that record as it stands (R59, R74). -/
theorem readLookup_answers {i : FlowId} (P : s.flowsPlaced) (hi : (s.flow i).state ≠ .free)
    (hkey : (s.flow i).key = some key) : ∃ a, readLookup ip tcp s = some a ∧ a.record = i
      ∧ a.state = (s.flow i).state ∧ a.sender = sender ∧ a.group = (s.flow i).group
      ∧ a.responder = (s.flow i).responder
      ∧ ∀ side, (s.flow i).responder = some side → a.scale = (s.flow i).scaleOf side.other := by
  obtain ⟨a, ha⟩ := readLookup_found hm hk (findFlowRecord_of_placed P hi hkey)
  obtain ⟨-, key', hk', -, hused, hheld, hstate, hgroup, hresponder, hscale⟩ := readLookup_hit ha
  obtain ⟨rfl, rfl⟩ := Prod.mk.inj (Option.some.inj (hk.symm.trans hk'))
  obtain rfl : a.record = i := P.2.1 _ _ key hused hi hheld hkey
  exact ⟨a, ha, rfl, hstate, rfl, hgroup, hresponder, hscale⟩

omit hm in
/-- A record of two different endpoints leaves the state as it is (R74). -/
theorem afterLookup_of_key : afterLookup ip tcp s = s := by
  refine if_neg ?_
  rintro ⟨-, h⟩
  rw [canonicalKey, if_pos h] at hk
  cases hk

end
end Sys2Proof.Machine

namespace Sys2Proof.Machine

/-- Settles O50: the whole parse by `responseParsed`, the departure of its header stage and the cell of its
decisions; the stages alone by `response_stages` and by what the Flow Table answers. -/
theorem handedResponseIsAccounted : Obligations.HandedResponseIsAccounted := by
  refine ⟨fun s before after x h tag cell e hr hs hb hx hp ht hlegal hwf => ?_,
    fun s before after x h tag cell e hr hs hb hx ht => ⟨fun hp => ?_, fun start hp => ?_⟩⟩
  · intro record
    have frame := responseParsed_dataFrame (s := s) (p := h.profile) (r := record) (m := h.mode) (cell := cell)
    have tables := responseParsed_tables (s := s) (p := h.profile) (r := record) (m := h.mode) (cell := cell)
    have placed : record.Placed (parseWindow x.latency) cell := frameStage_placed hlegal x.latency cell
    have length : parseWindow x.latency ≤ cell.data.length := by
      simp only [Cell.wellFormed, Bool.and_eq_true, beq_iff_eq] at hwf
      rw [hwf.1]
      exact (parseWindow_bounds x.latency).2
    refine ⟨_, (responseParsed h.profile record h.mode cell s).2, exec_response_decision hr hs hb hx ht hp,
      congrArg State.link (setStream_mToS _ (dataFrame_link frame)),
      sameControl_setStream _ _ (sameControl_of_dataFrame frame), tables.1.trans accountRead_rest.2.1,
      fun hh => ?_, fun hh => ?_, fun hh => ?_, fun hh => ?_, responseParsed_category, fun q n hh hm => ?_,
      responseParsed_transparent, responseParsed_mode, fun ho => ?_, ?_, fun hc => ?_, ?_, fun tcp htcp => ?_⟩
    · exact ⟨by rw [responseParsed_notStart hh]; rfl, congrArg Prod.snd (responseParsed_notStart hh)⟩
    · exact ⟨by rw [responseParsed_badQueue hh]; rfl, congrArg Prod.snd (responseParsed_badQueue hh)⟩
    · exact responseParsed_refused (by decide) (categoryCounter_ne_badLength _).symm
        (by simp [accountRead, hh])
    · exact responseParsed_refused (by decide) (categoryCounter_ne_multicastSkipped _).symm
        (by simp [accountRead, hh])
    · obtain ⟨estimate, peak, activity, others⟩ := responseParsed_queue (r := record) (m := h.mode) hh hm
      exact ⟨estimate, peak, activity, others, responseParsed_underflow hh hm,
        fun g => (responseParsed_group hh g).trans (departure_group q n hm g),
        fun q' => (responseParsed_total hh q').trans (departure_total q n hm q'),
        (responseParsed_log hh).trans (departure_log q n hm)⟩
    · exact responseParsed_cell (P := (· = cell)) rfl fun _ _ _ => decideRead_observe ho
    · exact responseParsed_cell (P := (Cell.wellFormed · = true)) hwf fun _ _ _ => decideRead_wellFormed hwf
    · exact responseParsed_cell (P := (cellClean · = true)) hc fun _ _ _ => decideRead_clean hwf hc
    · exact responseParsed_cell (P := fun c => ∀ k, cellByte c k ≠ cellByte cell k →
        isRewritable record k ∧ k < parseWindow x.latency) (fun k hk => absurd rfl hk)
        fun _ _ _ k hk => decideRead_altered placed hk
    · exact responseParsed_cell (P := fun c => cellWord c tcp.windowAt ≠ cellWord cell tcp.windowAt →
        1 ≤ cellWord c tcp.windowAt ∧ cellWord c tcp.windowAt < cellWord cell tcp.windowAt)
        (fun hw => absurd rfl hw) fun _ _ _ hw => decideRead_window placed length htcp hw
  · have link := dataFrame_link (accountRead_dataFrame h.profile cell s)
    refine ⟨_, exec_response_accounting hr hs hb hx ht hp, ?_, fun hn hq => ?_⟩
    · refine (congrArg State.link (setStream_mToS _ link)).trans ?_
      unfold accountRead
      cases headerStage h.profile cell <;> rfl
    · obtain ⟨start, ha⟩ := accountRead_goes_on (s := s) hn hq
      rw [ha]
      exact response_stages hr hs hb hx ht hp ha
  · intro record counted
    have link := dataFrame_link (takeReadRecord_dataFrame record s)
    refine ⟨_, (takeReadRecord record s).1, exec_response_record hr hs hb hx ht hp,
      congrArg State.link (setStream_mToS _ link), fun hmiss => ?_, fun ip tcp hip htcp hm => ⟨fun heq => ?_,
      fun key sender hkey => ?_⟩⟩
    · have missed : takeReadRecord (handedRecord x h cell) s = (none, counted) := takeReadRecord_missed hmiss
      exact ⟨by rw [missed]; rfl, congrArg Prod.fst missed⟩
    · have taken : takeReadRecord (handedRecord x h cell) s = (none, counted.bump Counter.flowIneligible) := by
        rw [takeReadRecord_of_tcp (r := handedRecord x h cell) hip htcp]
        exact Prod.ext (readLookup_of_equal heq) (if_pos ⟨hm, heq⟩)
      exact ⟨by rw [taken]; rfl, congrArg Prod.fst taken⟩
    · have taken : takeReadRecord (handedRecord x h cell) s = (readLookup ip tcp counted, counted) := by
        rw [takeReadRecord_of_tcp (r := handedRecord x h cell) hip htcp]
        exact Prod.ext rfl (afterLookup_of_key hkey)
      have answer := congrArg Prod.fst taken
      refine ⟨by rw [taken]; rfl, fun hmiss => ?_, fun i hplaced hi hk => ?_⟩
      · exact answer.trans (readLookup_miss (s := counted) hm hkey (findFlowRecord_eq_none hmiss))
      · obtain ⟨a, ha, facts⟩ := readLookup_answers (s := counted) hm hkey hplaced hi hk
        exact ⟨a, answer.trans ha, facts⟩

end Sys2Proof.Machine

namespace Sys2Proof.Machine

/-! ### The range that each accepted setting lies in (R40, R142, R179) -/

section
variable {ps : List Byte} {n o k : Nat}

/-- Where no broken limit is reported, none is broken (R176). -/
theorem limits_of_brokenAt {limits : List (Nat × Bool)} (h : brokenAt limits = none) :
    ∀ e ∈ limits, e.2 = false := by
  simpa [brokenAt, List.find?_eq_none] using h

theorem beNat_cons (b : Byte) (l : List Byte) :
    beNat (b :: l) = b.toNat * 256 ^ l.length + beNat l := by
  induction l using List.reverseRecOn with
  | nil => simp [beNat]
  | append_singleton l c ih =>
    rw [← List.cons_append, beNat_append_one, beNat_append_one, ih, List.length_append,
      List.length_singleton, Nat.pow_succ]
    ring

/-- A field is its first byte, then the rest of it. -/
theorem paramNat_succ (h : o + n < ps.length) :
    paramNat ps o (n + 1) = (paramByte ps o).toNat * 256 ^ n + paramNat ps (o + 1) n := by
  have ho : o < ps.length := by omega
  have length : ((ps.drop (o + 1)).take n).length = n := by simp; omega
  rw [paramNat, List.drop_eq_getElem_cons ho, List.take_succ_cons, beNat_cons, length, paramByte,
    List.getD_eq_getElem _ _ ho]
  rfl

/-- A 4-byte field with its top 12 bits reserved holds at most 20 bits (R179). -/
theorem paramNat_le_timerMax (h : o + 3 < ps.length) (high : paramByte ps o &&& 0xFF = 0)
    (low : paramByte ps (o + 1) &&& 0xF0 = 0) : paramNat ps o 4 ≤ timerMax := by
  have clear : ∀ b : Byte, b &&& 0xFF = 0 → b.toNat = 0 := by decide
  have nibble : ∀ b : Byte, b &&& 0xF0 = 0 → b.toNat < 16 := by decide
  have h1 := clear _ high
  have h2 := nibble _ low
  have h3 : paramNat ps (o + 1 + 1) 2 < 256 ^ 2 := paramNat_lt ps _ 2
  rw [paramNat_succ h, paramNat_succ (by omega)]
  unfold timerMax
  omega

/-- Six timers that break no limit and set no reserved bit are legal (R48, R56, R90, R179). -/
theorem timersField_legal (length : ps.length = 20) (reserved : noneReserved timersReserved ps)
    (h : brokenAt (timersLimits (timersField ps)) = none) : (timersField ps).legal := by
  have limits := limits_of_brokenAt h
  simp only [timersLimits, List.forall_mem_cons, beq_eq_false_iff_ne, decide_eq_false_iff_not] at limits
  obtain ⟨idle, handshake, sweep, linger, -⟩ := limits
  have top : ∀ o, (o, 0xFF) ∈ timersReserved → (o + 1, 0xF0) ∈ timersReserved → o + 3 < 20 →
      paramNat ps o 4 ≤ timerMax := fun o high low ho =>
    paramNat_le_timerMax (length ▸ ho) (reserved o _ high) (reserved (o + 1) _ low)
  have period := paramNat_lt ps 8 2
  exact ⟨⟨Nat.pos_of_ne_zero idle, top 0 (by decide) (by decide) (by decide)⟩,
    ⟨Nat.pos_of_ne_zero handshake, top 4 (by decide) (by decide) (by decide)⟩,
    ⟨not_lt.mp sweep, Nat.le_of_lt_succ period⟩,
    ⟨Nat.pos_of_ne_zero linger, top 10 (by decide) (by decide) (by decide)⟩,
    top 14 (by decide) (by decide) (by decide)⟩

/-- A class record that breaks no limit is legal (R40, R41). -/
theorem classField_legal (h : brokenAt (classLimits (classField ps)) = none) : (classField ps).legal := by
  have limits := limits_of_brokenAt h
  simp only [classLimits, List.forall_mem_cons, beq_eq_false_iff_ne, decide_eq_false_iff_not,
    Bool.or_eq_false_iff] at limits
  obtain ⟨onset, release, fanIn, hold, target, path, floor, ceiling, scale, -⟩ := limits
  have onsetField : (classField ps).onsetDepth < 256 ^ 4 := paramNat_lt ps 1 4
  have fanInField : (classField ps).fanIn < 256 ^ 1 := paramNat_lt ps 9 1
  have holdField : (classField ps).holdTime < 256 ^ 2 := paramNat_lt ps 10 2
  have markField : (classField ps).markDepth < 256 ^ 4 := paramNat_lt ps 30 4
  unfold ClassRecord.legal Config.countMax
  refine ⟨by omega, by omega, by omega, by omega, by omega, by omega, by omega, by omega, ?_, by omega⟩
  intro v hv
  simpa [hv] using scale

/-- A multiplier is 12 bits of two bytes (11.6). -/
theorem rampMultiplier_le (ps : List Byte) (k i : Nat) : rampMultiplier ps k i ≤ 4095 := by
  have pair := paramNat_lt ps (multiplierOffset k i) 2
  unfold rampMultiplier
  dsimp only
  split_ifs <;> omega

/-- A ramp sequence of at most 16 entries that breaks no limit is legal (R142, R143). -/
theorem rampField_legal (hk : k ≤ 16) (h : brokenAt (rampLimits ps k) = none) :
    rampLegal (rampField ps k) := by
  have limits := limits_of_brokenAt h
  simp only [rampLimits, List.forall_mem_append, List.forall_mem_map, List.mem_range,
    beq_eq_false_iff_ne] at limits
  obtain ⟨durations, multipliers⟩ := limits
  refine ⟨by simpa [rampField] using hk, fun e he => ?_⟩
  obtain ⟨i, hi, rfl⟩ := List.mem_map.mp he
  have hi := List.mem_range.mp hi
  exact ⟨⟨Nat.pos_of_ne_zero (durations i hi), Nat.le_of_lt_succ (paramNat_lt ps _ 2)⟩,
    Nat.pos_of_ne_zero (multipliers i hi), rampMultiplier_le ps k i⟩

end

/-! ### What each request can write: a law of all that an accepted one writes -/

section
variable {P : State → Prop} {s : State} (body : List Byte)

/-- The parameters of a well-framed request are as many as its command takes (R173). -/
theorem withParams_leaves_framed {n : Nat} {body : List Byte} {k : List Byte → Answer} (hn : n ≤ 60)
    (h : ∀ ps, ps.length = n → (k ps).Leaves P) : (withParams n body k).Leaves P := by
  unfold withParams
  split
  · trivial
  · rename_i ps hps
    exact h ps ((framedAs_some hn).mp hps).2

theorem unlessReserved_leaves_none {layout : List (Nat × Byte)} {ps : List Byte} {k : Answer}
    (h : noneReserved layout ps → k.Leaves P) : (unlessReserved layout ps k).Leaves P := by
  unfold unlessReserved
  split
  · trivial
  · exact h (reservedAt_none.mp ‹_›)

theorem startObserveAnswer_leaves (h : P (beginPass { s with mode := .observe })) :
    (startObserveAnswer body s).Leaves P := by
  refine withParams_leaves fun ps => ?_
  split
  · trivial
  · trivial
  · trivial
  · split_ifs
    · exact h
    · trivial

theorem enforceAnswer_leaves (h : P { s with mode := .enforce }) : (enforceAnswer body s).Leaves P := by
  refine withParams_leaves fun ps => ?_
  split
  · trivial
  · trivial
  · exact h
  · exact h

theorem releaseAnswer_leaves (abrupt : Bool) (graceful : P (drain s)) (all : P (releaseAll s)) :
    (releaseAnswer abrupt body s).Leaves P := by
  refine withParams_leaves fun ps => unlessReserved_leaves ?_
  split
  · trivial
  · trivial
  · trivial
  · exact graceful
  · exact all
  · exact all

theorem clearFlowsAnswer_leaves (h : P s) : (clearFlowsAnswer body s).Leaves P := by
  refine withParams_leaves fun ps => ?_
  split
  · trivial
  · trivial
  · trivial
  · exact h

theorem setLatencyAnswer_leaves
    (h : ∀ l, P { s with link := { s.link with latency := l, locked := true } }) :
    (setLatencyAnswer body s).Leaves P := by
  refine withParams_leaves fun ps => unlessReserved_leaves ?_
  split_ifs
  · trivial
  · exact h _
  · exact h _

theorem loadProfileAnswer_leaves (h : ∀ p : Profile, p.legal → P (installProfile p s)) :
    (loadProfileAnswer body s).Leaves P := by
  unfold loadProfileAnswer
  split_ifs
  · trivial
  · exact withParams_leaves fun ps => unlessReserved_leaves <| unlessBroken_leaves fun hb =>
      h _ (profileField_legal hb)

theorem setClassAnswer_leaves (h : ∀ (c : ClassId) (r : ClassRecord), r.legal → P (s.setClassRecord c r)) :
    (setClassAnswer body s).Leaves P := by
  unfold setClassAnswer
  split_ifs
  · trivial
  · refine withParams_leaves fun ps => unlessReserved_leaves ?_
    split_ifs
    · exact unlessBroken_leaves fun hb => h _ _ (classField_legal hb)
    · trivial

theorem setQueueClassAnswer_leaves (h : ∀ q c, P (s.setClassNumber q c)) :
    (setQueueClassAnswer body s).Leaves P := by
  unfold setQueueClassAnswer
  split_ifs
  · trivial
  · refine withParams_leaves fun ps => unlessReserved_leaves ?_
    split_ifs
    · exact h _ _
    · trivial
    · trivial

theorem setRampAnswer_leaves (h : ∀ r entries, rampLegal entries → P (s.setRampSequence r entries)) :
    (setRampAnswer body s).Leaves P := by
  unfold setRampAnswer rampAnswer
  split
  · trivial
  · dsimp only
    split_ifs with _ _ _ hk
    · trivial
    · trivial
    · trivial
    · trivial
    · exact unlessReserved_leaves <| unlessBroken_leaves fun hb =>
        h _ _ (rampField_legal (not_lt.mp hk) hb)
    · trivial

theorem setTickAnswer_leaves (h : ∀ n, 1 ≤ n → n ≤ 65535 →
    P { s with time := { s.time with prescaler := n, refclkCount := 0 } }) :
    (setTickAnswer body s).Leaves P := by
  refine withParams_leaves fun ps => ?_
  split_ifs with _ hn
  · trivial
  · trivial
  · exact h _ (Nat.pos_of_ne_zero hn) (Nat.le_of_lt_succ (paramNat_lt ps 0 2))

theorem setTimersAnswer_leaves (h : ∀ f : TimersField, f.legal → P (s.setTimers f)) :
    (setTimersAnswer body s).Leaves P := by
  unfold setTimersAnswer
  split_ifs
  · trivial
  · refine withParams_leaves_framed (by decide) fun ps length =>
      unlessReserved_leaves_none fun reserved => unlessBroken_leaves fun hb => ?_
    split_ifs
    · trivial
    · exact h _ (timersField_legal length reserved hb)

theorem setAlertAnswer_leaves
    (h : ∀ mask level kinds, 1 ≤ level → level ≤ Config.logCapacity → P (s.setAlerts mask level kinds)) :
    (setAlertAnswer body s).Leaves P := by
  refine withParams_leaves fun ps => unlessReserved_leaves ?_
  split_ifs with hl
  · trivial
  · obtain ⟨low, high⟩ := not_or.mp hl
    exact h _ _ _ (Nat.pos_of_ne_zero low) (not_lt.mp high)

theorem readQueueAnswer_leaves (h : P s) (hq : ∀ q r, P (s.setQueue q r)) :
    (readQueueAnswer body s).Leaves P := by
  refine withParams_leaves fun ps => unlessReserved_leaves ?_
  split_ifs
  · exact hq _ _
  · exact h
  · trivial

theorem readGroupAnswer_leaves (h : P s) (hd : P { s with draws := s.draws + 1 }) :
    (readGroupAnswer body s).Leaves P := by
  refine withParams_leaves fun ps => ?_
  dsimp only
  split_ifs
  · exact hd
  · exact h
  · trivial

theorem readFlowAnswer_leaves (h : P s) : (readFlowAnswer body s).Leaves P := by
  refine withParams_leaves fun ps => ?_
  split_ifs
  · exact h
  · trivial

theorem findFlowAnswer_leaves (h : P s) : (findFlowAnswer body s).Leaves P := by
  unfold findFlowAnswer
  split
  · trivial
  · split_ifs
    · trivial
    · refine unlessReserved_leaves ?_
      split
      · trivial
      · split_ifs
        · trivial
        · exact h

theorem logPeekAnswer_leaves (h : P s) : (logPeekAnswer body s).Leaves P := by
  refine withParams_leaves fun ps => ?_
  split
  · trivial
  · exact h

theorem logPopAnswer_leaves (h : ∀ rest, P { s with log := { s.log with entries := rest } }) :
    (logPopAnswer body s).Leaves P := by
  refine withParams_leaves fun ps => ?_
  split
  · trivial
  · exact h _

theorem countersReadAnswer_leaves (h : P s) (hc : ∀ first count, P (clearCounters first count s)) :
    (countersReadAnswer body s).Leaves P := by
  refine withParams_leaves fun ps => unlessReserved_leaves ?_
  split_ifs
  · trivial
  · trivial
  · exact hc _ _
  · exact h

end

/-! ### Laws of the plain writes of the data path, over the part's own events -/

section
variable {P : State → Prop} (K : DataWritesKeep P) {s : State}
include K

theorem visitRecord_keeps (h : P s) (i : FlowId) : P (visitRecord i s) := by
  unfold visitRecord
  split
  · exact h
  · split_ifs
    · exact freeRecord_keeps K h i
    · exact h
  · split_ifs
    · exact leave_keeps K h i
    · exact h
  · split_ifs
    · exact leave_keeps K h i
    · exact h

omit K in
/-- A law survives what the part does while RST_N is released when it survives the doing itself (R181). -/
theorem whenRunning_keeps {f : State → State} (h : P s) (hf : P (f s)) : P (whenRunning s f) := by
  unfold whenRunning
  split_ifs
  · exact hf
  · exact h

end

/-! ### The settings over every command (R18, R20, R40, R48, R56, R90, R138, R142, R163) -/

section
variable {s t : State}

/-- The data path writes no setting. -/
theorem settingsLegal_writes : DataWritesKeep State.settingsLegal where
  setQueue _ _ h := h
  setFlow _ _ h := h
  setGroup _ _ h := h
  setTotal _ _ h := h
  bump _ h := h
  append _ h _ := h
  flagLogOverflow h := h
  flagOnset h := h
  flagFlowFull h := h
  flagGroupFull h := h
  observe h _ := h

/-! The commands of the link. -/

theorem setStream_settingsLegal (h : s.settingsLegal) (d : Direction) (ts : List Transit) :
    (s.setStream d ts).settingsLegal := by
  cases d <;> exact h

theorem arrive_settingsLegal (h : s.settingsLegal) (d : Direction) (time : Nat) (x : LinkTransaction)
    (awaiting : Option Handed) : (arrive d time x awaiting s).settingsLegal :=
  setStream_settingsLegal h d _

theorem parseWaiting_settingsLegal (h : s.settingsLegal) (d : Direction) (k : ParseStage) :
    (parseWaiting d k s).settingsLegal :=
  setStream_settingsLegal (parseFirst_keeps settingsLegal_writes h k _) d _

theorem handOff_settingsLegal (h : s.settingsLegal) (d : Direction) (time : Nat) (x : LinkTransaction)
    (cell : Cell) (p : Profile) (parse : ParseTime) :
    (handOff d time x cell p parse s).settingsLegal := by
  unfold handOff arriveHanded checkFailure
  split_ifs
  · exact parseWaiting_settingsLegal (arrive_settingsLegal h d time x _) d .decision
  · exact arrive_settingsLegal h d time x _
  · exact arrive_settingsLegal (s := (s.bump Counter.linkCheckError).flagLinkCheck) h d time x none
  · exact arrive_settingsLegal h d time x none

theorem arriveWrite_settingsLegal (h : s.settingsLegal) (time : Nat) (index : CellIndex) (cell : Cell)
    (parse : ParseTime) : (arriveWrite time index cell parse s).settingsLegal := by
  unfold arriveWrite
  split
  · exact arrive_settingsLegal h _ time _ none
  · split_ifs
    · exact handOff_settingsLegal h _ time _ cell _ parse
    · exact arrive_settingsLegal h _ time _ none

theorem arriveMasked_settingsLegal (h : s.settingsLegal) (time : Nat) (index : CellIndex)
    (mask : BitVec 32) (cell : Cell) : (arriveMasked time index mask cell s).settingsLegal := by
  unfold arriveMasked
  split_ifs
  · exact arrive_settingsLegal (s := s.bump Counter.maskedInRange) h _ time _ none
  · exact arrive_settingsLegal h _ time _ none

theorem arriveRequest_settingsLegal (h : s.settingsLegal) (time : Nat) (index : CellIndex) (tag : Tag) :
    (arriveRequest time index tag s).settingsLegal := by
  unfold arriveRequest
  dsimp only
  split_ifs
  · exact arrive_settingsLegal (s := s.setEntry tag (requestEntry s index)) h _ time _ none
  · exact arrive_settingsLegal (s := (s.bump Counter.tagReuse).setEntry tag (requestEntry s index)) h _ time
      _ none

theorem arriveResponse_settingsLegal (h : s.settingsLegal) (time : Nat) (tag : Tag) (cell : Cell)
    (memError : Bool) (parse : ParseTime) :
    (arriveResponse time tag cell memError parse s).settingsLegal := by
  have taken : (s.setEntry tag .empty).settingsLegal := h
  unfold arriveResponse
  dsimp only
  split
  · exact arrive_settingsLegal (s := s.bump Counter.orphanResponse) h _ time _ none
  · split_ifs
    · exact handOff_settingsLegal taken _ time _ cell _ parse
    · exact arrive_settingsLegal taken _ time _ none
  · exact arrive_settingsLegal taken _ time _ none
  · exact arrive_settingsLegal taken _ time _ none

theorem leaveStream_settingsLegal (h : s.settingsLegal) (d : Direction) :
    (leaveStream d s).settingsLegal := by
  unfold leaveStream
  split
  · exact h
  · rename_i x rest _
    have left := setStream_settingsLegal (parseTransit_keeps settingsLegal_writes h .decision x) d rest
    cases d <;> exact left

/-! The part's own events. -/

theorem sweepVisit_settingsLegal (h : s.settingsLegal) (i : FlowId) : (sweepVisit i s).settingsLegal := by
  unfold sweepVisit
  split_ifs
  · exact drainEnd_keeps settingsLegal_writes
      (show (passVisited i (visitRecord i s)).settingsLegal from visitRecord_keeps settingsLegal_writes h i)
  · exact h

theorem sweepPassEnd_settingsLegal (h : s.settingsLegal) : (sweepPassEnd s).settingsLegal := by
  unfold sweepPassEnd
  split_ifs <;> exact h

theorem walkStep_settingsLegal (h : s.settingsLegal) : (walkStep s).settingsLegal := by
  unfold walkStep
  split
  · rename_i i _
    have freed := freeRecord_keeps settingsLegal_writes (show (refclkPeriod s).settingsLegal from h) i
    unfold walkPast
    split_ifs
    · exact freed
    · exact freed
    · exact h
  · exact h

theorem takeTimed_settingsLegal (e : TimedEvent) (h : s.settingsLegal) : (takeTimed e s).settingsLegal :=
  takeTimed_keeps (P := State.settingsLegal)
    (fun e _ h => timedEffect_keeps settingsLegal_writes h e) (fun _ _ h => h) e h

theorem tickOnce_settingsLegal (h : s.settingsLegal) : (tickOnce s).settingsLegal :=
  tickOnce_keeps (fun e _ h => takeTimed_settingsLegal e h) (fun i _ h => sweepVisit_settingsLegal h i)
    (fun _ h => sweepPassEnd_settingsLegal h) (fun _ h => walkStep_settingsLegal h) (fun _ h => h) h

theorem finishClears_settingsLegal (h : s.settingsLegal) : (finishClears s).settingsLegal := by
  unfold finishClears
  split <;> exact h

theorem queueTableClear_settingsLegal (h : s.settingsLegal) : (queueTableClear s).settingsLegal := by
  unfold queueTableClear
  split
  · exact finishClears_settingsLegal h
  · exact h

theorem flowGroupClear_settingsLegal (h : s.settingsLegal) : (flowGroupClear s).settingsLegal := by
  unfold flowGroupClear
  split
  · exact finishClears_settingsLegal h
  · exact h

/-! The management commands. -/

theorem drain_settingsLegal (h : s.settingsLegal) : (drain s).settingsLegal :=
  have K := settingsLegal_writes
  drainEnd_keeps K (forGroups_keeps _ _ (fun g _ h => drainOn_keeps K h g) h)

theorem releaseAll_settingsLegal (h : s.settingsLegal) : (releaseAll s).settingsLegal := by
  have released : (forGroups s releaseOn).settingsLegal :=
    forGroups_keeps _ _ (fun g _ h => releaseOn_keeps settingsLegal_writes h g) h
  unfold releaseAll
  generalize forGroups s releaseOn = t at released ⊢
  exact released

/-- SOFT_RESET writes one setting, the log level, with its reset value (R163, R180). -/
theorem beginSoftReset_settingsLegal (h : s.settingsLegal) : (beginSoftReset s).settingsLegal := by
  obtain ⟨profile, classes, quiet, idle, handshake, sweep, linger, prescaler, ramps, -⟩ := h
  have level : 1 ≤ EpisodeLog.reset.level ∧ EpisodeLog.reset.level ≤ Config.logCapacity := by decide
  exact ⟨profile, classes, quiet, idle, handshake, sweep, linger, prescaler, ramps, level⟩

theorem installProfile_settingsLegal (h : s.settingsLegal) {p : Profile} (hp : p.legal) :
    (installProfile p s).settingsLegal := by
  obtain ⟨-, rest⟩ := h
  exact ⟨fun p' e => Option.some.inj e ▸ hp, rest⟩

theorem setClassRecord_settingsLegal (h : s.settingsLegal) (c : ClassId) {r : ClassRecord} (hr : r.legal) :
    (s.setClassRecord c r).settingsLegal := by
  obtain ⟨profile, classes, rest⟩ := h
  refine ⟨profile, fun c' => ?_, rest⟩
  rw [State.setClassRecord_classRecord]
  split_ifs
  · exact hr
  · exact classes c'

theorem setRampSequence_settingsLegal (h : s.settingsLegal) (r : RampId) {entries : List RampEntry}
    (hr : rampLegal entries) : (s.setRampSequence r entries).settingsLegal := by
  obtain ⟨profile, classes, quiet, idle, handshake, sweep, linger, prescaler, ramps, level⟩ := h
  refine ⟨profile, classes, quiet, idle, handshake, sweep, linger, prescaler, fun r' => ?_, level⟩
  rw [State.setRampSequence_ramp]
  split_ifs
  · exact hr
  · exact ramps r'

theorem setTick_settingsLegal (h : s.settingsLegal) {n : Nat} (low : 1 ≤ n) (high : n ≤ 65535) :
    State.settingsLegal { s with time := { s.time with prescaler := n, refclkCount := 0 } } := by
  obtain ⟨profile, classes, quiet, idle, handshake, sweep, linger, -, ramps, level⟩ := h
  exact ⟨profile, classes, quiet, idle, handshake, sweep, linger, ⟨low, high⟩, ramps, level⟩

theorem setTimers_settingsLegal (h : s.settingsLegal) {f : TimersField} (hf : f.legal) :
    (s.setTimers f).settingsLegal := by
  obtain ⟨profile, classes, -, -, -, -, -, rest⟩ := h
  obtain ⟨idle, handshake, sweep, linger, quiet⟩ := hf
  exact ⟨profile, classes, quiet, idle, handshake, sweep, linger, rest⟩

theorem setAlerts_settingsLegal (h : s.settingsLegal) (mask kinds : BitVec 6) {level : Nat}
    (low : 1 ≤ level) (high : level ≤ Config.logCapacity) : (s.setAlerts mask level kinds).settingsLegal := by
  obtain ⟨profile, classes, quiet, idle, handshake, sweep, linger, prescaler, ramps, -⟩ := h
  exact ⟨profile, classes, quiet, idle, handshake, sweep, linger, prescaler, ramps, low, high⟩

theorem takeRequest_settingsLegal {code : Byte} {answer : State → Answer} (h : s.settingsLegal)
    (ha : (answer s).Leaves State.settingsLegal) : (takeRequest code answer s).settingsLegal :=
  takeRequest_leaves h ha (fun _ _ h => h)

/-- Every command keeps every setting in its range. -/
theorem exec_settingsLegal {c : Instr} (h : s.settingsLegal) (he : exec c s = .next t) :
    t.settingsLegal := by
  cases c with
  | fullCellWrite time index cell parse =>
    cases he; exact whenRunning_keeps h (arriveWrite_settingsLegal h time index cell parse)
  | maskedWrite time index mask cell =>
    cases he; exact whenRunning_keeps h (arriveMasked_settingsLegal h time index mask cell)
  | readRequest time index tag =>
    cases he; exact whenRunning_keeps h (arriveRequest_settingsLegal h time index tag)
  | readResponse time tag cell memError parse =>
    cases he; exact whenRunning_keeps h (arriveResponse_settingsLegal h time tag cell memError parse)
  | handedCellParse d k => cases he; exact whenRunning_keeps h (parseWaiting_settingsLegal h d k)
  | transactionLeaves d => cases he; exact whenRunning_keeps h (leaveStream_settingsLegal h d)
  | hardwareReset => cases he; exact reset_settingsLegal
  | resetRelease =>
    cases he
    unfold releaseReset
    split_ifs <;> exact h
  | tick => cases he; exact whenRunning_keeps h (tickOnce_settingsLegal h)
  | quietExpiry | lingerExpiry | holdExpiry | entryExpiry | holdEnd =>
    cases he; exact whenRunning_keeps h (takeTimed_settingsLegal _ h)
  | sweepVisit i => cases he; exact whenRunning_keeps h (sweepVisit_settingsLegal h i)
  | sweepPassEnd => cases he; exact whenRunning_keeps h (sweepPassEnd_settingsLegal h)
  | drainEndReport => cases he; exact whenRunning_keeps h (drainEnd_keeps settingsLegal_writes h)
  | queueTableClear => cases he; exact whenRunning_keeps h (queueTableClear_settingsLegal h)
  | flowGroupClear => cases he; exact whenRunning_keeps h (flowGroupClear_settingsLegal h)
  | clearFlowsWalkStep => cases he; exact whenRunning_keeps h (walkStep_settingsLegal h)
  | identify body | sense body | stop body =>
    cases he; exact takeRequest_settingsLegal h (withParams_leaves fun _ => h)
  | softReset body =>
    cases he; exact takeRequest_settingsLegal h (withParams_leaves fun _ => beginSoftReset_settingsLegal h)
  | setLatency body => cases he; exact takeRequest_settingsLegal h (setLatencyAnswer_leaves body fun _ => h)
  | loadProfile body =>
    cases he
    exact takeRequest_settingsLegal h
      (loadProfileAnswer_leaves body fun _ legal => installProfile_settingsLegal h legal)
  | setClass body =>
    cases he
    exact takeRequest_settingsLegal h
      (setClassAnswer_leaves body fun c _ legal => setClassRecord_settingsLegal h c legal)
  | setQueueClass body =>
    cases he; exact takeRequest_settingsLegal h (setQueueClassAnswer_leaves body fun _ _ => h)
  | setRamp body =>
    cases he
    exact takeRequest_settingsLegal h
      (setRampAnswer_leaves body fun r _ legal => setRampSequence_settingsLegal h r legal)
  | setTick body =>
    cases he
    exact takeRequest_settingsLegal h
      (setTickAnswer_leaves body fun _ low high => setTick_settingsLegal h low high)
  | setTimers body =>
    cases he
    exact takeRequest_settingsLegal h
      (setTimersAnswer_leaves body fun _ legal => setTimers_settingsLegal h legal)
  | setAlert body =>
    cases he
    exact takeRequest_settingsLegal h (setAlertAnswer_leaves body
      fun mask _ kinds low high => setAlerts_settingsLegal h mask kinds low high)
  | startObserve body => cases he; exact takeRequest_settingsLegal h (startObserveAnswer_leaves body h)
  | enforce body => cases he; exact takeRequest_settingsLegal h (enforceAnswer_leaves body h)
  | releaseGraceful body | releaseAbrupt body =>
    cases he
    exact takeRequest_settingsLegal h
      (releaseAnswer_leaves body _ (drain_settingsLegal h) (releaseAll_settingsLegal h))
  | readQueue body =>
    cases he; exact takeRequest_settingsLegal h (readQueueAnswer_leaves body h fun _ _ => h)
  | readGroup body => cases he; exact takeRequest_settingsLegal h (readGroupAnswer_leaves body h h)
  | readFlow body => cases he; exact takeRequest_settingsLegal h (readFlowAnswer_leaves body h)
  | findFlow body => cases he; exact takeRequest_settingsLegal h (findFlowAnswer_leaves body h)
  | clearFlows body => cases he; exact takeRequest_settingsLegal h (clearFlowsAnswer_leaves body h)
  | logPeek body => cases he; exact takeRequest_settingsLegal h (logPeekAnswer_leaves body h)
  | logPop body => cases he; exact takeRequest_settingsLegal h (logPopAnswer_leaves body fun _ => h)
  | countersRead body =>
    cases he; exact takeRequest_settingsLegal h (countersReadAnswer_leaves body h fun _ _ => h)
  | clearAlert body =>
    cases he
    exact takeRequest_settingsLegal h (withParams_leaves fun _ => unlessReserved_leaves h)
  | invalidCommand code body => cases he; exact takeRequest_settingsLegal h trivial

end

/-- Settles O4: the step idles, or runs one command, and each command keeps every range. -/
theorem settingsStayInRange : Obligations.SettingsStayInRange := by
  intro s t h hstep
  obtain ⟨-, rfl⟩ | ⟨c, rest, -, he⟩ := step_eq hstep
  · exact h
  · exact exec_settingsLegal (s := { s with pending := rest }) h he

end Sys2Proof.Machine

namespace Sys2Proof.Machine

/-! ### The bytes of a profile and the fields they spell (2.2) -/

section
variable {ps r : List Byte} {o n v : Nat}

/-- A field that stands at its offset reads as its number, as far as it holds it. -/
theorem paramNat_of_drop (h : ps.drop o = toBytes n v ++ r) : paramNat ps o n = v % 256 ^ n := by
  rw [paramNat, h, List.take_left' (toBytes_length n v), beNat_toBytes]

/-- The first byte of a field holds its highest bits. -/
theorem toBytes_succ_head (n v : Nat) :
    ∃ rest, toBytes (n + 1) v = BitVec.ofNat 8 (v / 256 ^ n) :: rest := by
  induction n generalizing v with
  | zero => exact ⟨[], by simp [toBytes]⟩
  | succ n ih =>
    obtain ⟨rest, hr⟩ := ih (v / 256)
    refine ⟨rest ++ [BitVec.ofNat 8 v], ?_⟩
    rw [toBytes, hr, Nat.div_div_eq_div_mul, Nat.pow_succ']
    rfl

theorem paramByte_of_drop (h : ps.drop o = toBytes (n + 1) v ++ r) :
    paramByte ps o = BitVec.ofNat 8 (v / 256 ^ n) := by
  obtain ⟨rest, hr⟩ := toBytes_succ_head n v
  have h0 : (ps.drop o)[0]? = some (BitVec.ofNat 8 (v / 256 ^ n)) := by rw [h, hr]; rfl
  rw [List.getElem?_drop, Nat.add_zero] at h0
  rw [paramByte, List.getD_eq_getElem?_getD, h0, Option.getD_some]

end

section
variable {ps r : List Byte} {c : CellRange} {k : Nat}

/-- The first byte of a range descriptor: the enable bit, three reserved bits, four bits of the base. -/
theorem rangeBytes_first (hd : ps.drop (10 + 8 * k) = rangeBytes c ++ r) :
    paramByte ps (10 + 8 * k) = BitVec.ofNat 8 (128 * c.enabled.toNat + c.base / 16777216) := by
  rw [rangeBytes, List.append_assoc] at hd
  rw [paramByte_of_drop hd]
  congr 1
  omega

theorem rangeBytes_limit (hd : ps.drop (10 + 8 * k) = rangeBytes c ++ r) :
    ps.drop (14 + 8 * k) = toBytes 4 c.limit ++ r := by
  rw [show 14 + 8 * k = (10 + 8 * k) + 4 by omega, ← List.drop_drop, hd, rangeBytes, List.append_assoc,
    List.drop_left' (toBytes_length _ _)]

variable (hd : ps.drop (10 + 8 * k) = rangeBytes c ++ r) (hb : c.base ≤ 268435455)
  (hl : c.limit ≤ 268435455)
include hd hb hl

/-- A range descriptor spells its range. -/
theorem rangeField_rangeBytes : rangeField ps k = c := by
  have base : paramNat ps (10 + 8 * k) 4 % 268435456 = c.base := by
    have hd' := hd
    rw [rangeBytes, List.append_assoc] at hd'
    rw [paramNat_of_drop hd']
    cases c.enabled <;> simp only [Bool.toNat_false, Bool.toNat_true] <;> omega
  have limit : paramNat ps (14 + 8 * k) 4 % 268435456 = c.limit := by
    rw [paramNat_of_drop (rangeBytes_limit hd)]
    omega
  have enabled : (paramByte ps (10 + 8 * k)).getLsbD 7 = c.enabled := by
    have top : ∀ (e : Bool) (y : Fin 16), (BitVec.ofNat 8 (128 * e.toNat + y.val)).getLsbD 7 = e := by decide
    rw [rangeBytes_first hd]
    exact top c.enabled ⟨c.base / 16777216, by omega⟩
  simp only [rangeField, base, limit, enabled]

/-- A range descriptor sets no reserved bit. -/
theorem rangeBytes_reserved : paramByte ps (10 + 8 * k) &&& 0x70 = 0 ∧ paramByte ps (14 + 8 * k) &&& 0xF0 = 0 := by
  have first : ∀ (e : Bool) (y : Fin 16), BitVec.ofNat 8 (128 * e.toNat + y.val) &&& (0x70 : Byte) = 0 := by
    decide
  have fifth : ∀ y : Fin 16, BitVec.ofNat 8 y.val &&& (0xF0 : Byte) = 0 := by decide
  rw [rangeBytes_first hd, paramByte_of_drop (rangeBytes_limit hd)]
  exact ⟨first c.enabled ⟨c.base / 16777216, by omega⟩, fifth ⟨c.limit / 256 ^ 3, by omega⟩⟩

end

section
variable {p : Profile}

theorem Profile.legal.encodable (h : p.legal) : p.encodable := by
  obtain ⟨frame, ⟨sopByte, sopBit⟩, multicast, queueByte, lsb, width, -, offset, length, four, ranges⟩ := h
  refine ⟨by omega, ⟨sopByte, sopBit⟩, multicast, queueByte, lsb, by omega, offset, by omega, four,
    fun r hr => ?_⟩
  obtain ⟨ordered, limit⟩ := ranges r hr
  exact ⟨ordered.trans limit, limit⟩

theorem Profile.legal.not_breaks (h : p.legal) (o : Nat) : ¬ p.breaks o := by
  obtain ⟨frame, -, -, -, -, width, first, -, length, -, ranges⟩ := h
  rintro (⟨-, hb⟩ | ⟨-, hq, hb⟩ | ⟨-, hb⟩ | ⟨-, hb⟩ | ⟨k, r, hr, -, hb⟩)
  · omega
  · have := first hq; omega
  · omega
  · omega
  · have := (ranges r (List.mem_of_getElem? hr)).1; omega

theorem Profile.eq_of_fields {q : Profile} (frame : q.frameOffset = p.frameOffset) (sop : q.sop = p.sop)
    (multicast : q.multicast = p.multicast) (queueByte : q.queueByte = p.queueByte)
    (queueLsb : q.queueLsb = p.queueLsb) (queueWidth : q.queueWidth = p.queueWidth)
    (queueOffset : q.queueOffset = p.queueOffset) (lengthByte : q.lengthByte = p.lengthByte)
    (ranges : q.ranges = p.ranges) : q = p := by
  cases p
  cases q
  congr

/-- The ten bytes before the range descriptors. -/
def Profile.headBytes (p : Profile) : List Byte :=
  [BitVec.ofNat 8 p.frameOffset, BitVec.ofNat 8 p.sop.byte, BitVec.ofNat 8 p.sop.bit,
   BitVec.ofNat 8 ((p.multicast.map BitPosition.byte).getD 0),
   BitVec.ofNat 8 ((p.multicast.map fun m => 128 + m.bit).getD 0),
   BitVec.ofNat 8 p.queueByte, BitVec.ofNat 8 (16 * p.queueWidth + p.queueLsb),
   BitVec.ofNat 8 p.lengthByte, BitVec.ofNat 8 (p.queueOffset / 256), BitVec.ofNat 8 p.queueOffset]

theorem profileBytes_eq (p : Profile) : profileBytes p = p.headBytes ++ p.ranges.flatMap rangeBytes := by
  cases h : p.multicast <;> simp [profileBytes, Profile.headBytes, toBytes, h]

@[simp] theorem rangeBytes_length (c : CellRange) : (rangeBytes c).length = 8 := by simp [rangeBytes]

theorem flatMap_rangeBytes_drop (l : List CellRange) (k : Nat) :
    (l.flatMap rangeBytes).drop (8 * k) = (l.drop k).flatMap rangeBytes := by
  induction l generalizing k with
  | nil => simp
  | cons c l ih =>
    cases k with
    | zero => rfl
    | succ k =>
      rw [List.flatMap_cons, show 8 * (k + 1) = 8 + 8 * k by omega, ← List.drop_drop,
        List.drop_left' (rangeBytes_length c), ih, List.drop_succ_cons]

/-- Range descriptor `k` stands at its offset. -/
theorem profileBytes_drop {k : Nat} (hk : k < p.ranges.length) :
    (profileBytes p).drop (10 + 8 * k) = rangeBytes p.ranges[k] ++ (p.ranges.drop (k + 1)).flatMap rangeBytes := by
  rw [profileBytes_eq, ← List.drop_drop, List.drop_left' (show p.headBytes.length = 10 from rfl),
    flatMap_rangeBytes_drop, List.drop_eq_getElem_cons hk, List.flatMap_cons]

/-- The bytes of a profile are the 42 parameters of a well-framed request (R173). -/
theorem profileBytes_framed (h : p.encodable) : framesExactly 42 (42 :: profileBytes p) (profileBytes p) := by
  obtain ⟨-, -, -, -, -, -, -, -, four, -⟩ := h
  exact ⟨rfl, by simp [profileBytes_eq, Profile.headBytes, List.length_flatMap, four]⟩

/-- A byte before the range descriptors. -/
theorem paramByte_profileBytes {o : Nat} (ho : o < 10) :
    paramByte (profileBytes p) o = p.headBytes.getD o 0 := by
  rw [paramByte, profileBytes_eq, List.getD_append _ _ _ _ (show o < p.headBytes.length from ho)]

/-- The two multicast bytes spell the flag's position, and the absence of one (2.2 note 2). -/
theorem multicast_profileBytes (h : ∀ m, p.multicast = some m → m.byte ≤ 63 ∧ m.bit ≤ 7) :
    (profileField (profileBytes p)).multicast = p.multicast := by
  have set : ∀ b : Fin 8, (BitVec.ofNat 8 (128 + b.val)).getLsbD 7 = true := by decide
  simp only [profileField, paramByte_profileBytes (show 3 < 10 by decide),
    paramByte_profileBytes (show 4 < 10 by decide), Profile.headBytes, List.getD_cons_succ, List.getD_cons_zero]
  cases hm : p.multicast with
  | none => rfl
  | some m =>
    obtain ⟨byte, bit⟩ := h m hm
    have position : m = { byte := m.byte % 256 % 64, bit := (128 + m.bit) % 256 % 8 } := by
      obtain ⟨y, b⟩ := m
      simp only [BitPosition.mk.injEq] at byte bit ⊢
      omega
    have flag := set ⟨m.bit, by omega⟩
    simp only [Option.map_some, Option.getD_some, flag, if_true, BitVec.toNat_ofNat]
    exact congrArg some position.symm

/-- The 42 bytes of a profile whose fields fit them spell that profile. -/
theorem profileField_profileBytes (h : p.encodable) : profileField (profileBytes p) = p := by
  obtain ⟨frame, ⟨sopByte, sopBit⟩, multicast, queueByte, lsb, width, offset, length, four, fits⟩ := h
  have number {o v : Nat} (ho : o < 10) (hv : p.headBytes.getD o 0 = BitVec.ofNat 8 v) :
      (paramByte (profileBytes p) o).toNat = v % 256 := by
    rw [paramByte_profileBytes ho, hv, BitVec.toNat_ofNat]
  have frameField : (profileField (profileBytes p)).frameOffset = p.frameOffset :=
    (number (by decide) rfl).trans (by omega)
  have sopField : (profileField (profileBytes p)).sop = p.sop := by
    have byte := number (o := 1) (by decide) rfl
    have bit := number (o := 2) (by decide) rfl
    simp only [profileField, byte, bit]
    rw [show p.sop.byte % 256 % 64 = p.sop.byte by omega, show p.sop.bit % 256 % 8 = p.sop.bit by omega]
  have byteField : (profileField (profileBytes p)).queueByte = p.queueByte := by
    simp only [profileField, number (o := 5) (by decide) rfl]
    omega
  have lsbField : (profileField (profileBytes p)).queueLsb = p.queueLsb := by
    simp only [profileField, number (o := 6) (by decide) rfl]
    omega
  have widthField : (profileField (profileBytes p)).queueWidth = p.queueWidth := by
    simp only [profileField, number (o := 6) (by decide) rfl]
    omega
  have lengthField : (profileField (profileBytes p)).lengthByte = p.lengthByte := by
    simp only [profileField, number (o := 7) (by decide) rfl]
    omega
  have offsetField : (profileField (profileBytes p)).queueOffset = p.queueOffset := by
    have field : paramNat (profileBytes p) 8 2 = p.queueOffset % 256 ^ 2 :=
      paramNat_of_drop (r := p.ranges.flatMap rangeBytes) (by rw [profileBytes_eq]; rfl)
    simp only [profileField, field]
    omega
  have rangesField : (profileField (profileBytes p)).ranges = p.ranges := by
    have range {k : Nat} (hk : k < p.ranges.length) : rangeField (profileBytes p) k = p.ranges[k] :=
      have ⟨base, limit⟩ := fits _ (List.getElem_mem hk)
      rangeField_rangeBytes (profileBytes_drop hk) base limit
    refine List.ext_getElem four.symm fun k hk hk' => ?_
    rw [← range hk']
    match k, hk with
    | 0, _ | 1, _ | 2, _ | 3, _ => rfl
  exact Profile.eq_of_fields frameField sopField (multicast_profileBytes multicast) byteField lsbField widthField
    offsetField lengthField rangesField

/-- A value of six bits leaves the top two bits of its byte clear. -/
theorem sixBits_reserved {y : Nat} (h : y ≤ 63) : BitVec.ofNat 8 y &&& (0xC0 : Byte) = 0 := by
  have all : ∀ y : Fin 64, BitVec.ofNat 8 y.val &&& (0xC0 : Byte) = 0 := by decide
  exact all ⟨y, by omega⟩

/-- The two multicast bytes set no reserved bit, with a flag and without one (2.2 note 2). -/
theorem multicast_reserved (h : ∀ m, p.multicast = some m → m.byte ≤ 63 ∧ m.bit ≤ 7) :
    paramByte (profileBytes p) 3 &&& (if !(paramByte (profileBytes p) 4).getLsbD 7 then 0xFF else 0xC0) = 0
    ∧ paramByte (profileBytes p) 4
        &&& (if !(paramByte (profileBytes p) 4).getLsbD 7 then 0x7F else 0x78) = 0 := by
  have flag : ∀ b : Fin 8, (BitVec.ofNat 8 (128 + b.val)).getLsbD 7 = true
      ∧ BitVec.ofNat 8 (128 + b.val) &&& (0x78 : Byte) = 0 := by decide
  simp only [paramByte_profileBytes (show 3 < 10 by decide), paramByte_profileBytes (show 4 < 10 by decide),
    Profile.headBytes, List.getD_cons_succ, List.getD_cons_zero]
  cases hm : p.multicast with
  | none => decide
  | some m =>
    obtain ⟨byte, bit⟩ := h m hm
    obtain ⟨present, clear⟩ := flag ⟨m.bit, by omega⟩
    simp only [Option.map_some, Option.getD_some, present]
    exact ⟨sixBits_reserved byte, clear⟩

/-- The 42 bytes of a profile whose fields fit them set no reserved bit. -/
theorem profileBytes_reserved (h : p.encodable) :
    noneReserved (profileReserved (profileBytes p)) (profileBytes p) := by
  obtain ⟨-, ⟨sopByte, sopBit⟩, multicast, queueByte, lsb, width, offset, length, four, fits⟩ := h
  have three : ∀ y : Fin 8, BitVec.ofNat 8 y.val &&& (0xF8 : Byte) = 0 := by decide
  have one : ∀ y : Fin 2, BitVec.ofNat 8 y.val &&& (0xFE : Byte) = 0 := by decide
  have nibbles : ∀ (w : Fin 16) (l : Fin 8), BitVec.ofNat 8 (16 * w.val + l.val) &&& (0x08 : Byte) = 0 := by
    decide
  have head {o : Nat} {b m : Byte} (ho : o < 10) (hb : p.headBytes.getD o 0 = b) (hm : b &&& m = 0) :
      paramByte (profileBytes p) o &&& m = 0 := by
    rw [paramByte_profileBytes ho, hb, hm]
  have range {k : Nat} (hk : k < 4) : paramByte (profileBytes p) (10 + 8 * k) &&& 0x70 = 0
      ∧ paramByte (profileBytes p) (14 + 8 * k) &&& 0xF0 = 0 :=
    have hk : k < p.ranges.length := four ▸ hk
    have ⟨base, limit⟩ := fits _ (List.getElem_mem hk)
    rangeBytes_reserved (profileBytes_drop hk) base limit
  obtain ⟨flagByte, flagBit⟩ := multicast_reserved multicast
  have all : ∀ e ∈ profileReserved (profileBytes p), paramByte (profileBytes p) e.1 &&& e.2 = 0 := by
    simp only [profileReserved, List.forall_mem_cons]
    exact ⟨head (by decide) rfl (sixBits_reserved sopByte), head (by decide) rfl (three ⟨p.sop.bit, by omega⟩),
      flagByte, flagBit, head (by decide) rfl (sixBits_reserved queueByte),
      head (by decide) rfl (nibbles ⟨p.queueWidth, by omega⟩ ⟨p.queueLsb, by omega⟩),
      head (by decide) rfl (sixBits_reserved length),
      head (by decide) rfl (one ⟨p.queueOffset / 256, by omega⟩),
      (range (k := 0) (by decide)).1, (range (k := 0) (by decide)).2, (range (k := 1) (by decide)).1,
      (range (k := 1) (by decide)).2, (range (k := 2) (by decide)).1, (range (k := 2) (by decide)).2,
      (range (k := 3) (by decide)).1, (range (k := 3) (by decide)).2, fun _ h => absurd h List.not_mem_nil⟩
  exact fun o m hm => all (o, m) hm

/-! ### The limits of a profile (R20, R176) -/

/-- In a limit list of rising offsets the lowest broken limit is the one reported. -/
theorem brokenAt_of_lowest {limits : List (Nat × Bool)} {o : Nat}
    (rising : limits.Pairwise (fun a b => a.1 < b.1))
    (h : lowestBreak (fun o => (o, true) ∈ limits) o) : brokenAt limits = some o := by
  obtain ⟨broken, lowest⟩ := h
  induction limits with
  | nil => exact absurd broken List.not_mem_nil
  | cons e rest ih =>
    obtain ⟨o', b⟩ := e
    obtain ⟨above, after⟩ := List.pairwise_cons.mp rising
    cases b with
    | true =>
      obtain e | later := List.mem_cons.mp broken
      · cases e; rfl
      · exact absurd List.mem_cons_self (lowest o' (above _ later))
    | false =>
      have later : (o, true) ∈ rest := (List.mem_cons.mp broken).resolve_left (by simp)
      exact ih after later fun o'' ho hm => lowest o'' ho (List.mem_cons_of_mem _ hm)

/-- The limit list of LOAD_PROFILE holds the broken limits of R20. -/
theorem mem_profileLimits {o : Nat} : (o, true) ∈ profileLimits p ↔ p.breaks o := by
  have ranges : (o, true) ∈ p.ranges.zipIdx.map (fun e => (10 + 8 * e.2, decide (e.1.limit < e.1.base)))
      ↔ ∃ k r, p.ranges[k]? = some r ∧ o = 10 + 8 * k ∧ r.limit < r.base := by
    rw [List.mem_map]
    constructor
    · rintro ⟨⟨r, k⟩, hr, he⟩
      obtain ⟨rfl, broken⟩ := Prod.mk.inj he
      exact ⟨k, r, List.mem_zipIdx_iff_getElem?.mp hr, rfl, of_decide_eq_true broken⟩
    · rintro ⟨k, r, hr, rfl, broken⟩
      exact ⟨(r, k), List.mem_zipIdx_iff_getElem?.mpr hr, Prod.ext rfl (decide_eq_true broken)⟩
  rw [profileLimits, List.mem_append, ranges, Profile.breaks]
  simp only [List.mem_cons, List.not_mem_nil, or_false, Prod.mk.injEq, Bool.true_eq, decide_eq_true_eq,
    Bool.and_eq_true, Bool.or_eq_true, beq_iff_eq, or_assoc, and_comm (a := 8 < p.queueLsb + p.queueWidth)]

theorem profileLimits_rising (p : Profile) : (profileLimits p).Pairwise (fun a b => a.1 < b.1) := by
  have ranges : (p.ranges.zipIdx.map
      (fun e => (10 + 8 * e.2, decide (e.1.limit < e.1.base)))).Pairwise (fun a b => a.1 < b.1) := by
    refine List.pairwise_map.mpr (List.pairwise_iff_getElem.mpr fun i j hi hj hij => ?_)
    simpa using hij
  refine List.pairwise_append.mpr ⟨by simp, ranges, fun a ha b hb => ?_⟩
  obtain ⟨e, -, rfl⟩ := List.mem_map.mp hb
  have bound : a.1 ≤ 7 := by
    revert a
    simp
  dsimp only
  omega

/-! ### LOAD_PROFILE (R19, R20, R176) -/

/-- The reserved bits of 2.2, with the flag's presence spelt as the multicast enable bit. -/
theorem profileReserved_eq (ps : List Byte) : profileReserved ps =
    [(1, 0xC0), (2, 0xF8), (3, if (paramByte ps 4).getLsbD 7 then 0xC0 else 0xFF),
     (4, if (paramByte ps 4).getLsbD 7 then 0x78 else 0x7F), (5, 0xC0), (6, 0x08), (7, 0xC0),
     (8, 0xFE), (10, 0x70), (14, 0xF0), (18, 0x70), (22, 0xF0), (26, 0x70), (30, 0xF0),
     (34, 0x70), (38, 0xF0)] := by
  unfold profileReserved
  cases (paramByte ps 4).getLsbD 7 <;> rfl

theorem profileReserved_rising (ps : List Byte) :
    (profileReserved ps).Pairwise (fun a b => a.1 < b.1) := by
  simp [profileReserved]

/-- What LOAD_PROFILE answers in TRANSPARENT to the bytes of a profile: the test of its limits. -/
theorem loadProfileAnswer_profileBytes {s : State} (hm : s.mode = .transparent) (h : p.encodable) :
    loadProfileAnswer (42 :: profileBytes p) s
      = unlessBroken (profileLimits p) (.good [] (installProfile p s)) := by
  rw [loadProfileAnswer, if_neg (not_not.mpr hm), withParams_framed (by decide) (profileBytes_framed h),
    unlessReserved_none (profileBytes_reserved h), profileField_profileBytes h]

theorem tableGet_invalidated (t : Table 256 EntryState) (tag : Tag) :
    tableGet .empty (tableMap .empty invalidated t) tag
      = if tableGet .empty t tag = .empty then .empty else .ineligible := by
  rw [tableGet_map _ _ _ _ rfl]
  cases tableGet .empty t tag <;> rfl

end

/-- Settles O27: the tests in their order, then the profile that its own bytes spell. -/
theorem loadProfileInstallsWhatBytesSpell : Obligations.LoadProfileInstallsWhatBytesSpell := by
  intro s hs
  have answered : ∀ body, exec (.loadProfile body) s = .next (applyAnswer 0x11 s (loadProfileAnswer body s)) :=
    fun body => congrArg Host.Outcome.next ((takeRequest_spec 0x11 (loadProfileAnswer body) s).2.2 hs)
  refine ⟨fun body hm => ?_, fun body hm hf => ?_, fun body ps o hm hf hr => ?_, fun p o hm hp ho => ?_,
    fun p hm hp => ⟨_, ?_, fun tag => tableGet_invalidated s.link.outstanding tag⟩⟩
  · rw [answered, loadProfileAnswer, if_pos hm]
    rfl
  · rw [answered, loadProfileAnswer, if_neg (not_not.mpr hm), withParams_misframed (by decide) hf]
    rfl
  · rw [← profileReserved_eq] at hr
    rw [answered, loadProfileAnswer, if_neg (not_not.mpr hm), withParams_framed (by decide) hf,
      unlessReserved_some (profileReserved_rising ps) hr]
    rfl
  · have broken : brokenAt (profileLimits p) = some o :=
      brokenAt_of_lowest (profileLimits_rising p) (by simpa only [mem_profileLimits] using ho)
    rw [answered, loadProfileAnswer_profileBytes hm hp, unlessBroken, broken]
    rfl
  · have kept : ∀ e ∈ profileLimits p, e.2 = false := fun e he =>
      Bool.eq_false_iff.mpr fun ht => hp.not_breaks e.1 (mem_profileLimits.mp (by rw [← ht]; exact he))
    rw [answered, loadProfileAnswer_profileBytes hm hp.encodable, unlessBroken_none kept]
    rfl

end Sys2Proof.Machine

namespace Sys2Proof.Machine

/-! ### What a request may write into the result and sense records (R174, R176, R177) -/

/-- What an answer writes into the result and the sense record fits them. -/
def Answer.Fits : Answer → Prop
  | .good bytes _ => bytes.length ≤ 64
  | .check _ offset => offset ≤ 255
  | .started _ _ | .busy => True

section
variable {n : Nat} {body ps : List Byte} {k : Answer} {s : State}

theorem frameOffset_fits (code : SenseCode) : (Answer.check code frameOffset).Fits := Nat.le_refl 255

/-- A result without bytes fits its record. -/
theorem good_nil_fits (t : State) : (Answer.good [] t).Fits := Nat.zero_le _

theorem withParams_fits {k : List Byte → Answer} (h : ∀ ps, (k ps).Fits) : (withParams n body k).Fits := by
  unfold withParams
  split
  · exact frameOffset_fits .badLength
  · exact h _

theorem unlessReserved_fits {layout : List (Nat × Byte)} (offsets : ∀ e ∈ layout, e.1 ≤ 255) (h : k.Fits) :
    (unlessReserved layout ps k).Fits := by
  unfold unlessReserved
  split
  · rename_i o ho
    obtain ⟨e, he, rfl⟩ := Option.map_eq_some_iff.mp ho
    exact offsets e (List.mem_of_find?_eq_some he)
  · exact h

theorem unlessBroken_fits {limits : List (Nat × Bool)} (offsets : ∀ e ∈ limits, e.1 ≤ 255) (h : k.Fits) :
    (unlessBroken limits k).Fits := by
  unfold unlessBroken
  split
  · rename_i o ho
    obtain ⟨e, he, rfl⟩ := Option.map_eq_some_iff.mp ho
    exact offsets e (List.mem_of_find?_eq_some he)
  · exact h

/-! The lengths of the results (10.2, 11.6). -/

@[simp] theorem tickBytes_length (t : Tick) : (tickBytes t).length = 4 := toBytes_length 4 _

@[simp] theorem flowKeyBytes_length (key : Option FlowKey) : (flowKeyBytes key).length = 37 := by
  cases key <;> simp [flowKeyBytes]

@[simp] theorem flowBytes_length (s : State) (i : FlowId) : (flowBytes s i).length = 59 := by
  simp [flowBytes, optionalByte, optionalPair]

@[simp] theorem queueBytes_length (s : State) (q : QueueId) : (queueBytes s q).length = 25 := by
  simp [queueBytes]

@[simp] theorem groupKeyBytes_length (key : Option GroupKey) : (groupKeyBytes key).length = 19 := by
  cases key <;> simp [groupKeyBytes]

@[simp] theorem groupQueueBytes_length (s : State) (g : GroupId) : (groupQueueBytes s g).length = 6 := by
  unfold groupQueueBytes
  split <;> simp

@[simp] theorem groupBytes_length (s : State) (g : GroupId) : (groupBytes s g).length = 62 := by
  simp [groupBytes]

@[simp] theorem identifyBytes_length (s : State) : (identifyBytes s).length = 11 := by
  simp [identifyBytes]

@[simp] theorem logEntryBytes_length (e : LogEntry) : (logEntryBytes e).length = 40 := by
  simp [logEntryBytes]

/-- A span of counters holds no more of them than it counts (R172). -/
theorem inSpan_length_le (first count : Nat) :
    ((List.finRange 25).filter (inSpan first count)).length ≤ count := by
  have distinct : (((List.finRange 25).filter (inSpan first count)).map Fin.val).Nodup :=
    ((List.nodup_finRange 25).filter _).map Fin.val_injective
  have within : ((List.finRange 25).filter (inSpan first count)).map Fin.val ⊆ List.range' first count := by
    intro c hc
    obtain ⟨counter, listed, rfl⟩ := List.mem_map.mp hc
    have span := (List.mem_filter.mp listed).2
    simp only [inSpan, Bool.and_eq_true, decide_eq_true_eq] at span
    exact List.mem_range'_1.mpr span
  simpa using (List.subperm_of_subset distinct within).length_le

theorem counterBytes_length_le (s : State) (first count : Nat) :
    (counterBytes s first count).length ≤ 4 * count := by
  have four : (counterBytes s first count).length = 4 * ((List.finRange 25).filter (inSpan first count)).length := by
    simp [counterBytes, List.length_flatMap, Nat.mul_comm]
  have := inSpan_length_le first count
  omega

theorem findFlowBytes_length_le (s : State) (v : IpVersion) (a b : Endpoint) :
    (findFlowBytes s v a b).length ≤ 60 := by
  unfold findFlowBytes
  split
  · simp
  · split <;> simp

/-! Every answer fits. -/

variable (body) (s)

theorem startObserveAnswer_fits : (startObserveAnswer body s).Fits := by
  refine withParams_fits fun ps => ?_
  split
  · trivial
  · exact Nat.zero_le _
  · exact Nat.zero_le _
  · split_ifs
    · exact good_nil_fits _
    · exact Nat.zero_le _

theorem enforceAnswer_fits : (enforceAnswer body s).Fits := by
  refine withParams_fits fun ps => ?_
  split
  · trivial
  · exact Nat.zero_le _
  · exact good_nil_fits _
  · exact good_nil_fits _

theorem releaseAnswer_fits (abrupt : Bool) : (releaseAnswer abrupt body s).Fits := by
  refine withParams_fits fun ps => unlessReserved_fits (by decide) ?_
  split
  · exact Nat.zero_le _
  · exact Nat.zero_le _
  · trivial
  · exact good_nil_fits _
  · exact good_nil_fits _
  · exact good_nil_fits _

theorem clearFlowsAnswer_fits : (clearFlowsAnswer body s).Fits := by
  refine withParams_fits fun ps => ?_
  split
  · trivial
  · exact Nat.zero_le _
  · exact Nat.zero_le _
  · trivial

theorem setLatencyAnswer_fits : (setLatencyAnswer body s).Fits := by
  refine withParams_fits fun ps => unlessReserved_fits (by decide) ?_
  split_ifs
  · exact Nat.zero_le _
  · exact good_nil_fits _
  · exact good_nil_fits _

theorem loadProfileAnswer_fits : (loadProfileAnswer body s).Fits := by
  unfold loadProfileAnswer
  split_ifs
  · exact Nat.zero_le _
  · exact withParams_fits fun ps => unlessReserved_fits (by simp [profileReserved]) <|
      unlessBroken_fits (by simp [profileLimits, profileField, List.zipIdx]) (good_nil_fits _)

theorem setClassAnswer_fits : (setClassAnswer body s).Fits := by
  unfold setClassAnswer
  split_ifs
  · trivial
  · refine withParams_fits fun ps => unlessReserved_fits (by decide) ?_
    split_ifs
    · exact unlessBroken_fits (by simp [classLimits]) (good_nil_fits _)
    · exact Nat.zero_le _

theorem setQueueClassAnswer_fits : (setQueueClassAnswer body s).Fits := by
  unfold setQueueClassAnswer
  split_ifs
  · trivial
  · refine withParams_fits fun ps => unlessReserved_fits (by decide) ?_
    split_ifs
    · exact good_nil_fits _
    · exact show 2 ≤ 255 by decide
    · exact Nat.zero_le _

/-- With at most 16 entries every offset of SET_RAMP stands within its 58 parameters (11.6). -/
theorem rampOffsets_le {ps : List Byte} {k : Nat} (hk : k ≤ 16) :
    (∀ e ∈ rampReserved k, e.1 ≤ 255) ∧ ∀ e ∈ rampLimits ps k, e.1 ≤ 255 := by
  constructor
  · intro e he
    unfold rampReserved at he
    split_ifs at he
    · cases List.mem_singleton.mp he
      dsimp only
      omega
    · exact absurd he List.not_mem_nil
  · simp only [rampLimits, multiplierOffset, List.forall_mem_append, List.forall_mem_map, List.mem_range]
    constructor <;> intros <;> omega

theorem setRampAnswer_fits : (setRampAnswer body s).Fits := by
  unfold setRampAnswer rampAnswer
  split
  · exact frameOffset_fits .badLength
  · dsimp only
    split_ifs with _ _ _ hk
    · exact frameOffset_fits .badLength
    · trivial
    · exact show 1 ≤ 255 by decide
    · exact frameOffset_fits .badLength
    · obtain ⟨reserved, limits⟩ := rampOffsets_le (not_lt.mp hk)
      exact unlessReserved_fits reserved (unlessBroken_fits limits (good_nil_fits _))
    · exact Nat.zero_le _

theorem setTickAnswer_fits : (setTickAnswer body s).Fits := by
  refine withParams_fits fun ps => ?_
  split_ifs
  · trivial
  · exact Nat.zero_le _
  · exact good_nil_fits _

theorem setTimersAnswer_fits : (setTimersAnswer body s).Fits := by
  unfold setTimersAnswer
  split_ifs
  · trivial
  · refine withParams_fits fun ps =>
      unlessReserved_fits (by decide) (unlessBroken_fits (by simp [timersLimits]) ?_)
    split_ifs
    · exact show 18 ≤ 255 by decide
    · exact good_nil_fits _

theorem setAlertAnswer_fits : (setAlertAnswer body s).Fits := by
  refine withParams_fits fun ps => unlessReserved_fits (by decide) ?_
  split_ifs
  · exact show 1 ≤ 255 by decide
  · exact good_nil_fits _

theorem identifyAnswer_fits : (identifyAnswer body s).Fits :=
  withParams_fits fun ps => by simp [Answer.Fits]

theorem senseAnswer_fits : (senseAnswer body s).Fits :=
  withParams_fits fun ps => by simp [Answer.Fits]

theorem readQueueAnswer_fits : (readQueueAnswer body s).Fits := by
  refine withParams_fits fun ps => unlessReserved_fits (by decide) ?_
  split_ifs
  · simp [Answer.Fits]
  · simp [Answer.Fits]
  · exact Nat.zero_le _

theorem readGroupAnswer_fits : (readGroupAnswer body s).Fits := by
  refine withParams_fits fun ps => ?_
  split_ifs
  · simp [Answer.Fits]
  · exact Nat.zero_le _

theorem readFlowAnswer_fits : (readFlowAnswer body s).Fits := by
  refine withParams_fits fun ps => ?_
  split_ifs
  · simp [Answer.Fits]
  · exact Nat.zero_le _

theorem findFlowAnswer_fits : (findFlowAnswer body s).Fits := by
  unfold findFlowAnswer
  split
  · exact frameOffset_fits .badLength
  · split_ifs
    · exact frameOffset_fits .badLength
    · refine unlessReserved_fits (by decide) ?_
      split
      · exact Nat.zero_le _
      · split_ifs
        · exact frameOffset_fits .badLength
        · exact (findFlowBytes_length_le _ _ _ _).trans (by decide)

theorem logPeekAnswer_fits : (logPeekAnswer body s).Fits := by
  refine withParams_fits fun ps => ?_
  split
  · exact Nat.zero_le _
  · simp [Answer.Fits]

theorem logPopAnswer_fits : (logPopAnswer body s).Fits := by
  refine withParams_fits fun ps => ?_
  split
  · exact Nat.zero_le _
  · simp [Answer.Fits]

theorem countersReadAnswer_fits : (countersReadAnswer body s).Fits := by
  refine withParams_fits fun ps => unlessReserved_fits (by decide) ?_
  split_ifs with hc
  · exact show 1 ≤ 255 by decide
  · exact Nat.zero_le _
  all_goals
    have length := counterBytes_length_le s (paramByte ps 0).toNat (paramByte ps 1).toNat
    unfold Answer.Fits
    omega

theorem clearAlertAnswer_fits : (clearAlertAnswer body s).Fits :=
  withParams_fits fun ps => unlessReserved_fits (by decide) (by simp [Answer.Fits])

end
end Sys2Proof.Machine

namespace Sys2Proof.Machine

/-! ### A law of every write of the part is a law of every command -/

/-- The law `P` survives every operation of the data path: a stage of a parse, an expiry, a visit of the sweep, a
freed record, what a release does to a group, a drain-end report, a count. -/
structure DataPathKeeps (P : State → Prop) : Prop where
  bump : ∀ {s}, P s → ∀ c, P (s.bump c)
  nextStage : ∀ {s}, P s → ∀ t, P (nextStage t s).2
  timedEffect : ∀ {s}, P s → ∀ e, P (timedEffect e s)
  visitRecord : ∀ {s}, P s → ∀ i, P (visitRecord i s)
  freeRecord : ∀ {s}, P s → ∀ i, P (freeRecord i s)
  drainOn : ∀ {s}, P s → ∀ g, P (drainOn g s)
  releaseOn : ∀ {s}, P s → ∀ g, P (releaseOn g s)
  drainEnd : ∀ {s}, P s → P (drainEnd s)

/-- A law that every plain write of the data path keeps. -/
theorem DataWritesKeep.dataPath {P : State → Prop} (K : DataWritesKeep P) : DataPathKeeps P where
  bump h c := K.bump c h
  nextStage h t := nextStage_keeps K h t
  timedEffect h e := timedEffect_keeps K h e
  visitRecord h i := visitRecord_keeps K h i
  freeRecord h i := freeRecord_keeps K h i
  drainOn h g := drainOn_keeps K h g
  releaseOn h g := releaseOn_keeps K h g
  drainEnd h := drainEnd_keeps K h

/-- The law `P` survives every operation of the data path and every write of the link, the port and the time base:
all that the commands are made of. -/
structure CommandWritesKeep (P : State → Prop) : Prop extends DataPathKeeps P where
  takeCommand : ∀ {s}, P s → ∀ rest, P { s with pending := rest }
  assertReset : ∀ {s}, P s → P (assertReset s)
  releaseReset : ∀ {s}, P s → P (releaseReset s)
  flagLinkCheck : ∀ {s}, P s → P s.flagLinkCheck
  setEntry : ∀ {s}, P s → ∀ t e, P (s.setEntry t e)
  setStream : ∀ {s}, P s → ∀ d ts, P (s.setStream d ts)
  setPins : ∀ {s}, P s → ∀ d p, P (s.setPins d p)
  setLatency : ∀ {s}, P s → ∀ l, P { s with link := { s.link with latency := l, locked := true } }
  installProfile : ∀ {s}, P s → ∀ p, P (installProfile p s)
  setMode : ∀ {s}, P s → ∀ m, P { s with mode := m }
  setSweep : ∀ {s}, P s → ∀ pass, P { s with ft := { s.ft with sweep := pass } }
  setDue : ∀ {s}, P s → ∀ due, P (s.setDue due)
  refclkPeriod : ∀ {s}, P s → s.time.refclkCount < s.time.prescaler → P (refclkPeriod s)
  advanceTick : ∀ {s}, P s → P (advanceTick s)
  setTick : ∀ {s}, P s → ∀ n, P { s with time := { s.time with prescaler := n, refclkCount := 0 } }
  clearQueues : ∀ {s}, P s → P (clearQueues s)
  clearFlowsAndGroups : ∀ {s}, P s → P (clearFlowsAndGroups s)
  clearTotals : ∀ {s}, P s → P { s with gc := { s.gc with totals := [] } }
  beginSoftReset : ∀ {s}, P s → P (beginSoftReset s)
  setClassRecord : ∀ {s}, P s → ∀ c r, P (s.setClassRecord c r)
  setClassNumber : ∀ {s}, P s → ∀ q c, P (s.setClassNumber q c)
  setRampSequence : ∀ {s}, P s → ∀ r entries, P (s.setRampSequence r entries)
  setTimers : ∀ {s}, P s → ∀ f, P (s.setTimers f)
  setAlerts : ∀ {s}, P s → ∀ mask level kinds, P (s.setAlerts mask level kinds)
  setFlags : ∀ {s}, P s → ∀ alerts, P { s with alerts := alerts }
  lowerPeak : ∀ {s}, P s → ∀ q, P (s.setQueue q { s.queue q with peak := (s.queue q).estimate })
  takeDraw : ∀ {s}, P s → P { s with draws := s.draws + 1 }
  popLog : ∀ {s}, P s → ∀ e rest, s.log.entries = e :: rest →
    P { s with log := { s.log with entries := rest } }
  clearCounters : ∀ {s}, P s → ∀ first count, P (clearCounters first count s)
  setResult : ∀ {s}, P s → ∀ status code bytes, bytes.length ≤ 64 → P (s.setResult status code bytes)
  setSense : ∀ {s}, P s → ∀ code offset, offset ≤ 255 → P (s.setSense code offset)
  setCommand : ∀ {s}, P s → ∀ c, P (s.setCommand c)

section
variable {P : State → Prop} {s t : State}

/-! The parse of a handed cell. -/

theorem DataPathKeeps.stageUpTo_kept (K : DataPathKeeps P) (k : ParseStage) (r : Transit × State) (h : P r.2) :
    P (stageUpTo k r).2 := by
  unfold Machine.stageUpTo
  split_ifs
  · exact K.nextStage h _
  · exact h

theorem DataPathKeeps.parseTransit_kept (K : DataPathKeeps P) (h : P s) (k : ParseStage) (x : Transit) :
    P (parseTransit k x s).2 :=
  K.stageUpTo_kept k _ (K.stageUpTo_kept k _ (K.stageUpTo_kept k (x, s) h))

theorem DataPathKeeps.parseFirst_kept (K : DataPathKeeps P) (h : P s) (k : ParseStage) (ts : List Transit) :
    P (parseFirst k ts s).2 := by
  induction ts with
  | nil => exact h
  | cons x rest ih =>
    unfold Machine.parseFirst
    split_ifs
    · exact K.parseTransit_kept h k x
    · exact ih

namespace CommandWritesKeep
variable (K : CommandWritesKeep P)
include K

/-! The commands of the link. -/

theorem arrive_kept (h : P s) (d : Direction) (time : Nat) (x : LinkTransaction) (awaiting : Option Handed) :
    P (arrive d time x awaiting s) :=
  K.setStream h d _

theorem parseWaiting_kept (h : P s) (d : Direction) (k : ParseStage) : P (parseWaiting d k s) :=
  K.setStream (K.parseFirst_kept h k _) d _

theorem handOff_kept (h : P s) (d : Direction) (time : Nat) (x : LinkTransaction) (cell : Cell) (p : Profile)
    (parse : ParseTime) : P (handOff d time x cell p parse s) := by
  unfold handOff arriveHanded checkFailure
  split_ifs
  · exact K.parseWaiting_kept (K.arrive_kept h d time x _) d .decision
  · exact K.arrive_kept h d time x _
  · exact K.arrive_kept (K.flagLinkCheck (K.bump h _)) d time x none
  · exact K.arrive_kept h d time x none

theorem arriveWrite_kept (h : P s) (time : Nat) (index : CellIndex) (cell : Cell) (parse : ParseTime) :
    P (arriveWrite time index cell parse s) := by
  unfold arriveWrite
  split
  · exact K.arrive_kept h _ time _ none
  · split_ifs
    · exact K.handOff_kept h _ time _ cell _ parse
    · exact K.arrive_kept h _ time _ none

theorem arriveMasked_kept (h : P s) (time : Nat) (index : CellIndex) (mask : BitVec 32) (cell : Cell) :
    P (arriveMasked time index mask cell s) := by
  unfold arriveMasked
  split_ifs
  · exact K.arrive_kept (K.bump h _) _ time _ none
  · exact K.arrive_kept h _ time _ none

theorem arriveRequest_kept (h : P s) (time : Nat) (index : CellIndex) (tag : Tag) :
    P (arriveRequest time index tag s) := by
  unfold arriveRequest
  dsimp only
  split_ifs
  · exact K.arrive_kept (K.setEntry h tag _) _ time _ none
  · exact K.arrive_kept (K.setEntry (K.bump h _) tag _) _ time _ none

theorem arriveResponse_kept (h : P s) (time : Nat) (tag : Tag) (cell : Cell) (memError : Bool)
    (parse : ParseTime) : P (arriveResponse time tag cell memError parse s) := by
  have taken : P (s.setEntry tag .empty) := K.setEntry h tag .empty
  unfold arriveResponse
  dsimp only
  split
  · exact K.arrive_kept (K.bump h _) _ time _ none
  · split_ifs
    · exact K.handOff_kept taken _ time _ cell _ parse
    · exact K.arrive_kept taken _ time _ none
  · exact K.arrive_kept taken _ time _ none
  · exact K.arrive_kept taken _ time _ none

theorem leaveStream_kept (h : P s) (d : Direction) : P (leaveStream d s) := by
  unfold leaveStream
  split
  · exact h
  · rename_i x rest _
    exact K.setPins (K.setStream (K.parseTransit_kept h .decision x) d rest) d _

/-! The part's own events. -/

theorem sweepVisit_kept (h : P s) (i : FlowId) : P (sweepVisit i s) := by
  unfold sweepVisit
  split_ifs
  · exact K.drainEnd (K.setSweep (K.visitRecord h i) _)
  · exact h

theorem sweepPassEnd_kept (h : P s) : P (sweepPassEnd s) := by
  unfold sweepPassEnd
  split_ifs
  · exact K.setSweep h _
  · exact h

theorem walkStep_kept (h : P s) : P (walkStep s) := by
  unfold walkStep
  split
  · rename_i i _
    split_ifs with room
    · have freed := K.freeRecord (K.refclkPeriod h room) i
      unfold walkPast
      split_ifs
      · exact K.setCommand freed _
      · exact K.setCommand (K.setResult freed _ _ [] (Nat.zero_le _)) none
    · exact h
  · exact h

theorem takeTimed_kept (e : TimedEvent) (h : P s) : P (takeTimed e s) :=
  takeTimed_keeps (P := P) (fun e _ h => K.timedEffect h e) (fun _ _ h => K.setDue h _) e h

theorem tickOnce_kept (h : P s) : P (tickOnce s) :=
  tickOnce_keeps (fun e _ h => K.takeTimed_kept e h) (fun i _ h => K.sweepVisit_kept h i)
    (fun _ h => K.sweepPassEnd_kept h) (fun _ h => K.walkStep_kept h)
    (fun _ h => K.setDue (K.advanceTick h) _) h

theorem finishClears_kept (h : P s) : P (finishClears s) := by
  unfold finishClears
  split
  · exact K.setCommand (K.setResult h _ _ [] (Nat.zero_le _)) none
  · exact h

theorem queueTableClear_kept (h : P s) : P (queueTableClear s) := by
  unfold queueTableClear
  split
  · exact K.finishClears_kept (K.setCommand (K.clearQueues h) _)
  · exact h

theorem flowGroupClear_kept (h : P s) : P (flowGroupClear s) := by
  unfold flowGroupClear
  split
  · exact K.finishClears_kept (K.setCommand (K.clearFlowsAndGroups h) _)
  · exact h

/-! The management commands. -/

theorem drain_kept (h : P s) : P (drain s) :=
  K.drainEnd (forGroups_keeps P Machine.drainOn (fun g _ h => K.drainOn h g) (K.setMode h .draining))

theorem releaseAll_kept (h : P s) : P (releaseAll s) := by
  have released : P (forGroups s Machine.releaseOn) :=
    forGroups_keeps P Machine.releaseOn (fun g _ h => K.releaseOn h g) h
  unfold releaseAll
  generalize forGroups s Machine.releaseOn = u at released ⊢
  exact K.setMode (K.clearTotals released) .observe

/-- A request keeps the law when all that its answer leads to has it. -/
theorem takeRequest_kept {code : Byte} {answer : State → Answer} (h : P s) (leaves : (answer s).Leaves P)
    (fits : (answer s).Fits) : P (takeRequest code answer s) := by
  refine whenRunning_keeps h ?_
  split
  · exact K.setResult h .busy code [] (Nat.zero_le _)
  · cases he : answer s with
    | good bytes u => rw [he] at leaves fits; exact K.setResult leaves .good code bytes fits
    | started command u =>
      rw [he] at leaves
      exact K.setCommand (K.setResult leaves .pending code [] (Nat.zero_le _)) _
    | busy => exact K.setResult h .busy code [] (Nat.zero_le _)
    | check sense offset =>
      rw [he] at fits
      exact K.setSense (K.setResult h .check code [] (Nat.zero_le _)) sense offset fits

omit K in
/-- READ_QUEUE writes at most the peak of its queue (R51). -/
theorem readQueueAnswer_leaves_peak (body : List Byte) (h : P s)
    (hq : ∀ q, P (s.setQueue q { s.queue q with peak := (s.queue q).estimate })) :
    (readQueueAnswer body s).Leaves P := by
  refine withParams_leaves fun ps => unlessReserved_leaves ?_
  split_ifs
  · exact hq _
  · exact h
  · trivial

omit K in
/-- LOG_POP removes the oldest entry and no other (R166). -/
theorem logPopAnswer_leaves_rest (body : List Byte) (h : ∀ e rest, s.log.entries = e :: rest →
    P { s with log := { s.log with entries := rest } }) : (logPopAnswer body s).Leaves P := by
  refine withParams_leaves fun ps => ?_
  split
  · trivial
  · exact h _ _ ‹_›

/-- Every command keeps the law. -/
theorem exec_kept {c : Instr} (h : P s) (he : exec c s = .next t) : P t := by
  cases c with
  | fullCellWrite time index cell parse =>
    cases he; exact whenRunning_keeps h (K.arriveWrite_kept h time index cell parse)
  | maskedWrite time index mask cell =>
    cases he; exact whenRunning_keeps h (K.arriveMasked_kept h time index mask cell)
  | readRequest time index tag =>
    cases he; exact whenRunning_keeps h (K.arriveRequest_kept h time index tag)
  | readResponse time tag cell memError parse =>
    cases he; exact whenRunning_keeps h (K.arriveResponse_kept h time tag cell memError parse)
  | handedCellParse d k => cases he; exact whenRunning_keeps h (K.parseWaiting_kept h d k)
  | transactionLeaves d => cases he; exact whenRunning_keeps h (K.leaveStream_kept h d)
  | hardwareReset => cases he; exact K.assertReset h
  | resetRelease => cases he; exact K.releaseReset h
  | tick => cases he; exact whenRunning_keeps h (K.tickOnce_kept h)
  | quietExpiry | lingerExpiry | holdExpiry | entryExpiry | holdEnd =>
    cases he; exact whenRunning_keeps h (K.takeTimed_kept _ h)
  | sweepVisit i => cases he; exact whenRunning_keeps h (K.sweepVisit_kept h i)
  | sweepPassEnd => cases he; exact whenRunning_keeps h (K.sweepPassEnd_kept h)
  | drainEndReport => cases he; exact whenRunning_keeps h (K.drainEnd h)
  | queueTableClear => cases he; exact whenRunning_keeps h (K.queueTableClear_kept h)
  | flowGroupClear => cases he; exact whenRunning_keeps h (K.flowGroupClear_kept h)
  | clearFlowsWalkStep => cases he; exact whenRunning_keeps h (K.walkStep_kept h)
  | identify body =>
    cases he; exact K.takeRequest_kept h (withParams_leaves fun _ => h) (identifyAnswer_fits body s)
  | sense body =>
    cases he
    exact K.takeRequest_kept h (withParams_leaves fun _ => K.setSense h .none 0 (Nat.zero_le _))
      (senseAnswer_fits body s)
  | stop body =>
    cases he
    exact K.takeRequest_kept h (withParams_leaves fun _ => K.setSweep (K.setMode h .transparent) none)
      (withParams_fits fun _ => trivial)
  | softReset body =>
    cases he
    exact K.takeRequest_kept h (withParams_leaves fun _ => K.beginSoftReset h) (withParams_fits fun _ => trivial)
  | setLatency body =>
    cases he
    exact K.takeRequest_kept h (setLatencyAnswer_leaves body (K.setLatency h)) (setLatencyAnswer_fits body s)
  | loadProfile body =>
    cases he
    exact K.takeRequest_kept h (loadProfileAnswer_leaves body fun p _ => K.installProfile h p)
      (loadProfileAnswer_fits body s)
  | setClass body =>
    cases he
    exact K.takeRequest_kept h (setClassAnswer_leaves body fun c r _ => K.setClassRecord h c r)
      (setClassAnswer_fits body s)
  | setQueueClass body =>
    cases he
    exact K.takeRequest_kept h (setQueueClassAnswer_leaves body (K.setClassNumber h))
      (setQueueClassAnswer_fits body s)
  | setRamp body =>
    cases he
    exact K.takeRequest_kept h (setRampAnswer_leaves body fun r entries _ => K.setRampSequence h r entries)
      (setRampAnswer_fits body s)
  | setTick body =>
    cases he
    exact K.takeRequest_kept h (setTickAnswer_leaves body fun n _ _ => K.setTick h n) (setTickAnswer_fits body s)
  | setTimers body =>
    cases he
    exact K.takeRequest_kept h (setTimersAnswer_leaves body fun f _ => K.setTimers h f)
      (setTimersAnswer_fits body s)
  | setAlert body =>
    cases he
    exact K.takeRequest_kept h (setAlertAnswer_leaves body fun mask level kinds _ _ =>
      K.setAlerts h mask level kinds) (setAlertAnswer_fits body s)
  | startObserve body =>
    cases he
    exact K.takeRequest_kept h (startObserveAnswer_leaves body (K.setSweep (K.setMode h .observe) _))
      (startObserveAnswer_fits body s)
  | enforce body =>
    cases he
    exact K.takeRequest_kept h (enforceAnswer_leaves body (K.setMode h .enforce)) (enforceAnswer_fits body s)
  | releaseGraceful body | releaseAbrupt body =>
    cases he
    exact K.takeRequest_kept h (releaseAnswer_leaves body _ (K.drain_kept h) (K.releaseAll_kept h))
      (releaseAnswer_fits body s _)
  | readQueue body =>
    cases he
    exact K.takeRequest_kept h (readQueueAnswer_leaves_peak body h (K.lowerPeak h)) (readQueueAnswer_fits body s)
  | readGroup body =>
    cases he
    exact K.takeRequest_kept h (readGroupAnswer_leaves body h (K.takeDraw h)) (readGroupAnswer_fits body s)
  | readFlow body =>
    cases he; exact K.takeRequest_kept h (readFlowAnswer_leaves body h) (readFlowAnswer_fits body s)
  | findFlow body =>
    cases he; exact K.takeRequest_kept h (findFlowAnswer_leaves body h) (findFlowAnswer_fits body s)
  | clearFlows body =>
    cases he; exact K.takeRequest_kept h (clearFlowsAnswer_leaves body h) (clearFlowsAnswer_fits body s)
  | logPeek body =>
    cases he; exact K.takeRequest_kept h (logPeekAnswer_leaves body h) (logPeekAnswer_fits body s)
  | logPop body =>
    cases he
    exact K.takeRequest_kept h (logPopAnswer_leaves_rest body (K.popLog h)) (logPopAnswer_fits body s)
  | countersRead body =>
    cases he
    exact K.takeRequest_kept h (countersReadAnswer_leaves body h (K.clearCounters h))
      (countersReadAnswer_fits body s)
  | clearAlert body =>
    cases he
    exact K.takeRequest_kept h (withParams_leaves fun _ => unlessReserved_leaves (K.setFlags h _))
      (clearAlertAnswer_fits body s)
  | invalidCommand code body =>
    cases he; exact K.takeRequest_kept h trivial (frameOffset_fits .invalidCommand)

/-- A step idles, or runs one command: it keeps the law. -/
theorem step_kept (h : P s) (hstep : step s = .next t) : P t := by
  obtain ⟨-, rfl⟩ | ⟨c, rest, -, he⟩ := step_eq hstep
  · exact h
  · exact K.exec_kept (K.takeCommand h rest) he

end CommandWritesKeep

end
end Sys2Proof.Machine

namespace Sys2Proof.Machine

/-! ### The canonical form over every command (R38, R57, R80) -/

section
variable {s : State}

theorem installProfile_canonical (h : s.tablesCanonical) (p : Profile) :
    (installProfile p s).tablesCanonical := by
  obtain ⟨-, rest⟩ := h
  exact ⟨tableWf_map _ _ _, rest⟩

theorem setClassRecord_canonical (h : s.tablesCanonical) (c : ClassId) (r : ClassRecord) :
    (s.setClassRecord c r).tablesCanonical := by
  obtain ⟨entries, queues, classOf, classes, rest⟩ := h
  exact ⟨entries, queues, classOf, tableWf_set classes c r, rest⟩

theorem setClassNumber_canonical (h : s.tablesCanonical) (q : QueueId) (c : ClassId) :
    (s.setClassNumber q c).tablesCanonical := by
  obtain ⟨entries, queues, classOf, rest⟩ := h
  exact ⟨entries, queues, tableWf_set classOf q c, rest⟩

theorem setRampSequence_canonical (h : s.tablesCanonical) (r : RampId) (entries : List RampEntry) :
    (s.setRampSequence r entries).tablesCanonical := by
  obtain ⟨outstanding, queues, classOf, classes, flows, groups, totals, ramps, counters⟩ := h
  exact ⟨outstanding, queues, classOf, classes, flows, groups, totals, tableWf_set ramps r entries, counters⟩

theorem clearTotals_canonical (h : s.tablesCanonical) :
    State.tablesCanonical { s with gc := { s.gc with totals := [] } } := by
  obtain ⟨entries, queues, classOf, classes, flows, groups, -, rest⟩ := h
  exact ⟨entries, queues, classOf, classes, flows, groups, tableWf_nil 0, rest⟩

theorem clearCounters_canonical (h : s.tablesCanonical) (first count : Nat) :
    (clearCounters first count s).tablesCanonical := by
  obtain ⟨entries, queues, classOf, classes, flows, groups, totals, ramps, counters⟩ := h
  exact ⟨entries, queues, classOf, classes, flows, groups, totals, ramps, tableWf_filter counters _⟩

theorem beginSoftReset_canonical (h : s.tablesCanonical) : (beginSoftReset s).tablesCanonical := by
  obtain ⟨entries, queues, classOf, classes, flows, groups, totals, ramps, -⟩ := h
  exact ⟨entries, queues, classOf, classes, flows, groups, totals, ramps, tableWf_nil 0⟩

theorem assertReset_canonical (s : State) : (assertReset s).tablesCanonical :=
  ⟨tableWf_nil _, tableWf_nil _, tableWf_nil _, tableWf_nil _, tableWf_nil _, tableWf_nil _, tableWf_nil _,
    tableWf_nil _, tableWf_nil _⟩

/-- Every write of the part keeps every table canonical. -/
theorem tablesCanonical_commands : CommandWritesKeep State.tablesCanonical where
  toDataPathKeeps := tablesCanonical_writes.dataPath
  takeCommand h _ := h
  assertReset _ := assertReset_canonical _
  releaseReset {s} h := by unfold releaseReset; split_ifs <;> exact h
  flagLinkCheck h := h
  setEntry h t e := ⟨tableWf_set h.1 t e, h.2⟩
  setStream h d _ := by cases d <;> exact h
  setPins h d _ := by cases d <;> exact h
  setLatency h _ := h
  installProfile h p := installProfile_canonical h p
  setMode h _ := h
  setSweep h _ := h
  setDue h _ := h
  refclkPeriod h _ := h
  advanceTick h := h
  setTick h _ := h
  clearQueues h := clearQueues_canonical h
  clearFlowsAndGroups h := clearFlowsAndGroups_canonical h
  clearTotals h := clearTotals_canonical h
  beginSoftReset h := beginSoftReset_canonical h
  setClassRecord h c r := setClassRecord_canonical h c r
  setClassNumber h q c := setClassNumber_canonical h q c
  setRampSequence h r entries := setRampSequence_canonical h r entries
  setTimers h _ := h
  setAlerts h _ _ _ := h
  setFlags h _ := h
  lowerPeak h q := tablesCanonical_writes.setQueue q _ h
  takeDraw h := h
  popLog h _ _ _ := h
  clearCounters h first count := clearCounters_canonical h first count
  setResult h _ _ _ _ := h
  setSense h _ _ _ := h
  setCommand h _ := h

end

/-- Settles O3: every write that a command is made of keeps every table canonical. -/
theorem tablesStayCanonical : Obligations.TablesStayCanonical :=
  fun _ _ h hstep => tablesCanonical_commands.step_kept h hstep

end Sys2Proof.Machine

namespace Sys2Proof.Machine

/-! ### The queue records over every command (R38, R43, R44, R48, R50, R51, R53) -/

/-- A queue record within R38: the peak is never below the estimate, and every count fits its 32 bits. -/
def QueueRecord.inRange (r : QueueRecord) : Prop :=
  r.estimate ≤ r.peak ∧ r.peak ≤ Config.countMax ∧ r.marks ≤ Config.countMax

/-- The part of `State.countsInRange` that speaks of the queue records. -/
def State.queuesInRange (s : State) : Prop := ∀ q, (s.queue q).inRange

section
variable {s t : State}

theorem saturate_le (n : Nat) : saturate n ≤ Config.countMax := Nat.min_le_right _ _

theorem queueReset_inRange (stamp : Tick) : QueueRecord.inRange { queueReset with lastActivity := stamp } :=
  ⟨Nat.le_refl 0, Nat.zero_le _, Nat.zero_le _⟩

theorem setQueue_queuesInRange (h : s.queuesInRange) (q : QueueId) {r : QueueRecord} (hr : r.inRange) :
    (s.setQueue q r).queuesInRange := by
  intro q'
  rw [State.setQueue_queue]
  split_ifs
  · exact hr
  · exact h q'

/-- What leaves the Depth Accounting Unit alone leaves its records in range. -/
theorem queuesInRange_of_depths (h : s.queuesInRange) (hd : t.depths = s.depths) : t.queuesInRange := by
  intro q
  rw [queue_of_depths hd]
  exact h q

theorem queuesInRange_of_groupFrame (h : s.queuesInRange) (hf : t.groupFrame = s.groupFrame) : t.queuesInRange :=
  queuesInRange_of_depths h (groupFrame_depths hf)

theorem drainEnd_queuesInRange (h : s.queuesInRange) : (drainEnd s).queuesInRange :=
  queuesInRange_of_depths h (drainEnd_depths s)

/-- An enqueue raises the peak with the estimate, and both saturate (R43). -/
theorem enqueue_queuesInRange (h : s.queuesInRange) (q : QueueId) (n : Nat) : (enqueue q n s).queuesInRange := by
  by_cases hm : s.mode = .transparent
  · rw [enqueue, if_pos hm]
    exact h
  · intro q'
    rw [enqueue_queue q n hm]
    split_ifs
    · obtain ⟨-, peak, marks⟩ := h q
      exact ⟨Nat.le_max_right _ _, Nat.max_le.mpr ⟨peak, saturate_le _⟩, marks⟩
    · exact h q'

/-- A departure lowers the estimate and leaves the peak (R44). -/
theorem departure_queuesInRange (h : s.queuesInRange) (q : QueueId) (n : Nat) :
    (departure q n s).queuesInRange := by
  by_cases hm : s.mode = .transparent
  · rw [departure_transparent q n hm]
    exact h
  · intro q'
    rw [departure_queue q n hm]
    split_ifs
    · obtain ⟨estimate, peak, marks⟩ := h q
      exact ⟨(Nat.sub_le _ _).trans estimate, peak, marks⟩
    · exact h q'

/-- A quiet expiry sets the estimate to 0 and leaves the peak (R48). -/
theorem quietExpiry_queuesInRange (h : s.queuesInRange) (q : QueueId) : (quietExpiry q s).queuesInRange := by
  unfold quietExpiry
  split_ifs
  · obtain ⟨-, peak, marks⟩ := h q
    have emptied : ((s.setQueue q { s.queue q with estimate := 0 }).bump Counter.quietReconcile).queuesInRange :=
      setQueue_queuesInRange h q ⟨Nat.zero_le _, peak, marks⟩
    exact queuesInRange_of_groupFrame emptied (signalFall_groupFrame _ _ _ _)
  · exact h

theorem countMark_queuesInRange (h : s.queuesInRange) (q : QueueId) : (countMark q s).queuesInRange := by
  unfold countMark
  split_ifs
  · exact h
  · obtain ⟨estimate, peak, -⟩ := h q
    exact setQueue_queuesInRange h q ⟨estimate, peak, saturate_le _⟩

theorem countWindow_queuesInRange (h : s.queuesInRange) (w : WindowOutcome) :
    (countWindow w s).queuesInRange := by
  cases w <;> exact h

theorem countMarks_queuesInRange (h : s.queuesInRange) (m : MarkOutcome) (q : Option QueueId) :
    (countMarks m q s).queuesInRange := by
  cases m with
  | unaltered => exact h
  | unmarkable => exact h
  | setCe =>
    cases q with
    | none => exact h
    | some q => exact countMark_queuesInRange (s := s.bump Counter.marksSet) h q

theorem decideRead_queuesInRange (h : s.queuesInRange) (r : FrameRecord) (m : Mode)
    (departed : Option (QueueId × Nat)) (answer : Option FlowAnswer) (c : Cell) :
    (decideRead r m departed answer c s).1.queuesInRange := by
  unfold decideRead
  dsimp only
  split_ifs
  · exact countMarks_queuesInRange (countWindow_queuesInRange h _) _ _
  · exact h

/-! One stage of a parse (R26, R36, R129). -/

theorem accountTransit_queuesInRange (h : s.queuesInRange) (x : Transit) (handed : Handed) :
    (accountTransit x handed s).2.queuesInRange := by
  unfold accountTransit
  split
  · unfold accountWrite
    split
    · exact h
    · exact h
    · exact h
    · exact h
    · exact enqueue_queuesInRange h _ _
  · unfold accountRead
    split
    · exact h
    · exact h
    · exact h
    · exact h
    · exact departure_queuesInRange h _ _
  · exact h
  · exact h

theorem takeWriteRecord_queuesInRange (h : s.queuesInRange) (r : FrameRecord) (q : Option QueueId) :
    (takeWriteRecord r q s).queuesInRange := by
  have counted : (s.bump (categoryCounter r.category)).queuesInRange := h
  unfold takeWriteRecord
  dsimp only
  split
  · exact queuesInRange_of_depths counted (writeSegment_depths _ _ _ _)
  · exact counted

theorem recordTransit_queuesInRange (h : s.queuesInRange) (x : Transit) (handed : Handed)
    (start : Option (QueueId × Nat)) : (recordTransit x handed start s).2.queuesInRange := by
  unfold recordTransit
  split
  · exact takeWriteRecord_queuesInRange h _ _
  · exact queuesInRange_of_depths h ((marksOnly_takeReadRecord (q := none) _).depths (.inl rfl))
  · exact h
  · exact h

theorem nextStage_queuesInRange (h : s.queuesInRange) (x : Transit) : (nextStage x s).2.queuesInRange := by
  unfold nextStage
  split
  · exact h
  · split
    · exact accountTransit_queuesInRange h x _
    · exact recordTransit_queuesInRange h x _ _
    · unfold decideTransit
      split
      · exact decideRead_queuesInRange h _ _ _ _ _
      all_goals exact h

/-! The part's own events. -/

theorem timedEffect_queuesInRange (h : s.queuesInRange) (e : TimedEvent) : (timedEffect e s).queuesInRange := by
  cases e with
  | quiet q => exact quietExpiry_queuesInRange h q
  | linger g =>
    simp only [timedEffect, lingerExpiry]
    split_ifs <;> exact h
  | hold g =>
    simp only [timedEffect, holdExpiry]
    split_ifs
    · exact drainEnd_queuesInRange (queuesInRange_of_groupFrame h (enterRamp_groupFrame g s))
    · exact h
  | entry g =>
    simp only [timedEffect, entryExpiry]
    split_ifs
    · exact drainEnd_queuesInRange (queuesInRange_of_groupFrame h (advanceEntry_groupFrame g s))
    · exact h
  | holdEnd g =>
    simp only [timedEffect, holdEnd]
    split_ifs
    · exact drainEnd_queuesInRange (queuesInRange_of_groupFrame h (sequenceEnd_groupFrame g s))
    · exact h

theorem freeRecord_queuesInRange (h : s.queuesInRange) (i : FlowId) : (freeRecord i s).queuesInRange :=
  queuesInRange_of_depths h (flowFrame_depths (freeRecord_flowFrame i s))

theorem visitRecord_queuesInRange (h : s.queuesInRange) (i : FlowId) : (visitRecord i s).queuesInRange := by
  have left : (leave i s).queuesInRange := queuesInRange_of_depths h (flowFrame_depths (leave_flowFrame i s))
  unfold visitRecord
  split
  · exact h
  · split_ifs
    · exact freeRecord_queuesInRange h i
    · exact h
  · split_ifs
    · exact left
    · exact h
  · split_ifs
    · exact left
    · exact h

/-- Every write of the part keeps every queue record in range. -/
theorem queuesInRange_commands : CommandWritesKeep State.queuesInRange where
  bump h _ := h
  nextStage h x := nextStage_queuesInRange h x
  timedEffect h e := timedEffect_queuesInRange h e
  visitRecord h i := visitRecord_queuesInRange h i
  freeRecord h i := freeRecord_queuesInRange h i
  drainOn h g := queuesInRange_of_groupFrame h (drainOn_groupFrame g _)
  releaseOn h g := queuesInRange_of_groupFrame h (releaseOn_groupFrame g _)
  drainEnd h := drainEnd_queuesInRange h
  takeCommand h _ := h
  assertReset _ _ := queueReset_inRange 0
  releaseReset h := by unfold releaseReset; split_ifs <;> exact h
  flagLinkCheck h := h
  setEntry h _ _ := h
  setStream h d _ := by cases d <;> exact h
  setPins h d _ := by cases d <;> exact h
  setLatency h _ := h
  installProfile h _ := h
  setMode h _ := h
  setSweep h _ := h
  setDue h _ := h
  refclkPeriod h _ := h
  advanceTick h := h
  setTick h _ := h
  clearQueues {s} _ q := by
    rw [clearQueues, State.queue, tableGet_fill]
    exact queueReset_inRange s.now
  clearFlowsAndGroups h := h
  clearTotals h := h
  beginSoftReset h := h
  setClassRecord h _ _ := h
  setClassNumber h _ _ := h
  setRampSequence h _ _ := h
  setTimers h _ := h
  setAlerts h _ _ _ := h
  setFlags h _ := h
  lowerPeak h q := by
    obtain ⟨estimate, peak, marks⟩ := h q
    exact setQueue_queuesInRange h q ⟨Nat.le_refl _, estimate.trans peak, marks⟩
  takeDraw h := h
  popLog h _ _ _ := h
  clearCounters h _ _ := h
  setResult h _ _ _ _ := h
  setSense h _ _ _ := h
  setCommand h _ := h

end
end Sys2Proof.Machine

namespace Sys2Proof.Machine

/-! ### The counters, the log, the records of the port and REFCLK (R138, R163, R171, R174, R177) -/

/-- The part of `State.countsInRange` that speaks of all but the queue records. -/
def State.talliesInRange (s : State) : Prop :=
  (∀ c, s.counter c ≤ Config.countMax) ∧ s.log.entries.length ≤ Config.logCapacity
  ∧ s.port.result.bytes.length ≤ 64 ∧ s.port.sense.offset ≤ 255 ∧ s.time.refclkCount ≤ s.time.prescaler

theorem countsInRange_iff (s : State) : s.countsInRange ↔ s.queuesInRange ∧ s.talliesInRange := Iff.rfl

section
variable {s : State}

theorem bump_talliesInRange (h : s.talliesInRange) (c : CounterId) : (s.bump c).talliesInRange := by
  obtain ⟨counters, rest⟩ := h
  refine ⟨fun c' => ?_, rest⟩
  rw [State.bump_counter]
  split_ifs
  · exact saturate_le _
  · exact counters c'

theorem append_talliesInRange (h : s.talliesInRange) (e : LogEntry)
    (room : s.log.entries.length < Config.logCapacity) :
    State.talliesInRange { s with log := { s.log with entries := s.log.entries ++ [e] } } := by
  obtain ⟨counters, -, rest⟩ := h
  refine ⟨counters, ?_, rest⟩
  rw [List.length_append]
  exact room

theorem popLog_talliesInRange (h : s.talliesInRange) {e : LogEntry} {rest : List LogEntry}
    (he : s.log.entries = e :: rest) :
    State.talliesInRange { s with log := { s.log with entries := rest } } := by
  obtain ⟨counters, log, others⟩ := h
  rw [he, List.length_cons] at log
  exact ⟨counters, Nat.le_of_succ_le log, others⟩

theorem clearCounters_talliesInRange (h : s.talliesInRange) (first count : Nat) :
    (clearCounters first count s).talliesInRange := by
  obtain ⟨counters, rest⟩ := h
  refine ⟨fun c => ?_, rest⟩
  rw [clearCounters, State.counter, tableGet_filter_keys 0 s.counters (fun c => !inSpan first count c)]
  split_ifs
  · exact counters c
  · exact Nat.zero_le _

/-- No write to the tables and no sticky flag touches what is tallied but the counters and the log. -/
theorem talliesInRange_writes : DataWritesKeep State.talliesInRange where
  setQueue _ _ h := h
  setFlow _ _ h := h
  setGroup _ _ h := h
  setTotal _ _ h := h
  bump c h := bump_talliesInRange h c
  append e h room := append_talliesInRange h e room
  flagLogOverflow h := h
  flagOnset h := h
  flagFlowFull h := h
  flagGroupFull h := h
  observe h _ := h

theorem setResult_talliesInRange (h : s.talliesInRange) (status : Status) (code : Byte) {bytes : List Byte}
    (length : bytes.length ≤ 64) : (s.setResult status code bytes).talliesInRange := by
  obtain ⟨counters, log, -, rest⟩ := h
  exact ⟨counters, log, length, rest⟩

theorem setSense_talliesInRange (h : s.talliesInRange) (code : SenseCode) {offset : Nat} (low : offset ≤ 255) :
    (s.setSense code offset).talliesInRange := by
  obtain ⟨counters, log, result, -, refclk⟩ := h
  exact ⟨counters, log, result, low, refclk⟩

/-- A write of the time base keeps the tallies when it leaves the REFCLK periods within the prescaler (R138). -/
theorem setTime_talliesInRange (h : s.talliesInRange) {time : TimeBase} (ht : time.refclkCount ≤ time.prescaler) :
    State.talliesInRange { s with time := time } := by
  obtain ⟨counters, log, result, sense, -⟩ := h
  exact ⟨counters, log, result, sense, ht⟩

theorem releaseReset_talliesInRange (h : s.talliesInRange) : (releaseReset s).talliesInRange := by
  unfold releaseReset
  split_ifs
  · exact h
  · obtain ⟨counters, log, result, sense, -⟩ := h
    exact ⟨counters, log, result, sense, Nat.zero_le _⟩

theorem assertReset_talliesInRange (s : State) : (assertReset s).talliesInRange :=
  ⟨fun _ => Nat.zero_le _, Nat.zero_le _, Nat.zero_le _, Nat.zero_le _, Nat.zero_le _⟩

theorem beginSoftReset_talliesInRange (h : s.talliesInRange) : (beginSoftReset s).talliesInRange := by
  obtain ⟨-, -, result, -, refclk⟩ := h
  exact ⟨fun _ => Nat.zero_le _, Nat.zero_le _, result, Nat.zero_le _, refclk⟩

/-- Every write of the part keeps every tally in range. -/
theorem talliesInRange_commands : CommandWritesKeep State.talliesInRange where
  toDataPathKeeps := talliesInRange_writes.dataPath
  takeCommand h _ := h
  assertReset _ := assertReset_talliesInRange _
  releaseReset h := releaseReset_talliesInRange h
  flagLinkCheck h := h
  setEntry h _ _ := h
  setStream h d _ := by cases d <;> exact h
  setPins h d _ := by cases d <;> exact h
  setLatency h _ := h
  installProfile h _ := h
  setMode h _ := h
  setSweep h _ := h
  setDue h _ := h
  refclkPeriod h room := setTime_talliesInRange h room
  advanceTick h := setTime_talliesInRange h (Nat.zero_le _)
  setTick h _ := setTime_talliesInRange h (Nat.zero_le _)
  clearQueues h := h
  clearFlowsAndGroups h := h
  clearTotals h := h
  beginSoftReset h := beginSoftReset_talliesInRange h
  setClassRecord h _ _ := h
  setClassNumber h _ _ := h
  setRampSequence h _ _ := h
  setTimers h _ := h
  setAlerts h _ _ _ := h
  setFlags h _ := h
  lowerPeak h _ := h
  takeDraw h := h
  popLog h _ _ he := popLog_talliesInRange h he
  clearCounters h first count := clearCounters_talliesInRange h first count
  setResult h status code _ length := setResult_talliesInRange h status code length
  setSense h code _ low := setSense_talliesInRange h code low
  setCommand h _ := h

end

/-- Settles O5: each command keeps the queue records, and all else that is counted, in range. -/
theorem countsStayInRange : Obligations.CountsStayInRange := by
  intro s t h hstep
  obtain ⟨queues, tallies⟩ := (countsInRange_iff s).mp h
  exact (countsInRange_iff t).mpr
    ⟨queuesInRange_commands.step_kept queues hstep, talliesInRange_commands.step_kept tallies hstep⟩

end Sys2Proof.Machine

namespace Sys2Proof.Machine

/-! ### Fields one after another (11.6) -/

section
variable {n v o k : Nat} {r : List Byte}

theorem toBytes_getD (ho : o < n) : (toBytes n v).getD o 0 = BitVec.ofNat 8 (v / 256 ^ (n - 1 - o)) := by
  induction n generalizing v with
  | zero => exact absurd ho (Nat.not_lt_zero o)
  | succ n ih =>
    rw [toBytes]
    obtain hlt | rfl := Nat.lt_or_eq_of_le (Nat.le_of_lt_succ ho)
    · rw [List.getD_append _ _ _ _ (by simpa using hlt), ih hlt, Nat.div_div_eq_div_mul, ← Nat.pow_succ',
        show (n - 1 - o).succ = n + 1 - 1 - o by omega]
    · simp

/-- Byte `o` of a field that stands first. -/
theorem paramByte_first (ho : o < n) :
    paramByte (toBytes n v ++ r) o = BitVec.ofNat 8 (v / 256 ^ (n - 1 - o)) := by
  rw [paramByte, List.getD_append _ _ _ _ (by simpa using ho), toBytes_getD ho]

/-- A byte past a field that stands first. -/
theorem paramByte_past (ho : n ≤ o) : paramByte (toBytes n v ++ r) o = paramByte r (o - n) := by
  rw [paramByte, List.getD_append_right _ _ _ _ (by simpa using ho), toBytes_length, paramByte]

/-- A field that stands first. -/
theorem paramNat_first : paramNat (toBytes n v ++ r) 0 n = v % 256 ^ n := paramNat_of_drop rfl

/-- A field that stands alone. -/
theorem paramNat_whole : paramNat (toBytes n v) 0 n = v % 256 ^ n := by
  rw [← List.append_nil (toBytes n v), paramNat_first]

/-- A byte of a field that stands alone. -/
theorem paramByte_whole (ho : o < n) : paramByte (toBytes n v) o = BitVec.ofNat 8 (v / 256 ^ (n - 1 - o)) :=
  toBytes_getD ho

/-- A field past one that stands first. -/
theorem paramNat_past (ho : n ≤ o) : paramNat (toBytes n v ++ r) o k = paramNat r (o - n) k := by
  rw [paramNat, paramNat, show o = n + (o - n) by omega, ← List.drop_drop, List.drop_left' (toBytes_length n v),
    Nat.add_sub_cancel_left]

theorem paramNat_pair (a b : Byte) (r : List Byte) : paramNat (a :: b :: r) 0 2 = a.toNat * 256 + b.toNat := by
  simp [paramNat, beNat]

end

/-! ### Reserved bits in the first and the third of three bytes (R39, R51) -/

section
variable {m m' a b c : Byte}

theorem lowestReserved_first (ha : a &&& m ≠ 0) : lowestReserved [(0, m), (2, m')] [a, b, c] 0 :=
  ⟨⟨m, by simp, ha⟩, fun _ _ _ ho => absurd ho (Nat.not_lt_zero _)⟩

theorem lowestReserved_third (ha : a &&& m = 0) (hc : c &&& m' ≠ 0) :
    lowestReserved [(0, m), (2, m')] [a, b, c] 2 := by
  refine ⟨⟨m', by simp, hc⟩, fun o mask hm ho => ?_⟩
  simp only [List.mem_cons, Prod.mk.injEq, List.not_mem_nil, or_false] at hm
  obtain ⟨rfl, rfl⟩ | ⟨rfl, -⟩ := hm
  · exact ha
  · exact absurd ho (lt_irrefl 2)

theorem noneReserved_iff : noneReserved [(0, m), (2, m')] [a, b, c] ↔ a &&& m = 0 ∧ c &&& m' = 0 := by
  refine ⟨fun h => ⟨h 0 m (by simp), h 2 m' (by simp)⟩, fun ⟨ha, hc⟩ o mask hm => ?_⟩
  simp only [List.mem_cons, Prod.mk.injEq, List.not_mem_nil, or_false] at hm
  obtain ⟨rfl, rfl⟩ | ⟨rfl, rfl⟩ := hm
  · exact ha
  · exact hc

theorem threeParams_framed (a b c : Byte) : framesExactly 3 [3, a, b, c] [a, b, c] := ⟨rfl, rfl⟩

end

/-! ### READ_QUEUE (R51, 11.6) -/

section
variable {s : State} {a b c : Byte}

/-- The fields of the result, in their order. -/
theorem queueBytes_eq (s : State) (q : QueueId) : queueBytes s q =
    toBytes 2 q.val ++ (toBytes 1 (s.classNumber q).val ++ (toBytes 2 (s.total q)
      ++ (toBytes 4 (s.queue q).estimate ++ (toBytes 4 (s.queue q).peak ++ (toBytes 4 (s.queue q).marks
      ++ (toBytes 4 (s.queue q).lastActivity.toNat ++ toBytes 4 s.time.tick.toNat)))))) := by
  simp [queueBytes, tickBytes]

/-- The result shows the class, the total and the record of its queue, and the tick count. -/
theorem queueBytes_shows (h : s.countsInRange) (q : QueueId) :
    paramNat (queueBytes s q) 0 2 = q.val ∧ paramNat (queueBytes s q) 2 1 = (s.classNumber q).val
    ∧ (s.total q ≤ 8192 → paramNat (queueBytes s q) 3 2 = s.total q)
    ∧ paramNat (queueBytes s q) 5 4 = (s.queue q).estimate ∧ paramNat (queueBytes s q) 9 4 = (s.queue q).peak
    ∧ paramNat (queueBytes s q) 13 4 = (s.queue q).marks
    ∧ paramNat (queueBytes s q) 17 4 = (s.queue q).lastActivity.toNat
    ∧ paramNat (queueBytes s q) 21 4 = s.time.tick.toNat := by
  obtain ⟨queues, -⟩ := (countsInRange_iff s).mp h
  obtain ⟨estimate, peak, marks⟩ := queues q
  have number := q.isLt
  have classNumber := (s.classNumber q).isLt
  have lastActivity := (s.queue q).lastActivity.isLt
  have tick := s.time.tick.isLt
  unfold Config.countMax at peak marks
  simp only [queueBytes_eq, paramNat_past, paramNat_first, paramNat_whole, Nat.reduceLeDiff, Nat.reduceSub]
  omega

/-- What READ_QUEUE answers when no reserved bit is set: its index test, then the record. -/
theorem readQueueAnswer_framed (hr : noneReserved readQueueReserved [a, b, c]) :
    readQueueAnswer [3, a, b, c] s =
      if h : a.toNat * 256 + b.toNat < 512 then
        .good (queueBytes s ⟨a.toNat * 256 + b.toNat, h⟩)
          (if c.getLsbD 0 then
            s.setQueue ⟨a.toNat * 256 + b.toNat, h⟩ { s.queue ⟨a.toNat * 256 + b.toNat, h⟩ with
              peak := (s.queue ⟨a.toNat * 256 + b.toNat, h⟩).estimate }
          else s)
      else .check .indexRange 0 := by
  rw [readQueueAnswer, withParams_framed (by decide) (threeParams_framed a b c), unlessReserved_none hr]
  simp only [paramNat_pair]
  rfl

end

/-- Settles O20: the reserved bits, the index, then the record as its result shows it. -/
theorem readQueueReportsTheRecord : Obligations.ReadQueueReportsTheRecord := by
  intro s a b c hs counts
  have answered : exec (.readQueue [3, a, b, c]) s
      = .next (applyAnswer 0x30 s (readQueueAnswer [3, a, b, c] s)) :=
    congrArg Host.Outcome.next ((takeRequest_spec 0x30 (readQueueAnswer [3, a, b, c]) s).2.2 hs)
  have refused {o : Nat} (h : lowestReserved readQueueReserved [a, b, c] o) :
      exec (.readQueue [3, a, b, c]) s = .next (s.refusing 0x30 .reservedSet o) := by
    rw [answered, readQueueAnswer, withParams_framed (by decide) (threeParams_framed a b c),
      unlessReserved_some (by decide) h]
    rfl
  refine ⟨refused, refused, fun hr hq => ?_, fun q hr hq => ⟨queueBytes s q, queueBytes_length s q, ?_,
    queueBytes_shows counts q⟩⟩
  · rw [answered, readQueueAnswer_framed hr, dif_neg (not_lt.mpr hq)]
    rfl
  · have option : ∀ c : Byte, c &&& 0xFE = 0 → (c.getLsbD 0 = true ↔ c = 1) := by decide
    have number : (⟨a.toNat * 256 + b.toNat, hq ▸ q.isLt⟩ : QueueId) = q := Fin.ext hq.symm
    rw [answered, readQueueAnswer_framed hr, dif_pos (hq ▸ q.isLt), number, applyAnswer_good]
    simp only [option c (noneReserved_iff.mp hr).2]

end Sys2Proof.Machine

namespace Sys2Proof.Machine

/-! ### SET_QUEUE_CLASS (R39) -/

section
variable {s : State} {a b c : Byte}

/-- What SET_QUEUE_CLASS answers outside DRAINING when no reserved bit is set: its queue number, then its class
number. -/
theorem setQueueClassAnswer_framed (hm : s.mode ≠ .draining) (ha : a &&& 0xFC = 0) (hc : c &&& 0xF0 = 0) :
    setQueueClassAnswer [3, a, b, c] s =
      if hq : a.toNat * 256 + b.toNat < 512 then
        if hk : c.toNat < 8 then .good [] (s.setClassNumber ⟨a.toNat * 256 + b.toNat, hq⟩ ⟨c.toNat, hk⟩)
        else .check .outOfRange 2
      else .check .indexRange 0 := by
  rw [setQueueClassAnswer, if_neg hm, withParams_framed (by decide) (threeParams_framed a b c),
    unlessReserved_none (layout := queueClassReserved) (noneReserved_iff.mpr ⟨ha, hc⟩)]
  simp only [paramNat_pair]
  rfl

end

/-- Settles O29: the rows of R39 from the top down, then the map with one queue changed. -/
theorem setQueueClassFollowsItsTable : Obligations.SetQueueClassFollowsItsTable := by
  intro s body hs
  have answered : exec (.setQueueClass body) s = .next (applyAnswer 0x13 s (setQueueClassAnswer body s)) :=
    congrArg Host.Outcome.next ((takeRequest_spec 0x13 (setQueueClassAnswer body) s).2.2 hs)
  have low : ∀ a : Byte, a.toNat < 2 → a &&& 0xFC = 0 := by decide
  have nibble : ∀ c : Byte, c.toNat < 8 → c &&& 0xF0 = 0 := by decide
  rw [answered]
  refine ⟨fun hm => ?_, fun hm hf => ?_, fun a b c hm hb => ?_⟩
  · rw [setQueueClassAnswer, if_pos hm]
    rfl
  · rw [setQueueClassAnswer, if_neg hm, withParams_misframed (by decide) hf]
    rfl
  · subst hb
    have refused {o : Nat} (h : lowestReserved queueClassReserved [a, b, c] o) :
        setQueueClassAnswer [3, a, b, c] s = .check .reservedSet o := by
      rw [setQueueClassAnswer, if_neg hm,
        withParams_framed (by decide) (threeParams_framed a b c),
        unlessReserved_some (by decide) h]
    refine ⟨fun ha => ?_, fun ha hc => ?_, fun ha hc hq => ?_, fun hq hc hk => ?_, fun q k hq hk =>
      ⟨tableSet 0 s.depths.classOf q k, ?_, fun q' => tableGet_set 0 s.depths.classOf q q' k⟩⟩
    · rw [refused (lowestReserved_first ha)]
      rfl
    · rw [refused (lowestReserved_third ha hc)]
      rfl
    · rw [setQueueClassAnswer_framed hm ha hc, dif_neg (not_lt.mpr hq)]
      rfl
    · rw [setQueueClassAnswer_framed hm (low a (by omega)) hc, dif_pos hq, dif_neg (not_lt.mpr hk)]
      rfl
    · have hq' := hq ▸ q.isLt
      have hk' := hk ▸ k.isLt
      have queue : (⟨a.toNat * 256 + b.toNat, hq'⟩ : QueueId) = q := Fin.ext hq.symm
      have number : (⟨c.toNat, hk'⟩ : ClassId) = k := Fin.ext hk.symm
      rw [setQueueClassAnswer_framed hm (low a (by omega)) (nibble c hk'), dif_pos hq', dif_pos hk', queue, number]
      rfl

end Sys2Proof.Machine

namespace Sys2Proof.Machine

/-! ### The bytes of a class record and the fields they spell (11.6) -/

section
variable {r : ClassRecord}

theorem ClassRecord.legal.encodable (h : r.legal) : r.encodable := by
  obtain ⟨onset, release, fanIn, hold, target, path, floor, ceiling, scale, mark⟩ := h
  refine ⟨onset.2, by omega, by omega, hold.2, target, path, floor.2, by omega, fun v hv => ?_, mark⟩
  exact (scale v hv).trans (by decide)

theorem ClassRecord.legal.not_breaks (h : r.legal) (o : Nat) : ¬ r.breaks o := by
  obtain ⟨onset, release, fanIn, hold, -, -, floor, ceiling, scale, -⟩ := h
  rintro (⟨-, hb⟩ | ⟨-, hb⟩ | ⟨-, hb⟩ | ⟨-, hb⟩ | ⟨-, hb⟩ | ⟨-, hb⟩ | ⟨v, -, hv, hb⟩)
  · omega
  · omega
  · omega
  · omega
  · omega
  · omega
  · have := scale v hv
    omega

/-- The last byte of SET_CLASS: the end mode, five reserved bits, the ramp sequence. -/
def ClassRecord.rampByte (r : ClassRecord) : Nat := (match r.endMode with | .holds => 128 | .ends => 0) + r.ramp.val

/-- The fields of SET_CLASS, in their order. -/
theorem classBytes_eq (c : ClassId) (r : ClassRecord) : classBytes c r =
    toBytes 1 c.val ++ (toBytes 4 r.onsetDepth ++ (toBytes 4 r.releaseDepth ++ (toBytes 1 r.fanIn
      ++ (toBytes 2 r.holdTime ++ (toBytes 4 r.targetDepth ++ (toBytes 4 r.pathAllowance
      ++ (toBytes 4 r.windowFloor ++ (toBytes 4 r.windowCeiling ++ (toBytes 1 (r.assumedScale.getD 255)
      ++ (toBytes 1 (128 * r.rewriteEnable.toNat) ++ (toBytes 4 r.markDepth
      ++ toBytes 1 r.rampByte))))))))))) := by
  simp only [classBytes, List.append_assoc]
  rfl

/-- The bytes of a class record are the 35 parameters of a well-framed request (R173). -/
theorem classBytes_framed (c : ClassId) (r : ClassRecord) :
    framesExactly 35 (35 :: classBytes c r) (classBytes c r) :=
  ⟨rfl, by simp [classBytes]⟩

theorem classBytes_number (c : ClassId) (r : ClassRecord) : (paramByte (classBytes c r) 0).toNat = c.val := by
  simp only [classBytes_eq, paramByte_first Nat.zero_lt_one, BitVec.toNat_ofNat]
  omega

/-- The assumed scale's byte spells it, and its absence (11.6). -/
theorem assumedScale_spelled (h : ∀ v, r.assumedScale = some v → v ≤ 254) :
    (if BitVec.ofNat 8 (r.assumedScale.getD 255) = 0xFF then none
      else some (BitVec.ofNat 8 (r.assumedScale.getD 255)).toNat) = r.assumedScale := by
  cases hv : r.assumedScale with
  | none => rfl
  | some v =>
    have small := h v hv
    have value : (BitVec.ofNat 8 v).toNat = v := by simp; omega
    have present : BitVec.ofNat 8 v ≠ 0xFF := fun e => by
      rw [e] at value
      have : (0xFF : Byte).toNat = 255 := rfl
      omega
    rw [Option.getD_some, if_neg present, value]

/-- The last byte spells the ramp sequence and the end mode, and sets no reserved bit (11.6). -/
theorem rampByte_spells (r : ClassRecord) :
    (BitVec.ofNat 8 r.rampByte).toNat % 4 = r.ramp.val
    ∧ (if (BitVec.ofNat 8 r.rampByte).getLsbD 7 then EndMode.holds else .ends) = r.endMode
    ∧ BitVec.ofNat 8 r.rampByte &&& (0x7C : Byte) = 0 := by
  unfold ClassRecord.rampByte
  generalize r.ramp = ramp
  cases r.endMode
  · revert ramp
    decide
  · revert ramp
    decide

theorem ClassRecord.eq_of_fields {q : ClassRecord} (onset : q.onsetDepth = r.onsetDepth)
    (release : q.releaseDepth = r.releaseDepth) (fanIn : q.fanIn = r.fanIn) (hold : q.holdTime = r.holdTime)
    (target : q.targetDepth = r.targetDepth) (path : q.pathAllowance = r.pathAllowance)
    (floor : q.windowFloor = r.windowFloor) (ceiling : q.windowCeiling = r.windowCeiling)
    (scale : q.assumedScale = r.assumedScale) (enable : q.rewriteEnable = r.rewriteEnable)
    (mark : q.markDepth = r.markDepth) (ramp : q.ramp = r.ramp) (endMode : q.endMode = r.endMode) : q = r := by
  cases q
  cases r
  congr

/-- The 35 bytes of a class record whose fields fit them spell that record. -/
theorem classField_classBytes (c : ClassId) (h : r.encodable) : classField (classBytes c r) = r := by
  obtain ⟨onset, release, fanIn, hold, target, path, floor, ceiling, scale, mark⟩ := h
  unfold Config.countMax at onset release mark
  obtain ⟨rampNumber, endMode, -⟩ := rampByte_spells r
  have enable : ∀ b : Bool, (BitVec.ofNat 8 (128 * b.toNat)).getLsbD 7 = b := by decide
  have lastByte : paramByte (classBytes c r) 34 = BitVec.ofNat 8 r.rampByte := by
    simp [classBytes_eq, paramByte_past, paramByte_whole]
  have scaleByte : paramByte (classBytes c r) 28 = BitVec.ofNat 8 (r.assumedScale.getD 255) := by
    simp [classBytes_eq, paramByte_past, paramByte_first]
  have enableByte : paramByte (classBytes c r) 29 = BitVec.ofNat 8 (128 * r.rewriteEnable.toNat) := by
    simp [classBytes_eq, paramByte_past, paramByte_first]
  apply ClassRecord.eq_of_fields
  case scale => simp only [classField, scaleByte]; exact assumedScale_spelled scale
  case enable => simp only [classField, enableByte]; exact enable r.rewriteEnable
  case ramp => simp only [classField, lastByte]; exact Fin.ext rampNumber
  case endMode => simp only [classField, lastByte]; exact endMode
  all_goals
    simp only [classField, classBytes_eq, paramNat_past, paramNat_first, Nat.reduceLeDiff, Nat.reduceSub]
    omega

/-- A value of four bits leaves the top four bits of its byte clear. -/
theorem fourBits_reserved {y : Nat} (h : y ≤ 15) : BitVec.ofNat 8 y &&& (0xF0 : Byte) = 0 := by
  have all : ∀ y : Fin 16, BitVec.ofNat 8 y.val &&& (0xF0 : Byte) = 0 := by decide
  exact all ⟨y, by omega⟩

/-- A value of seven bits leaves the top bit of its byte clear. -/
theorem sevenBits_reserved {y : Nat} (h : y ≤ 127) : BitVec.ofNat 8 y &&& (0x80 : Byte) = 0 := by
  have all : ∀ y : Fin 128, BitVec.ofNat 8 y.val &&& (0x80 : Byte) = 0 := by decide
  exact all ⟨y, by omega⟩

/-- The 35 bytes of a class record whose fields fit them set no reserved bit. -/
theorem classBytes_reserved (c : ClassId) (h : r.encodable) : noneReserved classReserved (classBytes c r) := by
  obtain ⟨-, -, -, -, target, path, floor, ceiling, -, -⟩ := h
  obtain ⟨-, -, lastByte⟩ := rampByte_spells r
  have enable : ∀ b : Bool, BitVec.ofNat 8 (128 * b.toNat) &&& (0x7F : Byte) = 0 := by decide
  have floorByte : r.windowFloor / 16777216 = 0 := by omega
  have all : ∀ e ∈ classReserved, paramByte (classBytes c r) e.1 &&& e.2 = 0 := by
    simp only [classReserved, List.forall_mem_cons, classBytes_eq, paramByte_past, paramByte_first,
      paramByte_whole, Nat.reduceLeDiff, Nat.reduceLT, Nat.reduceSub, Nat.reducePow]
    exact ⟨sixBits_reserved (by omega), sixBits_reserved (by omega), by rw [floorByte]; rfl,
      fourBits_reserved (by omega), sevenBits_reserved (by omega), by rw [Nat.div_one]; exact enable _,
      by rw [Nat.div_one]; exact lastByte, fun _ h => absurd h List.not_mem_nil⟩
  exact fun o m hm => all (o, m) hm

/-! ### The limits of a class record (R41, R176) -/

theorem classLimits_rising (r : ClassRecord) : (classLimits r).Pairwise (fun a b => a.1 < b.1) := by
  simp [classLimits]

/-- The limit list of SET_CLASS holds the broken limits of R41, for fields that fit their bits. -/
theorem mem_classLimits (h : r.encodable) {o : Nat} : (o, true) ∈ classLimits r ↔ r.breaks o := by
  obtain ⟨-, -, -, -, target, path, floor, -⟩ := h
  simp only [classLimits, ClassRecord.breaks, List.mem_cons, List.not_mem_nil, or_false, Prod.mk.injEq,
    Bool.true_eq, decide_eq_true_eq, Bool.or_eq_true, beq_iff_eq, not_lt.mpr target, not_lt.mpr path,
    not_lt.mpr floor, and_false, false_or]
  cases r.assumedScale with
  | none => simp
  | some v => simp

/-! ### SET_CLASS (R41) -/

/-- What SET_CLASS answers outside DRAINING to the bytes of a class record: the test of its ranges. -/
theorem setClassAnswer_classBytes {s : State} (hm : s.mode ≠ .draining) (c : ClassId) (h : r.encodable) :
    setClassAnswer (35 :: classBytes c r) s
      = unlessBroken (classLimits r) (.good [] (s.setClassRecord c r)) := by
  have low : (paramByte (classBytes c r) 0).toNat < 8 := (classBytes_number c r).trans_lt c.isLt
  have number : (⟨(paramByte (classBytes c r) 0).toNat, low⟩ : ClassId) = c := by simp only [classBytes_number]
  rw [setClassAnswer, if_neg hm, withParams_framed (by decide) (classBytes_framed c r),
    unlessReserved_none (classBytes_reserved c h), dif_pos low, number, classField_classBytes c h]

end

/-- Settles O28: the tests in their order, then the class record that its own bytes spell. -/
theorem setClassWritesWhatBytesSpell : Obligations.SetClassWritesWhatBytesSpell := by
  intro s hs reserved
  have answered : ∀ body, exec (.setClass body) s = .next (applyAnswer 0x12 s (setClassAnswer body s)) :=
    fun body => congrArg Host.Outcome.next ((takeRequest_spec 0x12 (setClassAnswer body) s).2.2 hs)
  refine ⟨fun body hm => ?_, fun body hm hf => ?_, fun body ps o hm hf ho => ?_, fun body ps hm hf hr hc => ?_,
    fun c r o hm hr ho => ?_, fun c r hm hr =>
      ⟨tableSet classReset s.depths.classes c r, ?_, fun c' => s.setClassRecord_classRecord c c' r⟩⟩
  · rw [answered, setClassAnswer, if_pos hm]
    rfl
  · rw [answered, setClassAnswer, if_neg hm, withParams_misframed (by decide) hf]
    rfl
  · rw [answered, setClassAnswer, if_neg hm, withParams_framed (by decide) hf,
      unlessReserved_some (layout := classReserved) (by decide) ho]
    rfl
  · rw [answered, setClassAnswer, if_neg hm, withParams_framed (by decide) hf,
      unlessReserved_none (layout := classReserved) hr, dif_neg (not_lt.mpr hc)]
    rfl
  · have broken : brokenAt (classLimits r) = some o :=
      brokenAt_of_lowest (classLimits_rising r) (by simpa only [mem_classLimits hr] using ho)
    rw [answered, setClassAnswer_classBytes hm c hr, unlessBroken, broken]
    rfl
  · have kept : ∀ e ∈ classLimits r, e.2 = false := fun e he =>
      Bool.eq_false_iff.mpr fun ht =>
        hr.not_breaks e.1 ((mem_classLimits hr.encodable).mp (by rw [← ht]; exact he))
    rw [answered, setClassAnswer_classBytes hm c hr.encodable, unlessBroken_none kept]
    rfl

end Sys2Proof.Machine

namespace Sys2Proof.Machine

/-! ### The clears of a pending STOP or SOFT_RESET (R53, R77, R106, R160, R175) -/

section
variable {s : State}

/-- The record of the port after one clear of a pending command, with what it leaves of the clears: the command ends
with GOOD when both are made (R160, R175). -/
def clearedPort (p : ManagementPort) (soft queues flows : Bool) : ManagementPort :=
  if queues && flows then
    { p with
      result := { status := .good, code := clearsCode soft, bytes := [] }
      command := none }
  else { p with command := some (.clears soft queues flows) }

theorem finishClears_setCommand (soft queues flows : Bool) :
    finishClears (s.setCommand (some (.clears soft queues flows)))
      = { s with port := clearedPort s.port soft queues flows } := by
  cases queues
  · rfl
  · cases flows <;> rfl

theorem queueTableClear_due {soft flows : Bool} (hc : s.port.command = some (.clears soft false flows)) :
    queueTableClear s = { clearQueues s with port := clearedPort s.port soft true flows } := by
  simp only [queueTableClear, hc]
  exact finishClears_setCommand soft true flows

theorem flowGroupClear_due {soft queues : Bool} (hc : s.port.command = some (.clears soft queues false)) :
    flowGroupClear s = { clearFlowsAndGroups s with port := clearedPort s.port soft queues true } := by
  simp only [flowGroupClear, hc]
  exact finishClears_setCommand soft queues true

theorem queueTableClear_not_due (h : ∀ soft flows, s.port.command ≠ some (.clears soft false flows)) :
    queueTableClear s = s := by
  unfold queueTableClear
  split
  · exact absurd ‹_› (h _ _)
  · rfl

theorem flowGroupClear_not_due (h : ∀ soft queues, s.port.command ≠ some (.clears soft queues false)) :
    flowGroupClear s = s := by
  unfold flowGroupClear
  split
  · exact absurd ‹_› (h _ _)
  · rfl

theorem walkStep_not_due (h : ∀ i, s.port.command ≠ some (.walk i)) : walkStep s = s := by
  unfold walkStep
  split
  · exact absurd ‹_› (h _)
  · rfl

/-- What leaves this state alone does so whether or not RST_N is asserted. -/
theorem whenRunning_of_fixed {f : State → State} (h : f s = s) : whenRunning s f = s := by
  unfold whenRunning
  rw [h, ite_self]

end

/-- Settles O38: each clear once, the result GOOD at the second, nothing when it is not due. -/
theorem pendingClearsRun : Obligations.PendingClearsRun := by
  refine ⟨fun s soft flows hr hc => ⟨_, tableGet_fill queueReset { queueReset with lastActivity := s.now }, ?_⟩,
    fun s soft queues hr hc =>
      ⟨_, fun i => tableGet_map flowReset (fun r => freeFlow r.lastSeen) s.ft.flows i rfl, ?_⟩,
    fun s => ⟨fun h => ?_, fun h => ?_, fun h => ?_⟩⟩
  · have cleared := (whenRunning_released hr queueTableClear).trans (queueTableClear_due hc)
    exact congrArg Host.Outcome.next (cleared.trans (by cases flows <;> rfl))
  · have cleared := (whenRunning_released hr flowGroupClear).trans (flowGroupClear_due hc)
    exact congrArg Host.Outcome.next (cleared.trans (by cases queues <;> rfl))
  · exact congrArg Host.Outcome.next (whenRunning_of_fixed (queueTableClear_not_due h))
  · exact congrArg Host.Outcome.next (whenRunning_of_fixed (flowGroupClear_not_due h))
  · exact congrArg Host.Outcome.next (whenRunning_of_fixed (walkStep_not_due h))

end Sys2Proof.Machine

namespace Sys2Proof.Machine

/-! ### The entries that an event over the groups offers, in ascending group index (R92, R96, R164) -/

/-- The log, the counters and the alert flags are the same. -/
structure SameReport (s t : State) : Prop where
  log : s.log = t.log
  counters : s.counters = t.counters
  alerts : s.alerts = t.alerts

theorem SameReport.trans {s t u : State} (h : SameReport s t) (h' : SameReport t u) : SameReport s u where
  log := h.log.trans h'.log
  counters := h.counters.trans h'.counters
  alerts := h.alerts.trans h'.alerts

/-- Offers report the same into states that report the same in the same mode (R164). -/
theorem SameReport.offerAll {s t : State} (h : SameReport s t) (mode : s.mode = t.mode) (es : List LogEntry) :
    SameReport (offerAll es s) (offerAll es t) := by
  obtain ⟨log, counters, alerts⟩ := offerAll_report_congr es (by rw [mode]) h.log h.counters h.alerts
  exact ⟨log, counters, alerts⟩

/-- An event over the groups reports the offers of its groups, one group after another. -/
theorem GroupAction.offers {f : GroupId → State → State} (A : GroupAction f) {s : State}
    {entries : GroupId → List LogEntry} (own : ∀ g u, u.groupFrame = s.groupFrame → u.group g = s.group g →
      SameReport (f g u) (offerAll (entries g) u)) :
    SameReport (forGroups s f) (offerAll ((List.finRange 128).flatMap entries) s) := by
  refine A.induct (s := s) (P := fun l u => SameReport u (offerAll (l.flatMap entries) s)) ⟨rfl, rfl, rfl⟩
    fun l g u _ hf hg ih => ?_
  have mode : u.mode = (offerAll (l.flatMap entries) s).mode := by rw [offerAll_mode, groupFrame_mode hf]
  have appended : offerAll ((l ++ [g]).flatMap entries) s
      = offerAll (entries g) (offerAll (l.flatMap entries) s) := by simp
  rw [appended]
  exact (own g u hf hg).trans (ih.offerAll mode (entries g))

section
variable {s : State} {q : QueueId}

/-- The SETTLE entry of a group that a fall of `q` finds ACTIVE, at that depth; none of any other (R92, R97). -/
def State.settleEntries (s : State) (q : QueueId) (depth : Nat) (g : GroupId) : List LogEntry :=
  if s.fallsAt q g then (s.group g).key.toList.map (fun key => s.moveEntry g key .settle depth) else []

/-- A group that a fall of `q` finds ACTIVE offers its SETTLE entry and reports nothing else (R97). -/
theorem settle_offers {g : GroupId} {u : State} (hold : Nat) (hf : u.groupFrame = s.groupFrame)
    (hg : u.group g = s.group g) (hs : s.fallsAt q g) :
    SameReport (settle hold g u) (offerAll (s.settleEntries q (s.queue q).estimate g) u) := by
  obtain ⟨hq, ha⟩ := hs
  obtain ⟨key, hk, rfl⟩ := Option.map_eq_some_iff.mp hq
  have entries : s.settleEntries key.queue (s.queue key.queue).estimate g
      = [s.moveEntry g key .settle (s.queue key.queue).estimate] := by
    rw [State.settleEntries, if_pos ⟨hq, ha⟩, hk]
    rfl
  have settled : settle hold g u = offer (s.moveEntry g key .settle (s.queue key.queue).estimate)
      (u.setGroup g { s.group g with state := .settle, deadline := some (deadlineAfter u.now hold) }) := by
    unfold settle
    rw [hg, ha]
    dsimp only
    rw [offerFor_eq_offer (key := key) (by simpa using hk) .settle _ rfl]
    congr 1
    simp only [State.moveEntry, State.setGroup_group_self, State.setGroup_queue, groupFrame_queue hf]
    rw [show (u.setGroup g _).time.tick = s.time.tick from groupFrame_now hf]
  rw [entries, settled]
  have report : ∀ r, SameReport (u.setGroup g r) u := fun _ => ⟨rfl, rfl, rfl⟩
  exact (report _).offerAll rfl [s.moveEntry g key .settle (s.queue key.queue).estimate]

/-- A downward crossing reports its SETTLE entries and nothing else (R47, R96, R97). -/
theorem downwardCrossing_offers : SameReport (downwardCrossing q s)
    (offerAll ((List.finRange 128).flatMap (s.settleEntries q (s.queue q).estimate)) s) := by
  unfold downwardCrossing forGroupsOn
  refine ((groupAction_settle _).onQueue q).offers (s := s) fun g u hf hg => ?_
  rw [downwardCrossing_at _ hg]
  split_ifs with hk
  · exact settle_offers _ hf hg hk
  · rw [State.settleEntries, if_neg hk]
    exact ⟨rfl, rfl, rfl⟩

end

/-- The SETTLE entries of a fall of `q` to 0, in ascending group index (R92, R96, R97). -/
theorem entriesOf_settles {s : State} {q : QueueId} (hx : (s.queueClass q).releaseDepth < (s.queue q).estimate) :
    s.entriesOf (fun g key => if s.settlesAt q 0 g then [s.moveEntry g key .settle 0] else [])
      = (List.finRange 128).flatMap (s.settleEntries q 0) := by
  have settles (g : GroupId) : s.fallsAt q g ↔ s.settlesAt q 0 g :=
    ⟨fun hf => ⟨hf.1, hf.2, hx, Nat.zero_le _⟩, fun hs => ⟨hs.1, hs.2.1⟩⟩
  unfold State.entriesOf
  congr 1
  funext g
  simp only [State.settleEntries, settles]
  split
  · rename_i hk
    simp [hk]
  · rename_i key hk
    rw [show (s.group g).key.toList = [key] by rw [hk]; rfl]
    rfl

/-! ### A quiet expiry whose conditions hold (R47, R48) -/

/-- The state in which a quiet expiry signals its fall: the estimate at 0, the reconcile counted (R48). -/
def quietEmptied (q : QueueId) (s : State) : State :=
  (s.setQueue q { s.queue q with estimate := 0 }).bump Counter.quietReconcile

section
variable {s : State} {q : QueueId}

theorem quietEmptied_group (g : GroupId) : (quietEmptied q s).group g = s.group g := by simp [quietEmptied]

theorem quietEmptied_fallsAt (g : GroupId) : (quietEmptied q s).fallsAt q g ↔ s.fallsAt q g := by
  rw [State.fallsAt, quietEmptied_group]

theorem quietEmptied_queue (q' : QueueId) :
    (quietEmptied q s).queue q' = if q' = q then { s.queue q with estimate := 0 } else s.queue q' := by
  rw [quietEmptied, State.bump_queue, State.setQueue_queue]

theorem quietExpiry_eq (h : quietDue s q = true) : quietExpiry q s =
    if (s.queueClass q).releaseDepth < (s.queue q).estimate then downwardCrossing q (quietEmptied q s)
    else quietEmptied q s := by
  have signalled : quietExpiry q s = if (s.queueClass q).releaseDepth < (s.queue q).estimate
      ∧ 0 ≤ (s.queueClass q).releaseDepth then downwardCrossing q (quietEmptied q s) else quietEmptied q s := by
    rw [quietExpiry, if_pos h]
    rfl
  simpa using signalled

theorem quietExpiry_groupFrame (h : quietDue s q = true) :
    (quietExpiry q s).groupFrame = (quietEmptied q s).groupFrame := by
  rw [quietExpiry_eq h]
  split_ifs
  · exact downwardCrossing_groupFrame q _
  · rfl

theorem quietExpiry_queue (h : quietDue s q = true) (q' : QueueId) :
    (quietExpiry q s).queue q' = if q' = q then { s.queue q with estimate := 0 } else s.queue q' := by
  rw [groupFrame_queue (quietExpiry_groupFrame h), quietEmptied_queue]

theorem quietExpiry_reconcile (h : quietDue s q = true) :
    (quietExpiry q s).counter Counter.quietReconcile = saturate (s.counter Counter.quietReconcile + 1) := by
  have counted : (quietEmptied q s).counter Counter.quietReconcile
      = saturate (s.counter Counter.quietReconcile + 1) := by
    rw [quietEmptied, State.bump_counter, if_pos rfl, State.setQueue_counter]
  rw [quietExpiry, if_pos h, ← counted]
  exact signalFall_counter (by decide) q _ 0 (quietEmptied q s)

/-- Every group after a quiet expiry (R47, R97). -/
theorem quietExpiry_group (h : quietDue s q = true) (g : GroupId) : (quietExpiry q s).group g =
    if (s.group g).state = .active ∧ (s.group g).key.map GroupKey.queue = some q
        ∧ (s.queueClass q).releaseDepth < (s.queue q).estimate then
      { s.group g with
        state := .settle
        deadline := some (s.time.tick + BitVec.ofNat 32 (s.queueClass q).holdTime) }
    else s.group g := by
  rw [quietExpiry_eq h]
  split_ifs with hx hs hs
  · rw [downwardCrossing_group, if_pos ((quietEmptied_fallsAt g).mpr ⟨hs.2.1, hs.1⟩), quietEmptied_group]
    rfl
  · rw [downwardCrossing_group, if_neg, quietEmptied_group]
    intro hf
    obtain ⟨hk, ha⟩ := (quietEmptied_fallsAt g).mp hf
    exact hs ⟨ha, hk, hx⟩
  · exact absurd hs.2.2 hx
  · exact quietEmptied_group g

theorem quietExpiry_total (h : quietDue s q = true) (q' : QueueId) :
    (quietExpiry q s).total q' = s.total q' := by
  rw [quietExpiry_eq h]
  split_ifs
  · rw [downwardCrossing_total]
    rfl
  · rfl

/-- The entries of a quiet expiry: a SETTLE at depth 0 for each group that the fall settles (R92, R97). -/
theorem quietExpiry_offers (h : quietDue s q = true) : SameReport (quietExpiry q s)
    (offerAll (s.entriesOf (fun g key => if s.settlesAt q 0 g then [s.moveEntry g key .settle 0] else []))
      (s.bump Counter.quietReconcile)) := by
  have emptied : SameReport (quietEmptied q s) (s.bump Counter.quietReconcile) := ⟨rfl, rfl, rfl⟩
  rw [quietExpiry_eq h]
  split_ifs with hx
  · have crossed := downwardCrossing_offers (s := quietEmptied q s) (q := q)
    rw [quietEmptied_queue, if_pos rfl] at crossed
    rw [entriesOf_settles hx]
    exact crossed.trans (emptied.offerAll rfl _)
  · have none_settles : s.entriesOf
        (fun g key => if s.settlesAt q 0 g then [s.moveEntry g key .settle 0] else []) = [] := by
      refine List.flatMap_eq_nil_iff.mpr fun g _ => ?_
      split
      · rfl
      · exact if_neg fun hs => hx hs.2.2.1
    rw [none_settles]
    exact emptied

end

/-- Settles O55: at its tick the expiry runs `quietExpiry`, else it only stops falling on this tick. -/
theorem quietExpiryReconciles : Obligations.QuietExpiryReconciles := by
  intro s q running r c due
  have taken : exec (.quietExpiry q) s = .next (takeTimed (.quiet q) s) :=
    congrArg Host.Outcome.next (whenRunning_released running _)
  obtain ⟨acts, drops⟩ := takeTimed_spec (.quiet q) s
  refine ⟨fun h => ?_, fun hd hc => ⟨quietExpiry q (s.dropDue (.quiet q)), ?_, ?_⟩⟩
  · rw [taken, drops (h.imp_right fun hc => Bool.eq_false_iff.mpr fun e => hc ((quietDue_iff s q).mp e))]
  · rw [taken, acts hd ((quietDue_iff s q).mpr hc)]
    rfl
  · have h : quietDue (s.dropDue (.quiet q)) q = true := (quietDue_iff s q).mpr hc
    have frame := quietExpiry_groupFrame h
    have dropped : SameReport ((s.dropDue (.quiet q)).bump Counter.quietReconcile)
        (s.bump Counter.quietReconcile) := ⟨rfl, rfl, rfl⟩
    have report := (quietExpiry_offers h).trans (dropped.offerAll rfl _)
    refine ⟨?_, fun q' hq => ?_, quietExpiry_reconcile h, quietExpiry_group h, quietExpiry_total h,
      (groupFrame_ft frame).trans rfl, (groupFrame_link frame).trans rfl, (groupFrame_mode frame).trans rfl,
      sameControl_of_dataFrame (quietExpiry_dataFrame q _), report.log, report.counters, report.alerts⟩
    · rw [quietExpiry_queue h, if_pos rfl]
      rfl
    · rw [quietExpiry_queue h, if_neg hq]
      rfl

end Sys2Proof.Machine

namespace Sys2Proof.Machine

/-! ### A law of every single change of the flow, group and total tables is a law of every command -/

section
variable {P : State → Prop} (K : GroupWritesKeep P)
include K

theorem GroupWritesKeep.visitRecord {s : State} (h : P s) (i : FlowId) : P (visitRecord i s) := by
  unfold Machine.visitRecord
  split
  · exact h
  · split_ifs
    · exact K.freeRecord h i
    · exact h
  · split_ifs
    · exact K.leave h i
    · exact h
  · split_ifs
    · exact K.leave h i
    · exact h

theorem GroupWritesKeep.dataPath : DataPathKeeps P where
  bump h c := K.bump h c
  nextStage h t := K.nextStage h t
  timedEffect h e := K.timedEffect h e
  visitRecord h i := K.visitRecord h i
  freeRecord h i := K.freeRecord h i
  drainOn h g := K.drainOn h g
  releaseOn h g := K.releaseOn h g
  drainEnd h := K.drainEnd h

/-- What every change of one record keeps, every command keeps that may also empty the three tables. -/
theorem GroupWritesKeep.commands (reset : ∀ {s}, P s → P (assertReset s))
    (cleared : ∀ {s}, P s → P (clearFlowsAndGroups s))
    (totals : ∀ {s}, P s → P { s with gc := { s.gc with totals := [] } }) : CommandWritesKeep P where
  toDataPathKeeps := K.dataPath
  takeCommand h _ := K.congr h rfl rfl rfl
  assertReset := reset
  releaseReset {s} h := by
    unfold releaseReset
    split_ifs
    · exact h
    · exact K.congr h rfl rfl rfl
  flagLinkCheck h := K.congr h rfl rfl rfl
  setEntry h _ _ := K.congr h rfl rfl rfl
  setStream h d ts := K.congr h (by rw [State.setStream_ft]) (by rw [State.setStream_gc]) (by rw [State.setStream_gc])
  setPins h d p := K.congr h (by rw [State.setPins_ft]) (by rw [State.setPins_gc]) (by rw [State.setPins_gc])
  setLatency h _ := K.congr h rfl rfl rfl
  installProfile h _ := K.congr h rfl rfl rfl
  setMode h _ := K.congr h rfl rfl rfl
  setSweep h _ := K.congr h rfl rfl rfl
  setDue h _ := K.congr h rfl rfl rfl
  refclkPeriod h _ := K.congr h rfl rfl rfl
  advanceTick h := K.congr h rfl rfl rfl
  setTick h _ := K.congr h rfl rfl rfl
  clearQueues h := K.congr h rfl rfl rfl
  clearFlowsAndGroups := cleared
  clearTotals := totals
  beginSoftReset h := K.congr h rfl rfl rfl
  setClassRecord h _ _ := K.congr h rfl rfl rfl
  setClassNumber h _ _ := K.congr h rfl rfl rfl
  setRampSequence h _ _ := K.congr h rfl rfl rfl
  setTimers h _ := K.congr h rfl rfl rfl
  setAlerts h _ _ _ := K.congr h rfl rfl rfl
  setFlags h _ := K.congr h rfl rfl rfl
  lowerPeak h q := K.setQueue h q _
  takeDraw h := K.congr h rfl rfl rfl
  popLog h _ _ _ := K.congr h rfl rfl rfl
  clearCounters h _ _ := K.congr h rfl rfl rfl
  setResult h _ _ _ _ := K.congr h rfl rfl rfl
  setSense h _ _ _ := K.congr h rfl rfl rfl
  setCommand h _ := K.congr h rfl rfl rfl

end

/-! ### The member lists over every command (R57, R67, R82, R88) -/

theorem clearFlowsAndGroups_chained (s : State) : (clearFlowsAndGroups s).membersChained := by
  have flows : ∀ i, (clearFlowsAndGroups s).flow i = freeFlow (s.flow i).lastSeen :=
    fun i => clearFlowsAndGroups_flow i
  refine empty_chained (fun i => ?_) fun _ => rfl
  rw [flows i]
  rfl

theorem membersChained_commands : CommandWritesKeep State.membersChained :=
  chained_writes.commands (fun _ => empty_chained (fun _ => rfl) fun _ => rfl)
    (fun {s} _ => clearFlowsAndGroups_chained s) fun h => chained_of_tables h rfl rfl

/-- Settles O8: every change of a flow or group record keeps the lists, and a command is made of such changes
or empties both tables. -/
theorem memberListsStayChained : Obligations.MemberListsStayChained :=
  fun _ _ h hstep => membersChained_commands.step_kept h hstep

end Sys2Proof.Machine

namespace Sys2Proof.Machine

/-! ### Which requests begin a pending command (R75, R160, R174, R180) -/

/-- The answer leaves no command pending. -/
def Answer.plain : Answer → Prop
  | .started _ _ => False
  | .good _ _ | .busy | .check _ _ => True

section
variable {n : Nat} {body ps : List Byte} {k : Answer} {s : State}

theorem withParams_plain {k : List Byte → Answer} (h : ∀ ps, (k ps).plain) : (withParams n body k).plain := by
  unfold withParams
  split
  · trivial
  · exact h _

theorem unlessReserved_plain {layout : List (Nat × Byte)} (h : k.plain) : (unlessReserved layout ps k).plain := by
  unfold unlessReserved
  split
  · trivial
  · exact h

theorem unlessBroken_plain {limits : List (Nat × Bool)} (h : k.plain) : (unlessBroken limits k).plain := by
  unfold unlessBroken
  split
  · trivial
  · exact h

variable (body) (s)

theorem startObserveAnswer_plain : (startObserveAnswer body s).plain := by
  refine withParams_plain fun ps => ?_
  split
  · trivial
  · trivial
  · trivial
  · split_ifs <;> trivial

theorem enforceAnswer_plain : (enforceAnswer body s).plain :=
  withParams_plain fun ps => by split <;> trivial

theorem releaseAnswer_plain (abrupt : Bool) : (releaseAnswer abrupt body s).plain :=
  withParams_plain fun ps => unlessReserved_plain (by split <;> trivial)

theorem setLatencyAnswer_plain : (setLatencyAnswer body s).plain :=
  withParams_plain fun ps => unlessReserved_plain (by split_ifs <;> trivial)

theorem loadProfileAnswer_plain : (loadProfileAnswer body s).plain := by
  unfold loadProfileAnswer
  split_ifs
  · trivial
  · exact withParams_plain fun ps => unlessReserved_plain (unlessBroken_plain trivial)

theorem setClassAnswer_plain : (setClassAnswer body s).plain := by
  unfold setClassAnswer
  split_ifs
  · trivial
  · refine withParams_plain fun ps => unlessReserved_plain ?_
    split_ifs
    · exact unlessBroken_plain trivial
    · trivial

theorem setQueueClassAnswer_plain : (setQueueClassAnswer body s).plain := by
  unfold setQueueClassAnswer
  split_ifs
  · trivial
  · exact withParams_plain fun ps => unlessReserved_plain (by split_ifs <;> trivial)

theorem rampAnswer_plain (r : RampId) : (rampAnswer ps r s).plain := by
  unfold rampAnswer
  dsimp only
  split_ifs
  · trivial
  · trivial
  · exact unlessReserved_plain (unlessBroken_plain trivial)

theorem setRampAnswer_plain : (setRampAnswer body s).plain := by
  unfold setRampAnswer
  split
  · trivial
  · split_ifs
    · trivial
    · trivial
    · exact rampAnswer_plain s _
    · trivial

theorem setTickAnswer_plain : (setTickAnswer body s).plain :=
  withParams_plain fun ps => by split_ifs <;> trivial

theorem setTimersAnswer_plain : (setTimersAnswer body s).plain := by
  unfold setTimersAnswer
  split_ifs
  · trivial
  · refine withParams_plain fun ps => unlessReserved_plain (unlessBroken_plain ?_)
    split_ifs <;> trivial

theorem setAlertAnswer_plain : (setAlertAnswer body s).plain :=
  withParams_plain fun ps => unlessReserved_plain (by split_ifs <;> trivial)

theorem readQueueAnswer_plain : (readQueueAnswer body s).plain :=
  withParams_plain fun ps => unlessReserved_plain (by split_ifs <;> trivial)

theorem readGroupAnswer_plain : (readGroupAnswer body s).plain :=
  withParams_plain fun ps => by split_ifs <;> trivial

theorem readFlowAnswer_plain : (readFlowAnswer body s).plain :=
  withParams_plain fun ps => by split_ifs <;> trivial

theorem findFlowAnswer_plain : (findFlowAnswer body s).plain := by
  unfold findFlowAnswer
  split
  · trivial
  · split_ifs
    · trivial
    · refine unlessReserved_plain ?_
      split
      · trivial
      · split_ifs <;> trivial

theorem logPeekAnswer_plain : (logPeekAnswer body s).plain :=
  withParams_plain fun ps => by split <;> trivial

theorem logPopAnswer_plain : (logPopAnswer body s).plain :=
  withParams_plain fun ps => by split <;> trivial

theorem countersReadAnswer_plain : (countersReadAnswer body s).plain :=
  withParams_plain fun ps => unlessReserved_plain (by split_ifs <;> trivial)

end

/-! ### What a law of the flow and group tables, the sweep and the mode reads -/

/-- The tables, the mode, the tick with what falls on it, and the pending command are as they were. -/
structure SameTables (s t : State) : Prop where
  ft : t.ft = s.ft
  gc : t.gc = s.gc
  mode : t.mode = s.mode
  tick : t.time.tick = s.time.tick
  due : t.time.due = s.time.due
  command : t.port.command = s.port.command

theorem SameTables.refl (s : State) : SameTables s s := ⟨rfl, rfl, rfl, rfl, rfl, rfl⟩

theorem SameTables.trans {s t u : State} (h : SameTables s t) (h' : SameTables t u) : SameTables s u where
  ft := h'.ft.trans h.ft
  gc := h'.gc.trans h.gc
  mode := h'.mode.trans h.mode
  tick := h'.tick.trans h.tick
  due := h'.due.trans h.due
  command := h'.command.trans h.command

theorem sameTables_bump (s : State) (c : CounterId) : SameTables s (s.bump c) := ⟨rfl, rfl, rfl, rfl, rfl, rfl⟩

theorem sameTables_setStream (s : State) (d : Direction) (ts : List Transit) : SameTables s (s.setStream d ts) := by
  cases d <;> exact ⟨rfl, rfl, rfl, rfl, rfl, rfl⟩

theorem sameTables_setPins (s : State) (d : Direction) (p : Departed) : SameTables s (s.setPins d p) := by
  cases d <;> exact ⟨rfl, rfl, rfl, rfl, rfl, rfl⟩

/-- A request that begins no command and whose answer leaves the tables, leaves the tables. -/
theorem takeRequest_sameTables {code : Byte} {answer : State → Answer} {s : State} (plain : (answer s).plain)
    (leaves : (answer s).Leaves (SameTables s)) : SameTables s (takeRequest code answer s) := by
  have same : SameTables s s := .refl s
  refine whenRunning_keeps (P := SameTables s) same ?_
  split
  · exact same.trans ⟨rfl, rfl, rfl, rfl, rfl, rfl⟩
  · cases he : answer s with
    | good bytes u => rw [he] at leaves; exact leaves.trans ⟨rfl, rfl, rfl, rfl, rfl, rfl⟩
    | started command u => rw [he] at plain; exact plain.elim
    | busy => exact same.trans ⟨rfl, rfl, rfl, rfl, rfl, rfl⟩
    | check sense offset => exact same.trans ⟨rfl, rfl, rfl, rfl, rfl, rfl⟩

/-! ### A law that the operations of the part keep is kept by every command -/

/-- The law `P` of the tables, the mode, the sweep and the pending command survives each operation that moves
them, in the modes in which a request may ask for it; and whatever leaves them leaves it. -/
structure CommandLaw (P : State → Prop) : Prop where
  congr : ∀ {s t}, P s → SameTables s t → P t
  nextStage : ∀ {s}, P s → ∀ x, P (nextStage x s).2
  takeTimed : ∀ {s}, P s → ∀ e, P (takeTimed e s)
  sweepVisit : ∀ {s}, P s → ∀ i, P (sweepVisit i s)
  sweepPassEnd : ∀ {s}, P s → P (sweepPassEnd s)
  walkStep : ∀ {s}, P s → P (walkStep s)
  drainEnd : ∀ {s}, P s → P (drainEnd s)
  queueTableClear : ∀ {s}, P s → P (queueTableClear s)
  flowGroupClear : ∀ {s}, P s → P (flowGroupClear s)
  reset : ∀ {s}, P s → P (assertReset s)
  observe : ∀ {s}, P s → s.mode = .transparent → s.port.command = none →
    P (beginPass { s with mode := .observe })
  enforce : ∀ {s}, P s → s.mode = .observe ∨ s.mode = .enforce → s.port.command = none →
    P { s with mode := .enforce }
  drain : ∀ {s}, P s → s.mode = .enforce → s.port.command = none → P (drain s)
  releaseAll : ∀ {s}, P s → s.mode = .enforce ∨ s.mode = .draining → s.port.command = none → P (releaseAll s)
  clears : ∀ {s}, P s → s.port.command = none → ∀ soft,
    P ((beginStop s).setCommand (some (.clears soft false false)))
  walk : ∀ {s}, P s → s.mode = .observe → s.port.command = none → P (s.setCommand (some (.walk 0)))
  setTimers : ∀ {s}, P s → ∀ f : TimersField, f.legal → (f.seed = s.ft.seed ∨ ∀ i, (s.flow i).state = .free) →
    P (s.setTimers f)

/-- A new seed is taken only while no record is in use (R56). -/
theorem allFlowsFree_iff (s : State) : allFlowsFree s = true ↔ ∀ i, (s.flow i).state = .free :=
  (tableAll_iff flowReset _ s.ft.flows (by decide)).trans
    (forall_congr' fun _ => decide_eq_true_iff)

section
variable {P : State → Prop} {s t : State}

namespace CommandLaw
variable (L : CommandLaw P)
include L

/-! The parse of a handed cell, and the commands of the link. -/

theorem stageUpTo (k : ParseStage) (r : Transit × State) (h : P r.2) : P (stageUpTo k r).2 := by
  unfold Machine.stageUpTo
  split_ifs
  · exact L.nextStage h _
  · exact h

theorem parseTransit (h : P s) (k : ParseStage) (x : Transit) : P (parseTransit k x s).2 :=
  L.stageUpTo k _ (L.stageUpTo k _ (L.stageUpTo k (x, s) h))

theorem parseFirst (h : P s) (k : ParseStage) (ts : List Transit) : P (parseFirst k ts s).2 := by
  induction ts with
  | nil => exact h
  | cons x rest ih =>
    unfold Machine.parseFirst
    split_ifs
    · exact L.parseTransit h k x
    · exact ih

theorem arrive (h : P s) (d : Direction) (time : Nat) (x : LinkTransaction) (awaiting : Option Handed) :
    P (arrive d time x awaiting s) := L.congr h (sameTables_setStream s d _)

theorem parseWaiting (h : P s) (d : Direction) (k : ParseStage) : P (parseWaiting d k s) :=
  L.congr (L.parseFirst h k _) (sameTables_setStream _ d _)

theorem handOff (h : P s) (d : Direction) (time : Nat) (x : LinkTransaction) (cell : Cell) (p : Profile)
    (parse : ParseTime) : P (handOff d time x cell p parse s) := by
  unfold Machine.handOff arriveHanded checkFailure
  split_ifs
  · exact L.parseWaiting (L.arrive h d time x _) d .decision
  · exact L.arrive h d time x _
  · exact L.arrive (s := (s.bump Counter.linkCheckError).flagLinkCheck)
      (L.congr h ⟨rfl, rfl, rfl, rfl, rfl, rfl⟩) d time x none
  · exact L.arrive h d time x none

theorem arriveWrite (h : P s) (time : Nat) (index : CellIndex) (cell : Cell) (parse : ParseTime) :
    P (arriveWrite time index cell parse s) := by
  unfold Machine.arriveWrite
  split
  · exact L.arrive h _ time _ none
  · split_ifs
    · exact L.handOff h _ time _ cell _ parse
    · exact L.arrive h _ time _ none

theorem arriveMasked (h : P s) (time : Nat) (index : CellIndex) (mask : BitVec 32) (cell : Cell) :
    P (arriveMasked time index mask cell s) := by
  unfold Machine.arriveMasked
  split_ifs
  · exact L.arrive (L.congr h (sameTables_bump s _)) _ time _ none
  · exact L.arrive h _ time _ none

theorem setEntry (h : P s) (tag : Tag) (e : EntryState) : P (s.setEntry tag e) :=
  L.congr h ⟨rfl, rfl, rfl, rfl, rfl, rfl⟩

theorem arriveRequest (h : P s) (time : Nat) (index : CellIndex) (tag : Tag) :
    P (arriveRequest time index tag s) := by
  unfold Machine.arriveRequest
  dsimp only
  split_ifs
  · exact L.arrive (L.setEntry h tag _) _ time _ none
  · exact L.arrive (L.setEntry (L.congr h (sameTables_bump s _)) tag _) _ time _ none

theorem arriveResponse (h : P s) (time : Nat) (tag : Tag) (cell : Cell) (memError : Bool)
    (parse : ParseTime) : P (arriveResponse time tag cell memError parse s) := by
  have taken : P (s.setEntry tag .empty) := L.setEntry h tag .empty
  unfold Machine.arriveResponse
  dsimp only
  split
  · exact L.arrive (L.congr h (sameTables_bump s _)) _ time _ none
  · split_ifs
    · exact L.handOff taken _ time _ cell _ parse
    · exact L.arrive taken _ time _ none
  · exact L.arrive taken _ time _ none
  · exact L.arrive taken _ time _ none

theorem leaveStream (h : P s) (d : Direction) : P (leaveStream d s) := by
  unfold Machine.leaveStream
  split
  · exact h
  · exact L.congr (L.congr (L.parseTransit h .decision _) (sameTables_setStream _ d _)) (sameTables_setPins _ d _)

/-! The requests. -/

/-- What an accepted request with no command pending comes to. -/
theorem takeRequest {code : Byte} {answer : State → Answer} (h : P s)
    (good : ∀ bytes u, s.port.command = none → answer s = .good bytes u → P u)
    (started : ∀ c u, s.port.command = none → answer s = .started c u → P (u.setCommand (some c))) :
    P (takeRequest code answer s) := by
  refine whenRunning_keeps h ?_
  split
  · exact L.congr h ⟨rfl, rfl, rfl, rfl, rfl, rfl⟩
  · rename_i hc
    cases he : answer s with
    | good bytes u => exact L.congr (good bytes u hc he) ⟨rfl, rfl, rfl, rfl, rfl, rfl⟩
    | started command u => exact L.congr (started command u hc he) ⟨rfl, rfl, rfl, rfl, rfl, rfl⟩
    | busy => exact L.congr h ⟨rfl, rfl, rfl, rfl, rfl, rfl⟩
    | check sense offset => exact L.congr h ⟨rfl, rfl, rfl, rfl, rfl, rfl⟩

/-- A request that begins no command keeps the law when its answer does. -/
theorem takeRequest_plain {code : Byte} {answer : State → Answer} (h : P s) (plain : (answer s).plain)
    (leaves : s.port.command = none → (answer s).Leaves P) : P (Machine.takeRequest code answer s) := by
  refine L.takeRequest h (fun bytes u hc he => ?_) fun c u _ he => ?_
  · have := leaves hc
    rwa [he] at this
  · rw [he] at plain
    exact plain.elim

theorem startObserve (h : P s) (body : List Byte) : P (Machine.takeRequest 0x20 (startObserveAnswer body) s) := by
  refine L.takeRequest_plain h (startObserveAnswer_plain body s) fun hc => withParams_leaves fun ps => ?_
  split
  · trivial
  · trivial
  · trivial
  · rename_i hm
    split_ifs
    · exact L.observe h hm hc
    · trivial

theorem enforceRequest (h : P s) (body : List Byte) : P (Machine.takeRequest 0x21 (enforceAnswer body) s) := by
  refine L.takeRequest_plain h (enforceAnswer_plain body s) fun hc => withParams_leaves fun ps => ?_
  split
  · trivial
  · trivial
  · exact L.enforce h (.inl ‹_›) hc
  · exact L.enforce h (.inr ‹_›) hc

theorem release (h : P s) (abrupt : Bool) (body : List Byte) :
    P (Machine.takeRequest 0x22 (releaseAnswer abrupt body) s) := by
  refine L.takeRequest_plain h (releaseAnswer_plain body s abrupt) fun hc =>
    withParams_leaves fun ps => unlessReserved_leaves ?_
  split
  · trivial
  · trivial
  · trivial
  · exact L.drain h ‹_› hc
  · exact L.releaseAll h (.inl ‹_›) hc
  · exact L.releaseAll h (.inr ‹_›) hc

theorem stop (h : P s) (body : List Byte) : P (Machine.takeRequest 0x23 (stopAnswer body) s) := by
  refine L.takeRequest h (fun bytes u hc he => ?_) fun c u hc he => ?_
  · unfold stopAnswer withParams at he
    split at he <;> cases he
  · unfold stopAnswer withParams at he
    split at he
    · cases he
    · cases he
      exact L.clears h hc false

theorem softReset (h : P s) (body : List Byte) : P (Machine.takeRequest 0x03 (softResetAnswer body) s) := by
  refine L.takeRequest h (fun bytes u hc he => ?_) fun c u hc he => ?_
  · unfold softResetAnswer withParams at he
    split at he <;> cases he
  · unfold softResetAnswer withParams at he
    split at he
    · cases he
    · cases he
      exact L.congr (L.clears h hc true) ⟨rfl, rfl, rfl, rfl, rfl, rfl⟩

theorem clearFlows (h : P s) (body : List Byte) : P (Machine.takeRequest 0x34 (clearFlowsAnswer body) s) := by
  refine L.takeRequest h (fun bytes u hc he => ?_) fun c u hc he => ?_
  · unfold clearFlowsAnswer withParams at he
    split at he
    · cases he
    · split at he <;> cases he
  · unfold clearFlowsAnswer withParams at he
    split at he
    · cases he
    · split at he
      all_goals cases he
      exact L.walk h ‹_› hc

theorem timers (h : P s) (body : List Byte) : P (Machine.takeRequest 0x16 (setTimersAnswer body) s) := by
  refine L.takeRequest_plain h (setTimersAnswer_plain body s) fun hc => ?_
  unfold setTimersAnswer
  split_ifs
  · trivial
  · refine withParams_leaves_framed (by decide) fun ps length =>
      unlessReserved_leaves_none fun reserved => unlessBroken_leaves fun hb => ?_
    split_ifs with seed
    · trivial
    · refine L.setTimers h _ (timersField_legal length reserved hb) ?_
      rw [not_and_or, not_not, Bool.not_eq_false, allFlowsFree_iff] at seed
      exact seed

/-- Every command but TICK keeps the law, and TICK keeps it where the tick does. -/
theorem exec_law {c : Instr} (h : P s) (tick : c = .tick → P (tickOnce s)) (he : exec c s = .next t) : P t := by
  have same : SameTables s s := .refl s
  have plain {code : Byte} {answer : State → Answer} (hp : (answer s).plain)
      (leaves : (answer s).Leaves (SameTables s)) : P (Machine.takeRequest code answer s) :=
    L.congr h (takeRequest_sameTables hp leaves)
  have written {u : State} (ft : u.ft = s.ft := by rfl) (gc : u.gc = s.gc := by rfl)
      (mode : u.mode = s.mode := by rfl) (tick : u.time.tick = s.time.tick := by rfl)
      (due : u.time.due = s.time.due := by rfl) (command : u.port.command = s.port.command := by rfl) :
      SameTables s u := ⟨ft, gc, mode, tick, due, command⟩
  cases c with
  | fullCellWrite time index cell parse =>
    cases he; exact whenRunning_keeps h (L.arriveWrite h time index cell parse)
  | maskedWrite time index mask cell =>
    cases he; exact whenRunning_keeps h (L.arriveMasked h time index mask cell)
  | readRequest time index tag => cases he; exact whenRunning_keeps h (L.arriveRequest h time index tag)
  | readResponse time tag cell memError parse =>
    cases he; exact whenRunning_keeps h (L.arriveResponse h time tag cell memError parse)
  | handedCellParse d k => cases he; exact whenRunning_keeps h (L.parseWaiting h d k)
  | transactionLeaves d => cases he; exact whenRunning_keeps h (L.leaveStream h d)
  | hardwareReset => cases he; exact L.reset h
  | resetRelease =>
    cases he
    unfold releaseReset
    split_ifs
    · exact h
    · exact L.congr h written
  | tick => cases he; exact whenRunning_keeps h (tick rfl)
  | quietExpiry | lingerExpiry | holdExpiry | entryExpiry | holdEnd =>
    cases he; exact whenRunning_keeps h (L.takeTimed h _)
  | sweepVisit i => cases he; exact whenRunning_keeps h (L.sweepVisit h i)
  | sweepPassEnd => cases he; exact whenRunning_keeps h (L.sweepPassEnd h)
  | drainEndReport => cases he; exact whenRunning_keeps h (L.drainEnd h)
  | queueTableClear => cases he; exact whenRunning_keeps h (L.queueTableClear h)
  | flowGroupClear => cases he; exact whenRunning_keeps h (L.flowGroupClear h)
  | clearFlowsWalkStep => cases he; exact whenRunning_keeps h (L.walkStep h)
  | stop body => cases he; exact L.stop h body
  | softReset body => cases he; exact L.softReset h body
  | setTimers body => cases he; exact L.timers h body
  | startObserve body => cases he; exact L.startObserve h body
  | enforce body => cases he; exact L.enforceRequest h body
  | releaseGraceful body | releaseAbrupt body => cases he; exact L.release h _ body
  | clearFlows body => cases he; exact L.clearFlows h body
  | identify body =>
    cases he; exact plain (withParams_plain fun _ => trivial) (withParams_leaves fun _ => same)
  | sense body =>
    cases he; exact plain (withParams_plain fun _ => trivial) (withParams_leaves fun _ => written)
  | setLatency body =>
    cases he; exact plain (setLatencyAnswer_plain body s) (setLatencyAnswer_leaves body fun _ => written)
  | loadProfile body =>
    cases he; exact plain (loadProfileAnswer_plain body s) (loadProfileAnswer_leaves body fun _ _ => written)
  | setClass body =>
    cases he; exact plain (setClassAnswer_plain body s) (setClassAnswer_leaves body fun _ _ _ => written)
  | setQueueClass body =>
    cases he; exact plain (setQueueClassAnswer_plain body s) (setQueueClassAnswer_leaves body fun _ _ => written)
  | setRamp body =>
    cases he; exact plain (setRampAnswer_plain body s) (setRampAnswer_leaves body fun _ _ _ => written)
  | setTick body =>
    cases he; exact plain (setTickAnswer_plain body s) (setTickAnswer_leaves body fun _ _ _ => written)
  | setAlert body =>
    cases he; exact plain (setAlertAnswer_plain body s) (setAlertAnswer_leaves body fun _ _ _ _ _ => written)
  | readQueue body =>
    cases he; exact plain (readQueueAnswer_plain body s) (readQueueAnswer_leaves body same fun _ _ => written)
  | readGroup body =>
    cases he; exact plain (readGroupAnswer_plain body s) (readGroupAnswer_leaves body same written)
  | readFlow body =>
    cases he; exact plain (readFlowAnswer_plain body s) (readFlowAnswer_leaves body same)
  | findFlow body =>
    cases he; exact plain (findFlowAnswer_plain body s) (findFlowAnswer_leaves body same)
  | logPeek body => cases he; exact plain (logPeekAnswer_plain body s) (logPeekAnswer_leaves body same)
  | logPop body => cases he; exact plain (logPopAnswer_plain body s) (logPopAnswer_leaves body fun _ => written)
  | countersRead body =>
    cases he
    exact plain (countersReadAnswer_plain body s) (countersReadAnswer_leaves body same fun _ _ => written)
  | clearAlert body =>
    cases he
    exact plain (withParams_plain fun _ => unlessReserved_plain trivial)
      (withParams_leaves fun _ => unlessReserved_leaves written)
  | invalidCommand code body => cases he; exact plain trivial trivial

/-- A step idles, or runs one command: it keeps the law when the tick does. -/
theorem step_law (tick : ∀ {s}, P s → P (tickOnce s)) (h : P s) (hstep : step s = .next t) : P t := by
  obtain ⟨-, rfl⟩ | ⟨c, rest, -, he⟩ := step_eq hstep
  · exact h
  · have h' : P { s with pending := rest } := L.congr h ⟨rfl, rfl, rfl, rfl, rfl, rfl⟩
    exact L.exec_law h' (fun _ => tick h') he

end CommandLaw

end

end Sys2Proof.Machine

namespace Sys2Proof.Machine

/-! ### Keys (R54) -/

section
variable {a b : Endpoint}

theorem endpointLt_iff : endpointLt a b = true ↔ a.address.toNat < b.address.toNat
    ∨ (a.address = b.address ∧ a.port.toNat < b.port.toNat) := by
  simp [endpointLt, BitVec.lt_def]

/-- The order of endpoints is total: address before port, both unsigned. -/
theorem endpointLt_of_ne (hne : a ≠ b) (h : endpointLt a b = false) : endpointLt b a = true := by
  rw [Bool.eq_false_iff, ne_eq, endpointLt_iff, not_or, not_and] at h
  obtain ⟨address, port⟩ := h
  rw [endpointLt_iff]
  by_cases ha : a.address = b.address
  · have hp : a.port ≠ b.port := fun hp => hne (by cases a; cases b; simp_all)
    have := BitVec.toNat_inj.not.mpr hp
    exact .inr ⟨ha.symm, by have := port ha; omega⟩
  · have := BitVec.toNat_inj.not.mpr ha
    exact .inl (by omega)

theorem endpointLt_asymm (h : endpointLt a b = true) : endpointLt b a = false := by
  rw [Bool.eq_false_iff, ne_eq, endpointLt_iff]
  obtain ha | ⟨ha, hp⟩ := endpointLt_iff.mp h
  · rintro (hb | ⟨hb, -⟩)
    · omega
    · rw [hb] at ha; omega
  · rintro (hb | ⟨-, hb⟩)
    · rw [ha] at hb; omega
    · omega

variable (v : IpVersion)

theorem canonicalKey_self : canonicalKey v a a = none := if_pos rfl

theorem canonicalKey_of_lt (h : endpointLt a b = true) :
    canonicalKey v a b = some ({ version := v, first := a, second := b }, .e1)
    ∧ canonicalKey v b a = some ({ version := v, first := a, second := b }, .e2) := by
  have hne : a ≠ b := by
    rintro rfl
    have := endpointLt_asymm h
    simp_all
  simp [canonicalKey, hne, hne.symm, h, endpointLt_asymm h]

/-- Two different endpoints stand in a key in canonical order, whichever of them sends. -/
theorem canonicalKey_ordered {key : FlowKey} {sender : Side} (h : canonicalKey v a b = some (key, sender)) :
    endpointLt key.first key.second = true := by
  have hne : a ≠ b := by
    rintro rfl
    rw [canonicalKey_self] at h
    cases h
  cases hlt : endpointLt a b with
  | true =>
    rw [(canonicalKey_of_lt v hlt).1] at h
    cases h
    exact hlt
  | false =>
    have hlt' := endpointLt_of_ne hne hlt
    rw [(canonicalKey_of_lt v hlt').2] at h
    cases h
    exact hlt'

end

/-! ### Sets and ways (R55, R56) -/

/-- The fold of an address is that of its eight 16-bit words. -/
theorem addressFold_eq (x : Address) : addressFold x =
    (x >>> (16 * 0)).setWidth 16 ^^^ (x >>> (16 * 1)).setWidth 16 ^^^ (x >>> (16 * 2)).setWidth 16
    ^^^ (x >>> (16 * 3)).setWidth 16 ^^^ (x >>> (16 * 4)).setWidth 16 ^^^ (x >>> (16 * 5)).setWidth 16
    ^^^ (x >>> (16 * 6)).setWidth 16 ^^^ (x >>> (16 * 7)).setWidth 16 := by
  have word (k : Nat) : x.extractLsb' (16 * k) 16 = (x >>> (16 * k)).setWidth 16 := by
    apply BitVec.eq_of_toNat_eq
    simp
  simp only [addressFold, word, List.range, List.range.loop, List.foldl]
  rw [show (0 : BitVec 16) = 0#16 from rfl, BitVec.zero_xor]

/-- The upper words of an IPv4 address are 0. -/
theorem upperWord_zero {x : Address} (h : x.toNat < 4294967296) {k : Nat} (hk : 2 ≤ k) :
    (x >>> (16 * k)).setWidth 16 = (0 : BitVec 16) := by
  have : x.toNat < 2 ^ (16 * k) := lt_of_lt_of_le h (by
    calc (4294967296 : Nat) = 2 ^ 32 := by norm_num
      _ ≤ 2 ^ (16 * k) := Nat.pow_le_pow_right (by norm_num) (by omega))
  apply BitVec.eq_of_toNat_eq
  simp [Nat.shiftRight_eq_div_pow, Nat.div_eq_of_lt this]

theorem setIndex_symm (seed : BitVec 16) (v w : IpVersion) (a b : Endpoint) :
    setIndex seed { version := v, first := a, second := b }
      = setIndex seed { version := w, first := b, second := a } := by
  have fold : seededFold seed { version := v, first := a, second := b }
      = seededFold seed { version := w, first := b, second := a } := by
    dsimp only [seededFold]
    ac_rfl
  simp only [setIndex, fold]

theorem setIndex_lt (seed : BitVec 16) (key : FlowKey) : setIndex seed key < 2048 := Nat.mod_lt _ (by decide)

/-- The ways of set `n` are the records `4n` to `4n + 3`. -/
theorem mem_waysOf {n : Nat} (hn : n < 2048) (i : FlowId) : i ∈ waysOf n ↔ i.val / 4 = n := by
  simp only [waysOf, List.mem_map, List.mem_range, wayRecord, Fin.ext_iff]
  constructor
  · rintro ⟨w, hw, h⟩
    omega
  · exact fun h => ⟨i.val % 4, by omega, by omega⟩

theorem mem_keyWays (s : State) (key : FlowKey) (i : FlowId) :
    i ∈ keyWays s key ↔ i.val / 4 = setIndex s.ft.seed key := mem_waysOf (setIndex_lt _ _) i

/-- Settles O44: the lesser endpoint comes first whichever sends, and the fold is symmetric. -/
theorem keysHaveNoDirection : Obligations.KeysHaveNoDirection := by
  refine ⟨fun v a b => ⟨?_, fun hne => ?_⟩, setIndex_symm, ?_, mem_keyWays⟩
  · rintro rfl
    exact canonicalKey_self v
  · cases hlt : endpointLt a b with
    | true =>
      obtain ⟨forth, back⟩ := canonicalKey_of_lt v hlt
      exact ⟨_, .e1, forth, back, rfl, .inl ⟨rfl, rfl, rfl⟩, endpointLt_iff.mp hlt⟩
    | false =>
      have hlt' := endpointLt_of_ne hne hlt
      obtain ⟨back, forth⟩ := canonicalKey_of_lt v hlt'
      exact ⟨_, .e2, forth, back, rfl, .inr ⟨rfl, rfl, rfl⟩, endpointLt_iff.mp hlt'⟩
  · intro word fold
    refine ⟨fun seed v a b => ?_, fun x hx => ?_⟩
    · simp only [setIndex, seededFold, addressFold_eq]
      rfl
    · have upper (k : Nat) (hk : 2 ≤ k) : word x k = 0 := upperWord_zero hx hk
      simp [fold, upper]

end Sys2Proof.Machine

namespace Sys2Proof.Machine

/-! ### What joins and leaves do not touch in a flow record (R57, R82) -/

/-- The record apart from what ties it to a group: its responder, group, links and joined queue. -/
def FlowRecord.standing (r : FlowRecord) : FlowRecord :=
  { r with responder := none, group := none, prev := none, next := none, joinedQueue := none }

section
variable {s : State}

/-- What a leave makes of every flow record (R88). -/
theorem leave_flow (f i : FlowId) (h : i ≠ f) :
    { (leave f s).flow i with prev := none, next := none } = { s.flow i with prev := none, next := none } := by
  unfold leave
  split
  · rfl
  · rw [groupFrame_flow (afterRemoval_groupFrame _ _), removeMember_flow]
    simp only [if_neg h]

/-- What a leave makes of its own flow record (R88). -/
theorem leave_flow_self (f : FlowId) : (leave f s).flow f = if (s.flow f).group = none then s.flow f
    else { s.flow f with group := none, prev := none, next := none } := by
  unfold leave
  split
  · rename_i hg
    rw [if_pos hg]
  · rename_i g hg
    rw [groupFrame_flow (afterRemoval_groupFrame _ _), removeMember_flow, hg]
    simp

theorem leave_standing (f i : FlowId) : ((leave f s).flow i).standing = (s.flow i).standing := by
  by_cases h : i = f
  · subst h
    rw [leave_flow_self]
    split_ifs <;> rfl
  · exact (congrArg FlowRecord.standing (leave_flow f i h) :)

theorem appendMember_standing (f i : FlowId) (g : GroupId) :
    ((appendMember f g s).flow i).standing = (s.flow i).standing := by
  rw [appendMember_flow]
  dsimp only
  split_ifs <;> rfl

theorem joinGroup_standing (f i : FlowId) (g : GroupId) :
    ((joinGroup f g s).flow i).standing = (s.flow i).standing := by
  unfold joinGroup
  dsimp only
  split_ifs
  · rfl
  · rw [groupFrame_flow (addTotal_groupFrame _ _ _)]
    exact appendMember_standing f i g
  · rw [groupFrame_flow (testOnset_groupFrame _ _)]
    exact appendMember_standing f i g
  · exact appendMember_standing f i g

theorem join_standing (f i : FlowId) (side : Side) (key : GroupKey) :
    ((join f side key s).flow i).standing = (s.flow i).standing := by
  have named : ((s.setFlow f { s.flow f with
      responder := some side, joinedQueue := some key.queue }).flow i).standing = (s.flow i).standing := by
    rw [State.setFlow_flow]
    split_ifs with hi
    · rw [hi]
      rfl
    · rfl
  unfold join
  dsimp only
  split
  · exact (joinGroup_standing f i _).trans named
  · split
    · exact (joinGroup_standing f i _).trans named
    · exact named

theorem joinRequest_standing (f i : FlowId) (side : Side) (key : GroupKey) :
    ((joinRequest f side key s).flow i).standing = (s.flow i).standing := by
  unfold joinRequest
  split
  · exact join_standing f i side key
  · split_ifs
    · rfl
    · rfl
    · exact (join_standing f i side key).trans (leave_standing f i)

theorem requestJoin_standing (f i : FlowId) (side : Side) (ip : IpPart) (tcp : TcpPart) (q : Option QueueId) :
    ((requestJoin f side ip tcp q s).flow i).standing = (s.flow i).standing := by
  unfold requestJoin
  split
  · rfl
  · split_ifs
    · exact joinRequest_standing f i side _
    · rfl

theorem freeRecord_flow (f i : FlowId) : (freeRecord f s).flow i =
    if i = f then freeFlow (s.flow f).lastSeen else (leave f s).flow i := by
  rw [freeRecord, State.setFlow_flow]
  have := congrArg FlowRecord.lastSeen (leave_standing (s := s) f f)
  split_ifs
  · exact congrArg freeFlow this
  · rfl

end

/-! ### Scales and offers (R33, R57, R62, R63) -/

/-- The scales and the offer of a record lie in 0..14. -/
def FlowRecord.scalesLegal (r : FlowRecord) : Prop :=
  scaleLegal r.scale1 ∧ scaleLegal r.scale2 ∧ ∀ n, r.offer = some (.scale n) → n ≤ 14

section
variable {r : FlowRecord} {v : Option Nat}

theorem scaleLegal_some {n : Nat} : scaleLegal (some n) ↔ n ≤ 14 := by simp [scaleLegal]

theorem scaleLegal_none : scaleLegal none := by simp [scaleLegal]

theorem scaleLegal_zero : scaleLegal (some 0) := scaleLegal_some.mpr (Nat.zero_le _)

theorem setScale_scalesLegal (h : r.scalesLegal) (side : Side) (hv : scaleLegal v) :
    (r.setScale side v).scalesLegal := by
  obtain ⟨h1, h2, ho⟩ := h
  cases side
  · exact ⟨hv, h2, ho⟩
  · exact ⟨h1, hv, ho⟩

theorem setFin_scalesLegal (h : r.scalesLegal) (side : Side) : (r.setFin side).scalesLegal := by
  cases side <;> exact h

theorem learnSyn_scalesLegal (h : r.scalesLegal) (side : Side) (hv : scaleLegal v) :
    (learnSyn side v r).scalesLegal := by
  refine ⟨h.1, h.2.1, fun n hn => ?_⟩
  cases v with
  | none => simp [learnSyn] at hn
  | some m =>
    simp only [learnSyn, Option.some.injEq, Offer.scale.injEq] at hn
    exact hv n (congrArg some hn)

theorem learnSynAck_scalesLegal (h : r.scalesLegal) (side : Side) (hv : scaleLegal v) :
    (learnSynAck side v r).scalesLegal := by
  unfold learnSynAck
  dsimp only
  split
  · rename_i a b seen
    split_ifs at seen
    have ha : scaleLegal (some a) := scaleLegal_some.mpr (h.2.2 a seen)
    exact setScale_scalesLegal (setScale_scalesLegal h _ ha) _ hv
  · exact setScale_scalesLegal h _ hv
  all_goals exact setScale_scalesLegal (setScale_scalesLegal h _ scaleLegal_zero) _ scaleLegal_zero

theorem moveSynAck_scalesLegal (h : r.scalesLegal) : (moveSynAck r).scalesLegal := by
  unfold moveSynAck
  split <;> exact h

theorem moveData_scalesLegal (h : r.scalesLegal) : (moveData r).scalesLegal := by
  unfold moveData
  split <;> exact h

theorem learn_scalesLegal (h : r.scalesLegal) (now : Tick) (side : Side) {tcp : TcpPart}
    (hv : scaleLegal tcp.scale) : (learn now side tcp r).scalesLegal := by
  have seen : FlowRecord.scalesLegal { r with lastSeen := now } := h
  unfold learn
  dsimp only
  split
  · exact learnSyn_scalesLegal seen side hv
  · exact moveSynAck_scalesLegal (learnSynAck_scalesLegal seen side hv)
  · exact moveData_scalesLegal seen
  · exact moveData_scalesLegal seen
  all_goals exact seen

theorem setScale_key (r : FlowRecord) (side : Side) (v : Option Nat) : (r.setScale side v).key = r.key := by
  cases side <;> rfl

theorem learn_key (now : Tick) (side : Side) (tcp : TcpPart) (r : FlowRecord) :
    (learn now side tcp r).key = r.key := by
  have syn (r : FlowRecord) : (learnSynAck side tcp.scale r).key = r.key := by
    unfold learnSynAck
    dsimp only
    split <;> simp only [setScale_key]
  unfold learn moveSynAck moveData
  dsimp only
  split
  · rfl
  · split <;> exact syn _
  · split <;> rfl
  · split <;> rfl
  all_goals rfl

/-- The option walk steps over no scale above 14 (R33). -/
theorem optionWalk_scaleLegal (fuel : Nat) (options : List Byte) {found found' : Option Nat}
    (h : scaleLegal found) (hw : optionWalk fuel options found = some found') : scaleLegal found' := by
  induction fuel generalizing options found with
  | zero =>
    cases hw
    exact h
  | succ fuel ih =>
    match options with
    | [] =>
      cases hw
      exact h
    | kind :: rest =>
      by_cases h0 : kind = 0
      · simp only [optionWalk, if_pos h0, Option.some.injEq] at hw
        exact hw ▸ h
      by_cases h1 : kind = 1
      · simp only [optionWalk, if_neg h0, if_pos h1] at hw
        exact ih rest h hw
      match rest with
      | [] =>
        rw [optionWalk_single h0 h1] at hw
        cases hw
      | len :: value =>
        rw [optionWalk_option h0 h1] at hw
        split_ifs at hw
        · exact ih _ (scaleLegal_some.mpr (Nat.min_le_left _ _)) hw
        · exact ih _ h hw

theorem offeredScale_scaleLegal (options : List Byte) : scaleLegal (offeredScale options) := by
  unfold offeredScale
  cases h : optionWalk (options.length + 1) options none with
  | none => exact scaleLegal_none
  | some found => exact optionWalk_scaleLegal _ options scaleLegal_none h

theorem tcpWalk_scaleLegal {w : Nat} {c : Cell} {ip : IpPart} {t total header : Nat} {tcp : TcpPart}
    (h : (tcpWalk w c ip t total header).tcp = some tcp) : scaleLegal tcp.scale := by
  unfold tcpWalk at h
  dsimp only at h
  split_ifs at h
  · cases h
  · cases h
  · cases h
  · cases h
  · obtain rfl := Option.some.inj h
    exact offeredScale_scaleLegal _
  · obtain rfl := Option.some.inj h
    exact scaleLegal_none

/-- The scale of a parse record lies in 0..14 (R33). -/
theorem frameStage_scaleLegal {p : Profile} {w : Nat} {c : Cell} {tcp : TcpPart}
    (h : (frameStage p w c).tcp = some tcp) : scaleLegal tcp.scale := by
  simp only [frameStage, ipv4Walk, ipv6Walk] at h
  split_ifs at h
  · cases h
  · cases h
  · exact tcpWalk_scaleLegal h
  · cases h
  · exact tcpWalk_scaleLegal h

end

end Sys2Proof.Machine

namespace Sys2Proof.Machine

/-! ### Records in use under every write to the flow table (R54 to R59) -/

section
variable {s t : State}

/-- What leaves the standing of every record and the seed leaves every record in its place. -/
theorem flowsPlaced_congr (h : s.flowsPlaced) (hseed : t.ft.seed = s.ft.seed)
    (hF : ∀ i, (t.flow i).standing = (s.flow i).standing) : t.flowsPlaced := by
  obtain ⟨placed, unique, scales⟩ := h
  have state (i : FlowId) : (t.flow i).state = (s.flow i).state := (congrArg FlowRecord.state (hF i) :)
  have key (i : FlowId) : (t.flow i).key = (s.flow i).key := (congrArg FlowRecord.key (hF i) :)
  have legal (i : FlowId) : (t.flow i).scalesLegal := by
    have : (t.flow i).standing.scalesLegal := (hF i).symm ▸ scales i
    exact this
  have ways (k : FlowKey) : keyWays t k = keyWays s k := by simp only [keyWays, hseed]
  refine ⟨fun i hi => ?_, fun i j k hi hj hki hkj => ?_, legal⟩
  · obtain ⟨k, hk, hlt, hway⟩ := placed i (by rwa [← state])
    exact ⟨k, (key i).trans hk, hlt, (ways k).symm ▸ hway⟩
  · rw [state] at hi hj
    rw [key] at hki hkj
    exact unique i j k hi hj hki hkj

theorem flowsPlaced_of_ft (h : s.flowsPlaced) (hf : t.ft = s.ft) : t.flowsPlaced := by
  refine flowsPlaced_congr h (by rw [hf]) fun i => ?_
  rw [State.flow, State.flow, hf]

/-- A record may be written that is FREE, or that holds a key of its set which no other record holds. -/
theorem flowsPlaced_setFlow (h : s.flowsPlaced) (i : FlowId) {r : FlowRecord} (scales : r.scalesLegal)
    (hr : r.state ≠ .free → ∃ key, r.key = some key ∧ endpointLt key.first key.second = true ∧ i ∈ keyWays s key
      ∧ ∀ j, j ≠ i → (s.flow j).state ≠ .free → (s.flow j).key ≠ some key) :
    (s.setFlow i r).flowsPlaced := by
  obtain ⟨placed, unique, legal⟩ := h
  have own : (s.setFlow i r).flow i = r := s.setFlow_flow_self i r
  have other {j : FlowId} (hj : j ≠ i) : (s.setFlow i r).flow j = s.flow j :=
    (s.setFlow_flow i j r).trans (if_neg hj)
  have alone {j : FlowId} {key : FlowKey} (hj : j ≠ i) (hi : r.state ≠ .free) (hk : r.key = some key)
      (hs : (s.flow j).state ≠ .free) : (s.flow j).key ≠ some key := by
    obtain ⟨key', hk', -, -, free⟩ := hr hi
    obtain rfl := Option.some.inj (hk'.symm.trans hk)
    exact free j hj hs
  refine ⟨fun j hj => ?_, fun j k key hj hk hjk hkk => ?_, fun j => ?_⟩
  · by_cases hji : j = i
    · subst hji
      rw [own] at hj ⊢
      obtain ⟨key, hk, hlt, hway, -⟩ := hr hj
      exact ⟨key, hk, hlt, hway⟩
    · rw [other hji] at hj ⊢
      exact placed j hj
  · by_cases hji : j = i
    · by_cases hki : k = i
      · exact hji.trans hki.symm
      · subst hji
        rw [own] at hj hjk
        rw [other hki] at hk hkk
        exact absurd hkk (alone hki hj hjk hk)
    · rw [other hji] at hj hjk
      by_cases hki : k = i
      · subst hki
        rw [own] at hk hkk
        exact absurd hjk (alone hji hk hkk hj)
      · rw [other hki] at hk hkk
        exact unique j k key hj hk hjk hkk
  · by_cases hji : j = i
    · subst hji
      rw [own]
      exact scales
    · rw [other hji]
      exact legal j

theorem freeFlow_scalesLegal (stamp : Tick) : (freeFlow stamp).scalesLegal :=
  ⟨scaleLegal_none, scaleLegal_none, fun _ h => nomatch h⟩

theorem flowsPlaced_freeFlow (h : s.flowsPlaced) (i : FlowId) (stamp : Tick) :
    (s.setFlow i (freeFlow stamp)).flowsPlaced :=
  flowsPlaced_setFlow h i (freeFlow_scalesLegal stamp) fun hs => absurd rfl hs

/-- A record in use that keeps its key stays in its place. -/
theorem flowsPlaced_rewrite (h : s.flowsPlaced) (i : FlowId) {r : FlowRecord} (scales : r.scalesLegal)
    (hi : (s.flow i).state ≠ .free) (hk : r.key = (s.flow i).key) : (s.setFlow i r).flowsPlaced := by
  refine flowsPlaced_setFlow h i scales fun _ => ?_
  obtain ⟨placed, unique, -⟩ := h
  obtain ⟨key, hkey, hlt, hway⟩ := placed i hi
  exact ⟨key, hk.trans hkey, hlt, hway, fun j hj hs hkj => hj (unique j i key hs hi hkj hkey)⟩

theorem leave_flowsPlaced (h : s.flowsPlaced) (f : FlowId) : (leave f s).flowsPlaced :=
  flowsPlaced_congr h (dataFrame_seed (dataFrame_of_flowFrame (leave_flowFrame f s))) (leave_standing f)

theorem freeRecord_flowsPlaced (h : s.flowsPlaced) (i : FlowId) : (freeRecord i s).flowsPlaced :=
  flowsPlaced_freeFlow (leave_flowsPlaced h i) i _

theorem requestJoin_flowsPlaced (h : s.flowsPlaced) (i : FlowId) (side : Side) (ip : IpPart) (tcp : TcpPart)
    (q : Option QueueId) : (requestJoin i side ip tcp q s).flowsPlaced :=
  flowsPlaced_congr h (dataFrame_seed (dataFrame_of_flowFrame (requestJoin_flowFrame i side ip tcp q s)))
    (fun j => requestJoin_standing i j side ip tcp q)

theorem setFin_key (r : FlowRecord) (side : Side) : (r.setFin side).key = r.key := by cases side <;> rfl

theorem finTeardown_flowsPlaced (h : s.flowsPlaced) (i : FlowId) (side : Side) (hi : (s.flow i).state ≠ .free) :
    (finTeardown i side s).flowsPlaced := by
  have flagged := setFin_scalesLegal (h.2.2 i) side
  unfold finTeardown
  dsimp only
  split_ifs
  · exact freeRecord_flowsPlaced (flowsPlaced_rewrite h i flagged hi (setFin_key _ side)) i
  · exact flowsPlaced_rewrite h i (r := { (s.flow i).setFin side with state := .closing }) flagged hi
      (setFin_key _ side)

theorem teardown_flowsPlaced (h : s.flowsPlaced) (i : FlowId) (side : Side) (tcp : TcpPart)
    (hi : (s.flow i).state ≠ .free) : (teardown i side tcp s).flowsPlaced := by
  unfold teardown
  split_ifs
  · exact freeRecord_flowsPlaced h i
  · exact finTeardown_flowsPlaced h i side hi
  · exact h

/-! ### Segments (R58 to R66) -/

theorem trackSegment_flowsPlaced (h : s.flowsPlaced) (i : FlowId) (side : Side) (ip : IpPart) {tcp : TcpPart}
    (hv : scaleLegal tcp.scale) (q : Option QueueId) (hi : (s.flow i).state ≠ .free) :
    (trackSegment i side ip tcp q s).flowsPlaced := by
  have learnt := flowsPlaced_rewrite h i (learn_scalesLegal (h.2.2 i) s.now side hv) hi (learn_key _ side tcp _)
  refine teardown_flowsPlaced (requestJoin_flowsPlaced learnt i side ip tcp q) i side tcp ?_
  rw [requestJoin_state, State.setFlow_flow_self]
  exact learn_state _ _ _ _ hi

theorem newFlow_scalesLegal (key : FlowKey) (kind : SubKind) (side : Side) : (newFlow key kind side).scalesLegal :=
  freeFlow_scalesLegal 0

/-- A miss creates its record in the set of its key, which no record holds (R59, R60). -/
theorem create_flowsPlaced (h : s.flowsPlaced) {key : FlowKey} (miss : findFlowRecord s key = none)
    (hlt : endpointLt key.first key.second = true) {i : FlowId} (hway : i ∈ keyWays s key) (kind : SubKind)
    (side : Side) : ((freeRecord i s).setFlow i (newFlow key kind side)).flowsPlaced := by
  have seed : (freeRecord i s).ft.seed = s.ft.seed :=
    dataFrame_seed (dataFrame_of_flowFrame (freeRecord_flowFrame i s))
  refine flowsPlaced_setFlow (freeRecord_flowsPlaced h i) i (newFlow_scalesLegal key kind side) fun _ =>
    ⟨key, rfl, hlt, ?_, fun j hj hs hk => ?_⟩
  · rwa [keyWays, seed]
  · have same : ((freeRecord i s).flow j).standing = (s.flow j).standing := by
      rw [freeRecord_flow, if_neg hj]
      exact leave_standing i j
    have state : ((freeRecord i s).flow j).state = (s.flow j).state := (congrArg FlowRecord.state same :)
    have found := findFlowRecord_of_placed h (state ▸ hs) ((congrArg FlowRecord.key same :).symm.trans hk)
    rw [miss] at found
    cases found

theorem oldestCandidate_mem {ways : List FlowId} {i : FlowId} (h : oldestCandidate s ways = some i) : i ∈ ways := by
  induction ways generalizing i with
  | nil => cases h
  | cons j rest ih =>
    unfold oldestCandidate at h
    split at h
    · split_ifs at h
      cases h
      exact List.mem_cons_self
    · rename_i k hk
      split_ifs at h
      · cases h
        exact List.mem_cons_self
      · cases h
        exact List.mem_cons_of_mem _ (ih hk)

theorem allocationWay_mem {ways : List FlowId} {i : FlowId} (h : allocationWay s ways = some i) : i ∈ ways := by
  unfold allocationWay at h
  split at h
  · rename_i j hj
    cases h
    exact List.mem_of_find?_eq_some hj
  · exact oldestCandidate_mem h

theorem takeSegment_flowsPlaced (h : s.flowsPlaced) (ip : IpPart) {tcp : TcpPart} (hv : scaleLegal tcp.scale)
    (q : Option QueueId) : (takeSegment ip tcp q s).flowsPlaced := by
  unfold takeSegment
  split
  · exact flowsPlaced_of_ft h rfl
  · rename_i key sender hk
    have hlt := canonicalKey_ordered ip.version hk
    split
    · rename_i i hi
      exact trackSegment_flowsPlaced h i sender ip hv q (findFlowRecord_spec hi).1
    · rename_i miss
      split_ifs
      · split
        · rename_i i hi
          refine trackSegment_flowsPlaced (create_flowsPlaced h miss hlt (allocationWay_mem hi) tcp.kind sender) i
            sender ip hv q ?_
          simp [newFlow]
        · exact flowsPlaced_of_ft h rfl
      · exact h

/-- The drain-end report leaves the Flow Table (R104). -/
@[simp] theorem drainEnd_ft (s : State) : (drainEnd s).ft = s.ft := by
  unfold drainEnd
  split_ifs
  · have frame := forGroups_groupFrame (s := { s with mode := .observe }) testOnset testOnset_groupFrame
    exact (groupFrame_ft frame).trans rfl
  · rfl

theorem drainEnd_flowsPlaced (h : s.flowsPlaced) : (drainEnd s).flowsPlaced := flowsPlaced_of_ft h (drainEnd_ft s)

theorem takeWriteRecord_flowsPlaced (h : s.flowsPlaced) {r : FrameRecord}
    (hv : ∀ tcp, r.tcp = some tcp → scaleLegal tcp.scale) (q : Option QueueId) :
    (takeWriteRecord r q s).flowsPlaced := by
  have counted : (s.bump (categoryCounter r.category)).flowsPlaced := flowsPlaced_of_ft h rfl
  unfold takeWriteRecord writeSegment
  dsimp only
  split
  · rename_i ip tcp _ htcp
    split_ifs
    · exact counted
    · exact drainEnd_flowsPlaced (takeSegment_flowsPlaced counted ip (hv tcp htcp) q)
  · exact counted

/-! ### The other operations leave the Flow Table alone -/

theorem accountWrite_ft (p : Profile) (c : Cell) (s : State) : (accountWrite p c s).2.ft = s.ft := by
  unfold accountWrite
  split
  · rfl
  · rfl
  · rfl
  · rfl
  · rename_i q n _
    by_cases hm : s.mode = .transparent
    · rw [enqueue_transparent hm]
    · exact (groupFrame_ft (enqueue_groupFrame q n hm)).trans rfl

theorem nextStage_flowsPlaced (h : s.flowsPlaced) (x : Transit) : (nextStage x s).2.flowsPlaced := by
  unfold nextStage
  split
  · exact h
  · split
    · unfold accountTransit
      dsimp only
      split
      · exact flowsPlaced_of_ft h (accountWrite_ft _ _ s)
      · exact flowsPlaced_of_ft h accountRead_rest.2.1
      · exact h
      · exact h
    · unfold recordTransit
      split
      · exact takeWriteRecord_flowsPlaced h (fun tcp ht => frameStage_scaleLegal ht) _
      · exact flowsPlaced_of_ft h (takeReadRecord_tables _).1
      · exact h
      · exact h
    · unfold decideTransit
      split
      · exact flowsPlaced_of_ft h (decideRead_tables _ _ _ _ _).1
      · exact h
      · exact h
      · exact h

/-- An expiry leaves the Flow Table (R48, R90, R99, R146, R148). -/
@[simp] theorem timedEffect_ft (e : TimedEvent) (s : State) : (timedEffect e s).ft = s.ft := by
  cases e with
  | quiet q =>
    change (quietExpiry q s).ft = s.ft
    cases hq : quietDue s q with
    | true => exact (groupFrame_ft (quietExpiry_groupFrame hq)).trans rfl
    | false => simp [quietExpiry, hq]
  | linger g =>
    change (lingerExpiry g s).ft = s.ft
    unfold lingerExpiry
    split_ifs <;> rfl
  | hold g =>
    change (holdExpiry g s).ft = s.ft
    unfold holdExpiry
    split_ifs
    · exact (drainEnd_ft _).trans (groupFrame_ft (enterRamp_groupFrame g s))
    · rfl
  | entry g =>
    change (entryExpiry g s).ft = s.ft
    unfold entryExpiry
    split_ifs
    · exact (drainEnd_ft _).trans (groupFrame_ft (advanceEntry_groupFrame g s))
    · rfl
  | holdEnd g =>
    change (holdEnd g s).ft = s.ft
    unfold holdEnd
    split_ifs
    · exact (drainEnd_ft _).trans (groupFrame_ft (sequenceEnd_groupFrame g s))
    · rfl

theorem takeTimed_ft (e : TimedEvent) (s : State) : (takeTimed e s).ft = s.ft := by
  unfold takeTimed
  split_ifs
  · exact timedEffect_ft e _
  · rfl

theorem visitRecord_flowsPlaced (h : s.flowsPlaced) (i : FlowId) : (visitRecord i s).flowsPlaced := by
  unfold visitRecord
  split
  · exact h
  · split_ifs
    · exact freeRecord_flowsPlaced h i
    · exact h
  · split_ifs
    · exact leave_flowsPlaced h i
    · exact h
  · split_ifs
    · exact leave_flowsPlaced h i
    · exact h

theorem sweepVisit_flowsPlaced (h : s.flowsPlaced) (i : FlowId) : (sweepVisit i s).flowsPlaced := by
  unfold sweepVisit
  split_ifs
  · exact drainEnd_flowsPlaced (flowsPlaced_congr (visitRecord_flowsPlaced h i) rfl fun _ => rfl)
  · exact h

theorem sweepPassEnd_flowsPlaced (h : s.flowsPlaced) : (sweepPassEnd s).flowsPlaced := by
  unfold sweepPassEnd
  split_ifs
  · exact flowsPlaced_congr h rfl fun _ => rfl
  · exact h

/-- The walk moves on by a write to the port alone (R76). -/
theorem walkPast_ft (i : FlowId) (s : State) : (walkPast i s).ft = s.ft := by
  unfold walkPast
  split_ifs <;> rfl

theorem walkStep_flowsPlaced (h : s.flowsPlaced) : (walkStep s).flowsPlaced := by
  unfold walkStep
  split
  · rename_i i _
    split_ifs
    · have counted : (refclkPeriod s).flowsPlaced := flowsPlaced_of_ft h rfl
      exact flowsPlaced_of_ft (freeRecord_flowsPlaced counted i) (walkPast_ft i _)
    · exact h
  · exact h

/-! ### The records of the flow table over every command -/

theorem flowsPlaced_of_free (hF : ∀ i, s.flow i = freeFlow (s.flow i).lastSeen) : s.flowsPlaced := by
  have free (i : FlowId) : (s.flow i).state = .free := by rw [hF i]; rfl
  refine ⟨fun i hi => absurd (free i) hi, fun i _ _ hi => absurd (free i) hi, fun i => ?_⟩
  rw [hF i]
  exact freeFlow_scalesLegal _

theorem finishClears_ft (s : State) : (finishClears s).ft = s.ft := by
  unfold finishClears
  split <;> rfl

theorem queueTableClear_ft (s : State) : (queueTableClear s).ft = s.ft := by
  unfold queueTableClear
  split
  · exact finishClears_ft _
  · rfl

theorem flowGroupClear_flowsPlaced (h : s.flowsPlaced) : (flowGroupClear s).flowsPlaced := by
  unfold flowGroupClear
  split
  · refine flowsPlaced_of_ft (s := clearFlowsAndGroups s) (flowsPlaced_of_free fun i => ?_) (finishClears_ft _)
    rw [clearFlowsAndGroups_flow]
    rfl
  · exact h

/-- A new seed is taken only while no record is in use, and then no record stands in a wrong set (R56). -/
theorem setTimers_flowsPlaced (h : s.flowsPlaced) (f : TimersField)
    (hs : f.seed = s.ft.seed ∨ ∀ i, (s.flow i).state = .free) : (s.setTimers f).flowsPlaced := by
  obtain same | free := hs
  · exact flowsPlaced_congr h same fun _ => rfl
  · exact ⟨fun i hi => absurd (free i) hi, fun i _ _ hi => absurd (free i) hi, h.2.2⟩

theorem releaseAll_ft (s : State) : (releaseAll s).ft = s.ft := by
  have released := groupFrame_ft (forGroups_groupFrame (s := s) releaseOn releaseOn_groupFrame)
  unfold releaseAll
  generalize forGroups s releaseOn = u at released ⊢
  exact released

theorem drain_ft (s : State) : (drain s).ft = s.ft := by
  have drained := groupFrame_ft (forGroups_groupFrame (s := { s with mode := .draining }) drainOn drainOn_groupFrame)
  exact (drainEnd_ft _).trans drained

theorem flowsPlaced_law : CommandLaw State.flowsPlaced where
  congr h same := flowsPlaced_of_ft h same.ft
  nextStage h x := nextStage_flowsPlaced h x
  takeTimed h e := flowsPlaced_of_ft h (takeTimed_ft e _)
  sweepVisit h i := sweepVisit_flowsPlaced h i
  sweepPassEnd h := sweepPassEnd_flowsPlaced h
  walkStep h := walkStep_flowsPlaced h
  drainEnd h := drainEnd_flowsPlaced h
  queueTableClear h := flowsPlaced_of_ft h (queueTableClear_ft _)
  flowGroupClear h := flowGroupClear_flowsPlaced h
  reset _ := flowsPlaced_of_free fun _ => rfl
  observe h _ _ := flowsPlaced_congr h rfl fun _ => rfl
  enforce h _ _ := flowsPlaced_of_ft h rfl
  drain h _ _ := flowsPlaced_of_ft h (drain_ft _)
  releaseAll h _ _ := flowsPlaced_of_ft h (releaseAll_ft _)
  clears h _ _ := flowsPlaced_congr h rfl fun _ => rfl
  walk h _ _ := flowsPlaced_of_ft h rfl
  setTimers h f _ hs := setTimers_flowsPlaced h f hs

theorem tickOnce_flowsPlaced (h : s.flowsPlaced) : (tickOnce s).flowsPlaced :=
  tickOnce_keeps (P := State.flowsPlaced) (fun e _ h => flowsPlaced_law.takeTimed h e)
    (fun i _ h => sweepVisit_flowsPlaced h i)
    (fun _ h => sweepPassEnd_flowsPlaced h) (fun _ h => walkStep_flowsPlaced h)
    (fun _ h => flowsPlaced_of_ft h rfl) h

end

/-- Settles O9: a record is created in the set of its key, keeps the key while it is in use, and the seed stands
while a record does. -/
theorem flowsStayPlaced : Obligations.FlowsStayPlaced :=
  fun _ _ h hstep => flowsPlaced_law.step_law tickOnce_flowsPlaced h hstep

end Sys2Proof.Machine

namespace Sys2Proof.Machine

/-! ### The sweep: which visit is the next, and what a visit leaves alone (R71, R72) -/

section
variable {s t : State} {i : FlowId}

theorem visitDue_iff : visitDue s i = true ↔ s.visitFalls i := by
  unfold visitDue State.visitFalls
  cases s.ft.sweep with
  | none => simp
  | some pass =>
    simp only [Bool.and_eq_true, decide_eq_true_eq, Option.some.injEq, exists_eq_left']
    rfl

theorem passEndDue_iff : passEndDue s = true ↔ s.passEnds := by
  unfold passEndDue State.passEnds
  cases s.ft.sweep with
  | none => simp
  | some pass =>
    simp only [decide_eq_true_eq, Option.some.injEq, exists_eq_left']
    rfl

theorem visitDue_congr (hs : t.ft.sweep = s.ft.sweep) (hn : t.now = s.now) (i : FlowId) :
    visitDue t i = visitDue s i := by
  simp only [visitDue, hs, hn]

theorem passEndDue_congr (hs : t.ft.sweep = s.ft.sweep) (hn : t.now = s.now) : passEndDue t = passEndDue s := by
  simp only [passEndDue, hs, hn]

/-- A visit touches the flow, group and total tables, the log, the counters and the flags of its record's leave. -/
@[simp] theorem visitRecord_flowFrame (i : FlowId) (s : State) : (visitRecord i s).flowFrame = s.flowFrame := by
  unfold visitRecord
  split
  · rfl
  · split_ifs
    · exact freeRecord_flowFrame i s
    · rfl
  · split_ifs
    · exact leave_flowFrame i s
    · rfl
  · split_ifs
    · exact leave_flowFrame i s
    · rfl

theorem sweepVisit_of_due (h : visitDue s i = true) :
    sweepVisit i s = drainEnd (passVisited i (visitRecord i s)) := if_pos h

theorem sweepVisit_of_not_due (h : visitDue s i = false) : sweepVisit i s = s := if_neg (by simp [h])

/-- A visit moves the pass past its record (R71). -/
theorem sweepVisit_sweep (h : visitDue s i = true) :
    (sweepVisit i s).ft.sweep = s.ft.sweep.map (fun pass => { pass with nextRecord := i.val + 1 }) := by
  rw [sweepVisit_of_due h, drainEnd_ft]
  exact congrArg (Option.map _) (flowFrame_sweep (visitRecord_flowFrame i s))

theorem passVisited_dataFrame_eq (i : FlowId) {s t : State} (h : t.dataFrame = s.dataFrame) :
    (passVisited i t).dataFrame = (passVisited i s).dataFrame :=
  congrArg (passVisited i) h

theorem sweepVisit_dataFrame (h : visitDue s i = true) :
    (sweepVisit i s).dataFrame = (passVisited i s).dataFrame := by
  rw [sweepVisit_of_due h, drainEnd_dataFrame]
  exact passVisited_dataFrame_eq i (dataFrame_of_flowFrame (visitRecord_flowFrame i s))

theorem sweepVisit_time (i : FlowId) (s : State) : (sweepVisit i s).time = s.time := by
  cases h : visitDue s i with
  | true => exact (dataFrame_time (sweepVisit_dataFrame h)).trans rfl
  | false => rw [sweepVisit_of_not_due h]

theorem sweepVisit_port (i : FlowId) (s : State) : (sweepVisit i s).port = s.port := by
  cases h : visitDue s i with
  | true => exact (dataFrame_port (sweepVisit_dataFrame h)).trans rfl
  | false => rw [sweepVisit_of_not_due h]

/-! ### All visits of one tick -/

/-- The visits stop where none is due. -/
theorem sweepVisits_of_none_due (h : ∀ i, visitDue s i = false) (n : Nat) : sweepVisits n s = s := by
  cases n with
  | zero => rfl
  | succ n =>
    unfold sweepVisits
    split
    · rfl
    · split_ifs with _ hd
      · exact absurd hd (by simp [h])
      · rfl
      · rfl

/-- The visits go on with the one that is due. -/
theorem sweepVisits_of_due (h : visitDue s i = true) (n : Nat) :
    sweepVisits (n + 1) s = sweepVisits n (sweepVisit i s) := by
  obtain ⟨pass, hp, hn, -⟩ := visitDue_iff.mp h
  have lt : pass.nextRecord < 8192 := hn ▸ i.isLt
  have next : (⟨pass.nextRecord, lt⟩ : FlowId) = i := Fin.ext hn
  rw [sweepVisits, hp]
  simp only [lt, next, h, dite_true, if_true]

/-- No more than `n` records are left for the pass to visit. -/
def State.visitsWithin (s : State) (n : Nat) : Prop := ∀ pass, s.ft.sweep = some pass → 8192 ≤ pass.nextRecord + n

theorem visitsWithin_all (s : State) : s.visitsWithin 8192 := fun _ _ => Nat.le_add_left _ _

theorem not_visitDue_of_visited (h : s.visitsWithin 0) (i : FlowId) : visitDue s i = false := by
  rw [Bool.eq_false_iff, ne_eq, visitDue_iff]
  rintro ⟨pass, hp, hn, -⟩
  have := h pass hp
  have := i.isLt
  omega

theorem sweepVisit_visitsWithin {n : Nat} (h : s.visitsWithin (n + 1)) (hd : visitDue s i = true) :
    (sweepVisit i s).visitsWithin n := by
  obtain ⟨pass, hp, hn, -⟩ := visitDue_iff.mp hd
  intro pass' hp'
  rw [sweepVisit_sweep hd, hp] at hp'
  obtain rfl := Option.some.inj hp'
  have := h pass hp
  dsimp only
  omega

/-- With fuel for every record that is left, no visit is due any more. -/
theorem sweepVisits_complete {n : Nat} (h : s.visitsWithin n) (i : FlowId) :
    visitDue (sweepVisits n s) i = false := by
  induction n generalizing s with
  | zero => exact not_visitDue_of_visited h i
  | succ n ih =>
    by_cases hd : ∃ j, visitDue s j = true
    · obtain ⟨j, hj⟩ := hd
      rw [sweepVisits_of_due hj]
      exact ih (sweepVisit_visitsWithin h hj)
    · have none_due : ∀ j, visitDue s j = false := fun j => Bool.eq_false_iff.mpr fun hj => hd ⟨j, hj⟩
      rw [sweepVisits_of_none_due none_due]
      exact none_due i

/-- More fuel than the records that are left changes nothing. -/
theorem sweepVisits_succ {n : Nat} (h : s.visitsWithin n) : sweepVisits (n + 1) s = sweepVisits n s := by
  induction n generalizing s with
  | zero => exact sweepVisits_of_none_due (not_visitDue_of_visited h) 1
  | succ n ih =>
    by_cases hd : ∃ j, visitDue s j = true
    · obtain ⟨j, hj⟩ := hd
      rw [sweepVisits_of_due hj, sweepVisits_of_due hj]
      exact ih (sweepVisit_visitsWithin h hj)
    · have none_due : ∀ j, visitDue s j = false := fun j => Bool.eq_false_iff.mpr fun hj => hd ⟨j, hj⟩
      rw [sweepVisits_of_none_due none_due, sweepVisits_of_none_due none_due]

/-- Two states whose passes, if any, began at the same tick with the same period, at the same time. -/
structure SamePass (s t : State) : Prop where
  time : t.time = s.time
  pass : t.ft.sweep.map (fun p => (p.start, p.period)) = s.ft.sweep.map (fun p => (p.start, p.period))

theorem SamePass.refl (s : State) : SamePass s s := ⟨rfl, rfl⟩

theorem SamePass.trans {s t u : State} (h : SamePass s t) (h' : SamePass t u) : SamePass s u :=
  ⟨h'.time.trans h.time, h'.pass.trans h.pass⟩

theorem SamePass.passEndDue (h : SamePass s t) : passEndDue t = passEndDue s := by
  have now : t.now = s.now := congrArg TimeBase.tick h.time
  have pass := h.pass
  simp only [Machine.passEndDue, now]
  cases ht : t.ft.sweep <;> cases hs : s.ft.sweep
  · rfl
  · simp [ht, hs] at pass
  · simp [ht, hs] at pass
  · rw [ht, hs] at pass
    simp only [Option.map_some, Option.some.injEq, Prod.mk.injEq] at pass
    simp only [pass]

theorem samePass_sweepVisit (i : FlowId) (s : State) : SamePass s (sweepVisit i s) := by
  refine ⟨sweepVisit_time i s, ?_⟩
  cases h : visitDue s i with
  | true =>
    rw [sweepVisit_sweep h]
    cases s.ft.sweep <;> rfl
  | false => rw [sweepVisit_of_not_due h]

theorem samePass_sweepVisits (n : Nat) (s : State) : SamePass s (sweepVisits n s) :=
  sweepVisits_keeps (P := SamePass s) (fun i _ h => h.trans (samePass_sweepVisit i _)) n (.refl s)

theorem sweepPassEnd_time (s : State) : (sweepPassEnd s).time = s.time := by
  unfold sweepPassEnd
  split_ifs <;> rfl

theorem sweepRest_complete (s : State) (i : FlowId) : visitDue (sweepRest s) i = false :=
  sweepVisits_complete (visitsWithin_all _) i

/-- Where nothing of the sweep falls on the tick, nothing of it is to come. -/
theorem sweepRest_of_settled (hv : ∀ i, visitDue s i = false) (hp : passEndDue s = false) : sweepRest s = s := by
  rw [sweepRest, sweepVisits_of_none_due hv, sweepPassEnd, if_neg (by simp [hp]), sweepVisits_of_none_due hv]

end

end Sys2Proof.Machine

namespace Sys2Proof.Machine

/-! ### One visit of the sweep (R68, R72, R88, R104) -/

section
variable {s : State} {i : FlowId}

theorem leave_of_no_group (h : (s.flow i).group = none) : leave i s = s := by
  unfold leave
  rw [h]

theorem freeRecord_eq (i : FlowId) (s : State) :
    freeRecord i s = (leave i s).setFlow i (freeFlow (s.flow i).lastSeen) :=
  congrArg (fun stamp => (leave i s).setFlow i (freeFlow stamp))
    (congrArg FlowRecord.lastSeen (leave_standing i i) :)

theorem isIdle_iff : isIdle s i = true ↔
    (s.flow i).state ≠ .free ∧ s.ft.idleTime ≤ (s.time.tick - (s.flow i).lastSeen).toNat := by
  simp only [isIdle, Bool.and_eq_true, decide_eq_true_eq]
  rfl

/-- A visit frees a silent handshake, takes an idle member out, and leaves every other record (R72). -/
theorem visitRecord_eq (i : FlowId) (s : State) : visitRecord i s =
    if s.ft.handshakeTime ≤ (s.time.tick - (s.flow i).lastSeen).toNat ∧ (s.flow i).state = .handshake then
      (leave i s).setFlow i (freeFlow (s.flow i).lastSeen)
    else if s.ft.idleTime ≤ (s.time.tick - (s.flow i).lastSeen).toNat
        ∧ ((s.flow i).state = .opened ∨ (s.flow i).state = .closing) then leave i s
    else s := by
  have idle : isIdle s i = true ↔ _ := isIdle_iff
  have freed := freeRecord_eq i s
  unfold visitRecord
  cases hs : (s.flow i).state with
  | free => simp
  | handshake => simp [elapsed, freed]
  | opened => simp [idle, hs]
  | closing => simp [idle, hs]

theorem drainEnd_of_episode (h : s.mode = .draining → s.anyEpisode = true) : drainEnd s = s := by
  unfold drainEnd
  rw [if_neg]
  rintro ⟨hm, he⟩
  rw [h hm] at he
  cases he

@[simp] theorem drainEnd_flow (s : State) (i : FlowId) : (drainEnd s).flow i = s.flow i := by
  rw [State.flow, State.flow, drainEnd_ft]

theorem passVisited_flow (i j : FlowId) (s : State) : (passVisited i s).flow j = s.flow j := rfl

theorem sweepVisit_flow (h : visitDue s i = true) (j : FlowId) :
    (sweepVisit i s).flow j = (visitRecord i s).flow j := by
  rw [sweepVisit_of_due h, drainEnd_flow, passVisited_flow]

/-- What a visit makes of its own record (R72). -/
theorem visitRecord_flow_self (i : FlowId) (s : State) : (visitRecord i s).flow i =
    match (s.flow i).state with
    | .free => s.flow i
    | .handshake =>
      if s.ft.handshakeTime ≤ (s.time.tick - (s.flow i).lastSeen).toNat then freeFlow (s.flow i).lastSeen
      else s.flow i
    | .opened | .closing =>
      if s.ft.idleTime ≤ (s.time.tick - (s.flow i).lastSeen).toNat ∧ (s.flow i).group ≠ none then
        { s.flow i with group := none, prev := none, next := none }
      else s.flow i := by
  have left : (leave i s).flow i = if (s.flow i).group = none then s.flow i else _ := leave_flow_self i
  rw [visitRecord_eq]
  generalize (s.time.tick - (s.flow i).lastSeen).toNat = age
  cases (s.flow i).state with
  | free => simp
  | handshake => by_cases h : s.ft.handshakeTime ≤ age <;> simp [h]
  | opened | closing =>
    by_cases h : s.ft.idleTime ≤ age
    · by_cases hg : (s.flow i).group = none <;> simp [h, hg, left]
    · simp [h]

/-- What a visit makes of every other record: at most its links (R88). -/
theorem visitRecord_flow_ne {j : FlowId} (hj : j ≠ i) :
    { (visitRecord i s).flow j with prev := none, next := none } = { s.flow j with prev := none, next := none } := by
  rw [visitRecord_eq]
  split_ifs
  · rw [State.setFlow_flow, if_neg hj]
    exact leave_flow i j hj
  · exact leave_flow i j hj
  · rfl

/-- A visit after which the record has not left, or that finds no group, moves no table, log, counter or flag. -/
theorem visitRecord_rest (h : ¬ (s.ft.handshakeTime ≤ (s.time.tick - (s.flow i).lastSeen).toNat
      ∧ (s.flow i).state = .handshake
    ∨ s.ft.idleTime ≤ (s.time.tick - (s.flow i).lastSeen).toNat
      ∧ ((s.flow i).state = .opened ∨ (s.flow i).state = .closing)) ∨ (s.flow i).group = none) :
    (visitRecord i s).gc = s.gc ∧ (visitRecord i s).log = s.log ∧ (visitRecord i s).counters = s.counters
    ∧ (visitRecord i s).alerts = s.alerts ∧ (visitRecord i s).mode = s.mode := by
  rw [visitRecord_eq]
  obtain h | h := h
  · obtain ⟨silent, idle⟩ := not_or.mp h
    rw [if_neg silent, if_neg idle]
    exact ⟨rfl, rfl, rfl, rfl, rfl⟩
  · rw [leave_of_no_group h]
    split_ifs <;> exact ⟨rfl, rfl, rfl, rfl, rfl⟩

theorem passVisited_eq {pass : SweepPass} (hp : s.ft.sweep = some pass) (i : FlowId) : passVisited i s =
    { s with ft := { s.ft with sweep := some { pass with nextRecord := i.val + 1 } } } := by
  rw [passVisited, hp]
  rfl

theorem anyEpisode_of_gc {s t : State} (h : t.gc = s.gc) : t.anyEpisode = s.anyEpisode := by
  simp only [State.anyEpisode, State.group, h]

end

/-- Settles O56: a visit at its tick is `visitRecord`, then the pass moves on and a drain may end. -/
theorem sweepVisitsEachRecord : Obligations.SweepVisitsEachRecord := by
  refine ⟨fun s i running => ⟨fun pass hp hn he => ⟨sweepVisit i s, ?_⟩, fun h => ?_⟩, fun s running =>
    ⟨fun pass hp he => ?_, fun h => ?_⟩⟩
  · have due : visitDue s i = true := visitDue_iff.mpr ⟨pass, hp, hn, he⟩
    have frame := visitRecord_flowFrame i s
    have sweep : (visitRecord i s).ft.sweep = some pass := (flowFrame_sweep frame).trans hp
    have whole := sweepVisit_of_due due
    refine ⟨congrArg Host.Outcome.next (whenRunning_released running _), ?_, ?_, fun j hj => ?_, ?_, ?_,
      sweepVisit_time i s, sweepVisit_port i s, ?_, fun h drains => ?_⟩
    · rw [sweepVisit_sweep due, hp]
      rfl
    · rw [sweepVisit_flow due]
      exact visitRecord_flow_self i s
    · rw [sweepVisit_flow due]
      exact visitRecord_flow_ne hj
    · rw [whole, drainEnd_depths]
      exact (flowFrame_depths frame :)
    · exact (dataFrame_link (sweepVisit_dataFrame due)).trans rfl
    · rw [whole, passVisited_eq sweep, visitRecord_eq]
    · obtain ⟨gc, log, counters, alerts, mode⟩ := visitRecord_rest h
      have kept : sweepVisit i s = passVisited i (visitRecord i s) := by
        rw [whole, drainEnd_of_episode]
        intro hm
        exact (anyEpisode_of_gc (t := passVisited i (visitRecord i s)) gc).trans (drains (mode.symm.trans hm))
      rw [kept]
      exact ⟨gc, log, counters, alerts, mode⟩
  · have not_due : visitDue s i = false := by
      rw [Bool.eq_false_iff, ne_eq, visitDue_iff]
      rintro ⟨pass, hp, hn, he⟩
      exact h pass hp hn he
    refine congrArg Host.Outcome.next ?_
    rw [whenRunning_released running, sweepVisit_of_not_due not_due]
  · refine congrArg Host.Outcome.next ?_
    rw [whenRunning_released running, sweepPassEnd, if_pos (passEndDue_iff.mpr ⟨pass, hp, he⟩)]
    rfl
  · refine congrArg Host.Outcome.next ?_
    rw [whenRunning_released running, sweepPassEnd, if_neg]
    rw [passEndDue_iff]
    rintro ⟨pass, hp, he⟩
    exact h pass hp he

end Sys2Proof.Machine

namespace Sys2Proof.Machine

/-! ### What expiries, the walk and the clears leave of the time base (R138, R141) -/

section
variable {s t : State} {e : TimedEvent}

/-- An expiry touches what the data path touches. -/
@[simp] theorem timedEffect_dataFrame (e : TimedEvent) (s : State) : (timedEffect e s).dataFrame = s.dataFrame := by
  cases e with
  | quiet q => exact quietExpiry_dataFrame q s
  | linger g =>
    change (lingerExpiry g s).dataFrame = s.dataFrame
    unfold lingerExpiry
    split_ifs <;> rfl
  | hold g =>
    change (holdExpiry g s).dataFrame = s.dataFrame
    unfold holdExpiry
    split_ifs
    · exact (drainEnd_dataFrame _).trans (dataFrame_of_groupFrame (enterRamp_groupFrame g s))
    · rfl
  | entry g =>
    change (entryExpiry g s).dataFrame = s.dataFrame
    unfold entryExpiry
    split_ifs
    · exact (drainEnd_dataFrame _).trans (dataFrame_of_groupFrame (advanceEntry_groupFrame g s))
    · rfl
  | holdEnd g =>
    change (holdEnd g s).dataFrame = s.dataFrame
    unfold holdEnd
    split_ifs
    · exact (drainEnd_dataFrame _).trans (dataFrame_of_groupFrame (sequenceEnd_groupFrame g s))
    · rfl

/-- An expiry touches, with what falls on the tick, what the data path touches. -/
theorem takeTimed_dataFrame (e : TimedEvent) (s : State) : (takeTimed e s).dataFrame = (s.dropDue e).dataFrame := by
  by_cases h : e ∈ s.time.due
  · rw [takeTimed, if_pos h, timedEffect_dataFrame]
  · rw [takeTimed, if_neg h, dropDue_of_not_mem s e h]

theorem takeTimed_time (e : TimedEvent) (s : State) : (takeTimed e s).time = (s.dropDue e).time :=
  dataFrame_time (takeTimed_dataFrame e s)

theorem takeTimed_of_not_due (h : e ∉ s.time.due) : takeTimed e s = s := if_neg h

theorem freeRecord_time (i : FlowId) (s : State) : (freeRecord i s).time = s.time :=
  dataFrame_time (dataFrame_of_flowFrame (freeRecord_flowFrame i s))

theorem walkPast_time (i : FlowId) (s : State) : (walkPast i s).time = s.time := by
  unfold walkPast
  split_ifs <;> rfl

theorem walkPast_running (i : FlowId) (s : State) : (walkPast i s).running = s.running := by
  unfold walkPast
  split_ifs <;> rfl

/-- A step of the walk (R76). -/
theorem walkStep_of_walk {i : FlowId} (hc : s.port.command = some (.walk i))
    (room : s.time.refclkCount < s.time.prescaler) :
    walkStep s = walkPast i (freeRecord i (refclkPeriod s)) := by
  rw [walkStep, hc]
  exact if_pos room

theorem walkStep_of_no_room (h : s.time.prescaler ≤ s.time.refclkCount) : walkStep s = s := by
  unfold walkStep
  split
  · exact if_neg (by omega)
  · rfl

/-- A step of the walk takes one REFCLK period. -/
theorem walkStep_time {i : FlowId} (hc : s.port.command = some (.walk i))
    (room : s.time.refclkCount < s.time.prescaler) : (walkStep s).time = (refclkPeriod s).time := by
  rw [walkStep_of_walk hc room, walkPast_time, freeRecord_time]

theorem walkStep_due (s : State) : (walkStep s).time.due = s.time.due := by
  by_cases h : ∃ i, s.port.command = some (.walk i)
  · obtain ⟨i, hc⟩ := h
    by_cases room : s.time.refclkCount < s.time.prescaler
    · rw [walkStep_time hc room]
      rfl
    · rw [walkStep_of_no_room (by omega)]
  · rw [walkStep_not_due fun i hi => h ⟨i, hi⟩]

theorem walkStep_now (s : State) : (walkStep s).now = s.now := by
  by_cases h : ∃ i, s.port.command = some (.walk i)
  · obtain ⟨i, hc⟩ := h
    by_cases room : s.time.refclkCount < s.time.prescaler
    · rw [State.now, walkStep_time hc room]
      rfl
    · rw [walkStep_of_no_room (by omega)]
  · rw [walkStep_not_due fun i hi => h ⟨i, hi⟩]

theorem walkStep_sweep (s : State) : (walkStep s).ft.sweep = s.ft.sweep := by
  unfold walkStep
  split
  · rename_i i _
    split_ifs
    · rw [walkPast_ft]
      exact (flowFrame_sweep (freeRecord_flowFrame i (refclkPeriod s))).trans rfl
    · rfl
  · rfl

theorem walkStep_running (s : State) : (walkStep s).running = s.running := by
  unfold walkStep
  split
  · rename_i i _
    split_ifs
    · rw [walkPast_running]
      exact (flowFrame_running (freeRecord_flowFrame i (refclkPeriod s))).trans rfl
    · rfl
  · rfl

theorem finishClears_time (s : State) : (finishClears s).time = s.time := by
  unfold finishClears
  split <;> rfl

theorem queueTableClear_time (s : State) : (queueTableClear s).time = s.time := by
  unfold queueTableClear
  split
  · exact finishClears_time _
  · rfl

theorem flowGroupClear_time (s : State) : (flowGroupClear s).time = s.time := by
  unfold flowGroupClear
  split
  · exact finishClears_time _
  · rfl

theorem drain_time (s : State) : (drain s).time = s.time := by
  have drained := groupFrame_time (forGroups_groupFrame (s := { s with mode := .draining }) drainOn drainOn_groupFrame)
  exact (dataFrame_time (drainEnd_dataFrame _)).trans drained

theorem releaseAll_time (s : State) : (releaseAll s).time = s.time := by
  have released := groupFrame_time (forGroups_groupFrame (s := s) releaseOn releaseOn_groupFrame)
  unfold releaseAll
  generalize forGroups s releaseOn = u at released ⊢
  exact released

/-! ### Only TICK makes an expiry fall (R141) -/

/-- No more expiries are still to come than those of `due`, in its order. -/
def State.dueWithin (due : List TimedEvent) (s : State) : Prop := s.time.due.Sublist due

theorem dueWithin_of_time {due : List TimedEvent} (h : s.dueWithin due) (ht : t.time = s.time) : t.dueWithin due := by
  rw [State.dueWithin, ht]
  exact h

theorem dueWithin_law (due : List TimedEvent) : CommandLaw (State.dueWithin due) where
  congr {s t} h same := by
    rw [State.dueWithin, same.due]
    exact h
  nextStage h x := dueWithin_of_time h (dataFrame_time (nextStage_dataFrame x _))
  takeTimed {s} h e := by
    rw [State.dueWithin, takeTimed_time]
    exact List.filter_sublist.trans h
  sweepVisit h i := dueWithin_of_time h (sweepVisit_time i _)
  sweepPassEnd h := dueWithin_of_time h (sweepPassEnd_time _)
  walkStep {s} h := by
    rw [State.dueWithin, walkStep_due]
    exact h
  drainEnd h := dueWithin_of_time h (dataFrame_time (drainEnd_dataFrame _))
  queueTableClear h := dueWithin_of_time h (queueTableClear_time _)
  flowGroupClear h := dueWithin_of_time h (flowGroupClear_time _)
  reset _ := List.nil_sublist due
  observe h _ _ := h
  enforce h _ _ := h
  drain h _ _ := dueWithin_of_time h (drain_time _)
  releaseAll h _ _ := dueWithin_of_time h (releaseAll_time _)
  clears h _ _ := h
  walk h _ _ := h
  setTimers h _ _ _ := h

theorem step_dueWithin (hp : s.pending.head? ≠ some .tick) (h : step s = .next t) :
    t.time.due.Sublist s.time.due := by
  obtain ⟨-, rfl⟩ | ⟨c, rest, hc, he⟩ := step_eq h
  · exact List.Sublist.refl _
  · refine (dueWithin_law s.time.due).exec_law (s := { s with pending := rest }) (List.Sublist.refl _) ?_ he
    rintro rfl
    rw [hc] at hp
    exact absurd rfl hp

/-! ### What is still to come is made before the tick (R71, R76, R141) -/

theorem timedRest_of_none_due (h : s.time.due = []) : timedRest s = s := by
  rw [timedRest, h]
  rfl

/-- An expiry that does not fall on the tick may be left out of those to take. -/
theorem foldl_takeTimed_filter (l : List TimedEvent) (h : e ∉ s.time.due) :
    l.foldl (fun s e => takeTimed e s) s
      = (l.filter (fun e' => decide (e' ≠ e))).foldl (fun s e => takeTimed e s) s := by
  induction l generalizing s with
  | nil => rfl
  | cons x l ih =>
    by_cases hx : x = e
    · subst hx
      rw [List.foldl_cons, takeTimed_of_not_due h, List.filter_cons_of_neg (by simp)]
      exact ih h
    · rw [List.filter_cons_of_pos (by simpa using hx), List.foldl_cons, List.foldl_cons]
      refine ih ?_
      rw [takeTimed_time]
      exact fun he => h (List.mem_of_mem_filter he)

/-- The oldest expiry still to come may be taken by its command or by the tick. -/
theorem timedRest_takeTimed {rest : List TimedEvent} (h : s.time.due = e :: rest) :
    timedRest (takeTimed e s) = timedRest s := by
  have due : (takeTimed e s).time.due = rest.filter (fun e' => decide (e' ≠ e)) := by
    rw [takeTimed_time]
    change s.time.due.filter _ = _
    rw [h, List.filter_cons_of_neg (by simp)]
  have gone : e ∉ (takeTimed e s).time.due := by
    rw [due]
    simp
  rw [timedRest, timedRest, h, List.foldl_cons, due, foldl_takeTimed_filter rest gone]

theorem sweepRest_sweepVisit {i : FlowId} (h : visitDue s i = true) : sweepRest (sweepVisit i s) = sweepRest s := by
  have within : (sweepVisit i s).visitsWithin 8191 := sweepVisit_visitsWithin (visitsWithin_all s) h
  rw [sweepRest, sweepRest, sweepVisits_succ within, sweepVisits_of_due (n := 8191) h]

/-- When a pass that is on time ends, it has visited every record. -/
theorem not_visitDue_at_passEnd (ontime : s.sweepOnTime) (h : passEndDue s = true) (i : FlowId) :
    visitDue s i = false := by
  obtain ⟨pass, hp, he⟩ := passEndDue_iff.mp h
  obtain ⟨⟨low, -⟩, -, -, early, -⟩ := ontime.2 pass hp
  rw [Bool.eq_false_iff, ne_eq, visitDue_iff]
  rintro ⟨pass', hp', hn, -⟩
  obtain rfl := Option.some.inj (hp.symm.trans hp')
  have lt : pass.nextRecord < 8192 := hn ▸ i.isLt
  have late := early lt
  rw [he, Nat.le_div_iff_mul_le (by norm_num)] at late
  have : pass.nextRecord * pass.period < 8192 * pass.period := Nat.mul_lt_mul_of_pos_right lt (by omega)
  omega

theorem sweepPassEnd_of_due (h : passEndDue s = true) : sweepPassEnd s = beginPass s := if_pos h

theorem sweepPassEnd_of_not_due (h : passEndDue s = false) : sweepPassEnd s = s := if_neg (by simp [h])

/-- A pass does not end at the tick at which it begins. -/
theorem not_passEndDue_beginPass (h : 1024 ≤ s.ft.sweepPeriod) : passEndDue (beginPass s) = false := by
  rw [Bool.eq_false_iff, ne_eq, passEndDue_iff]
  rintro ⟨pass, hp, he⟩
  obtain rfl := Option.some.inj hp
  have : (s.time.tick - s.time.tick).toNat = s.ft.sweepPeriod := he
  rw [BitVec.sub_self] at this
  exact absurd (this.symm.trans rfl : s.ft.sweepPeriod = 0) (by omega)

theorem sweepRest_beginPass (ontime : s.sweepOnTime) (h : passEndDue s = true) :
    sweepRest (beginPass s) = sweepRest s := by
  have begun := sweepPassEnd_of_due h
  have visited := sweepVisits_complete (visitsWithin_all (beginPass s))
  have running : passEndDue (sweepVisits 8192 (beginPass s)) = false :=
    (samePass_sweepVisits 8192 _).passEndDue.trans (not_passEndDue_beginPass ontime.1.1)
  rw [sweepRest, sweepRest, sweepVisits_of_none_due (not_visitDue_at_passEnd ontime h), begun,
    sweepPassEnd_of_not_due running, sweepVisits_of_none_due visited]

theorem sweepRest_of_tickSettled (h : s.tickSettled) : sweepRest s = s :=
  sweepRest_of_settled (fun i => Bool.eq_false_iff.mpr fun hd => h.2.1 i (visitDue_iff.mp hd))
    (Bool.eq_false_iff.mpr fun hd => h.2.2 (passEndDue_iff.mp hd))

theorem finishTick_of_tickSettled (h : s.tickSettled) : finishTick s = walkRest (missingPeriods s) s := by
  rw [finishTick, timedRest_of_none_due h.1, sweepRest_of_tickSettled h]

theorem walkRest_of_still (h : ¬ s.walkMoves) : walkRest (missingPeriods s) s = s := by
  by_cases room : s.time.refclkCount < s.time.prescaler
  · have no_walk : ∀ i, s.port.command ≠ some (.walk i) := fun i hi => h ⟨⟨i, hi⟩, room⟩
    cases missingPeriods s with
    | zero => rfl
    | succ n =>
      unfold walkRest
      split
      · exact absurd ‹_› (no_walk _)
      · rfl
  · rw [missingPeriods, Nat.sub_eq_zero_of_le (by omega)]
    rfl

/-- A step of the walk moves nothing that is settled. -/
theorem walkStep_tickSettled (h : s.tickSettled) : (walkStep s).tickSettled := by
  obtain ⟨due, visits, ends⟩ := h
  refine ⟨(walkStep_due s).trans due, fun i hi => visits i ?_, fun he => ends ?_⟩
  · rw [← visitDue_iff, visitDue_congr (walkStep_sweep s) (walkStep_now s), visitDue_iff] at hi
    exact hi
  · rw [← passEndDue_iff, passEndDue_congr (walkStep_sweep s) (walkStep_now s), passEndDue_iff] at he
    exact he

theorem walkRest_walkStep (h : s.walkMoves) :
    walkRest (missingPeriods (walkStep s)) (walkStep s) = walkRest (missingPeriods s) s := by
  obtain ⟨⟨i, hc⟩, room⟩ := h
  have missing : missingPeriods s = missingPeriods (walkStep s) + 1 := by
    have : missingPeriods (walkStep s) = s.time.prescaler - (s.time.refclkCount + 1) := by
      rw [missingPeriods, walkStep_time hc room]
      rfl
    rw [this, missingPeriods]
    omega
  rw [missing, walkRest, hc]

theorem finishTick_walkStep (h : s.tickSettled) (hw : s.walkMoves) : finishTick (walkStep s) = finishTick s := by
  rw [finishTick_of_tickSettled h, finishTick_of_tickSettled (walkStep_tickSettled h), walkRest_walkStep hw]

/-! ### The tick itself (R138, R141) -/

theorem mem_allTimed (e : TimedEvent) : e ∈ allTimed := by
  simp only [allTimed, List.mem_append, List.mem_map, List.mem_flatMap, List.mem_finRange, true_and]
  cases e with
  | quiet q => exact .inl ⟨q, rfl⟩
  | linger g | hold g | entry g | holdEnd g => exact .inr ⟨g, by simp⟩

/-- An expiry falls on the new tick exactly when its condition holds there. -/
theorem mem_due_advanced (s : State) (e : TimedEvent) :
    e ∈ allTimed.filter (timedHolds (advanceTick s)) ↔ s.expires (s.time.tick + 1) e := by
  rw [List.mem_filter, and_iff_right (mem_allTimed e), timedHolds_iff]
  cases e <;> exact Iff.rfl

theorem exec_tick (h : s.running = true) : exec .tick s = .next (fallDue (advanceTick (finishTick s))) :=
  congrArg Host.Outcome.next (whenRunning_released h _)

theorem exec_tick_congr (hs : s.running = true) (ht : t.running = true) (h : finishTick t = finishTick s) :
    exec .tick s = exec .tick t := by
  rw [exec_tick hs, exec_tick ht, h]

theorem exec_expiry (h : s.running = true) (e : TimedEvent) :
    exec (expiryCommand e) s = .next (takeTimed e s) := by
  cases e <;> exact congrArg Host.Outcome.next (whenRunning_released h _)

theorem takeTimed_running (e : TimedEvent) (s : State) : (takeTimed e s).running = s.running :=
  (dataFrame_running (takeTimed_dataFrame e s)).trans rfl

theorem sweepVisit_running (i : FlowId) (s : State) : (sweepVisit i s).running = s.running := by
  cases h : visitDue s i with
  | true => exact (dataFrame_running (sweepVisit_dataFrame h)).trans rfl
  | false => rw [sweepVisit_of_not_due h]

end

/-- Settles O54: TICK is what is still to come, then the count; only it makes expiries fall. -/
theorem tickAndLingerExpiry : Obligations.TickAndLingerExpiry := by
  refine ⟨fun s running settled still => ?_, fun s u running => ⟨fun e rest hd hu => ?_, fun i hd hv hu => ?_,
    fun hd ontime hp hu => ?_, fun settled moves hu => ?_⟩, fun s e running h => ?_, fun s e => ?_,
    fun s t hp h => step_dueWithin hp h, fun s g running hd he => ?_⟩
  · refine ⟨allTimed.filter (timedHolds (advanceTick s)), s.time.refclk + missingPeriods s, mem_due_advanced s,
      fun within => ?_, ?_⟩
    · rw [missingPeriods]
      omega
    · rw [exec_tick running, finishTick_of_tickSettled settled, walkRest_of_still still]
      rfl
  · rw [exec_expiry running e] at hu
    obtain rfl := Host.Outcome.next.inj hu
    refine exec_tick_congr running ((takeTimed_running e s).trans running) ?_
    rw [finishTick, finishTick, timedRest_takeTimed hd]
  · have hu : Host.Outcome.next (whenRunning s (sweepVisit i)) = .next u := hu
    rw [whenRunning_released running] at hu
    obtain rfl := Host.Outcome.next.inj hu
    have hd' : (sweepVisit i s).time.due = [] := by rw [sweepVisit_time, hd]
    refine exec_tick_congr running ((sweepVisit_running i s).trans running) ?_
    rw [finishTick, finishTick, timedRest_of_none_due hd, timedRest_of_none_due hd',
      sweepRest_sweepVisit (visitDue_iff.mpr hv)]
  · have ended := passEndDue_iff.mpr hp
    have hu : Host.Outcome.next (whenRunning s sweepPassEnd) = .next u := hu
    rw [whenRunning_released running, sweepPassEnd_of_due ended] at hu
    obtain rfl := Host.Outcome.next.inj hu
    refine exec_tick_congr running running ?_
    rw [finishTick, finishTick, timedRest_of_none_due hd, timedRest_of_none_due (s := beginPass s) hd,
      sweepRest_beginPass ontime ended]
  · have hu : Host.Outcome.next (whenRunning s walkStep) = .next u := hu
    rw [whenRunning_released running] at hu
    obtain rfl := Host.Outcome.next.inj hu
    exact exec_tick_congr running ((walkStep_running s).trans running) (finishTick_walkStep settled moves)
  · rw [exec_expiry running, (takeTimed_spec e s).2]
    exact h.imp_right fun hn => Bool.eq_false_iff.mpr fun ht => hn ((timedHolds_iff s e).mp ht)
  · exact ⟨s.time.due.filter (fun e' => decide (e' ≠ e)), fun e' => mem_dropDue s e e', rfl⟩
  · refine ⟨tableSet freeGroup s.gc.groups g freeGroup, fun h => tableGet_set _ _ _ _ _, ?_⟩
    have holds : timedHolds s (.linger g) = true := (timedHolds_iff s _).mpr he
    refine (exec_expiry running (.linger g)).trans (congrArg Host.Outcome.next ?_)
    rw [(takeTimed_spec (.linger g) s).1 hd holds]
    exact if_pos ((timedHolds_dropDue s (.linger g) (.linger g)).trans holds)

end Sys2Proof.Machine

namespace Sys2Proof.Machine

/-! ### Groups in DRAINING (R103, R104, 5.6) -/

/-- A state that a group may have in DRAINING. -/
def GroupState.drains (state : GroupState) : Prop := state ≠ .active ∧ state ≠ .settle

theorem drains_watch : GroupState.watch.drains := ⟨by decide, by decide⟩

theorem drains_ramp : GroupState.ramp.drains := ⟨by decide, by decide⟩

theorem drains_free : GroupState.free.drains := ⟨by decide, by decide⟩

/-- The mode stands, and a group whose state changes comes to one that it may have in DRAINING. -/
structure DrainStep (s t : State) : Prop where
  mode : t.mode = s.mode
  group : ∀ h, (t.group h).state = (s.group h).state ∨ (t.group h).state.drains

section
variable {s t : State} {g : GroupId}

theorem DrainStep.refl (s : State) : DrainStep s s := ⟨rfl, fun _ => .inl rfl⟩

theorem DrainStep.trans {u : State} (h : DrainStep s t) (h' : DrainStep t u) : DrainStep s u := by
  refine ⟨h'.mode.trans h.mode, fun g => ?_⟩
  obtain same | drains := h'.group g
  · obtain same' | drains := h.group g
    · exact .inl (same.trans same')
    · exact .inr (same ▸ drains)
  · exact .inr drains

theorem DrainStep.of_gc (mode : t.mode = s.mode) (gc : t.gc = s.gc) : DrainStep s t :=
  ⟨mode, fun h => .inl (by rw [State.group, State.group, gc])⟩

/-- One group is written. -/
theorem DrainStep.of_group {r : GroupRecord} (mode : t.mode = s.mode)
    (group : ∀ h, t.group h = if h = g then r else s.group h)
    (hr : r.state = (s.group g).state ∨ r.state.drains) : DrainStep s t := by
  refine ⟨mode, fun h => ?_⟩
  rw [group h]
  split_ifs with hg
  · rw [hg]
    exact hr
  · exact .inl rfl

theorem drainStep_setGroup {r : GroupRecord} (hr : r.state = (s.group g).state ∨ r.state.drains) :
    DrainStep s (s.setGroup g r) := .of_group rfl (fun h => s.setGroup_group g h r) hr

theorem drainStep_setFlow (s : State) (i : FlowId) (r : FlowRecord) : DrainStep s (s.setFlow i r) := .of_gc rfl rfl

theorem drainStep_bump (s : State) (c : CounterId) : DrainStep s (s.bump c) := .of_gc rfl rfl

theorem drainStep_offerFor (g : GroupId) (k : LogKind) (c : LogCause) (b : Bool) (s : State) :
    DrainStep s (offerFor g k c b s) := .of_gc (groupFrame_mode (offerFor_groupFrame g k c b s)) (offerFor_gc s g k c b)

/-! Episodes in DRAINING: none opens, and one that ends leaves its group in WATCH. -/

theorem testOnset_draining (hm : s.mode = .draining) (g : GroupId) : testOnset g s = s := by
  unfold testOnset
  rw [if_neg]
  rw [onsetHolds_iff]
  rintro ⟨-, -, -, -, -, -, hmode | hmode⟩ <;> rw [hm] at hmode <;> cases hmode

theorem endEpisode_drainStep (g : GroupId) (c : LogCause) (s : State) : DrainStep s (endEpisode g c s) :=
  .of_group (groupFrame_mode (endEpisode_groupFrame g c s)) (fun h => endEpisode_group s g h c) (.inr drains_watch)

theorem sequenceEnd_draining (hm : s.mode = .draining) (g : GroupId) :
    sequenceEnd g s = endEpisode g .sequence s :=
  testOnset_draining ((groupFrame_mode (endEpisode_groupFrame g .sequence s)).trans hm) g

theorem reachEnd_draining (hm : s.mode = .draining) (g : GroupId) : reachEnd g s = endEpisode g .sequence s :=
  (if_pos (.inr hm)).trans (sequenceEnd_draining hm g)

theorem advanceEntry_drainStep (hm : s.mode = .draining) (g : GroupId) : DrainStep s (advanceEntry g s) := by
  unfold advanceEntry
  dsimp only
  split_ifs
  · exact drainStep_setGroup (.inl rfl)
  · rw [reachEnd_draining hm]
    exact endEpisode_drainStep g .sequence s

theorem enterRamp_drainStep (hm : s.mode = .draining) (g : GroupId) :
    DrainStep s (enterRamp g s) ∧ ((enterRamp g s).group g).state.drains := by
  let entered := offerFor g .ramp .none false (s.setGroup g
    { s.group g with state := .ramp, deadline := none, rampEntry := some 0, rampStart := some s.now })
  have enters : DrainStep s entered :=
    (drainStep_setGroup (.inr drains_ramp)).trans (drainStep_offerFor g .ramp .none false _)
  have own : (entered.group g).state.drains := by
    simp only [entered, offerFor_group, State.setGroup_group_self]
    exact drains_ramp
  have step : DrainStep entered (testEntry g entered) := by
    unfold testEntry
    split_ifs
    · exact advanceEntry_drainStep (enters.mode.trans hm) g
    · exact .refl entered
  refine ⟨enters.trans step, ?_⟩
  obtain same | drains := step.group g
  · exact same.symm ▸ own
  · exact drains

theorem drainOn_drainStep (hm : s.mode = .draining) (g : GroupId) :
    DrainStep s (drainOn g s) ∧ ((drainOn g s).group g).state.drains := by
  unfold drainOn
  cases hg : (s.group g).state with
  | active | settle => exact enterRamp_drainStep hm g
  | ramp =>
    have own : (s.group g).state.drains := hg ▸ drains_ramp
    dsimp only
    split_ifs
    · rw [sequenceEnd_draining hm]
      refine ⟨endEpisode_drainStep g .sequence s, ?_⟩
      rw [endEpisode_group, if_pos rfl]
      exact drains_watch
    · exact ⟨.refl s, own⟩
  | watch =>
    have own : (s.group g).state.drains := hg ▸ drains_watch
    exact ⟨.refl s, own⟩
  | free =>
    have own : (s.group g).state.drains := hg ▸ drains_free
    exact ⟨.refl s, own⟩

/-- A drain request leaves no group in ACTIVE or SETTLE (R103). -/
theorem drainOn_all (hm : s.mode = .draining) (g : GroupId) : ((forGroups s drainOn).group g).state.drains := by
  have all : ∀ (l : List GroupId) (u : State), u.mode = .draining →
      (∀ h, h ∈ l ∨ (u.group h).state.drains) →
      ∀ h, ((l.foldl (fun u g => drainOn g u) u).group h).state.drains := by
    intro l
    induction l with
    | nil => exact fun u _ hu h => (hu h).resolve_left (by simp)
    | cons g l ih =>
      intro u hm hu
      obtain ⟨step, own⟩ := drainOn_drainStep hm g
      refine ih _ (step.mode.trans hm) fun h => ?_
      obtain hl | drains := hu h
      · obtain rfl | hl := List.mem_cons.mp hl
        · exact .inr own
        · exact .inl hl
      · obtain same | drains' := step.group h
        · exact .inr (same ▸ drains)
        · exact .inr drains'
  exact all _ s hm (fun h => .inl (List.mem_finRange h)) g

/-! Members in DRAINING: a last leave collapses, a join opens nothing. -/

theorem removeMember_drainStep (f : FlowId) (g : GroupId) (s : State) : DrainStep s (removeMember f g s) :=
  .of_group (flowFrame_mode (removeMember_flowFrame f g s)) (removeMember_group s f g) (.inl rfl)

theorem afterRemoval_drainStep (g : GroupId) (s : State) : DrainStep s (afterRemoval g s) := by
  refine ⟨groupFrame_mode (afterRemoval_groupFrame g s), fun h => ?_⟩
  rw [afterRemoval_group]
  split_ifs with _ hw
  · exact .inr drains_watch
  · rw [hw.1]
    exact .inl rfl
  · exact .inl rfl

theorem leave_drainStep (f : FlowId) (s : State) : DrainStep s (leave f s) := by
  unfold leave
  split
  · exact .refl s
  · exact (removeMember_drainStep f _ s).trans (afterRemoval_drainStep _ _)

theorem freeRecord_drainStep (i : FlowId) (s : State) : DrainStep s (freeRecord i s) :=
  (leave_drainStep i s).trans (drainStep_setFlow _ i _)

theorem appendMember_drainStep (f : FlowId) (g : GroupId) (s : State) : DrainStep s (appendMember f g s) :=
  .of_group (flowFrame_mode (appendMember_flowFrame f g s)) (appendMember_group s f g) (.inl rfl)

theorem addTotal_drainStep (g : GroupId) (n : Nat) (s : State) : DrainStep s (addTotal g n s) :=
  ⟨groupFrame_mode (addTotal_groupFrame g n s), fun h => .inl (by rw [addTotal_group])⟩

theorem joinGroup_drainStep (hm : s.mode = .draining) (f : FlowId) (g : GroupId) :
    DrainStep s (joinGroup f g s) := by
  have joined : DrainStep s ((appendMember f g s).bump Counter.joins) :=
    (appendMember_drainStep f g s).trans (drainStep_bump _ _)
  unfold joinGroup
  dsimp only
  split_ifs
  · exact (drainStep_bump s _).trans (drainStep_setGroup (.inl rfl))
  · exact joined.trans (addTotal_drainStep g 1 _)
  · rw [testOnset_draining (joined.mode.trans hm)]
    exact joined
  · exact joined

theorem join_drainStep (hm : s.mode = .draining) (f : FlowId) (side : Side) (key : GroupKey) :
    DrainStep s (join f side key s) := by
  unfold join
  dsimp only
  split
  · exact (drainStep_setFlow s f _).trans (joinGroup_drainStep (by exact hm) f _)
  · split
    · refine (drainStep_setFlow s f _).trans
        ((drainStep_setGroup (.inr ?_)).trans (joinGroup_drainStep (by exact hm) f _))
      exact drains_watch
    · exact .of_gc rfl rfl

theorem joinRequest_drainStep (hm : s.mode = .draining) (f : FlowId) (side : Side) (key : GroupKey) :
    DrainStep s (joinRequest f side key s) := by
  unfold joinRequest
  split
  · exact join_drainStep hm f side key
  · split_ifs
    · exact .refl s
    · exact .refl s
    · have left := leave_drainStep f s
      exact left.trans (join_drainStep (left.mode.trans hm) f side key)

theorem requestJoin_drainStep (hm : s.mode = .draining) (i : FlowId) (side : Side) (ip : IpPart) (tcp : TcpPart)
    (q : Option QueueId) : DrainStep s (requestJoin i side ip tcp q s) := by
  unfold requestJoin
  split
  · exact .refl s
  · split_ifs
    · exact joinRequest_drainStep hm i side _
    · exact .refl s

theorem teardown_drainStep (i : FlowId) (side : Side) (tcp : TcpPart) (s : State) :
    DrainStep s (teardown i side tcp s) := by
  unfold teardown finTeardown
  dsimp only
  split_ifs
  · exact freeRecord_drainStep i s
  · exact (drainStep_setFlow s i _).trans (freeRecord_drainStep i _)
  · exact drainStep_setFlow s i _
  · exact .refl s

theorem trackSegment_drainStep (hm : s.mode = .draining) (i : FlowId) (side : Side) (ip : IpPart) (tcp : TcpPart)
    (q : Option QueueId) : DrainStep s (trackSegment i side ip tcp q s) :=
  ((drainStep_setFlow s i _).trans (requestJoin_drainStep (by exact hm) i side ip tcp q)).trans
    (teardown_drainStep i side tcp _)

theorem takeSegment_drainStep (hm : s.mode = .draining) (ip : IpPart) (tcp : TcpPart) (q : Option QueueId) :
    DrainStep s (takeSegment ip tcp q s) := by
  unfold takeSegment
  split
  · exact drainStep_bump s _
  · split
    · exact trackSegment_drainStep hm _ _ ip tcp q
    · split_ifs
      · split
        · rename_i i _
          have freed := freeRecord_drainStep i s
          refine (freed.trans (drainStep_setFlow _ i _)).trans (trackSegment_drainStep ?_ i _ ip tcp q)
          exact freed.mode.trans hm
        · exact .of_gc rfl rfl
      · exact .refl s

theorem visitRecord_drainStep (i : FlowId) (s : State) : DrainStep s (visitRecord i s) := by
  unfold visitRecord
  split
  · exact .refl s
  · split_ifs
    · exact freeRecord_drainStep i s
    · exact .refl s
  · split_ifs
    · exact leave_drainStep i s
    · exact .refl s
  · split_ifs
    · exact leave_drainStep i s
    · exact .refl s

end

/-! ### DRAINING has an episode, and none in ACTIVE or SETTLE (R104, R162) -/

/-- What DRAINING promises of the groups. -/
def State.drainHolds (s : State) : Prop :=
  s.mode = .draining → s.anyEpisode = true ∧ ∀ g, (s.group g).state.drains

section
variable {s t : State}

theorem anyEpisode_congr (h : ∀ g, (t.group g).state.isEpisode = (s.group g).state.isEpisode) :
    t.anyEpisode = s.anyEpisode := by
  simp only [State.anyEpisode, h]

/-- States that stay, and groups freed from WATCH, keep an episode in DRAINING. -/
theorem drainHolds_of_states (h : s.drainHolds) (mode : t.mode = s.mode)
    (states : s.mode = .draining → (∀ g, (s.group g).state.drains) → ∀ g, (t.group g).state = (s.group g).state
      ∨ ((s.group g).state = .watch ∧ (t.group g).state = .free)) : t.drainHolds := by
  intro hm
  have hs := mode.symm.trans hm
  obtain ⟨episode, drains⟩ := h hs
  refine ⟨(anyEpisode_congr fun g => ?_).trans episode, fun g => ?_⟩
  · obtain same | ⟨watch, free⟩ := states hs drains g
    · rw [same]
    · rw [watch, free]
      rfl
  · obtain same | ⟨-, free⟩ := states hs drains g
    · rw [same]
      exact drains g
    · rw [free]
      exact drains_free

theorem drainHolds_of_gc (h : s.drainHolds) (mode : t.mode = s.mode) (gc : t.gc = s.gc) : t.drainHolds :=
  drainHolds_of_states h mode fun _ _ g => .inl (by rw [State.group, State.group, gc])

/-- The drain-end report, made where no group is in ACTIVE or SETTLE, leaves DRAINING with an episode (R104). -/
theorem drainEnd_drainHolds (h : s.mode = .draining → ∀ g, (s.group g).state.drains) : (drainEnd s).drainHolds := by
  unfold drainEnd
  split_ifs with ended
  · intro hm
    have observe := groupFrame_mode
      (forGroups_groupFrame (s := { s with mode := .observe }) testOnset testOnset_groupFrame)
    rw [observe] at hm
    cases hm
  · exact fun hm => ⟨Bool.not_eq_false _ ▸ fun he => ended ⟨hm, he⟩, h hm⟩

theorem drainEnd_of_drainStep (h : s.drainHolds) (step : s.mode = .draining → DrainStep s t) (mode : t.mode = s.mode) :
    (drainEnd t).drainHolds := by
  refine drainEnd_drainHolds fun hm g => ?_
  have hs := mode.symm.trans hm
  obtain same | drains := (step hs).group g
  · exact same.symm ▸ (h hs).2 g
  · exact drains

/-- DRAINING may end in OBSERVE, and no other mode changes. -/
def ModeStep (s t : State) : Prop := t.mode = s.mode ∨ (s.mode = .draining ∧ t.mode = .observe)

theorem drainEnd_modeStep (mode : t.mode = s.mode) : ModeStep s (drainEnd t) := by
  unfold drainEnd
  split_ifs with ended
  · refine .inr ⟨mode.symm.trans ended.1, ?_⟩
    exact groupFrame_mode (forGroups_groupFrame (s := { t with mode := .observe }) testOnset testOnset_groupFrame)
  · exact .inl mode

end

end Sys2Proof.Machine

namespace Sys2Proof.Machine

/-! ### The mode and what goes with it, part by part -/

/-- What a pending command promises of the mode (R75, R160, R180). -/
def State.commandFitsMode (s : State) : Prop :=
  (∀ soft queues flows, s.port.command = some (.clears soft queues flows) →
    s.mode = .transparent ∧ (queues && flows) = false)
  ∧ ∀ i, s.port.command = some (.walk i) → s.mode = .observe

/-- What TRANSPARENT promises of the tables (R106). -/
def State.emptyInTransparent (s : State) : Prop :=
  s.mode = .transparent → ¬ s.flowClearPending → s.flowsAndGroupsEmpty

/-- The agreement of mode and state, with the two promises of DRAINING taken together. -/
structure Coherent (s : State) : Prop where
  sweep : s.ft.sweep = none ↔ s.mode = .transparent
  onTime : s.sweepOnTime
  command : s.commandFitsMode
  empty : s.emptyInTransparent
  drain : s.drainHolds

theorem modeCoherent_iff (s : State) : s.modeCoherent ↔ Coherent s := by
  constructor
  · rintro ⟨sweep, onTime, clears, walk, empty, episode, drains⟩
    exact ⟨sweep, onTime, ⟨clears, walk⟩, empty, fun hm => ⟨episode hm, drains hm⟩⟩
  · rintro ⟨sweep, onTime, ⟨clears, walk⟩, empty, drain⟩
    exact ⟨sweep, onTime, clears, walk, empty, fun hm => (drain hm).1, fun hm => (drain hm).2⟩

section
variable {s t u : State}

/-! The parts, one by one. -/

theorem ModeStep.transparent_iff (h : ModeStep s t) : t.mode = .transparent ↔ s.mode = .transparent := by
  obtain same | ⟨draining, observe⟩ := h
  · rw [same]
  · rw [draining, observe]
    decide

theorem ModeStep.observe (h : ModeStep s t) (hm : s.mode = .observe) : t.mode = .observe := by
  obtain same | ⟨-, observe⟩ := h
  · exact same.trans hm
  · exact observe

theorem ModeStep.trans (h : ModeStep s t) (h' : ModeStep t u) : ModeStep s u := by
  obtain same | ⟨draining, observe⟩ := h'
  · rw [ModeStep, same]
    exact h
  · obtain same | ⟨-, observe'⟩ := h
    · exact .inr ⟨same.symm.trans draining, observe⟩
    · rw [observe'] at draining
      cases draining

theorem sweepOnTime_congr (h : s.sweepOnTime) (sweep : t.ft.sweep = s.ft.sweep)
    (period : t.ft.sweepPeriod = s.ft.sweepPeriod) (tick : t.time.tick = s.time.tick) : t.sweepOnTime := by
  rw [State.sweepOnTime, sweep, period, tick]
  exact h

theorem sweepOnTime_of_dataFrame (h : s.sweepOnTime) (frame : t.dataFrame = s.dataFrame) : t.sweepOnTime :=
  sweepOnTime_congr h (dataFrame_sweep frame) (dataFrame_sweepPeriod frame)
    (congrArg TimeBase.tick (dataFrame_time frame))

theorem commandFitsMode_of_modeStep (h : s.commandFitsMode) (mode : ModeStep s t)
    (command : t.port.command = s.port.command) : t.commandFitsMode := by
  refine ⟨fun soft queues flows hc => ?_, fun i hc => ?_⟩
  · obtain ⟨hm, open_⟩ := h.1 soft queues flows (command.symm.trans hc)
    exact ⟨mode.transparent_iff.mpr hm, open_⟩
  · exact mode.observe (h.2 i (command.symm.trans hc))

theorem commandFitsMode_of_idle (h : s.port.command = none) : s.commandFitsMode :=
  ⟨fun _ _ _ hc => (by cases h.symm.trans hc), fun _ hc => (by cases h.symm.trans hc)⟩

theorem emptyInTransparent_of_mode (h : s.mode ≠ .transparent) : s.emptyInTransparent := fun hm => absurd hm h

theorem drainHolds_of_mode (h : s.mode ≠ .draining) : s.drainHolds := fun hm => absurd hm h

theorem Coherent.congr (h : Coherent s) (same : SameTables s t) : Coherent t where
  sweep := by rw [same.ft, same.mode]; exact h.sweep
  onTime := sweepOnTime_congr h.onTime (by rw [same.ft]) (by rw [same.ft]) same.tick
  command := commandFitsMode_of_modeStep h.command (.inl same.mode) same.command
  empty hm hc := by
    have pending : s.flowClearPending → t.flowClearPending := by
      rintro ⟨soft, queues, hp⟩
      exact ⟨soft, queues, same.command.trans hp⟩
    obtain ⟨flows, groups, totals⟩ := h.empty (same.mode.symm.trans hm) fun hp => hc (pending hp)
    refine ⟨fun i => ?_, fun g => ?_, fun q => ?_⟩
    · rw [State.flow, same.ft]
      exact flows i
    · rw [State.group, same.gc]
      exact groups g
    · rw [State.total, same.gc]
      exact totals q
  drain := drainHolds_of_gc h.drain same.mode same.gc

/-! ### A step of the data path -/

/-- What an operation of the data path does to the mode and to what the mode goes with: it touches neither the
sweep nor a pending command, fills no table in TRANSPARENT, and keeps the promise of DRAINING or ends it. -/
structure DataStep (s t : State) : Prop where
  frame : t.dataFrame = s.dataFrame
  mode : ModeStep s t
  empty : s.mode = .transparent → s.flowsAndGroupsEmpty → t.flowsAndGroupsEmpty
  drain : s.drainHolds → t.drainHolds

theorem DataStep.trans (h : DataStep s t) (h' : DataStep t u) : DataStep s u where
  frame := h'.frame.trans h.frame
  mode := h.mode.trans h'.mode
  empty hm he := h'.empty (h.mode.transparent_iff.mpr hm) (h.empty hm he)
  drain hd := h'.drain (h.drain hd)

theorem DataStep.coherent (step : DataStep s t) (h : Coherent s) : Coherent t where
  sweep := by
    rw [dataFrame_sweep step.frame, step.mode.transparent_iff]
    exact h.sweep
  onTime := sweepOnTime_of_dataFrame h.onTime step.frame
  command := commandFitsMode_of_modeStep h.command step.mode (by rw [dataFrame_port step.frame])
  empty hm hc := by
    have hs := step.mode.transparent_iff.mp hm
    refine step.empty hs (h.empty hs fun hp => hc ?_)
    rw [State.flowClearPending, dataFrame_port step.frame]
    exact hp
  drain := step.drain h.drain

/-- The tables are as they were. -/
theorem DataStep.of_tables (frame : t.dataFrame = s.dataFrame) (mode : t.mode = s.mode) (ft : t.ft = s.ft)
    (gc : t.gc = s.gc) : DataStep s t where
  frame := frame
  mode := .inl mode
  empty _ he := by
    obtain ⟨flows, groups, totals⟩ := he
    refine ⟨fun i => ?_, fun g => ?_, fun q => ?_⟩
    · rw [State.flow, ft]
      exact flows i
    · rw [State.group, gc]
      exact groups g
    · rw [State.total, gc]
      exact totals q
  drain h := drainHolds_of_gc h mode gc

theorem DataStep.refl (s : State) : DataStep s s := .of_tables rfl rfl rfl rfl

theorem dataStep_bump (s : State) (c : CounterId) : DataStep s (s.bump c) := .of_tables rfl rfl rfl rfl

/-- An operation outside TRANSPARENT that in DRAINING leaves every state, or frees a group in WATCH. -/
theorem DataStep.of_states (frame : t.dataFrame = s.dataFrame) (mode : t.mode = s.mode) (hm : s.mode ≠ .transparent)
    (states : s.mode = .draining → (∀ g, (s.group g).state.drains) → ∀ g, (t.group g).state = (s.group g).state
      ∨ ((s.group g).state = .watch ∧ (t.group g).state = .free)) : DataStep s t where
  frame := frame
  mode := .inl mode
  empty ht := absurd ht hm
  drain h := drainHolds_of_states h mode states

/-- An operation with the drain-end report at its end (R104). -/
theorem DataStep.of_drainEnd (frame : t.dataFrame = s.dataFrame) (mode : t.mode = s.mode)
    (step : s.mode = .draining → DrainStep s t)
    (empty : s.mode = .transparent → s.flowsAndGroupsEmpty → t.flowsAndGroupsEmpty) : DataStep s (drainEnd t) where
  frame := (drainEnd_dataFrame t).trans frame
  mode := drainEnd_modeStep mode
  empty hm he := by
    rw [drainEnd, if_neg]
    · exact empty hm he
    · rintro ⟨ht, -⟩
      rw [mode, hm] at ht
      cases ht
  drain h := drainEnd_of_drainStep h step mode

/-! ### The stages of a parse -/

theorem not_onset_mode (hm : s.mode = .draining) : ¬ (s.mode = .observe ∨ s.mode = .enforce) := by
  rw [hm]
  decide

theorem dataStep_enqueue (q : QueueId) (n : Nat) (s : State) : DataStep s (enqueue q n s) := by
  by_cases ht : s.mode = .transparent
  · rw [enqueue_transparent ht]
    exact .refl s
  · have mode : (enqueue q n s).mode = s.mode := (groupFrame_mode (enqueue_groupFrame q n ht)).trans rfl
    refine .of_states (enqueue_dataFrame q n s) mode ht fun hm drains g => .inl ?_
    have opens : ¬ s.opensAt q (raisedEstimate q n s) g := fun ho => not_onset_mode hm ho.2.2.2.1
    have resumes : ¬ s.resumesAt q (raisedEstimate q n s) g := fun ho => not_onset_mode hm ho.2.2.2.1
    rw [enqueue_group q n ht, if_neg opens, if_neg resumes]
    split_ifs <;> rfl

theorem dataStep_departure (q : QueueId) (n : Nat) (s : State) : DataStep s (departure q n s) := by
  by_cases ht : s.mode = .transparent
  · rw [departure_transparent q n ht]
    exact .refl s
  · refine .of_states (departure_dataFrame q n s) (departure_mode q n ht) ht fun hm drains g => .inl ?_
    rw [departure_group q n ht, if_neg]
    rintro ⟨-, active, -⟩
    exact (drains g).1 active

theorem dataStep_accountWrite (p : Profile) (c : Cell) (s : State) : DataStep s (accountWrite p c s).2 := by
  unfold accountWrite
  split
  · exact .refl s
  · exact dataStep_bump s _
  · exact dataStep_bump s _
  · exact dataStep_bump s _
  · exact dataStep_enqueue _ _ s

theorem dataStep_accountRead (p : Profile) (c : Cell) (s : State) : DataStep s (accountRead p c s).2 := by
  unfold accountRead
  split
  · exact .refl s
  · exact dataStep_bump s _
  · exact dataStep_bump s _
  · exact dataStep_bump s _
  · exact dataStep_departure _ _ s

theorem dataStep_writeSegment (ip : IpPart) (tcp : TcpPart) (q : Option QueueId) (s : State) :
    DataStep s (writeSegment ip tcp q s) := by
  have frame := takeSegment_flowFrame ip tcp q s
  unfold writeSegment
  split_ifs with ht
  · exact .refl s
  · exact .of_drainEnd (dataFrame_of_flowFrame frame) (flowFrame_mode frame)
      (fun hm => takeSegment_drainStep hm ip tcp q) (fun hm => absurd hm ht)

theorem dataStep_takeWriteRecord (r : FrameRecord) (q : Option QueueId) (s : State) :
    DataStep s (takeWriteRecord r q s) := by
  unfold takeWriteRecord
  dsimp only
  split
  · exact (dataStep_bump s _).trans (dataStep_writeSegment _ _ q _)
  · exact dataStep_bump s _

theorem dataStep_takeReadRecord (r : FrameRecord) (s : State) : DataStep s (takeReadRecord r s).2 := by
  unfold takeReadRecord afterLookup
  dsimp only
  split
  · split_ifs
    · exact (dataStep_bump s _).trans (dataStep_bump _ _)
    · exact dataStep_bump s _
  · exact dataStep_bump s _

theorem dataStep_countMark (q : QueueId) (s : State) : DataStep s (countMark q s) := by
  unfold countMark
  split_ifs
  · exact .refl s
  · exact .of_tables rfl rfl rfl rfl

theorem dataStep_decideRead (r : FrameRecord) (m : Mode) (d : Option (QueueId × Nat)) (a : Option FlowAnswer)
    (c : Cell) (s : State) : DataStep s (decideRead r m d a c s).1 := by
  have window (w : WindowOutcome) : DataStep s (countWindow w s) := by
    cases w with
    | unaltered => exact .refl s
    | skipScale | rewrite => exact dataStep_bump s _
  have marks (k : MarkOutcome) (q : Option QueueId) (u : State) : DataStep u (countMarks k q u) := by
    unfold countMarks
    split
    · exact dataStep_bump u _
    · exact (dataStep_bump u _).trans (dataStep_countMark _ _)
    · exact .refl u
    · exact .refl u
  unfold decideRead
  dsimp only
  split_ifs
  · exact (window _).trans (marks _ _ _)
  · exact .refl s

theorem dataStep_nextStage (x : Transit) (s : State) : DataStep s (nextStage x s).2 := by
  unfold nextStage
  split
  · exact .refl s
  · split
    · unfold accountTransit
      dsimp only
      split
      · exact dataStep_accountWrite _ _ s
      · exact dataStep_accountRead _ _ s
      · exact .refl s
      · exact .refl s
    · unfold recordTransit
      split
      · exact dataStep_takeWriteRecord _ _ s
      · exact dataStep_takeReadRecord _ s
      · exact .refl s
      · exact .refl s
    · unfold decideTransit
      split
      · exact dataStep_decideRead _ _ _ _ _ s
      all_goals exact .refl s

/-! ### The expiries -/

theorem dataStep_quiet (q : QueueId) (holds : timedHolds s (.quiet q) = true) : DataStep s (quietExpiry q s) := by
  have mode : (quietExpiry q s).mode = s.mode := (groupFrame_mode (quietExpiry_groupFrame holds)).trans rfl
  obtain ⟨-, ht, -⟩ := (timedHolds_iff s _).mp holds
  refine .of_states (quietExpiry_dataFrame q s) mode ht fun hm drains g => .inl ?_
  rw [quietExpiry_group holds, if_neg]
  rintro ⟨active, -⟩
  exact (drains g).1 active

theorem group_free_of_empty (h : s.flowsAndGroupsEmpty) (g : GroupId) : (s.group g).state = .free := by
  rw [h.2.1 g]
  rfl

theorem dataStep_timedEffect (e : TimedEvent) (s : State) : DataStep s (timedEffect e s) := by
  cases holds : timedHolds s e with
  | false =>
    rw [timedEffect_of_not s e holds]
    exact .refl s
  | true =>
    have frame := timedEffect_dataFrame e s
    have condition := (timedHolds_iff s e).mp holds
    cases e with
    | quiet q => exact dataStep_quiet q holds
    | linger g =>
      have freed : timedEffect (.linger g) s = s.setGroup g freeGroup := if_pos holds
      rw [freed]
      refine ⟨rfl, .inl rfl, fun _ he => ⟨he.1, fun h => ?_, he.2.2⟩, fun h => drainHolds_of_states h rfl
        fun _ _ h => ?_⟩
      · rw [State.setGroup_group]
        split_ifs
        · rfl
        · exact he.2.1 h
      · rw [State.setGroup_group]
        split_ifs with hg
        · exact .inr ⟨hg ▸ condition.1, rfl⟩
        · exact .inl rfl
    | hold g =>
      have entered : timedEffect (.hold g) s = drainEnd (enterRamp g s) := if_pos holds
      have step := enterRamp_groupFrame g s
      rw [entered]
      refine .of_drainEnd (dataFrame_of_groupFrame step) (groupFrame_mode step)
        (fun hm => (enterRamp_drainStep hm g).1) fun _ he => ?_
      cases (group_free_of_empty he g).symm.trans condition.1
    | entry g =>
      have advanced : timedEffect (.entry g) s = drainEnd (advanceEntry g s) := if_pos holds
      have step := advanceEntry_groupFrame g s
      rw [advanced]
      refine .of_drainEnd (dataFrame_of_groupFrame step) (groupFrame_mode step)
        (fun hm => advanceEntry_drainStep hm g) fun _ he => ?_
      cases (group_free_of_empty he g).symm.trans condition.1
    | holdEnd g =>
      have ended : timedEffect (.holdEnd g) s = drainEnd (sequenceEnd g s) := if_pos holds
      have step := sequenceEnd_groupFrame g s
      rw [ended]
      refine .of_drainEnd (dataFrame_of_groupFrame step) (groupFrame_mode step)
        (fun hm => sequenceEnd_draining hm g ▸ endEpisode_drainStep g _ s) fun _ he => ?_
      cases (group_free_of_empty he g).symm.trans condition.1

/-- What falls on the tick is no part of the agreement. -/
theorem Coherent.of_time (h : Coherent s) (time : t.time.tick = s.time.tick) (rest : t = { s with time := t.time }) :
    Coherent t where
  sweep := by rw [rest]; exact h.sweep
  onTime := sweepOnTime_congr h.onTime (by rw [rest]) (by rw [rest]) time
  command := commandFitsMode_of_modeStep h.command (.inl (by rw [rest])) (by rw [rest])
  empty := by rw [rest]; exact h.empty
  drain := by rw [rest]; exact h.drain

theorem Coherent.takeTimed (h : Coherent s) (e : TimedEvent) : Coherent (takeTimed e s) := by
  unfold Machine.takeTimed
  split_ifs
  · exact (dataStep_timedEffect e _).coherent (h.of_time rfl rfl)
  · exact h

/-! ### The sweep (R71) -/

theorem not_transparent_of_visitDue {i : FlowId} (h : Coherent s) (hd : visitDue s i = true) :
    s.mode ≠ .transparent := by
  obtain ⟨pass, hp, -⟩ := visitDue_iff.mp hd
  intro hm
  cases hp.symm.trans (h.sweep.mpr hm)

/-- A visit made at its tick leaves the next for a later one. -/
theorem sweepVisit_onTime {i : FlowId} (h : s.sweepOnTime) (hd : visitDue s i = true) :
    (sweepVisit i s).sweepOnTime := by
  obtain ⟨pass, hp, hn, he⟩ := visitDue_iff.mp hd
  obtain ⟨period, -, inPeriod, -, -⟩ := h.2 pass hp
  refine ⟨?_, fun pass' hp' => ?_⟩
  · rw [dataFrame_sweepPeriod (sweepVisit_dataFrame hd)]
    exact h.1
  · rw [sweepVisit_sweep hd, hp] at hp'
    obtain rfl := Option.some.inj hp'
    rw [sweepVisit_time]
    dsimp only
    refine ⟨period, i.isLt, inPeriod, fun _ => ?_, fun _ => ?_⟩
    · rw [he]
      exact Nat.div_le_div_right (Nat.mul_le_mul_right _ (Nat.le_succ _))
    · rw [he, Nat.add_sub_cancel]

theorem Coherent.sweepVisit (h : Coherent s) (i : FlowId) : Coherent (sweepVisit i s) := by
  cases hd : visitDue s i with
  | false =>
    rw [sweepVisit_of_not_due hd]
    exact h
  | true =>
    have ht := not_transparent_of_visitDue h hd
    have made := sweepVisit_of_due hd
    have visited : (passVisited i (visitRecord i s)).mode = s.mode :=
      (flowFrame_mode (visitRecord_flowFrame i s) :)
    have mode : ModeStep s (Machine.sweepVisit i s) := made ▸ drainEnd_modeStep visited
    have step := (visitRecord_drainStep i s).trans
      (DrainStep.of_gc (t := passVisited i (visitRecord i s)) rfl rfl)
    refine ⟨?_, sweepVisit_onTime h.onTime hd, ?_, ?_, ?_⟩
    · rw [sweepVisit_sweep hd, mode.transparent_iff, Option.map_eq_none_iff]
      exact h.sweep
    · exact commandFitsMode_of_modeStep h.command mode (by rw [sweepVisit_port])
    · exact emptyInTransparent_of_mode fun hm => ht (mode.transparent_iff.mp hm)
    · rw [made]
      exact drainEnd_of_drainStep h.drain (fun _ => step) visited

/-- A pass that begins at this tick is on time. -/
theorem beginPass_onTime (h : 1024 ≤ s.ft.sweepPeriod ∧ s.ft.sweepPeriod ≤ 65535) : (beginPass s).sweepOnTime := by
  refine ⟨h, fun pass hp => ?_⟩
  obtain rfl := Option.some.inj hp
  have now : (s.time.tick - s.time.tick).toNat = 0 := by simp
  have elapsed : ((beginPass s).time.tick - s.now).toNat = 0 := now
  simp only [elapsed]
  exact ⟨h, by omega, by omega, fun _ => by omega, fun hn => absurd hn (by omega)⟩

theorem Coherent.sweepPassEnd (h : Coherent s) : Coherent (sweepPassEnd s) := by
  cases hd : passEndDue s with
  | false =>
    rw [sweepPassEnd_of_not_due hd]
    exact h
  | true =>
    obtain ⟨pass, hp, -⟩ := passEndDue_iff.mp hd
    have ht : s.mode ≠ .transparent := fun hm => (by cases hp.symm.trans (h.sweep.mpr hm))
    rw [sweepPassEnd_of_due hd]
    refine ⟨⟨fun hn => (by cases hn), fun hm => absurd hm ht⟩, beginPass_onTime h.onTime.1, h.command, ?_, h.drain⟩
    exact emptyInTransparent_of_mode ht

/-! ### The walk and the clears -/

theorem walkPast_mode (i : FlowId) (s : State) : (walkPast i s).mode = s.mode := by
  unfold walkPast
  split_ifs <;> rfl

/-- The walk goes on, or nothing is pending any more (R76). -/
theorem walkPast_command (i : FlowId) (s : State) :
    (∃ j, (walkPast i s).port.command = some (.walk j)) ∨ (walkPast i s).port.command = none := by
  unfold walkPast
  split_ifs with hi
  · exact .inl ⟨⟨i.val + 1, hi⟩, rfl⟩
  · exact .inr rfl

theorem commandFitsMode_of_walkPast {i : FlowId} (h : s.mode = .observe) : (walkPast i s).commandFitsMode := by
  obtain ⟨j, hj⟩ | idle := walkPast_command i s
  · exact ⟨fun _ _ _ hc => (by cases hj.symm.trans hc), fun _ _ => (walkPast_mode i s).trans h⟩
  · exact commandFitsMode_of_idle idle

theorem Coherent.walkStep (h : Coherent s) : Coherent (walkStep s) := by
  by_cases moves : s.walkMoves
  · obtain ⟨⟨i, hc⟩, room⟩ := moves
    have observe := h.command.2 i hc
    have freed : (freeRecord i (refclkPeriod s)).mode = .observe :=
      (flowFrame_mode (freeRecord_flowFrame i (refclkPeriod s))).trans observe
    have made := walkStep_of_walk hc room
    have mode : (Machine.walkStep s).mode = .observe := made ▸ (walkPast_mode i _).trans freed
    have period : (Machine.walkStep s).ft.sweepPeriod = s.ft.sweepPeriod := by
      rw [made, walkPast_ft]
      exact (dataFrame_sweepPeriod (dataFrame_of_flowFrame (freeRecord_flowFrame i (refclkPeriod s)))).trans rfl
    refine ⟨?_, sweepOnTime_congr h.onTime (walkStep_sweep s) period (walkStep_now s), ?_, ?_, ?_⟩
    · rw [walkStep_sweep, mode, h.sweep, observe]
    · rw [made]
      exact commandFitsMode_of_walkPast freed
    · exact emptyInTransparent_of_mode (by simp [mode])
    · exact drainHolds_of_mode (by simp [mode])
  · have still : Machine.walkStep s = s := by
      by_cases hc : ∃ i, s.port.command = some (.walk i)
      · exact walkStep_of_no_room (not_lt.mp fun room => moves ⟨hc, room⟩)
      · exact walkStep_not_due fun i hi => hc ⟨i, hi⟩
    rw [still]
    exact h

theorem clearedPort_commandFitsMode {p : ManagementPort} {soft queues flows : Bool} (hm : s.mode = .transparent)
    (hp : s.port = clearedPort p soft queues flows) : s.commandFitsMode := by
  rw [State.commandFitsMode, hp]
  unfold clearedPort
  split_ifs with done
  · exact ⟨fun _ _ _ hc => (by cases hc), fun _ hc => (by cases hc)⟩
  · refine ⟨fun soft' queues' flows' hc => ⟨hm, ?_⟩, fun _ hc => (by cases hc)⟩
    cases hc
    exact Bool.eq_false_iff.mpr done

theorem Coherent.queueTableClear (h : Coherent s) : Coherent (queueTableClear s) := by
  by_cases due : ∃ soft flows, s.port.command = some (.clears soft false flows)
  · obtain ⟨soft, flows, hc⟩ := due
    have hm := (h.command.1 soft false flows hc).1
    rw [queueTableClear_due hc]
    refine ⟨h.sweep, h.onTime, clearedPort_commandFitsMode hm rfl, fun _ pending => ?_, h.drain⟩
    refine h.empty hm fun ⟨soft', queues', hp⟩ => pending ?_
    cases hc.symm.trans hp
    exact ⟨soft, true, rfl⟩
  · rw [queueTableClear_not_due fun soft flows hc => due ⟨soft, flows, hc⟩]
    exact h

theorem Coherent.flowGroupClear (h : Coherent s) : Coherent (flowGroupClear s) := by
  by_cases due : ∃ soft queues, s.port.command = some (.clears soft queues false)
  · obtain ⟨soft, queues, hc⟩ := due
    have hm := (h.command.1 soft queues false hc).1
    rw [flowGroupClear_due hc]
    exact ⟨h.sweep, h.onTime, clearedPort_commandFitsMode hm rfl, fun _ _ => clearFlowsAndGroups_empty,
      drainHolds_of_mode fun hd => (by cases hm.symm.trans hd)⟩
  · rw [flowGroupClear_not_due fun soft queues hc => due ⟨soft, queues, hc⟩]
    exact h

/-! ### The tick (R71, R138) -/

theorem walkRest_sweep (n : Nat) (s : State) : (walkRest n s).ft.sweep = s.ft.sweep :=
  walkRest_keeps (P := fun t => t.ft.sweep = s.ft.sweep) (fun t ht => (walkStep_sweep t).trans ht) n rfl

theorem walkRest_now (n : Nat) (s : State) : (walkRest n s).now = s.now :=
  walkRest_keeps (P := fun t => t.now = s.now) (fun t ht => (walkStep_now t).trans ht) n rfl

theorem Coherent.sweepVisits (h : Coherent s) (n : Nat) : Coherent (sweepVisits n s) :=
  sweepVisits_keeps (P := Coherent) (fun i _ h => h.sweepVisit i) n h

theorem Coherent.sweepRest (h : Coherent s) : Coherent (sweepRest s) :=
  ((h.sweepVisits 8192).sweepPassEnd).sweepVisits 8192

theorem Coherent.timedRest (h : Coherent s) : Coherent (timedRest s) :=
  timedRest_keeps (P := Coherent) (fun e _ h => h.takeTimed e) h

theorem Coherent.finishTick (h : Coherent s) : Coherent (finishTick s) :=
  walkRest_keeps (P := Coherent) (fun _ h => h.walkStep) _ h.timedRest.sweepRest

/-- Once the sweep has done all that falls on the tick, no pass ends on it. -/
theorem not_passEndDue_sweepRest (h : Coherent s) : passEndDue (sweepRest s) = false := by
  have visited := h.sweepVisits 8192
  rw [Machine.sweepRest, (samePass_sweepVisits 8192 _).passEndDue]
  cases hd : passEndDue (Machine.sweepVisits 8192 s) with
  | false => rw [sweepPassEnd_of_not_due hd, hd]
  | true =>
    rw [sweepPassEnd_of_due hd]
    exact not_passEndDue_beginPass visited.onTime.1.1

theorem finishTick_sweepDone (h : Coherent s) :
    (∀ i, visitDue (finishTick s) i = false) ∧ passEndDue (finishTick s) = false := by
  refine ⟨fun i => ?_, ?_⟩
  · rw [finishTick, visitDue_congr (walkRest_sweep _ _) (walkRest_now _ _)]
    exact sweepRest_complete _ i
  · rw [finishTick, passEndDue_congr (walkRest_sweep _ _) (walkRest_now _ _)]
    exact not_passEndDue_sweepRest h.timedRest

/-- Where nothing of the sweep is to come, the next tick finds it on time (R71). -/
theorem advanceTick_onTime (h : s.sweepOnTime) (visits : ∀ i, visitDue s i = false) (ends : passEndDue s = false) :
    (advanceTick s).sweepOnTime := by
  refine ⟨h.1, fun pass hp => ?_⟩
  obtain ⟨period, records, inPeriod, early, late⟩ := h.2 pass hp
  have not_ended : (s.time.tick - pass.start).toNat ≠ pass.period := fun he =>
    Bool.eq_false_iff.mp ends (passEndDue_iff.mpr ⟨pass, hp, he⟩)
  have not_visited (lt : pass.nextRecord < 8192) :
      (s.time.tick - pass.start).toNat ≠ pass.nextRecord * pass.period / 8192 := fun he =>
    Bool.eq_false_iff.mp (visits ⟨pass.nextRecord, lt⟩) (visitDue_iff.mpr ⟨pass, hp, rfl, he⟩)
  have advanced : ((advanceTick s).time.tick - pass.start).toNat = (s.time.tick - pass.start).toNat + 1 := by
    have : (s.time.tick + 1 - pass.start).toNat = (s.time.tick - pass.start).toNat + 1 := by
      bv_omega
    exact this
  simp only [advanced]
  refine ⟨period, records, by omega, fun lt => ?_, fun pos => ?_⟩
  · have := early lt
    have := not_visited lt
    omega
  · have := late pos
    omega

theorem Coherent.setDue (h : Coherent s) (due : List TimedEvent) : Coherent (s.setDue due) := h.of_time rfl rfl

theorem Coherent.advanceTick (h : Coherent s) (onTime : (advanceTick s).sweepOnTime) : Coherent (advanceTick s) :=
  ⟨h.sweep, onTime, h.command, h.empty, h.drain⟩

theorem Coherent.tickOnce (h : Coherent s) : Coherent (tickOnce s) := by
  obtain ⟨visits, ends⟩ := finishTick_sweepDone h
  exact (h.finishTick.advanceTick (advanceTick_onTime h.finishTick.onTime visits ends)).setDue _

/-! ### The requests -/

theorem coherent_drain (h : Coherent s) (hm : s.mode = .enforce) (hc : s.port.command = none) :
    Coherent (drain s) := by
  have frame := forGroups_groupFrame (s := { s with mode := .draining }) drainOn drainOn_groupFrame
  have mode : (forGroups { s with mode := .draining } drainOn).mode = .draining := groupFrame_mode frame
  have step : ModeStep { s with mode := .draining } (drain s) := drainEnd_modeStep mode
  have data : (drain s).dataFrame = s.dataFrame := by
    rw [drain, drainEnd_dataFrame, dataFrame_of_groupFrame frame]
    rfl
  have leaves : (drain s).mode ≠ .transparent := fun ht => (by cases step.transparent_iff.mp ht)
  refine ⟨?_, sweepOnTime_of_dataFrame h.onTime data, ?_, emptyInTransparent_of_mode leaves, ?_⟩
  · rw [dataFrame_sweep data, h.sweep, hm]
    exact ⟨fun hn => (by cases hn), fun ht => absurd ht leaves⟩
  · exact commandFitsMode_of_idle (by rw [dataFrame_port data, hc])
  · exact drainEnd_drainHolds fun _ => drainOn_all rfl

theorem releaseAll_port (s : State) : (releaseAll s).port = s.port := by
  have released := groupFrame_port (forGroups_groupFrame (s := s) releaseOn releaseOn_groupFrame)
  unfold releaseAll
  generalize forGroups s releaseOn = u at released ⊢
  exact released

theorem releaseAll_mode (s : State) : (releaseAll s).mode = .observe := by
  unfold releaseAll
  generalize forGroups s releaseOn = u
  rfl

theorem coherent_releaseAll (h : Coherent s) (hm : s.mode ≠ .transparent) (hc : s.port.command = none) :
    Coherent (releaseAll s) := by
  have ft := releaseAll_ft s
  have observe := releaseAll_mode s
  refine ⟨?_, sweepOnTime_congr h.onTime (by rw [ft]) (by rw [ft]) (by rw [releaseAll_time]), ?_, ?_, ?_⟩
  · rw [ft, h.sweep, observe]
    exact ⟨fun ht => absurd ht hm, fun ht => (by cases ht)⟩
  · exact commandFitsMode_of_idle (by rw [releaseAll_port, hc])
  · exact emptyInTransparent_of_mode (by simp [observe])
  · exact drainHolds_of_mode (by simp [observe])

theorem coherent_law : CommandLaw Coherent where
  congr h same := h.congr same
  nextStage h x := (dataStep_nextStage x _).coherent h
  takeTimed h e := h.takeTimed e
  sweepVisit h i := h.sweepVisit i
  sweepPassEnd h := h.sweepPassEnd
  walkStep h := h.walkStep
  drainEnd {s} h := (DataStep.of_drainEnd rfl rfl (fun _ => .refl s) (fun _ he => he)).coherent h
  queueTableClear h := h.queueTableClear
  flowGroupClear h := h.flowGroupClear
  reset {s} _ := by
    obtain ⟨sweep, onTime, command, empty, drain⟩ := (modeCoherent_iff _).mp reset_modeCoherent
    exact ⟨sweep, onTime, command, empty, drain⟩
  observe {s} h _ hc := ⟨⟨fun hn => (by cases hn), fun ht => (by cases ht)⟩,
    beginPass_onTime (s := { s with mode := .observe }) h.onTime.1, commandFitsMode_of_idle hc,
    emptyInTransparent_of_mode (fun ht => by cases ht), drainHolds_of_mode (fun hd => by cases hd)⟩
  enforce {s} h hm hc := by
    refine ⟨⟨fun hn => ?_, fun ht => (by cases ht)⟩, h.onTime, commandFitsMode_of_idle hc,
      emptyInTransparent_of_mode (fun ht => by cases ht), drainHolds_of_mode (fun hd => by cases hd)⟩
    have ht := h.sweep.mp hn
    rw [ht] at hm
    obtain hm | hm := hm <;> cases hm
  drain h hm hc := coherent_drain h hm hc
  releaseAll h hm hc := coherent_releaseAll h (by obtain hm | hm := hm <;> simp [hm]) hc
  clears {s} h _ soft := by
    refine ⟨⟨fun _ => rfl, fun _ => rfl⟩, ⟨h.onTime.1, fun _ hp => (by cases hp)⟩,
      ⟨fun _ _ _ hc => ?_, fun _ hc => ?_⟩, fun _ pending => absurd ⟨soft, false, rfl⟩ pending, drainHolds_of_mode (fun hd => by cases hd)⟩
    · cases hc
      exact ⟨rfl, rfl⟩
    · cases hc
  walk {s} h hm _ := by
    refine ⟨h.sweep, h.onTime, ⟨fun _ _ _ hc => (by cases hc), fun _ _ => hm⟩, ?_, h.drain⟩
    exact emptyInTransparent_of_mode fun ht => (by cases hm.symm.trans ht)
  setTimers h f legal _ := ⟨h.sweep, ⟨legal.2.2.1, h.onTime.2⟩, h.command, h.empty, h.drain⟩

end

/-- Settles O6, part by part over the operations that a step is made of. -/
theorem modeStaysCoherent : Obligations.ModeStaysCoherent := by
  intro s t h hs
  rw [modeCoherent_iff] at h ⊢
  exact coherent_law.step_law (fun h => h.tickOnce) h hs

end Sys2Proof.Machine

namespace Sys2Proof.Machine

/-! ### Which record an allocation takes (R60, R86) -/

/-- In a rising list the first that passes a test is the lowest. -/
theorem find?_lowest {α : Type} [LinearOrder α] {l : List α} {p : α → Bool} {a : α} (rising : l.Pairwise (· < ·))
    (mem : a ∈ l) (passes : p a = true) (lowest : ∀ b ∈ l, b < a → p b = false) : l.find? p = some a := by
  induction l with
  | nil => exact absurd mem List.not_mem_nil
  | cons b l ih =>
    obtain ⟨above, rising⟩ := List.pairwise_cons.mp rising
    obtain rfl | mem := List.mem_cons.mp mem
    · exact List.find?_cons_of_pos passes
    · have fails : p b = false := lowest b List.mem_cons_self (above a mem)
      rw [List.find?_cons_of_neg (by simp [fails])]
      exact ih rising mem fun c hc => lowest c (List.mem_cons_of_mem b hc)

section
variable {s : State}

theorem groupSlot_of_free {g : GroupId} (free : (s.group g).state = .free)
    (lowest : ∀ h, h < g → (s.group h).state ≠ .free) : groupSlot s = some g := by
  have found : (List.finRange 128).find? (fun g => decide ((s.group g).state = .free)) = some g :=
    find?_lowest (List.pairwise_lt_finRange 128) (List.mem_finRange g) (by simpa using free)
      fun h _ hlt => by simpa using lowest h hlt
  rw [groupSlot, found]

/-- With no record FREE the choice is among those that linger. -/
theorem groupSlot_of_none_free (used : ∀ h, (s.group h).state ≠ .free) :
    groupSlot s = (List.finRange 128).find?
      (fun g => decide ((s.group g).state = .watch) && decide ((s.group g).count = 0)) := by
  have none_free : (List.finRange 128).find? (fun g => decide ((s.group g).state = .free)) = none :=
    List.find?_eq_none.mpr fun h _ => by simpa using used h
  rw [groupSlot, none_free]

theorem groupSlot_of_lingering {g : GroupId} (used : ∀ h, (s.group h).state ≠ .free)
    (watch : (s.group g).state = .watch) (empty : (s.group g).count = 0)
    (lowest : ∀ h, h < g → ¬ ((s.group h).state = .watch ∧ (s.group h).count = 0)) : groupSlot s = some g := by
  rw [groupSlot_of_none_free used]
  exact find?_lowest (List.pairwise_lt_finRange 128) (List.mem_finRange g) (by simp [watch, empty])
    fun h _ hlt => by simpa using lowest h hlt

theorem groupSlot_of_none_lingering (used : ∀ h, (s.group h).state ≠ .free)
    (busy : ∀ h, ¬ ((s.group h).state = .watch ∧ (s.group h).count = 0)) : groupSlot s = none := by
  rw [groupSlot_of_none_free used]
  exact List.find?_eq_none.mpr fun h _ => by simpa using busy h

/-! The ways of a set. -/

variable {ways : List FlowId} {i : FlowId}

/-- A way in use may be evicted in CLOSING, or once its silence has reached the idle time (R60, R70). -/
theorem isCandidate_iff (used : (s.flow i).state ≠ .free) : isCandidate s i = true ↔
    (s.flow i).state = .closing ∨ s.ft.idleTime ≤ (s.time.tick - (s.flow i).lastSeen).toNat := by
  rw [isCandidate, Bool.or_eq_true, decide_eq_true_eq, isIdle_iff, or_comm]
  exact or_congr_right (and_iff_right used)

theorem oldestCandidate_isCandidate (h : oldestCandidate s ways = some i) : isCandidate s i = true := by
  induction ways with
  | nil => cases h
  | cons k rest ih =>
    unfold oldestCandidate at h
    split at h
    · split_ifs at h with hk
      cases h
      exact hk
    · split_ifs at h with hk
      · cases h
        exact hk.1
      · exact ih (by rwa [← Option.some.inj h])

theorem oldestCandidate_none (h : ∀ i ∈ ways, isCandidate s i = false) : oldestCandidate s ways = none := by
  cases found : oldestCandidate s ways with
  | none => rfl
  | some i =>
    have := h i (oldestCandidate_mem found)
    rw [oldestCandidate_isCandidate found] at this
    cases this

/-- The oldest candidate of a rising list, the lowest of equally old ones (R60). -/
theorem oldestCandidate_oldest (rising : ways.Pairwise (· < ·)) (mem : i ∈ ways) (hi : isCandidate s i = true)
    (oldest : ∀ j ∈ ways, isCandidate s j = true →
      elapsed s.now (s.flow j).lastSeen ≤ elapsed s.now (s.flow i).lastSeen
      ∧ (j < i → elapsed s.now (s.flow j).lastSeen < elapsed s.now (s.flow i).lastSeen)) :
    oldestCandidate s ways = some i := by
  induction ways with
  | nil => exact absurd mem List.not_mem_nil
  | cons k rest ih =>
    obtain ⟨above, rising⟩ := List.pairwise_cons.mp rising
    unfold oldestCandidate
    obtain rfl | mem := List.mem_cons.mp mem
    · split
      · exact if_pos hi
      · rename_i j found
        have older := oldest j (List.mem_cons_of_mem i (oldestCandidate_mem found)) (oldestCandidate_isCandidate found)
        exact if_pos ⟨hi, older.1⟩
    · rw [ih rising mem fun j hj => oldest j (List.mem_cons_of_mem k hj)]
      refine if_neg ?_
      rintro ⟨hk, older⟩
      have younger := (oldest k List.mem_cons_self hk).2 (above i mem)
      omega

theorem allocationWay_of_free (rising : ways.Pairwise (· < ·)) (mem : i ∈ ways) (free : (s.flow i).state = .free)
    (lowest : ∀ j ∈ ways, j < i → (s.flow j).state ≠ .free) : allocationWay s ways = some i := by
  have found : ways.find? (fun i => decide ((s.flow i).state = .free)) = some i :=
    find?_lowest rising mem (by simpa using free) fun j hj hlt => by simpa using lowest j hj hlt
  rw [allocationWay, found]

theorem allocationWay_of_none_free (used : ∀ i ∈ ways, (s.flow i).state ≠ .free) :
    allocationWay s ways = oldestCandidate s ways := by
  have none_free : ways.find? (fun i => decide ((s.flow i).state = .free)) = none :=
    List.find?_eq_none.mpr fun i hi => by simpa using used i hi
  rw [allocationWay, none_free]

end

/-- Settles O42: the two searches, each taken at its lowest find. -/
theorem allocationOrder : Obligations.AllocationOrder := by
  refine ⟨fun s => ⟨fun g free lowest => groupSlot_of_free free lowest, fun used =>
    ⟨fun g watch empty lowest => groupSlot_of_lingering used watch empty lowest,
      fun busy => groupSlot_of_none_lingering used busy⟩⟩, fun s ways rising => ?_⟩
  refine ⟨fun i mem free lowest => allocationWay_of_free rising mem free lowest, fun used => ⟨fun i mem hi oldest => ?_,
    fun none_old => ?_⟩⟩
  · rw [allocationWay_of_none_free used]
    exact oldestCandidate_oldest rising mem ((isCandidate_iff (used i mem)).mpr hi)
      fun j hj hc => oldest j hj ((isCandidate_iff (used j hj)).mp hc)
  · rw [allocationWay_of_none_free used]
    exact oldestCandidate_none fun i mem => Bool.eq_false_iff.mpr
      fun hc => none_old i mem ((isCandidate_iff (used i mem)).mp hc)

/-! ### START_OBSERVE, ENFORCE and CLEAR_FLOWS (R75, R153, R154) -/

theorem noParams_framed : framesExactly 0 [0] [] := ⟨rfl, rfl⟩

theorem hasEnabledRange_iff (s : State) : hasEnabledRange s = true ↔
    ∃ p, s.profile = some p ∧ ∃ r ∈ p.ranges, r.enabled = true := by
  unfold hasEnabledRange
  cases s.profile with
  | none => simp
  | some p => simp

section
variable {s : State}

theorem startObserveAnswer_framed (s : State) : startObserveAnswer [0] s = match s.mode with
    | .draining => .busy
    | .observe | .enforce => .check .wrongMode 0
    | .transparent =>
      if hasEnabledRange s then .good [] (beginPass { s with mode := .observe }) else .check .noProfile 0 := by
  refine (withParams_framed (n := 0) (by decide) noParams_framed _).trans ?_
  cases s.mode <;> rfl

theorem enforceAnswer_framed (s : State) : enforceAnswer [0] s = match s.mode with
    | .draining => .busy
    | .transparent => .check .wrongMode 0
    | .observe | .enforce => .good [] { s with mode := .enforce } := by
  refine (withParams_framed (n := 0) (by decide) noParams_framed _).trans ?_
  cases s.mode <;> rfl

theorem clearFlowsAnswer_framed (s : State) : clearFlowsAnswer [0] s = match s.mode with
    | .draining => .busy
    | .transparent | .enforce => .check .wrongMode 0
    | .observe => .started (.walk 0) s := by
  refine (withParams_framed (n := 0) (by decide) noParams_framed _).trans ?_
  cases s.mode <;> rfl

end

/-- Settles O34: the two tables, mode by mode. -/
theorem observeAndEnforceFollowTheirTables : Obligations.ObserveAndEnforceFollowTheirTables := by
  constructor
  · intro s hs
    have answered : exec (.startObserve [0]) s = .next (applyAnswer 0x20 s (startObserveAnswer [0] s)) :=
      congrArg Host.Outcome.next ((takeRequest_spec 0x20 (startObserveAnswer [0]) s).2.2 hs)
    rw [answered, startObserveAnswer_framed]
    refine ⟨fun hm => ?_, fun hm => ?_, fun hm disabled => ?_, fun hm enabled => ?_⟩
    · rw [hm]
      rfl
    · obtain hm | hm := hm <;> rw [hm] <;> rfl
    · have none_enabled : hasEnabledRange s = false := by
        rw [Bool.eq_false_iff, ne_eq, hasEnabledRange_iff]
        rintro ⟨p, hp, r, hr, he⟩
        exact Bool.eq_false_iff.mp (disabled p hp r hr) he
      rw [hm, none_enabled]
      rfl
    · rw [hm, (hasEnabledRange_iff s).mpr enabled]
      rfl
  · intro s hs
    have answered : exec (.enforce [0]) s = .next (applyAnswer 0x21 s (enforceAnswer [0] s)) :=
      congrArg Host.Outcome.next ((takeRequest_spec 0x21 (enforceAnswer [0]) s).2.2 hs)
    rw [answered, enforceAnswer_framed]
    refine ⟨fun hm => ?_, fun hm => ?_, fun hm => ?_⟩
    · rw [hm]
      rfl
    · rw [hm]
      rfl
    · obtain hm | hm := hm <;> rw [hm] <;> rfl

/-! ### One step of the walk (R76) -/

section
variable {s : State} {i : FlowId}

theorem exec_walkStep (h : s.running = true) : exec .clearFlowsWalkStep s = .next (walkStep s) :=
  congrArg Host.Outcome.next (whenRunning_released h _)

/-- A command that finds the part held in reset, or its operation idle, changes nothing. -/
theorem whenRunning_idle {f : State → State} (h : f s = s) : whenRunning s f = s := by
  unfold whenRunning
  split_ifs
  · exact h
  · rfl

/-! A leave reads no count of REFCLK periods, so that the step's period may pass before it or after it. -/

section
variable (s : State)

theorem setGroup_refclkPeriod (g : GroupId) (r : GroupRecord) :
    (refclkPeriod s).setGroup g r = refclkPeriod (s.setGroup g r) := rfl

theorem setFlow_refclkPeriod (i : FlowId) (r : FlowRecord) :
    (refclkPeriod s).setFlow i r = refclkPeriod (s.setFlow i r) := rfl

theorem setTotal_refclkPeriod (q : QueueId) (n : Nat) :
    (refclkPeriod s).setTotal q n = refclkPeriod (s.setTotal q n) := rfl

theorem offer_refclkPeriod (e : LogEntry) : offer e (refclkPeriod s) = refclkPeriod (offer e s) := by
  rw [offer, offer, apply_ite refclkPeriod, apply_ite refclkPeriod, apply_ite refclkPeriod]
  rfl

theorem offerFor_refclkPeriod (g : GroupId) (k : LogKind) (a : LogCause) (b : Bool) :
    offerFor g k a b (refclkPeriod s) = refclkPeriod (offerFor g k a b s) := by
  cases h : (s.group g).key <;> simp [offerFor, h, offer_refclkPeriod]

theorem subTotal_refclkPeriod (g : GroupId) (n : Nat) :
    subTotal g n (refclkPeriod s) = refclkPeriod (subTotal g n s) := by
  cases h : (s.group g).key <;> simp [subTotal, h, setTotal_refclkPeriod]

theorem collapse_refclkPeriod (g : GroupId) : collapse g (refclkPeriod s) = refclkPeriod (collapse g s) := by
  simp [collapse, offerFor_refclkPeriod, setGroup_refclkPeriod]

theorem afterRemoval_refclkPeriod (g : GroupId) :
    afterRemoval g (refclkPeriod s) = refclkPeriod (afterRemoval g s) := by
  simp only [afterRemoval, apply_ite refclkPeriod, subTotal_refclkPeriod, collapse_refclkPeriod]
  rfl

theorem removeMember_refclkPeriod (f : FlowId) (g : GroupId) :
    removeMember f g (refclkPeriod s) = refclkPeriod (removeMember f g s) := by
  cases hp : (s.flow f).prev <;> cases hn : (s.flow f).next <;>
    simp [removeMember, hp, hn, setFlow_refclkPeriod, setGroup_refclkPeriod]

theorem leave_refclkPeriod (f : FlowId) : leave f (refclkPeriod s) = refclkPeriod (leave f s) := by
  cases h : (s.flow f).group <;> simp [leave, h, removeMember_refclkPeriod, afterRemoval_refclkPeriod]

end

/-- The record that a step of the walk reaches leaves its group and is FREE; the period passes, and the walk goes
on. -/
theorem walkStep_eq (hc : s.port.command = some (.walk i)) (room : s.time.refclkCount < s.time.prescaler) :
    walkStep s = walkPast i (refclkPeriod ((leave i s).setFlow i (freeFlow (s.flow i).lastSeen))) := by
  rw [walkStep_of_walk hc room, freeRecord_eq, leave_refclkPeriod, setFlow_refclkPeriod]
  rfl

theorem walkPast_next (h : i.val < 8191) (s : State) :
    walkPast i s = s.setCommand (some (.walk ⟨i.val + 1, by omega⟩)) := dif_pos _

theorem walkPast_last (h : i.val = 8191) (s : State) :
    walkPast i s = (s.setResult .good 0x34 []).setCommand none := dif_neg (by omega)

/-- The walk going on writes the port alone. -/
theorem walkPast_eq (i : FlowId) (s : State) : walkPast i s = { s with port := (walkPast i s).port } := by
  unfold walkPast
  split_ifs <;> rfl

theorem leave_port (i : FlowId) (s : State) : (leave i s).port = s.port := flowFrame_port (leave_flowFrame i s)

theorem leave_time (i : FlowId) (s : State) : (leave i s).time = s.time :=
  dataFrame_time (dataFrame_of_flowFrame (leave_flowFrame i s))

theorem leave_setFlow_flow (i j : FlowId) (r : FlowRecord) (hj : j ≠ i) (s : State) :
    { ((leave i s).setFlow i r).flow j with prev := none, next := none }
      = { s.flow j with prev := none, next := none } := by
  rw [State.setFlow_flow, if_neg hj]
  exact leave_flow i j hj

end

/-- Settles O39: the table of CLEAR_FLOWS, and the step as one leave, one free and one period. -/
theorem clearFlowsWalksTheTable : Obligations.ClearFlowsWalksTheTable := by
  refine ⟨fun s hs => ?_, fun s full => ?_, fun s i running hc room => ?_⟩
  · have answered : exec (.clearFlows [0]) s = .next (applyAnswer 0x34 s (clearFlowsAnswer [0] s)) :=
      congrArg Host.Outcome.next ((takeRequest_spec 0x34 (clearFlowsAnswer [0]) s).2.2 hs)
    have framed := clearFlowsAnswer_framed s
    refine ⟨fun hm => ?_, fun hm => ?_, fun hm => ?_⟩
    · rw [hm] at framed
      rw [answered, framed]
      rfl
    · obtain hm | hm := hm <;> rw [hm] at framed <;> rw [answered, framed] <;> rfl
    · rw [hm] at framed
      rw [answered, framed]
      rfl
  · exact congrArg Host.Outcome.next (whenRunning_idle (walkStep_of_no_room full))
  · have step := walkStep_eq hc room
    generalize ht : walkStep s = t at step
    have written := walkPast_eq i (refclkPeriod ((leave i s).setFlow i (freeFlow (s.flow i).lastSeen)))
    rw [← step] at written
    have frame := leave_flowFrame i s
    refine ⟨t, (exec_walkStep running).trans (congrArg Host.Outcome.next ht), ?_, fun j hj => ?_, fun hi => ?_,
      fun hi => ?_, ?_, ?_, ?_, ?_, ?_, ?_, fun hg => ?_⟩
    · rw [written]
      exact State.setFlow_flow_self _ _ _
    · rw [written]
      exact leave_setFlow_flow i j _ hj s
    · refine ⟨⟨i.val + 1, by omega⟩, rfl, ?_⟩
      rw [step, walkPast_next hi]
      change ({ (leave i s).port with command := some _ } : ManagementPort) = _
      rw [leave_port]
    · rw [step, walkPast_last hi]
      change ({ (leave i s).port with
        result := { status := .good, code := 0x34, bytes := [] }, command := none } : ManagementPort) = _
      rw [leave_port]
    · rw [written]
      exact congrArg (fun x : TimeBase => { x with refclkCount := x.refclkCount + 1, refclk := x.refclk + 1 })
        (leave_time i s)
    · rw [written]
      exact (flowFrame_mode frame :)
    · rw [written]
      exact (dataFrame_link (dataFrame_of_flowFrame frame) :)
    · rw [written]
      exact (flowFrame_depths frame :)
    · rw [written]
      exact (dataFrame_profile (dataFrame_of_flowFrame frame) :)
    · rw [written]
      rfl
    · rw [written, leave_of_no_group hg]
      exact ⟨rfl, rfl, rfl, rfl⟩

end Sys2Proof.Machine

namespace Sys2Proof.Machine

/-! ### A segment on its record (R58, R61 to R65) -/

section
variable {s : State} {i : FlowId} {x : Side} {ip : IpPart} {tcp : TcpPart}

/-- A FIN of one side stands with a FIN of the other, or closes (R64). -/
theorem finTeardown_flow (i : FlowId) (x : Side) (s : State) : (finTeardown i x s).flow i =
    if (s.flow i).finOf x.other then freeFlow (s.flow i).lastSeen
    else { (s.flow i).setFin x with state := .closing } := by
  have other : ((s.flow i).setFin x).finOf x.other = (s.flow i).finOf x.other := by cases x <;> rfl
  have stamp : ((s.flow i).setFin x).lastSeen = (s.flow i).lastSeen := by cases x <;> rfl
  unfold finTeardown
  dsimp only
  rw [other]
  split_ifs
  · rw [freeRecord_flow, if_pos rfl, State.setFlow_flow_self, stamp]
  · rw [State.setFlow_flow_self]

theorem teardown_rst (hk : tcp.kind = .rst) (s : State) : teardown i x tcp s = freeRecord i s := if_pos hk

theorem teardown_fin (hk : tcp.kind.holdsFin = true) (s : State) : teardown i x tcp s = finTeardown i x s := by
  have : tcp.kind ≠ .rst := fun h => by rw [h] at hk; cases hk
  rw [teardown, if_neg this, if_pos hk]

theorem teardown_none (hr : tcp.kind ≠ .rst) (hf : tcp.kind.holdsFin = false) (s : State) :
    teardown i x tcp s = s := by
  rw [teardown, if_neg hr, hf]
  rfl

theorem requestJoin_of_no_data (hk : tcp.kind.holdsData = false) (q : Option QueueId) (s : State) :
    requestJoin i x ip tcp q s = s := by
  unfold requestJoin
  split
  · rfl
  · rw [hk]
    rfl

theorem requestJoin_of_data (hk : tcp.kind.holdsData = true) (q : QueueId) (s : State) :
    requestJoin i x ip tcp (some q) s
      = joinRequest i x { queue := q, version := ip.version, address := ip.destination } s := if_pos hk

theorem moveData_eq (r : FlowRecord) :
    moveData r = { r with state := if r.state = .handshake then .opened else r.state } := by
  cases r with
  | mk state => cases state <;> rfl

/-- A record in use is OPEN after a SYN-ACK, and without its FIN flags when it was closing (4.2.1). -/
theorem moveSynAck_eq {r : FlowRecord} (used : r.state ≠ .free) : moveSynAck r =
    { r with
      state := .opened
      fin1 := r.fin1 && decide (r.state ≠ .closing), fin2 := r.fin2 && decide (r.state ≠ .closing) } := by
  cases r with
  | mk state =>
    cases state with
    | free => exact absurd rfl used
    | handshake | opened | closing => simp [moveSynAck]

/-! The two scales (R63). -/

theorem scaleOf_setScale_self (r : FlowRecord) (x : Side) (v : Option Nat) : (r.setScale x v).scaleOf x = v := by
  cases x <;> rfl

theorem scaleOf_setScale_other (r : FlowRecord) (x : Side) (v : Option Nat) :
    (r.setScale x v).scaleOf x.other = r.scaleOf x.other := by
  cases x <;> rfl

/-- SYN-ACK learning writes the scales alone. -/
theorem learnSynAck_rest (x : Side) (v : Option Nat) (r : FlowRecord) :
    { learnSynAck x v r with scale1 := none, scale2 := none } = { r with scale1 := none, scale2 := none } := by
  have written (r : FlowRecord) (x : Side) (v : Option Nat) :
      { r.setScale x v with scale1 := none, scale2 := none } = { r with scale1 := none, scale2 := none } := by
    cases x <;> rfl
  unfold learnSynAck
  dsimp only
  split
  · exact (written _ _ _).trans (written _ _ _)
  · exact written _ _ _
  all_goals exact (written _ _ _).trans (written _ _ _)

/-- Both ends offered a scale (R63, first row). -/
theorem learnSynAck_both {r : FlowRecord} {a b : Nat} (hi : r.initiator = some x.other)
    (ho : r.offer = some (.scale a)) : (learnSynAck x (some b) r).scaleOf x.other = some a
      ∧ (learnSynAck x (some b) r).scaleOf x = some b := by
  have learnt : learnSynAck x (some b) r = (r.setScale x.other (some a)).setScale x (some b) := by
    simp only [learnSynAck, hi, ho, if_true]
  rw [learnt, scaleOf_setScale_other, scaleOf_setScale_self, scaleOf_setScale_self]
  exact ⟨rfl, rfl⟩

/-- The offer of the SYN was not seen (R63, last rows). -/
theorem learnSynAck_unseen {r : FlowRecord} {b : Nat} (h : r.initiator ≠ some x.other ∨ r.offer = none) :
    (learnSynAck x (some b) r).scaleOf x.other = r.scaleOf x.other
      ∧ (learnSynAck x (some b) r).scaleOf x = some b := by
  have unseen : (if r.initiator = some x.other then r.offer else none) = none := by
    split_ifs with hi
    · exact h.resolve_left (not_not.mpr hi)
    · rfl
  have learnt : learnSynAck x (some b) r = r.setScale x (some b) := by
    simp only [learnSynAck, unseen]
  rw [learnt, scaleOf_setScale_other, scaleOf_setScale_self]
  exact ⟨rfl, rfl⟩

/-- One of the two ends offered no scale (R63, the rows between). -/
theorem learnSynAck_none {r : FlowRecord} {v : Option Nat}
    (h : v = none ∨ (r.initiator = some x.other ∧ r.offer = some .noneOffered)) :
    (learnSynAck x v r).scaleOf x.other = some 0 ∧ (learnSynAck x v r).scaleOf x = some 0 := by
  have learnt : learnSynAck x v r = (r.setScale x.other (some 0)).setScale x (some 0) := by
    obtain rfl | ⟨hi, ho⟩ := h
    · unfold learnSynAck
      dsimp only
      split
      · rename_i h
        cases h
      · rename_i h
        cases h
      all_goals rfl
    · simp only [learnSynAck, hi, ho, if_true]
  rw [learnt, scaleOf_setScale_other, scaleOf_setScale_self, scaleOf_setScale_self]
  exact ⟨rfl, rfl⟩

/-! What the segment's sub-kind learns. -/

theorem learn_data {now : Tick} {r : FlowRecord} (hk : tcp.kind.holdsData = true) : learn now x tcp r =
    { r with lastSeen := now, state := if r.state = .handshake then .opened else r.state } := by
  unfold learn
  dsimp only
  cases h : tcp.kind with
  | data | dataFin => exact moveData_eq _
  | rst | syn | synAck | fin | pureAck | empty =>
    rw [h] at hk
    cases hk

theorem learn_still {now : Tick} {r : FlowRecord} (hd : tcp.kind.holdsData = false) (hs : tcp.kind ≠ .syn)
    (ha : tcp.kind ≠ .synAck) : learn now x tcp r = { r with lastSeen := now } := by
  unfold learn
  dsimp only
  cases h : tcp.kind with
  | rst | fin | pureAck | empty => rfl
  | syn => exact absurd h hs
  | synAck => exact absurd h ha
  | data | dataFin =>
    rw [h] at hd
    cases hd

theorem learn_lastSeen (now : Tick) (r : FlowRecord) : (learn now x tcp r).lastSeen = now := by
  have synAck (r : FlowRecord) : (learnSynAck x tcp.scale r).lastSeen = r.lastSeen :=
    (congrArg FlowRecord.lastSeen (learnSynAck_rest x tcp.scale r) :)
  unfold learn moveSynAck moveData
  dsimp only
  split
  · rfl
  · split <;> exact synAck _
  · split <;> rfl
  · split <;> rfl
  all_goals rfl

theorem learn_syn {now : Tick} {r : FlowRecord} (hk : tcp.kind = .syn) : learn now x tcp r = { r with
    lastSeen := now, initiator := some x
    offer := match tcp.scale with | none => some .noneOffered | some v => some (.scale v) } := by
  have learnt : learn now x tcp r = learnSyn x tcp.scale { r with lastSeen := now } := by rw [learn, hk]
  exact learnt.trans (by cases tcp.scale <;> rfl)

theorem learn_synAck {now : Tick} {r : FlowRecord} (hk : tcp.kind = .synAck) :
    learn now x tcp r = moveSynAck (learnSynAck x tcp.scale { r with lastSeen := now }) := by
  rw [learn, hk]

/-! The steps of a segment, by what its sub-kind holds. -/

theorem trackSegment_no_data (hk : tcp.kind.holdsData = false) (q : Option QueueId) (s : State) :
    trackSegment i x ip tcp q s = teardown i x tcp (s.setFlow i (learn s.now x tcp (s.flow i))) := by
  rw [trackSegment, requestJoin_of_no_data hk]

theorem trackSegment_no_queue (s : State) :
    trackSegment i x ip tcp none s = teardown i x tcp (s.setFlow i (learn s.now x tcp (s.flow i))) := rfl

/-- The record after a RST (R65). -/
theorem trackSegment_rst (hk : tcp.kind = .rst) (q : Option QueueId) (s : State) :
    (trackSegment i x ip tcp q s).flow i = freeFlow s.time.tick := by
  have hd : tcp.kind.holdsData = false := by rw [hk]; rfl
  rw [trackSegment_no_data hd, teardown_rst hk, freeRecord_flow, if_pos rfl, State.setFlow_flow_self, learn_lastSeen]

/-- The record after a FIN, with what the segment and its join have made of it (R64). -/
theorem teardown_fin_flow (hk : tcp.kind.holdsFin = true) (u : State) {r : FlowRecord} {now : Tick}
    (stamp : (u.flow i).lastSeen = now) (fin : (u.flow i).finOf x.other = r.finOf x.other) :
    (r.finOf x.other = true → (teardown i x tcp u).flow i = freeFlow now)
    ∧ (r.finOf x.other = false →
      teardown i x tcp u = u.setFlow i { (u.flow i).setFin x with state := .closing }) := by
  rw [teardown_fin hk]
  refine ⟨fun h => ?_, fun h => ?_⟩
  · rw [finTeardown_flow, fin, h, stamp]
    rfl
  · have other : ((u.flow i).setFin x).finOf x.other = false := by
      have : ((u.flow i).setFin x).finOf x.other = (u.flow i).finOf x.other := by cases x <;> rfl
      rw [this, fin, h]
    rw [finTeardown, other]
    rfl

/-- The record after a segment that neither resets nor ends the connection. -/
theorem trackSegment_no_end (hr : tcp.kind ≠ .rst) (hf : tcp.kind.holdsFin = false) (s : State) :
    (trackSegment i x ip tcp none s).flow i = learn s.time.tick x tcp (s.flow i) := by
  rw [trackSegment_no_queue, teardown_none hr hf, State.setFlow_flow_self]

/-- The record after a FIN without a queue. -/
theorem trackSegment_fin_flow (hk : tcp.kind.holdsFin = true) {r : FlowRecord}
    (learnt : learn s.time.tick x tcp (s.flow i) = r) :
    (r.finOf x.other = true → (trackSegment i x ip tcp none s).flow i = freeFlow s.time.tick)
    ∧ (r.finOf x.other = false →
      (trackSegment i x ip tcp none s).flow i = { r.setFin x with state := .closing }) := by
  have own : (s.setFlow i (learn s.now x tcp (s.flow i))).flow i = r := (State.setFlow_flow_self _ _ _).trans learnt
  have stamp : r.lastSeen = s.time.tick := learnt ▸ learn_lastSeen _ _
  obtain ⟨frees, closes⟩ := teardown_fin_flow (i := i) (x := x) hk (s.setFlow i (learn s.now x tcp (s.flow i)))
    (own ▸ stamp) (congrArg (FlowRecord.finOf · x.other) own)
  rw [trackSegment_no_queue]
  refine ⟨frees, fun h => ?_⟩
  rw [closes h, State.setFlow_flow_self, own]

end

/-- What a segment without a queue makes of its record, by its sub-kind (R61 to R65). -/
theorem trackSegment_by_kind (s : State) (i : FlowId) (x : Side) (ip : IpPart) (tcp : TcpPart) :
    let r := s.flow i
    let after := (trackSegment i x ip tcp none s).flow i
    let now := s.time.tick
    (tcp.kind = .rst → after = freeFlow now)
    ∧ (tcp.kind = .pureAck ∨ tcp.kind = .empty → after = { r with lastSeen := now })
    ∧ (tcp.kind = .data → after
        = { r with lastSeen := now, state := if r.state = .handshake then .opened else r.state })
    ∧ (tcp.kind = .fin → r.finOf x.other = true → after = freeFlow now)
    ∧ (tcp.kind = .fin → r.finOf x.other = false → after = { r.setFin x with lastSeen := now, state := .closing })
    ∧ (tcp.kind = .dataFin → r.finOf x.other = true → after = freeFlow now)
    ∧ (tcp.kind = .dataFin → r.finOf x.other = false →
        after = { r.setFin x with lastSeen := now, state := .closing })
    ∧ (tcp.kind = .syn → after = { r with
        lastSeen := now, initiator := some x
        offer := match tcp.scale with | none => some .noneOffered | some v => some (.scale v) }) := by
  have still (hk : tcp.kind.holdsData = false) (hs : tcp.kind ≠ .syn) (ha : tcp.kind ≠ .synAck) :=
    learn_still (x := x) (now := s.time.tick) (r := s.flow i) hk hs ha
  refine ⟨fun hk => trackSegment_rst hk none s, fun hk => ?_, fun hk => ?_, fun hk hf => ?_, fun hk hf => ?_,
    fun hk hf => ?_, fun hk hf => ?_, fun hk => ?_⟩
  · obtain hk | hk := hk <;>
      exact (trackSegment_no_end (by simp [hk]) (by rw [hk]; rfl) s).trans
        (still (by rw [hk]; rfl) (by simp [hk]) (by simp [hk]))
  · exact (trackSegment_no_end (by simp [hk]) (by rw [hk]; rfl) s).trans (learn_data (by rw [hk]; rfl))
  · refine (trackSegment_fin_flow (by rw [hk]; rfl) (still (by rw [hk]; rfl) (by simp [hk]) (by simp [hk]))).1 ?_
    cases x <;> exact hf
  · refine ((trackSegment_fin_flow (by rw [hk]; rfl)
      (still (by rw [hk]; rfl) (by simp [hk]) (by simp [hk]))).2 ?_).trans ?_
    · cases x <;> exact hf
    · cases x <;> rfl
  · refine (trackSegment_fin_flow (by rw [hk]; rfl) (learn_data (by rw [hk]; rfl))).1 ?_
    cases x <;> exact hf
  · refine ((trackSegment_fin_flow (by rw [hk]; rfl) (learn_data (by rw [hk]; rfl))).2 ?_).trans ?_
    · cases x <;> exact hf
    · cases x <;> rfl
  · exact (trackSegment_no_end (by simp [hk]) (by rw [hk]; rfl) s).trans (learn_syn hk)

/-- What a SYN-ACK makes of its record (R63, 4.2.1). -/
theorem trackSegment_synAck (s : State) (i : FlowId) (x : Side) (ip : IpPart) (tcp : TcpPart)
    (used : (s.flow i).state ≠ .free) (hk : tcp.kind = .synAck) :
    let r := s.flow i
    let learnt := learnSynAck x tcp.scale { r with lastSeen := s.time.tick }
    (trackSegment i x ip tcp none s).flow i = { learnt with
      state := .opened, fin1 := r.fin1 && decide (r.state ≠ .closing)
      fin2 := r.fin2 && decide (r.state ≠ .closing) } := by
  intro r learnt
  have rest : { learnt with scale1 := none, scale2 := none }
      = { r with lastSeen := s.time.tick, scale1 := none, scale2 := none } := learnSynAck_rest x tcp.scale _
  have state : learnt.state = r.state := (congrArg FlowRecord.state rest :)
  have fin1 : learnt.fin1 = r.fin1 := (congrArg FlowRecord.fin1 rest :)
  have fin2 : learnt.fin2 = r.fin2 := (congrArg FlowRecord.fin2 rest :)
  rw [trackSegment_no_end (by simp [hk]) (by rw [hk]; rfl) s, learn_synAck hk,
    moveSynAck_eq (fun hf => used (state.symm.trans hf)), state, fin1, fin2]

/-! ### A segment with a queue (R66, R84) -/

theorem FlowRecord.finOf_of_standing {r r' : FlowRecord} (h : r'.standing = r.standing) (x : Side) :
    r'.finOf x = r.finOf x := by
  cases x
  · exact (congrArg FlowRecord.fin1 h :)
  · exact (congrArg FlowRecord.fin2 h :)

section
variable {s : State} {i : FlowId} {x : Side} {ip : IpPart} {tcp : TcpPart} {q : QueueId}

/-- The flow record has learnt and a join has been asked for, before a FIN is taken (R58, R66). -/
theorem trackSegment_data (hk : tcp.kind.holdsData = true) : trackSegment i x ip tcp (some q) s =
    teardown i x tcp (joinRequest i x { queue := q, version := ip.version, address := ip.destination }
      (s.setFlow i { s.flow i with
        lastSeen := s.time.tick, state := if (s.flow i).state = .handshake then .opened else (s.flow i).state })) := by
  rw [trackSegment, requestJoin_of_data hk, learn_data hk]

/-- A join leaves the FIN flags and the last-seen of the record that asks for it. -/
theorem joinRequest_seen (key : GroupKey) {r : FlowRecord} :
    ((joinRequest i x key (s.setFlow i r)).flow i).lastSeen = r.lastSeen
    ∧ ∀ y, ((joinRequest i x key (s.setFlow i r)).flow i).finOf y = r.finOf y := by
  have standing := joinRequest_standing (s := s.setFlow i r) i i x key
  rw [State.setFlow_flow_self] at standing
  exact ⟨(congrArg FlowRecord.lastSeen standing :), fun y => FlowRecord.finOf_of_standing standing y⟩

theorem joinRequest_of_no_group {key : GroupKey} (h : (s.flow i).group = none) :
    joinRequest i x key s = join i x key s := by
  rw [joinRequest, h]

theorem joinRequest_of_group {key : GroupKey} {g : GroupId} (h : (s.flow i).group = some g) :
    joinRequest i x key s =
      if (s.flow i).responder ≠ some x then s
      else if (s.group g).key = some key then s else join i x key (leave i s) := by
  rw [joinRequest, h]

end

/-! ### Lookup and creation (R54, R58 to R60) -/

section
variable {n : Nat} {α : Type}

theorem tableErase_tableErase (t : Table n α) (k : Fin n) : tableErase (tableErase t k) k = tableErase t k :=
  List.filter_eq_self.mpr fun e he => decide_eq_true (tableErase_keys_ne t k e he)

theorem tableErase_tableInsert (t : Table n α) (k : Fin n) (v : α) :
    tableErase (tableInsert t k v) k = tableErase t k := by
  induction t with
  | nil => simp [tableInsert, tableErase]
  | cons e rest ih =>
    unfold tableInsert
    split_ifs
    · exact List.filter_cons_of_neg (by simp)
    · by_cases h : e.1 = k
      · simpa [tableErase, h] using ih
      · simpa [tableErase, h] using ih

/-- The later of two writes of one index stands. -/
theorem tableSet_tableSet [DecidableEq α] (d : α) (t : Table n α) (k : Fin n) (v w : α) :
    tableSet d (tableSet d t k v) k w = tableSet d t k w := by
  have erased : tableErase (tableSet d t k v) k = tableErase t k := by
    rw [tableSet]
    split_ifs
    · exact tableErase_tableErase t k
    · rw [tableErase_tableInsert, tableErase_tableErase]
  rw [tableSet, erased, tableSet]

end

section
variable {s : State} {i : FlowId} {x : Side} {ip : IpPart} {tcp : TcpPart} {q : Option QueueId} {key : FlowKey}

theorem setFlow_setFlow (s : State) (i : FlowId) (r r' : FlowRecord) : (s.setFlow i r).setFlow i r' = s.setFlow i r' :=
  congrArg (fun t => { s with ft := { s.ft with flows := t } }) (tableSet_tableSet flowReset s.ft.flows i r r')

theorem takeSegment_of_equal (h : sourceOf ip tcp = destinationOf ip tcp) :
    takeSegment ip tcp q s = s.bump Counter.flowIneligible := by
  rw [takeSegment, h, canonicalKey_self]

theorem takeSegment_hit (hk : canonicalKey ip.version (sourceOf ip tcp) (destinationOf ip tcp) = some (key, x))
    (hit : findFlowRecord s key = some i) : takeSegment ip tcp q s = trackSegment i x ip tcp q s := by
  rw [takeSegment, hk]
  simp only [hit]

theorem takeSegment_miss (hk : canonicalKey ip.version (sourceOf ip tcp) (destinationOf ip tcp) = some (key, x))
    (miss : findFlowRecord s key = none) (none_asked : tcp.kind.creates = false) : takeSegment ip tcp q s = s := by
  rw [takeSegment, hk]
  simp only [miss, none_asked]
  rfl

theorem takeSegment_full (hk : canonicalKey ip.version (sourceOf ip tcp) (destinationOf ip tcp) = some (key, x))
    (miss : findFlowRecord s key = none) (asked : tcp.kind.creates = true)
    (full : allocationWay s (keyWays s key) = none) :
    takeSegment ip tcp q s = (s.bump Counter.flowAllocFail).flagFlowFull := by
  rw [takeSegment, hk]
  simp only [miss, asked, full, if_true]

/-- A record that is created, in a way whose old record has left its group (R59, R60). -/
theorem takeSegment_creates (hk : canonicalKey ip.version (sourceOf ip tcp) (destinationOf ip tcp) = some (key, x))
    (miss : findFlowRecord s key = none) (asked : tcp.kind.creates = true)
    (way : allocationWay s (keyWays s key) = some i) : takeSegment ip tcp q s
      = trackSegment i x ip tcp q ((leave i s).setFlow i (newFlow key tcp.kind x)) := by
  rw [takeSegment, hk]
  simp only [miss, asked, way, if_true, freeRecord_eq, setFlow_setFlow]

/-- The first values of R59. -/
theorem newFlow_eq (key : FlowKey) (kind : SubKind) (x : Side) : newFlow key kind x = { freeFlow 0 with
    state := .handshake, key := some key
    initiator := if kind = .syn then some x else if kind = .synAck then some x.other else none } := by
  cases kind <;> rfl

end

/-- The rows of R63, for the record that a SYN-ACK reaches. -/
theorem trackSegment_synAck_rows (s : State) (i : FlowId) (x : Side) (ip : IpPart) (tcp : TcpPart)
    (used : (s.flow i).state ≠ .free) (hk : tcp.kind = .synAck) :
    let r := s.flow i
    let after := (trackSegment i x ip tcp none s).flow i
    (∀ a b, r.initiator = some x.other → r.offer = some (.scale a) → tcp.scale = some b →
        after.scaleOf x.other = some a ∧ after.scaleOf x = some b)
    ∧ (∀ a, r.initiator = some x.other → r.offer = some (.scale a) → tcp.scale = none →
        after.scaleOf x.other = some 0 ∧ after.scaleOf x = some 0)
    ∧ (r.initiator = some x.other → r.offer = some .noneOffered →
        after.scaleOf x.other = some 0 ∧ after.scaleOf x = some 0)
    ∧ (r.initiator ≠ some x.other ∨ r.offer = none →
        (∀ b, tcp.scale = some b → after.scaleOf x.other = r.scaleOf x.other ∧ after.scaleOf x = some b)
        ∧ (tcp.scale = none → after.scaleOf x.other = some 0 ∧ after.scaleOf x = some 0)) := by
  intro r after
  have scales (y : Side) :
      after.scaleOf y = (learnSynAck x tcp.scale { r with lastSeen := s.time.tick }).scaleOf y := by
    have made : after = _ := trackSegment_synAck s i x ip tcp used hk
    rw [made]
    cases y <;> rfl
  have stood (y : Side) : r.scaleOf y = { r with lastSeen := s.time.tick }.scaleOf y := by cases y <;> rfl
  simp only [scales]
  refine ⟨fun a b hi ho hv => ?_, fun a hi ho hv => learnSynAck_none (.inl hv),
    fun hi ho => learnSynAck_none (.inr ⟨hi, ho⟩), fun h => ⟨fun b hv => ?_, fun hv => learnSynAck_none (.inl hv)⟩⟩
  · rw [hv]
    exact learnSynAck_both hi ho
  · rw [hv, stood]
    exact learnSynAck_unseen h

/-- What a SYN-ACK leaves of its record apart from the scales. -/
theorem trackSegment_synAck_rest (s : State) (i : FlowId) (x : Side) (ip : IpPart) (tcp : TcpPart)
    (used : (s.flow i).state ≠ .free) (hk : tcp.kind = .synAck) :
    let r := s.flow i
    { (trackSegment i x ip tcp none s).flow i with scale1 := none, scale2 := none }
      = { r with
          scale1 := none, scale2 := none, lastSeen := s.time.tick, state := .opened
          fin1 := r.fin1 && decide (r.state ≠ .closing), fin2 := r.fin2 && decide (r.state ≠ .closing) } := by
  intro r
  have rest := learnSynAck_rest x tcp.scale { r with lastSeen := s.time.tick }
  rw [trackSegment_synAck s i x ip tcp used hk]
  exact congrArg (fun l : FlowRecord => { l with
    state := .opened, fin1 := (s.flow i).fin1 && decide ((s.flow i).state ≠ FlowState.closing)
    fin2 := (s.flow i).fin2 && decide ((s.flow i).state ≠ FlowState.closing) }) rest

/-- What a miss comes to (R59, R60). -/
theorem takeSegment_missed (s : State) (ip : IpPart) (tcp : TcpPart) (q : Option QueueId) {key : FlowKey} {x : Side}
    (hk : canonicalKey ip.version (sourceOf ip tcp) (destinationOf ip tcp) = some (key, x))
    (miss : findFlowRecord s key = none) :
    let after := takeSegment ip tcp q s
    (tcp.kind = .rst ∨ tcp.kind = .fin ∨ tcp.kind = .pureAck ∨ tcp.kind = .empty → after = s)
    ∧ (tcp.kind = .syn ∨ tcp.kind = .synAck ∨ tcp.kind = .data ∨ tcp.kind = .dataFin →
      (∀ i, allocationWay s (keyWays s key) = some i →
        after = trackSegment i x ip tcp q ((leave i s).setFlow i (newFlow key tcp.kind x)))
      ∧ (allocationWay s (keyWays s key) = none → after = (s.bump Counter.flowAllocFail).flagFlowFull)) := by
  refine ⟨fun kind => takeSegment_miss hk miss ?_, fun kind => ?_⟩
  · obtain h | h | h | h := kind <;> rw [h] <;> rfl
  · have asked : tcp.kind.creates = true := by
      obtain h | h | h | h := kind <;> rw [h] <;> rfl
    exact ⟨fun i way => takeSegment_creates hk miss asked way, takeSegment_full hk miss asked⟩

/-- Settles O43: the sub-kinds one by one, the join of a DATA segment, and the lookup's outcomes. -/
theorem segmentsMoveTheRecord : Obligations.SegmentsMoveTheRecord := by
  refine ⟨fun s i x ip tcp used => ?_, fun s i x ip tcp q used => ?_, fun s i x key => ⟨joinRequest_of_no_group,
    fun g hg => ?_⟩, fun s ip tcp q => ⟨fun hm => if_pos hm, fun hm => if_neg hm, takeSegment_of_equal,
    fun key x hk => ⟨fun i placed hi hkey => takeSegment_hit hk (findFlowRecord_of_placed placed hi hkey),
    fun miss => ?_⟩⟩⟩
  · obtain ⟨rst, ack, data, fin, fin', dataFin, dataFin', syn⟩ := trackSegment_by_kind s i x ip tcp
    refine ⟨rst, ack, data, fin, fin', dataFin, dataFin', syn, fun hk => ?_⟩
    have rest := trackSegment_synAck_rest s i x ip tcp used hk
    exact ⟨(congrArg FlowRecord.lastSeen rest :), (congrArg FlowRecord.state rest :), (congrArg FlowRecord.fin1 rest :),
      (congrArg FlowRecord.fin2 rest :), (congrArg FlowRecord.key rest :), (congrArg FlowRecord.initiator rest :),
      (congrArg FlowRecord.offer rest :), (congrArg FlowRecord.responder rest :),
      (congrArg FlowRecord.joinedQueue rest :), (congrArg FlowRecord.group rest :), (congrArg FlowRecord.prev rest :),
      (congrArg FlowRecord.next rest :), trackSegment_synAck_rows s i x ip tcp used hk⟩
  · intro r now asked after
    obtain ⟨stamp, fins⟩ := joinRequest_seen (s := s) (i := i) (x := x)
      { queue := q, version := ip.version, address := ip.destination }
      (r := { r with lastSeen := now, state := if r.state = .handshake then .opened else r.state })
    have fin (y : Side) : (asked.flow i).finOf y = r.finOf y := (fins y).trans (by cases y <;> rfl)
    refine ⟨fun hk => ?_, fun hk hf => ?_, fun hk hf => ?_, fun hd hdf => ?_⟩
    · exact (trackSegment_data (by rw [hk]; rfl)).trans (teardown_none (by simp [hk]) (by rw [hk]; rfl) asked)
    · have made : after = teardown i x tcp asked := trackSegment_data (by rw [hk]; rfl)
      rw [made]
      exact (teardown_fin_flow (by rw [hk]; rfl) asked stamp (fin x.other)).1 hf
    · have made : after = teardown i x tcp asked := trackSegment_data (by rw [hk]; rfl)
      rw [made]
      exact (teardown_fin_flow (by rw [hk]; rfl) asked stamp (fin x.other)).2 hf
    · have no_data : tcp.kind.holdsData = false := by
        cases h : tcp.kind with
        | data => exact absurd h hd
        | dataFin => exact absurd h hdf
        | rst | syn | synAck | fin | pureAck | empty => rfl
      exact trackSegment_no_data no_data (some q) s
  · rw [joinRequest_of_group hg]
    refine ⟨fun h => ?_, fun hr hkey => ?_⟩
    · obtain hr | hkey := h
      · exact if_pos hr
      · split_ifs
        · rfl
        · rfl
    · rw [if_neg (not_not.mpr hr), if_neg hkey]
  · obtain ⟨none_asked, asked⟩ := takeSegment_missed s ip tcp q hk (findFlowRecord_eq_none miss)
    refine ⟨none_asked, fun kind => ⟨fun i way => ?_, fun full => ?_⟩⟩
    · rw [← newFlow_eq]
      exact (asked kind).1 i way
    · refine ⟨(s.bump Counter.flowAllocFail).counters, fun c => (s.bump_counter Counter.flowAllocFail c).trans ?_,
        (asked kind).2 full⟩
      split_ifs with hc
      · rw [hc]
        rfl
      · rfl

end Sys2Proof.Machine

namespace Sys2Proof.Machine

/-! ### SET_TIMERS (R179, 11.6) -/

/-- The six settings fit the bits that SET_TIMERS gives them (11.6). -/
def TimersField.encodable (f : TimersField) : Prop :=
  f.idle ≤ timerMax ∧ f.handshake ≤ timerMax ∧ f.sweep ≤ 65535 ∧ f.linger ≤ timerMax ∧ f.quiet ≤ timerMax

section
variable {f : TimersField} {s : State}

/-- The fields of SET_TIMERS, in their order. -/
theorem timersBytes_eq (f : TimersField) : timersBytes f =
    toBytes 4 f.idle ++ (toBytes 4 f.handshake ++ (toBytes 2 f.sweep ++ (toBytes 4 f.linger
      ++ (toBytes 4 f.quiet ++ toBytes 2 f.seed.toNat)))) := by
  simp [timersBytes]

theorem timersBytes_framed (f : TimersField) : framesExactly 20 (20 :: timersBytes f) (timersBytes f) :=
  ⟨rfl, by simp [timersBytes]⟩

/-- The 20 bytes of six settings that fit them spell those settings. -/
theorem timersField_timersBytes (h : f.encodable) : timersField (timersBytes f) = f := by
  obtain ⟨idle, handshake, sweep, linger, quiet⟩ := h
  have seed := f.seed.isLt
  unfold timerMax at idle handshake linger quiet
  have numbers : paramNat (timersBytes f) 0 4 = f.idle ∧ paramNat (timersBytes f) 4 4 = f.handshake
      ∧ paramNat (timersBytes f) 8 2 = f.sweep ∧ paramNat (timersBytes f) 10 4 = f.linger
      ∧ paramNat (timersBytes f) 14 4 = f.quiet ∧ paramNat (timersBytes f) 18 2 = f.seed.toNat := by
    simp only [timersBytes_eq, paramNat_past, paramNat_first, paramNat_whole, Nat.reduceLeDiff, Nat.reduceSub]
    omega
  obtain ⟨idle, handshake, sweep, linger, quiet, seed⟩ := numbers
  rw [timersField, idle, handshake, sweep, linger, quiet, seed, BitVec.ofNat_toNat, BitVec.setWidth_eq]

/-- A timer of 20 bits leaves the top 12 bits of its 4 bytes clear. -/
theorem timer_reserved {n : Nat} (h : n ≤ timerMax) :
    BitVec.ofNat 8 (n / 16777216) &&& (0xFF : Byte) = 0 ∧ BitVec.ofNat 8 (n / 65536) &&& (0xF0 : Byte) = 0 := by
  unfold timerMax at h
  have high : n / 16777216 = 0 := by omega
  exact ⟨by rw [high]; rfl, fourBits_reserved (by omega)⟩

/-- The 20 bytes of six settings that fit them set no reserved bit. -/
theorem timersBytes_reserved (h : f.encodable) : noneReserved timersReserved (timersBytes f) := by
  obtain ⟨idle, handshake, -, linger, quiet⟩ := h
  have all : ∀ e ∈ timersReserved, paramByte (timersBytes f) e.1 &&& e.2 = 0 := by
    simp only [timersReserved, List.forall_mem_cons, timersBytes_eq, paramByte_past, paramByte_first,
      Nat.reduceLeDiff, Nat.reduceLT, Nat.reduceSub, Nat.reducePow]
    exact ⟨(timer_reserved idle).1, (timer_reserved idle).2, (timer_reserved handshake).1,
      (timer_reserved handshake).2, (timer_reserved linger).1, (timer_reserved linger).2, (timer_reserved quiet).1,
      (timer_reserved quiet).2, fun _ h => absurd h List.not_mem_nil⟩
  exact fun o m hm => all (o, m) hm

/-- The lowest setting out of range (R179). -/
theorem brokenAt_timersLimits (f : TimersField) : brokenAt (timersLimits f) =
    if f.idle = 0 then some 0
    else if f.handshake = 0 then some 4
    else if f.sweep < 1024 then some 8
    else if f.linger = 0 then some 10
    else none := by
  unfold brokenAt timersLimits
  split_ifs with idle handshake sweep linger
  · simp [idle]
  · simp [idle, handshake]
  · simp [idle, handshake, sweep]
  · simp [idle, handshake, sweep, linger]
  · simp [idle, handshake, sweep, linger]

theorem brokenAt_timersLimits_of_legal (h : f.legal) : brokenAt (timersLimits f) = none := by
  obtain ⟨idle, handshake, sweep, linger, -⟩ := h
  rw [brokenAt_timersLimits, if_neg (by omega), if_neg (by omega), if_neg (by omega), if_neg (by omega)]

/-- What SET_TIMERS answers outside DRAINING to the bytes of six settings: the ranges, then the seed test. -/
theorem setTimersAnswer_timersBytes (hm : s.mode ≠ .draining) (h : f.encodable) :
    setTimersAnswer (20 :: timersBytes f) s = unlessBroken (timersLimits f)
      (if f.seed ≠ s.ft.seed ∧ allFlowsFree s = false then .check .wrongMode 18 else .good [] (s.setTimers f)) := by
  rw [setTimersAnswer, if_neg hm, withParams_framed (by decide) (timersBytes_framed f),
    unlessReserved_none (timersBytes_reserved h), timersField_timersBytes h]

end

/-- Settles O32: the tests in their order, then the settings that their own bytes spell. -/
theorem setTimersReplacesAllSix : Obligations.SetTimersReplacesAllSix := by
  intro s body hs
  have answered : exec (.setTimers body) s = .next (applyAnswer 0x16 s (setTimersAnswer body s)) :=
    congrArg Host.Outcome.next ((takeRequest_spec 0x16 (setTimersAnswer body) s).2.2 hs)
  rw [answered]
  refine ⟨fun hm => ?_, fun hm hf => ?_, fun ps o hm hf ho => ?_, fun f hm hb idle handshake sweep linger quiet => ?_⟩
  · rw [setTimersAnswer, if_pos hm]
    rfl
  · rw [setTimersAnswer, if_neg hm, withParams_misframed (by decide) hf]
    rfl
  · rw [setTimersAnswer, if_neg hm, withParams_framed (by decide) hf,
      unlessReserved_some (layout := timersReserved) (by decide) ho]
    rfl
  · rw [hb, setTimersAnswer_timersBytes hm ⟨idle, handshake, sweep, linger, quiet⟩]
    have refused {o : Nat} (h : brokenAt (timersLimits f) = some o) (k : Answer) :
        applyAnswer 0x16 s (unlessBroken (timersLimits f) k) = s.refusing 0x16 .outOfRange o := by
      rw [unlessBroken, h]
      rfl
    have taken (h : f.legal) (k : Answer) : unlessBroken (timersLimits f) k = k := by
      rw [unlessBroken, brokenAt_timersLimits_of_legal h]
    refine ⟨fun h0 => ?_, fun h0 h1 => ?_, fun h0 h1 h2 => ?_, fun h0 h1 h2 h3 => ?_, fun legal changed used => ?_,
      fun legal seed => ?_⟩
    · rw [refused (by rw [brokenAt_timersLimits, if_pos h0])]
    · rw [refused (by rw [brokenAt_timersLimits, if_neg h0, if_pos h1])]
    · rw [refused (by rw [brokenAt_timersLimits, if_neg h0, if_neg h1, if_pos h2])]
    · rw [refused (by rw [brokenAt_timersLimits, if_neg h0, if_neg h1, if_neg (by omega), if_pos h3])]
    · have in_use : allFlowsFree s = false := by
        rw [Bool.eq_false_iff, ne_eq, allFlowsFree_iff]
        exact fun free => used.elim fun i hi => hi (free i)
      rw [taken legal, if_pos ⟨changed, in_use⟩]
      rfl
    · rw [taken legal, if_neg]
      · rfl
      · rintro ⟨changed, in_use⟩
        rw [(allFlowsFree_iff s).mpr (seed.resolve_left changed)] at in_use
        cases in_use

end Sys2Proof.Machine

namespace Sys2Proof.Machine

/-! ### What the fields of a result show (11.6) -/

section
variable {n m o k : Nat} {r : List Byte}

/-- A field past a block that stands first. -/
theorem paramNat_block {l : List Byte} (length : l.length = m) (ho : m ≤ o) :
    paramNat (l ++ r) o k = paramNat r (o - m) k := by
  rw [paramNat, paramNat, show o = m + (o - m) by omega, ← List.drop_drop, List.drop_left' length,
    Nat.add_sub_cancel_left]

/-- An index and its absence fit a field that holds them both. -/
theorem shownIndex_mod {v : Option (Fin n)} {absent : Nat} (hn : n ≤ m) (ha : absent < m) :
    shownIndex v absent % m = shownIndex v absent := by
  cases v with
  | none => exact Nat.mod_eq_of_lt ha
  | some i => exact Nat.mod_eq_of_lt (i.isLt.trans_le hn)

end

/-! ### READ_GROUP (R107, 11.6) -/

/-- The eight presence flags stand in the eight bits of their byte. -/
theorem presence_bits (a b c d e f g h : Bool) (i : Fin 8) :
    (BitVec.ofNat 8 (a.toNat + 2 * b.toNat + 4 * c.toNat + 8 * d.toNat + 16 * e.toNat + 32 * f.toNat + 64 * g.toNat
      + 128 * h.toNat)).getLsbD i = [a, b, c, d, e, f, g, h].getD i.val false := by
  revert a b c d e f g h i
  decide

section
variable {s : State} {g : GroupId} {i : FlowId} {o n : Nat} {r : List Byte}

theorem groupKeyBytes_some (k : GroupKey) : groupKeyBytes (some k) =
    toBytes 2 k.queue.val ++ (toBytes 1 (versionNumber k.version) ++ toBytes 16 k.address.toNat) := by
  simp [groupKeyBytes]

/-- The fields of READ_GROUP, in their order. -/
theorem groupBytes_eq (s : State) (g : GroupId) : groupBytes s g =
    toBytes 1 g.val ++ (toBytes 1 (groupStateNumber (s.group g).state) ++ (toBytes 1 (presenceNumber (s.group g))
      ++ (toBytes 1 (s.group g).count ++ (groupKeyBytes (s.group g).key ++ (toBytes 2 (shownIndex (s.group g).head 0)
      ++ (toBytes 2 (shownIndex (s.group g).tail 0) ++ (toBytes 4 ((s.group g).onsetAt.getD 0).toNat
      ++ (toBytes 4 ((s.group g).peak.getD 0) ++ (toBytes 4 ((s.group g).deadline.getD 0).toNat
      ++ (toBytes 1 ((s.group g).rampEntry.getD 0) ++ (toBytes 4 ((s.group g).rampStart.getD 0).toNat
      ++ (toBytes 4 ((s.group g).lingerStart.getD 0).toNat ++ (groupQueueBytes s g
      ++ (toBytes 4 (reportRequest s g) ++ toBytes 4 s.time.tick.toNat)))))))))))))) := by
  simp only [groupBytes, tickBytes, List.append_assoc]
  rfl

theorem groupQueueBytes_some {k : GroupKey} (h : (s.group g).key = some k) : groupQueueBytes s g =
    toBytes 2 (s.total k.queue) ++ toBytes 4 (s.queue k.queue).estimate := by
  rw [groupQueueBytes, h]

/-- The numbers and the presence flags before the key. -/
theorem groupBytes_head (s : State) (g : GroupId) :
    paramNat (groupBytes s g) 0 1 = g.val
    ∧ paramNat (groupBytes s g) 1 1 = groupStateNumber (s.group g).state
    ∧ paramByte (groupBytes s g) 2 = BitVec.ofNat 8 (presenceNumber (s.group g))
    ∧ holdsAt (groupBytes s g) 3 1 (s.group g).count := by
  have number := g.isLt
  have state : groupStateNumber (s.group g).state ≤ 4 := by cases (s.group g).state <;> decide
  simp only [holdsAt, groupBytes_eq, paramNat_past, paramNat_first, paramByte_past, paramByte_first, Nat.reduceLeDiff,
    Nat.reduceSub, Nat.reduceLT, Nat.pow_zero, Nat.div_one, and_true]
  omega

/-- A group without a key shows 0 in its place. -/
theorem groupBytes_no_key (h : (s.group g).key = none) : paramNat (groupBytes s g) 4 19 = 0 := by
  simp only [groupBytes_eq, h, groupKeyBytes, paramNat_past, paramNat_first, Nat.reduceLeDiff, Nat.reduceSub,
    Nat.zero_mod]

/-- The key, and the total and the estimate of its queue. -/
theorem groupBytes_key {k : GroupKey} (h : (s.group g).key = some k) :
    paramNat (groupBytes s g) 4 2 = k.queue.val ∧ paramNat (groupBytes s g) 6 1 = versionNumber k.version
    ∧ paramNat (groupBytes s g) 7 16 = k.address.toNat
    ∧ holdsAt (groupBytes s g) 48 2 (s.total k.queue) ∧ holdsAt (groupBytes s g) 50 4 (s.queue k.queue).estimate := by
  have queue := k.queue.isLt
  have address := k.address.isLt
  have version : versionNumber k.version ≤ 6 := by cases k.version <;> decide
  simp only [holdsAt, groupBytes_eq, h, groupKeyBytes_some, groupQueueBytes_some h, List.append_assoc, paramNat_past,
    paramNat_first, Nat.reduceLeDiff, Nat.reduceSub, and_true]
  omega

/-- The fields past the key. -/
theorem groupBytes_tail (s : State) (g : GroupId) :
    paramNat (groupBytes s g) 23 2 = shownIndex (s.group g).head 0
    ∧ paramNat (groupBytes s g) 25 2 = shownIndex (s.group g).tail 0
    ∧ paramNat (groupBytes s g) 27 4 = ((s.group g).onsetAt.getD 0).toNat
    ∧ holdsAt (groupBytes s g) 31 4 ((s.group g).peak.getD 0)
    ∧ paramNat (groupBytes s g) 35 4 = ((s.group g).deadline.getD 0).toNat
    ∧ holdsAt (groupBytes s g) 39 1 ((s.group g).rampEntry.getD 0)
    ∧ paramNat (groupBytes s g) 40 4 = ((s.group g).rampStart.getD 0).toNat
    ∧ paramNat (groupBytes s g) 44 4 = ((s.group g).lingerStart.getD 0).toNat
    ∧ holdsAt (groupBytes s g) 54 4 (reportRequest s g) ∧ paramNat (groupBytes s g) 58 4 = s.time.tick.toNat := by
  have head : shownIndex (s.group g).head 0 % 256 ^ 2 = shownIndex (s.group g).head 0 :=
    shownIndex_mod (by norm_num) (by norm_num)
  have tail : shownIndex (s.group g).tail 0 % 256 ^ 2 = shownIndex (s.group g).tail 0 :=
    shownIndex_mod (by norm_num) (by norm_num)
  have tick (t : Tick) : t.toNat % 256 ^ 4 = t.toNat := Nat.mod_eq_of_lt t.isLt
  simp only [holdsAt, groupBytes_eq, paramNat_past, paramNat_first, paramNat_whole,
    paramNat_block (groupKeyBytes_length _), paramNat_block (groupQueueBytes_length s g), Nat.reduceLeDiff,
    Nat.reduceSub, head, tail, tick, and_self]

/-- The READ_GROUP result shows its record. -/
theorem groupBytes_shows (s : State) (g : GroupId) : showsGroup (groupBytes s g) s g := by
  obtain ⟨number, state, presence, count⟩ := groupBytes_head s g
  refine ⟨groupBytes_length s g, number, state.trans ?_, fun b => ?_, count, groupBytes_no_key, fun key hk => ?_,
    groupBytes_tail s g⟩
  · cases (s.group g).state <;> rfl
  · rw [presence]
    refine (presence_bits _ _ _ _ _ _ _ _ b).trans ?_
    fin_cases b <;> rfl
  · obtain ⟨queue, version, rest⟩ := groupBytes_key hk
    refine ⟨queue, version.trans ?_, rest⟩
    cases key.version <;> rfl

/-! ### READ_FLOW (R78, 11.6) -/

theorem flowKeyBytes_some (k : FlowKey) : flowKeyBytes (some k) =
    toBytes 1 (versionNumber k.version) ++ (toBytes 16 k.first.address.toNat ++ (toBytes 2 k.first.port.toNat
      ++ (toBytes 16 k.second.address.toNat ++ toBytes 2 k.second.port.toNat))) := by
  simp [flowKeyBytes]

/-- The endpoints and the FIN flags of a record, as READ_FLOW numbers them. -/
def FlowRecord.sidesNumber (r : FlowRecord) : Nat :=
  sideNumber r.initiator + 4 * sideNumber r.responder + 16 * r.fin1.toNat + 32 * r.fin2.toNat

theorem sideNumber_le (x : Option Side) : sideNumber x ≤ 2 := by
  cases x with
  | none => decide
  | some x => cases x <;> decide

/-- The fields of READ_FLOW, in their order. -/
theorem flowBytes_eq (s : State) (i : FlowId) : flowBytes s i =
    toBytes 2 i.val ++ (toBytes 4 s.time.tick.toNat ++ (toBytes 1 (flowStateNumber (s.flow i).state)
      ++ (toBytes 1 (s.flow i).sidesNumber ++ (flowKeyBytes (s.flow i).key
      ++ (toBytes 1 (((s.flow i).offer.map offerNumber).getD 255) ++ (toBytes 1 ((s.flow i).scale1.getD 255)
      ++ (toBytes 1 ((s.flow i).scale2.getD 255) ++ (toBytes 1 (shownIndex (s.flow i).group 255)
      ++ (toBytes 2 (shownIndex (s.flow i).prev 65535) ++ (toBytes 2 (shownIndex (s.flow i).next 65535)
      ++ (toBytes 2 (shownIndex (s.flow i).joinedQueue 65535) ++ toBytes 4 (s.flow i).lastSeen.toNat))))))))))) := by
  simp only [flowBytes, tickBytes, List.append_assoc]
  rfl

/-- The numbers before the key. -/
theorem flowBytes_head (s : State) (i : FlowId) :
    paramNat (flowBytes s i) 0 2 = i.val ∧ paramNat (flowBytes s i) 2 4 = s.time.tick.toNat
    ∧ paramNat (flowBytes s i) 6 1 = flowStateNumber (s.flow i).state
    ∧ paramNat (flowBytes s i) 7 1 = (s.flow i).sidesNumber := by
  have number := i.isLt
  have tick := s.time.tick.isLt
  have state : flowStateNumber (s.flow i).state ≤ 3 := by cases (s.flow i).state <;> decide
  have sides : (s.flow i).sidesNumber ≤ 58 := by
    have := sideNumber_le (s.flow i).initiator
    have := sideNumber_le (s.flow i).responder
    have := Bool.toNat_le (s.flow i).fin1
    have := Bool.toNat_le (s.flow i).fin2
    unfold FlowRecord.sidesNumber
    omega
  simp only [flowBytes_eq, paramNat_past, paramNat_first, Nat.reduceLeDiff, Nat.reduceSub]
  omega

/-- A record without a key shows 0 in its place. -/
theorem flowBytes_no_key (h : (s.flow i).key = none) : paramNat (flowBytes s i) 8 37 = 0 := by
  simp only [flowBytes_eq, h, flowKeyBytes, paramNat_past, paramNat_first, Nat.reduceLeDiff, Nat.reduceSub,
    Nat.zero_mod]

/-- The two endpoints of the key. -/
theorem flowBytes_key {k : FlowKey} (h : (s.flow i).key = some k) :
    paramNat (flowBytes s i) 8 1 = versionNumber k.version
    ∧ paramNat (flowBytes s i) 9 16 = k.first.address.toNat ∧ paramNat (flowBytes s i) 25 2 = k.first.port.toNat
    ∧ paramNat (flowBytes s i) 27 16 = k.second.address.toNat
    ∧ paramNat (flowBytes s i) 43 2 = k.second.port.toNat := by
  have first := k.first.address.isLt
  have firstPort := k.first.port.isLt
  have second := k.second.address.isLt
  have secondPort := k.second.port.isLt
  have version : versionNumber k.version ≤ 6 := by cases k.version <;> decide
  simp only [flowBytes_eq, h, flowKeyBytes_some, List.append_assoc, paramNat_past, paramNat_first, Nat.reduceLeDiff,
    Nat.reduceSub]
  omega

/-- The fields past the key. -/
theorem flowBytes_tail (s : State) (i : FlowId) :
    holdsAt (flowBytes s i) 45 1 (((s.flow i).offer.map offerNumber).getD 255)
    ∧ holdsAt (flowBytes s i) 46 1 ((s.flow i).scale1.getD 255)
    ∧ holdsAt (flowBytes s i) 47 1 ((s.flow i).scale2.getD 255)
    ∧ paramNat (flowBytes s i) 48 1 = shownIndex (s.flow i).group 255
    ∧ paramNat (flowBytes s i) 49 2 = shownIndex (s.flow i).prev 65535
    ∧ paramNat (flowBytes s i) 51 2 = shownIndex (s.flow i).next 65535
    ∧ paramNat (flowBytes s i) 53 2 = shownIndex (s.flow i).joinedQueue 65535
    ∧ paramNat (flowBytes s i) 55 4 = (s.flow i).lastSeen.toNat := by
  have group : shownIndex (s.flow i).group 255 % 256 ^ 1 = shownIndex (s.flow i).group 255 :=
    shownIndex_mod (by norm_num) (by norm_num)
  have pair {n : Nat} (v : Option (Fin n)) (hn : n ≤ 256 ^ 2) : shownIndex v 65535 % 256 ^ 2 = shownIndex v 65535 :=
    shownIndex_mod hn (by norm_num)
  have lastSeen : (s.flow i).lastSeen.toNat % 256 ^ 4 = (s.flow i).lastSeen.toNat :=
    Nat.mod_eq_of_lt (s.flow i).lastSeen.isLt
  simp only [holdsAt, flowBytes_eq, paramNat_past, paramNat_first, paramNat_whole,
    paramNat_block (flowKeyBytes_length _), Nat.reduceLeDiff, Nat.reduceSub, group, lastSeen,
    pair _ (by norm_num : 8192 ≤ 256 ^ 2), pair _ (by norm_num : 512 ≤ 256 ^ 2), and_self]

/-- The READ_FLOW result shows its record. -/
theorem flowBytes_shows (s : State) (i : FlowId) : showsFlow (flowBytes s i) s i := by
  obtain ⟨number, tick, state, sides⟩ := flowBytes_head s i
  obtain ⟨offer, rest⟩ := flowBytes_tail s i
  refine ⟨flowBytes_length s i, number, tick, state.trans ?_, sides.trans ?_, flowBytes_no_key, fun key hk => ?_,
    offer.trans ?_, rest⟩
  · cases (s.flow i).state <;> rfl
  · have bit (b : Bool) (n : Nat) : n * b.toNat = if b then n else 0 := by cases b <;> simp
    rw [FlowRecord.sidesNumber, bit, bit]
    rfl
  · obtain ⟨version, rest⟩ := flowBytes_key hk
    refine ⟨version.trans ?_, rest⟩
    cases key.version <;> rfl
  · cases (s.flow i).offer with
    | none => rfl
    | some x => cases x <;> rfl

/-! ### The two reads -/

theorem readGroupAnswer_framed (a : Byte) (s : State) : readGroupAnswer [1, a] s =
    if h : a.toNat < 128 then
      .good (groupBytes s ⟨a.toNat, h⟩)
        (if (s.group ⟨a.toNat, h⟩).key = none then { s with draws := s.draws + 1 } else s)
    else .check .indexRange 0 :=
  withParams_framed (n := 1) (ps := [a]) (by decide) ⟨rfl, rfl⟩ _

theorem readFlowAnswer_framed (a b : Byte) (s : State) : readFlowAnswer [2, a, b] s =
    if h : a.toNat * 256 + b.toNat < 8192 then .good (flowBytes s ⟨a.toNat * 256 + b.toNat, h⟩) s
    else .check .indexRange 0 := by
  refine (withParams_framed (n := 2) (ps := [a, b]) (by decide) ⟨rfl, rfl⟩ _).trans ?_
  simp only [paramNat_pair]

end

/-- Settles O21: the index test of each, then the record as its result shows it. -/
theorem groupAndFlowReadsReport : Obligations.GroupAndFlowReadsReport := by
  constructor
  · intro s a hs
    have answered : exec (.readGroup [1, a]) s = .next (applyAnswer 0x31 s (readGroupAnswer [1, a] s)) :=
      congrArg Host.Outcome.next ((takeRequest_spec 0x31 (readGroupAnswer [1, a]) s).2.2 hs)
    rw [answered, readGroupAnswer_framed]
    refine ⟨fun high => ?_, fun g hg => ⟨groupBytes s g, groupBytes_shows s g, ?_⟩⟩
    · rw [dif_neg (not_lt.mpr high)]
      rfl
    · have number : (⟨a.toNat, hg ▸ g.isLt⟩ : GroupId) = g := Fin.ext hg.symm
      rw [dif_pos (hg ▸ g.isLt), number, applyAnswer_good]
  · intro s a b hs
    have answered : exec (.readFlow [2, a, b]) s = .next (applyAnswer 0x32 s (readFlowAnswer [2, a, b] s)) :=
      congrArg Host.Outcome.next ((takeRequest_spec 0x32 (readFlowAnswer [2, a, b]) s).2.2 hs)
    rw [answered, readFlowAnswer_framed]
    refine ⟨fun high => ?_, fun i hi => ⟨flowBytes s i, flowBytes_shows s i, ?_⟩⟩
    · rw [dif_neg (not_lt.mpr high)]
      rfl
    · have number : (⟨a.toNat * 256 + b.toNat, hi ▸ i.isLt⟩ : FlowId) = i := Fin.ext hi.symm
      rw [dif_pos (hi ▸ i.isLt), number, applyAnswer_good]

end Sys2Proof.Machine

namespace Sys2Proof.Machine

/-! ### Framing without a fixed length (R173) -/

section
variable {n : Nat} {body ps : List Byte}

theorem framed_of_framesExactly (hn : n ≤ 60) (h : framesExactly n body ps) : framed body = some ps := by
  obtain ⟨rfl, length⟩ := h
  have value : (BitVec.ofNat 8 n).toNat = n := by
    simp
    omega
  exact if_pos (by rw [value]; exact ⟨hn, length⟩)

theorem framesExactly_of_framed (h : framed body = some ps) : ps.length ≤ 60 ∧ framesExactly ps.length body ps := by
  cases body with
  | nil => cases h
  | cons len rest =>
    rw [framed] at h
    split_ifs at h with hl
    obtain ⟨low, length⟩ := hl
    cases h
    refine ⟨length ▸ low, ?_, rfl⟩
    rw [length, BitVec.ofNat_toNat, BitVec.setWidth_eq]

end

/-! ### FIND_FLOW (R79, 11.6) -/

section
variable {s : State} {v : IpVersion} {a b : Endpoint} {body ps : List Byte}

/-- The fields of FIND_FLOW, in their order. -/
theorem findBytes_eq (v : IpVersion) (a b : Endpoint) : findBytes v a b =
    toBytes 1 (versionNumber v) ++ (toBytes (addressBytes v) a.address.toNat ++ (toBytes 2 a.port.toNat
      ++ (toBytes (addressBytes v) b.address.toNat ++ toBytes 2 b.port.toNat))) := by
  simp [findBytes]

@[simp] theorem findBytes_length (v : IpVersion) (a b : Endpoint) :
    (findBytes v a b).length = 5 + 2 * addressBytes v := by
  cases v <;> simp [findBytes, addressBytes]

theorem findBytes_framed (v : IpVersion) (a b : Endpoint) : framesExactly (5 + 2 * addressBytes v)
    (BitVec.ofNat 8 (5 + 2 * addressBytes v) :: findBytes v a b) (findBytes v a b) :=
  ⟨rfl, findBytes_length v a b⟩

/-- The first byte names the version and sets no reserved bit. -/
theorem findBytes_version (v : IpVersion) (a b : Endpoint) : versionField (paramByte (findBytes v a b) 0) = some v
    ∧ noneReserved findFlowReserved (findBytes v a b) := by
  have first : paramByte (findBytes v a b) 0 = BitVec.ofNat 8 (versionNumber v) := by
    rw [findBytes_eq, paramByte_first Nat.zero_lt_one, Nat.sub_self, Nat.pow_zero, Nat.div_one]
  refine ⟨by rw [first]; cases v <;> rfl, fun o m hm => ?_⟩
  simp only [findFlowReserved, List.mem_singleton, Prod.mk.injEq] at hm
  obtain ⟨rfl, rfl⟩ := hm
  rw [first]
  cases v <;> rfl

/-- An endpoint that fits its version is spelled by its fields. -/
theorem endpointField_eq {o : Nat} (address : paramNat ps o (addressBytes v) = a.address.toNat)
    (port : paramNat ps (o + addressBytes v) 2 = a.port.toNat) : endpointField ps v o = a := by
  rw [endpointField, address, port, BitVec.ofNat_toNat, BitVec.setWidth_eq, BitVec.ofNat_toNat, BitVec.setWidth_eq]

theorem address_fits (h : a.fits v) : a.address.toNat % 256 ^ addressBytes v = a.address.toNat := by
  refine Nat.mod_eq_of_lt ?_
  cases v with
  | v4 => exact h rfl
  | v6 => exact a.address.isLt

/-- The bytes of two endpoints that fit their version spell them. -/
theorem findBytes_spells (ha : a.fits v) (hb : b.fits v) : endpointField (findBytes v a b) v 1 = a
    ∧ endpointField (findBytes v a b) v (3 + addressBytes v) = b := by
  have fitsA := address_fits ha
  have fitsB := address_fits hb
  have port (x : Endpoint) : x.port.toNat % 256 ^ 2 = x.port.toNat := Nat.mod_eq_of_lt x.port.isLt
  constructor
  · refine endpointField_eq ?_ ?_
    · rw [findBytes_eq, paramNat_past (by omega), Nat.sub_self, paramNat_first, fitsA]
    · rw [findBytes_eq, paramNat_past (by omega), Nat.add_sub_cancel_left, paramNat_past le_rfl, Nat.sub_self,
        paramNat_first, port]
  · have fields : findBytes v a b = (toBytes 1 (versionNumber v) ++ toBytes (addressBytes v) a.address.toNat
        ++ toBytes 2 a.port.toNat) ++ (toBytes (addressBytes v) b.address.toNat ++ toBytes 2 b.port.toNat) := by
      simp [findBytes]
    have length : (toBytes 1 (versionNumber v) ++ toBytes (addressBytes v) a.address.toNat
        ++ toBytes 2 a.port.toNat).length = 3 + addressBytes v := by
      simp
      omega
    refine endpointField_eq ?_ ?_
    · rw [fields, paramNat_block length le_rfl, Nat.sub_self, paramNat_first, fitsB]
    · rw [fields, paramNat_block length (by omega), Nat.add_sub_cancel_left, paramNat_past le_rfl, Nat.sub_self,
        paramNat_whole, port]

/-- What FIND_FLOW answers to the bytes of two endpoints. -/
theorem findFlowAnswer_findBytes (ha : a.fits v) (hb : b.fits v) (s : State) :
    findFlowAnswer (BitVec.ofNat 8 (5 + 2 * addressBytes v) :: findBytes v a b) s
      = .good (findFlowBytes s v a b) s := by
  have small : 5 + 2 * addressBytes v ≤ 60 := by cases v <;> decide
  obtain ⟨version, reserved⟩ := findBytes_version v a b
  obtain ⟨first, second⟩ := findBytes_spells ha hb
  unfold findFlowAnswer
  rw [framed_of_framesExactly small (findBytes_framed v a b)]
  dsimp only
  rw [if_neg (by rw [findBytes_length]; omega), unlessReserved_none reserved, version]
  dsimp only
  rw [if_neg (not_not.mpr (findBytes_length v a b)), first, second]

/-! The lookup, in either order of the endpoints. -/

theorem findFlowBytes_of_key {key : FlowKey} {x : Side} {i : FlowId} (hk : canonicalKey v a b = some (key, x))
    (hit : findFlowRecord s key = some i) : findFlowBytes s v a b = 1 :: flowBytes s i := by
  rw [findFlowBytes, hk]
  dsimp only
  rw [hit]
  rfl

/-- A record in use is found by its key, its endpoints in either order (R54, R79). -/
theorem findFlowBytes_found {i : FlowId} (placed : s.flowsPlaced) (used : (s.flow i).state ≠ .free)
    (hk : (s.flow i).key = some { version := v, first := a, second := b }
      ∨ (s.flow i).key = some { version := v, first := b, second := a }) :
    findFlowBytes s v a b = 1 :: flowBytes s i := by
  obtain ⟨key, own, ordered, -⟩ := placed.1 i used
  obtain hk | hk := hk
  · cases own.symm.trans hk
    exact findFlowBytes_of_key (canonicalKey_of_lt v ordered).1 (findFlowRecord_of_placed placed used hk)
  · cases own.symm.trans hk
    exact findFlowBytes_of_key (canonicalKey_of_lt v ordered).2 (findFlowRecord_of_placed placed used hk)

/-- The key of two endpoints holds them in one of their orders. -/
theorem canonicalKey_cases {key : FlowKey} {x : Side} (h : canonicalKey v a b = some (key, x)) :
    key = { version := v, first := a, second := b } ∨ key = { version := v, first := b, second := a } := by
  unfold canonicalKey at h
  split_ifs at h
  · cases h
    exact .inl rfl
  · cases h
    exact .inr rfl

theorem findFlowBytes_missing (h : ∀ i, (s.flow i).state ≠ .free →
      (s.flow i).key ≠ some { version := v, first := a, second := b }
      ∧ (s.flow i).key ≠ some { version := v, first := b, second := a }) : findFlowBytes s v a b = [0] := by
  cases hk : canonicalKey v a b with
  | none =>
    rw [findFlowBytes, hk]
    rfl
  | some found =>
    obtain ⟨key, x⟩ := found
    have miss : findFlowRecord s key = none := findFlowRecord_eq_none fun i _ used => by
      obtain rfl | rfl := canonicalKey_cases hk
      · exact (h i used).1
      · exact (h i used).2
    rw [findFlowBytes, hk]
    dsimp only
    rw [miss]
    rfl

/-! The refusals of 11.6 note 3. -/

/-- A frame of no legal length. -/
theorem findFlowAnswer_misframed (h : ∀ n, 1 ≤ n → n ≤ 60 → misframed n body) (s : State) :
    findFlowAnswer body s = .check .badLength frameOffset := by
  unfold findFlowAnswer
  split
  · rfl
  · rename_i ps hf
    obtain ⟨low, exactly⟩ := framesExactly_of_framed hf
    exact if_pos (not_le.mp fun some_param => h ps.length some_param low ps exactly)

/-- What the first parameter byte decides. -/
theorem findFlowAnswer_framed {n : Nat} {first : Byte} (hn : n ≤ 60) (h : framesExactly n body (first :: ps)) (s : State) :
    (first &&& 0xF0 ≠ 0 → findFlowAnswer body s = .check .reservedSet 0)
    ∧ (first &&& 0xF0 = 0 → versionField first = none → findFlowAnswer body s = .check .outOfRange 0)
    ∧ (first &&& 0xF0 = 0 → versionField first = some v → n ≠ 5 + 2 * addressBytes v →
      findFlowAnswer body s = .check .badLength frameOffset) := by
  have framed := framed_of_framesExactly hn h
  have some_param : ¬ (first :: ps).length < 1 := by simp
  have clear (h0 : first &&& 0xF0 = 0) : noneReserved findFlowReserved (first :: ps) := by
    intro o m hm
    simp only [findFlowReserved, List.mem_singleton, Prod.mk.injEq] at hm
    obtain ⟨rfl, rfl⟩ := hm
    exact h0
  have first_byte : paramByte (first :: ps) 0 = first := rfl
  unfold findFlowAnswer
  rw [framed]
  dsimp only
  rw [if_neg some_param, first_byte]
  refine ⟨fun h0 => unlessReserved_some (by decide) ?_ _, fun h0 hv => ?_, fun h0 hv length => ?_⟩
  · exact ⟨⟨0xF0, List.mem_singleton_self _, h0⟩, fun _ _ _ ho => absurd ho (Nat.not_lt_zero _)⟩
  · rw [unlessReserved_none (clear h0), hv]
  · rw [unlessReserved_none (clear h0), hv]
    exact if_pos (by rw [h.2]; exact length)

theorem versionField_of_nibble {first : Byte} (h : first &&& 0xF0 = 0) :
    versionField first = if first = 4 then some .v4 else if first = 6 then some .v6 else none := by
  revert first
  decide

end

/-- Settles O22: the bytes of two endpoints spell them, and the lookup of their key decides. -/
theorem findFlowFindsByKey : Obligations.FindFlowFindsByKey := by
  have answered {s : State} (hs : s.takesRequests) (body : List Byte) :
      exec (.findFlow body) s = .next (applyAnswer 0x33 s (findFlowAnswer body s)) :=
    congrArg Host.Outcome.next ((takeRequest_spec 0x33 (findFlowAnswer body) s).2.2 hs)
  constructor
  · intro s v a b hs placed ha hb
    rw [answered hs, findFlowAnswer_findBytes ha hb, applyAnswer_good]
    refine ⟨fun i used hk => ⟨flowBytes s i, flowBytes_shows s i, ?_⟩, fun missing => ?_⟩
    · rw [findFlowBytes_found placed used hk]
    · rw [findFlowBytes_missing missing]
  · intro s body hs
    rw [answered hs]
    refine ⟨fun misframed => ?_, fun n first ps hn hf => ⟨fun h0 => ?_, fun h0 h4 h6 => ?_, fun h => ?_⟩⟩
    · rw [findFlowAnswer_misframed misframed]
      rfl
    · rw [(findFlowAnswer_framed (v := .v4) hn hf s).1 h0]
      rfl
    · have no_version : versionField first = none := by
        rw [versionField_of_nibble h0, if_neg h4, if_neg h6]
      rw [(findFlowAnswer_framed (v := .v4) hn hf s).2.1 h0 no_version]
      rfl
    · obtain ⟨rfl, length⟩ | ⟨rfl, length⟩ := h
      · rw [(findFlowAnswer_framed (v := .v4) hn hf s).2.2 (by decide) rfl length]
        rfl
      · rw [(findFlowAnswer_framed (v := .v6) hn hf s).2.2 (by decide) rfl length]
        rfl

end Sys2Proof.Machine

namespace Sys2Proof.Machine

/-! ### An abrupt release, group by group (R105, R159) -/

section
variable {s t : State}

theorem releaseOn_of_episode {g : GroupId} (h : (s.group g).state.isEpisode = true) :
    releaseOn g s = endEpisode g .release s := if_pos h

theorem releaseOn_of_no_episode {g : GroupId} (h : ¬ (s.group g).state.isEpisode = true) : releaseOn g s = s := if_neg h

theorem groupAction_releaseOn : GroupAction releaseOn where
  frame := releaseOn_groupFrame
  other {g h} hne u := by
    by_cases he : (u.group g).state.isEpisode = true
    · rw [releaseOn_of_episode he, endEpisode_group, if_neg hne]
    · rw [releaseOn_of_no_episode he]

/-- Every group after the abrupt release's event over the groups (R105). -/
theorem forGroups_releaseOn_group (g : GroupId) : (forGroups s releaseOn).group g =
    if (s.group g).state.isEpisode = true then (s.group g).toWatch else s.group g := by
  refine groupAction_releaseOn.group (s := s)
    (G := fun g => if (s.group g).state.isEpisode = true then (s.group g).toWatch else s.group g)
    (fun g u _ hg => ?_) g
  split_ifs with he
  · rw [releaseOn_of_episode (hg.symm ▸ he), endEpisode_group, if_pos rfl, hg]
  · rw [releaseOn_of_no_episode (hg.symm ▸ he), hg]

/-- An abrupt release leaves no episode (R105). -/
theorem forGroups_releaseOn_no_episode (g : GroupId) :
    ((forGroups s releaseOn).group g).state.isEpisode = false := by
  rw [forGroups_releaseOn_group]
  split_ifs with he
  · rfl
  · simpa using he

/-- With no group in an episode every active member total is 0, so that clearing them all changes none (R83). -/
theorem clearTotals_accounted (A : s.groupsAccounted) (idle : ∀ g, (s.group g).state.isEpisode = false)
    (flows : t.ft.flows = s.ft.flows) (groups : t.gc.groups = s.gc.groups) (totals : t.gc.totals = []) :
    t.groupsAccounted := by
  have ⟨_, _, _, _, free, _, sums⟩ := A
  have zero (q : QueueId) : s.total q = 0 := by
    rw [sums q]
    exact Finset.sum_eq_zero fun g _ => if_neg fun h => Bool.eq_false_iff.mp (idle g) h.1
  have flow (i : FlowId) : t.flow i = s.flow i := by rw [State.flow, flows, State.flow]
  refine accounted_congr A (fun g => ?_) (fun q => ?_) (fun i => by rw [flow]) fun i hi => ?_
  · rw [State.group, groups, State.group]
  · rw [zero, State.total, totals, tableGet_nil]
  · rw [flow] at hi ⊢
    exact free i hi

theorem releaseAll_accounted (A : s.groupsAccounted) : (releaseAll s).groupsAccounted := by
  have kept : (forGroups s releaseOn).groupsAccounted :=
    forGroups_keeps State.groupsAccounted releaseOn (fun g _ h => accounted_writes.releaseOn h g) A
  have idle (g : GroupId) := forGroups_releaseOn_no_episode (s := s) g
  unfold releaseAll
  generalize forGroups s releaseOn = u at kept idle ⊢
  exact clearTotals_accounted kept idle rfl rfl rfl

/-! ### The accounting over every command (R80 to R83, R89) -/

theorem queueTableClear_accounted (A : s.groupsAccounted) : (queueTableClear s).groupsAccounted := by
  unfold queueTableClear finishClears
  split
  · split <;> exact accounted_of_tables A rfl rfl rfl
  · exact A

theorem flowGroupClear_accounted (A : s.groupsAccounted) : (flowGroupClear s).groupsAccounted := by
  unfold flowGroupClear finishClears
  split
  · split <;> exact accounted_of_tables clearFlowsAndGroups_accounted rfl rfl rfl
  · exact A

theorem walkPast_accounted (A : s.groupsAccounted) (i : FlowId) : (walkPast i s).groupsAccounted := by
  unfold walkPast
  split_ifs <;> exact accounted_of_tables A rfl rfl rfl

theorem walkStep_accounted (A : s.groupsAccounted) : (walkStep s).groupsAccounted := by
  unfold walkStep
  split
  · split_ifs
    · have passed : (refclkPeriod s).groupsAccounted := accounted_of_tables A rfl rfl rfl
      exact walkPast_accounted (accounted_writes.freeRecord passed _) _
    · exact A
  · exact A

theorem takeTimed_accounted (A : s.groupsAccounted) (e : TimedEvent) : (takeTimed e s).groupsAccounted :=
  takeTimed_keeps (P := State.groupsAccounted) (fun e _ h => accounted_writes.timedEffect h e)
    (fun _ _ h => accounted_of_tables h rfl rfl rfl) e A

theorem sweepVisit_accounted (A : s.groupsAccounted) (i : FlowId) : (sweepVisit i s).groupsAccounted := by
  unfold sweepVisit
  split_ifs
  · exact accounted_writes.drainEnd (accounted_of_tables (accounted_writes.visitRecord A i) rfl rfl rfl)
  · exact A

theorem sweepPassEnd_accounted (A : s.groupsAccounted) : (sweepPassEnd s).groupsAccounted := by
  unfold sweepPassEnd
  split_ifs
  · exact accounted_of_tables A rfl rfl rfl
  · exact A

theorem drain_accounted (A : s.groupsAccounted) : (drain s).groupsAccounted :=
  accounted_writes.drainEnd (forGroups_keeps State.groupsAccounted drainOn
    (fun g _ h => accounted_writes.drainOn h g) (accounted_of_tables A rfl rfl rfl))

theorem accounted_law : CommandLaw State.groupsAccounted where
  congr h same := accounted_of_tables h (by rw [same.ft]) (by rw [same.gc]) (by rw [same.gc])
  nextStage h x := accounted_writes.nextStage h x
  takeTimed h e := takeTimed_accounted h e
  sweepVisit h i := sweepVisit_accounted h i
  sweepPassEnd h := sweepPassEnd_accounted h
  walkStep h := walkStep_accounted h
  drainEnd h := accounted_writes.drainEnd h
  queueTableClear h := queueTableClear_accounted h
  flowGroupClear h := flowGroupClear_accounted h
  reset _ := empty_accounted ⟨fun _ => rfl, fun _ => rfl, fun _ => rfl⟩ fun _ => rfl
  observe h _ _ := accounted_of_tables h rfl rfl rfl
  enforce h _ _ := accounted_of_tables h rfl rfl rfl
  drain h _ _ := drain_accounted h
  releaseAll h _ _ := releaseAll_accounted h
  clears h _ _ := accounted_of_tables h rfl rfl rfl
  walk h _ _ := accounted_of_tables h rfl rfl rfl
  setTimers h _ _ _ := accounted_of_tables h rfl rfl rfl

theorem tickOnce_accounted (A : s.groupsAccounted) : (tickOnce s).groupsAccounted :=
  tickOnce_keeps (P := State.groupsAccounted) (fun e _ h => takeTimed_accounted h e)
    (fun i _ h => sweepVisit_accounted h i) (fun _ h => sweepPassEnd_accounted h) (fun _ h => walkStep_accounted h)
    (fun _ h => accounted_of_tables h rfl rfl rfl) A

end

/-- Settles O7: every change of one group's record, of its members or of its queue's total keeps the accounts, and
the abrupt release clears the totals only when no episode is left to count. -/
theorem groupAccountingHolds : Obligations.GroupAccountingHolds :=
  fun _ _ h hstep => accounted_law.step_law tickOnce_accounted h hstep

end Sys2Proof.Machine

namespace Sys2Proof.Machine

/-! ### The entries that one group offers (R92) -/

/-- The entries that group `g` offers under its key; a group without a key offers none. -/
def State.groupEntries (s : State) (g : GroupId) (entries : GroupKey → List LogEntry) : List LogEntry :=
  ((s.group g).key.map entries).getD []

theorem entriesOf_eq (s : State) (entries : GroupId → GroupKey → List LogEntry) :
    s.entriesOf entries = (List.finRange 128).flatMap fun g => s.groupEntries g (entries g) := by
  unfold State.entriesOf State.groupEntries
  congr 1
  funext g
  cases (s.group g).key <;> rfl

section
variable {s t u : State} {g : GroupId} {key : GroupKey}

theorem groupEntries_of_key (h : (s.group g).key = some key) (entries : GroupKey → List LogEntry) :
    s.groupEntries g entries = entries key := by
  rw [State.groupEntries, h]
  rfl

theorem groupEntries_of_no_key (h : (s.group g).key = none) (entries : GroupKey → List LogEntry) :
    s.groupEntries g entries = [] := by
  rw [State.groupEntries, h]
  rfl

@[simp] theorem groupEntries_nil : s.groupEntries g (fun _ => []) = [] := by
  unfold State.groupEntries
  cases (s.group g).key <;> rfl

theorem SameReport.refl (s : State) : SameReport s s := ⟨rfl, rfl, rfl⟩

/-- Two states in which a group's entries come out the same: its record, the tick and the queue records. -/
structure SameEntries (s u : State) (g : GroupId) : Prop where
  group : u.group g = s.group g
  now : u.now = s.now
  depths : u.depths = s.depths

theorem SameEntries.of_groupFrame (frame : u.groupFrame = s.groupFrame) (group : u.group g = s.group g) :
    SameEntries s u g := ⟨group, groupFrame_now frame, groupFrame_depths frame⟩

theorem SameEntries.queue (h : SameEntries s u g) (q : QueueId) : u.queue q = s.queue q := queue_of_depths h.depths q

theorem SameEntries.moveEntry (h : SameEntries s u g) (kind : LogKind) (depth : Nat) :
    u.moveEntry g key kind depth = s.moveEntry g key kind depth := by
  unfold State.moveEntry
  rw [h.group, show u.time.tick = s.time.tick from h.now]

theorem SameEntries.endEntry (h : SameEntries s u g) : u.endEntry g key = s.endEntry g key := by
  unfold State.endEntry
  rw [h.group, h.queue, show u.time.tick = s.time.tick from h.now]

theorem SameEntries.groupEntries (h : SameEntries s u g) (entries : GroupKey → List LogEntry) :
    u.groupEntries g entries = s.groupEntries g entries := by
  unfold State.groupEntries
  rw [h.group]

/-- The offer of a transition is the offer of the entry under the group's key (R92). -/
theorem offerFor_eq_offerAll (g : GroupId) (kind : LogKind) (u : State) : offerFor g kind .none false u
    = offerAll (u.groupEntries g fun key => [u.moveEntry g key kind (u.queue key.queue).estimate]) u := by
  cases hk : (u.group g).key with
  | none =>
    rw [groupEntries_of_no_key hk, offerFor, hk]
    rfl
  | some key =>
    rw [groupEntries_of_key hk, offerFor_eq_offer hk kind _ rfl]
    rfl

/-- The offer of the end of an episode is the offer of its END entry under the group's key (R92). -/
theorem offerFor_final_eq_offerAll (g : GroupId) (cause : LogCause) (u : State) : offerFor g .ended cause true u
    = offerAll (u.groupEntries g fun key => [{ u.endEntry g key with cause := cause }]) u := by
  cases hk : (u.group g).key with
  | none =>
    rw [groupEntries_of_no_key hk, offerFor, hk]
    rfl
  | some key =>
    rw [groupEntries_of_key hk, offerFor_eq_endEntry hk]
    rfl

theorem subTotal_report (g : GroupId) (n : Nat) (s : State) : SameReport (subTotal g n s) s := by
  unfold subTotal
  split <;> exact ⟨rfl, rfl, rfl⟩

theorem addTotal_report (g : GroupId) (n : Nat) (s : State) : SameReport (addTotal g n s) s := by
  unfold addTotal
  split <;> exact ⟨rfl, rfl, rfl⟩

/-- The end of an episode reports its END entry and nothing else (R92, R100, R105). -/
theorem endEpisode_report (g : GroupId) (cause : LogCause) (u : State) : SameReport (endEpisode g cause u)
    (offerAll (u.groupEntries g fun key => [{ u.endEntry g key with cause := cause }]) u) := by
  rw [← offerFor_final_eq_offerAll]
  have written : SameReport (endEpisode g cause u)
    (subTotal g ((offerFor g .ended cause true u).group g).count (offerFor g .ended cause true u)) := ⟨rfl, rfl, rfl⟩
  exact written.trans (subTotal_report g _ _)

end

/-! ### An accepted abrupt release (R105, R159) -/

section
variable {s : State}

/-- The entries of an abrupt release, in ascending group index (R92, R96, R105). -/
theorem forGroups_releaseOn_report : SameReport (forGroups s releaseOn) (offerAll (s.entriesOf fun g key =>
    if (s.group g).state.isEpisode = true then [{ s.endEntry g key with cause := .release }] else []) s) := by
  rw [entriesOf_eq]
  refine groupAction_releaseOn.offers fun g u hf hg => ?_
  have same := SameEntries.of_groupFrame hf hg
  by_cases he : (s.group g).state.isEpisode = true
  · rw [releaseOn_of_episode (hg.symm ▸ he)]
    simpa only [he, if_true, same.groupEntries, same.endEntry] using endEpisode_report g .release u
  · rw [releaseOn_of_no_episode (hg.symm ▸ he)]
    simpa [he] using SameReport.refl u

theorem releaseAll_eq (s : State) : releaseAll s = { forGroups s releaseOn with
    gc := { (forGroups s releaseOn).gc with totals := [] }, mode := .observe } := rfl

theorem oneParam_framed (b : Byte) : framesExactly 1 [1, b] [b] := ⟨rfl, rfl⟩

/-- RELEASE with no reserved bit set: the table of R155. -/
theorem releaseAnswer_framed {b : Byte} (h : b &&& 0xFE = 0) (abrupt : Bool) (s : State) :
    releaseAnswer abrupt [1, b] s = match s.mode, abrupt with
      | .transparent, _ | .observe, _ => .check .wrongMode 0
      | .draining, false => .busy
      | .enforce, false => .good [] (drain s)
      | .enforce, true | .draining, true => .good [] (releaseAll s) := by
  have reserved : noneReserved bitZeroReserved [b] := by
    intro o m hm
    cases List.mem_singleton.mp hm
    exact h
  refine (withParams_framed (by decide) (oneParam_framed b) _).trans ((unlessReserved_none reserved _).trans ?_)
  cases s.mode <;> cases abrupt <;> rfl

theorem exec_releaseGraceful (hs : s.takesRequests) (body : List Byte) :
    exec (.releaseGraceful body) s = .next (applyAnswer 0x22 s (releaseAnswer false body s)) :=
  congrArg Host.Outcome.next ((takeRequest_spec 0x22 (releaseAnswer false body) s).2.2 hs)

theorem exec_releaseAbrupt (hs : s.takesRequests) (body : List Byte) :
    exec (.releaseAbrupt body) s = .next (applyAnswer 0x22 s (releaseAnswer true body s)) :=
  congrArg Host.Outcome.next ((takeRequest_spec 0x22 (releaseAnswer true body) s).2.2 hs)

end

/-- Settles O36: `releaseAll` acts on one group after another, and clears the totals. -/
theorem abruptReleaseEndsEveryEpisode : Obligations.AbruptReleaseEndsEveryEpisode := by
  intro s hs hm
  have accepted : releaseAnswer true [1, 1] s = .good [] (releaseAll s) := by
    rw [releaseAnswer_framed (by decide)]
    obtain hm | hm := hm <;> rw [hm]
  have frame := forGroups_groupFrame (s := s) releaseOn releaseOn_groupFrame
  have report := forGroups_releaseOn_report (s := s)
  have group := forGroups_releaseOn_group (s := s)
  refine ⟨releaseAll s, by rw [exec_releaseAbrupt hs, accepted, applyAnswer_good], ?_⟩
  rw [releaseAll_eq]
  generalize forGroups s releaseOn = u at frame report group ⊢
  exact ⟨rfl, fun _ => rfl, group, (groupFrame_link frame :), (groupFrame_profile frame :), (groupFrame_depths frame :),
    (groupFrame_ft frame :), (groupFrame_time frame :), (groupFrame_lingerTime frame :), (groupFrame_port frame :),
    report.log, report.counters, report.alerts⟩

end Sys2Proof.Machine

namespace Sys2Proof.Machine

/-! ### The onset test (R93, R94) -/

section
variable {s t u v : State} {g : GroupId} {key : GroupKey}

/-- The onset test opens an episode of a group in WATCH exactly where its onset condition does not fail (R93). -/
theorem onsetHolds_iff_not_fails (s : State) (g : GroupId) :
    onsetHolds s g = true ↔ (s.group g).state = .watch ∧ ¬ s.onsetFails g := by
  have admits : (s.mode = .observe ∨ s.mode = .enforce) ↔ ¬ (s.mode = .transparent ∨ s.mode = .draining) := by
    cases s.mode <;> decide
  rw [onsetHolds_iff]
  constructor
  · rintro ⟨key, hk, watch, on, enough, deep, mode⟩
    refine ⟨watch, fun fails => ?_⟩
    obtain off | few | shallow | wrong := fails key hk
    · exact on off
    · exact absurd enough (Nat.not_le.mpr few)
    · exact absurd deep (Nat.not_le.mpr shallow)
    · exact admits.mp mode wrong
  · rintro ⟨watch, holds⟩
    simp only [State.onsetFails, not_forall, not_or, Nat.not_lt] at holds
    obtain ⟨key, hk, on, enough, deep, wrong⟩ := holds
    exact ⟨key, hk, watch, on, enough, deep, admits.mpr (not_or.mpr wrong)⟩

theorem onsetHolds_of_key (hk : (s.group g).key = some key) : onsetHolds s g = true ↔
    (s.group g).state = .watch ∧ (s.queueClass key.queue).fanIn ≠ 0
      ∧ (s.queueClass key.queue).fanIn ≤ (s.group g).count
      ∧ (s.queueClass key.queue).onsetDepth ≤ (s.queue key.queue).estimate
      ∧ (s.mode = .observe ∨ s.mode = .enforce) := by
  rw [onsetHolds_iff, hk]
  simp

theorem testOnset_of_holds (h : onsetHolds s g = true) : testOnset g s = onset g s := if_pos h

theorem testOnset_of_not (h : ¬ onsetHolds s g = true) : testOnset g s = s := if_neg h

theorem groupQueue_eq_iff (hk : (s.group g).key = some key) (q : QueueId) :
    s.groupQueue g = some q ↔ q = key.queue := by
  rw [State.groupQueue, hk, Option.map_some, Option.some.injEq, eq_comm]

theorem onset_group_self (hk : (s.group g).key = some key) : (onset g s).group g =
    { s.group g with state := .active, onsetAt := some s.now, peak := some (s.queue key.queue).estimate } := by
  rw [onset_group, if_pos rfl, hk]
  rfl

end

/-- Settles O40: the test is `onset` where its condition holds, else nothing. -/
theorem onsetFollowsItsCondition : Obligations.OnsetFollowsItsCondition := by
  intro s g key hk c meets
  have holds : onsetHolds s g = true ↔ meets := onsetHolds_of_key hk
  have frame := onset_groupFrame g s
  refine ⟨fun h => testOnset_of_not (mt holds.mp h), fun h => ?_⟩
  rw [testOnset_of_holds (holds.mpr h)]
  refine ⟨onset_group_self hk, fun h hne => by rw [onset_group, if_neg hne], fun q => ?_, onset_alerts_onset g s,
    onset_onsets g s, groupFrame_depths frame, groupFrame_ft frame, groupFrame_mode frame, groupFrame_time frame⟩
  rw [onset_total]
  simp only [groupQueue_eq_iff hk]

/-! ### What the onset tests of a return to OBSERVE leave (R104, R158) -/

/-- The log, the counters and the alert flags are the same but for the onsets counter and the ONSET flag. -/
structure SameButOnset (s t : State) : Prop where
  log : s.log = t.log
  counter : ∀ c, c ≠ Counter.onsets → s.counter c = t.counter c
  alerts : ∀ b, { s.alerts with onset := b } = { t.alerts with onset := b }

section
variable {s t u v : State} {g : GroupId}

theorem SameReport.sameButOnset (h : SameReport s t) : SameButOnset s t where
  log := h.log
  counter c _ := by rw [State.counter, h.counters, State.counter]
  alerts b := by rw [h.alerts]

theorem SameButOnset.trans (h : SameButOnset s t) (h' : SameButOnset t u) : SameButOnset s u where
  log := h.log.trans h'.log
  counter c hc := (h.counter c hc).trans (h'.counter c hc)
  alerts b := (h.alerts b).trans (h'.alerts b)

theorem SameButOnset.offer (h : SameButOnset s t) (mode : s.mode = .transparent ↔ t.mode = .transparent)
    (e : LogEntry) : SameButOnset (offer e s) (offer e t) := by
  unfold Machine.offer
  simp only [mode, h.log]
  split_ifs
  · exact h
  · exact h
  · refine ⟨h.log, fun c hc => ?_, fun b => ?_⟩
    · simp only [State.flagLogOverflow_counter, State.bump_counter]
      rw [h.counter c hc, h.counter _ (by decide)]
    · exact congrArg (fun a : Alerts => { a with logOverflow := true }) (h.alerts b)
  · exact ⟨rfl, h.counter, h.alerts⟩

theorem SameButOnset.offerAll (h : SameButOnset s t) (mode : s.mode = .transparent ↔ t.mode = .transparent)
    (es : List LogEntry) : SameButOnset (offerAll es s) (offerAll es t) := by
  induction es generalizing s t with
  | nil => exact h
  | cons e es ih => exact ih (h.offer mode e) (by simpa using mode)

/-- An onset reports its ONSET entry, the onsets counter and the ONSET flag (R92, R94). -/
theorem onset_report (g : GroupId) (u : State) : SameButOnset (onset g u)
    (offerAll (u.groupEntries g fun key => [u.moveEntry g key .onset (u.queue key.queue).estimate]) u) := by
  have opened : SameReport (onsetOpened g u) u := ⟨onsetOpened_log g u, (addTotal_report g _ _).counters.trans rfl,
    (addTotal_report g _ _).alerts.trans rfl⟩
  have frame := onsetOpened_frame g u
  have record : ((onsetOpened g u).group g).key = (u.group g).key
      ∧ ((onsetOpened g u).group g).count = (u.group g).count := by simp [onsetOpened]
  have entries : ((onsetOpened g u).groupEntries g fun key =>
      [(onsetOpened g u).moveEntry g key .onset ((onsetOpened g u).queue key.queue).estimate])
      = u.groupEntries g fun key => [u.moveEntry g key .onset (u.queue key.queue).estimate] := by
    unfold State.groupEntries State.moveEntry
    simp only [record, groupFrame_queue frame, show (onsetOpened g u).time.tick = u.time.tick from groupFrame_now frame]
  have offered := opened.offerAll (groupFrame_mode frame)
    (u.groupEntries g fun key => [u.moveEntry g key .onset (u.queue key.queue).estimate])
  rw [onset_eq, offerFor_eq_offerAll, entries]
  have counted : ∀ w : State, SameButOnset (w.bump Counter.onsets).flagOnset w := fun w =>
    ⟨rfl, fun c hc => by simp [State.bump_counter, hc], fun _ => rfl⟩
  exact (counted _).trans offered.sameButOnset

theorem groupAction_testOnset : GroupAction testOnset where
  frame := testOnset_groupFrame
  other hne u := testOnset_group_ne hne u

/-- The onset condition reads the group's record, the mode and the Depth Accounting Unit (R93). -/
theorem onsetHolds_congr (group : u.group g = v.group g) (mode : u.mode = v.mode) (depths : u.depths = v.depths) :
    onsetHolds u g = onsetHolds v g := by
  unfold onsetHolds State.queueClass State.classRecord State.classNumber State.queue
  rw [group, mode, depths]

theorem testOnset_eq (hf : u.groupFrame = v.groupFrame) (hg : u.group g = v.group g) :
    testOnset g u = if onsetHolds v g = true then onset g u else u := by
  rw [testOnset, onsetHolds_congr hg (groupFrame_mode hf) (groupFrame_depths hf)]

/-- Every group after the onset tests of all of them (R93, R94). -/
theorem forGroups_testOnset_group (g : GroupId) : (forGroups v testOnset).group g =
    if onsetHolds v g = true then (onset g v).group g else v.group g := by
  refine groupAction_testOnset.group (s := v)
    (G := fun g => if onsetHolds v g = true then (onset g v).group g else v.group g) (fun g u hf hg => ?_) g
  rw [testOnset_eq hf hg]
  split_ifs
  · simp only [onset_group, if_true, hg, groupFrame_queue hf, groupFrame_now hf]
  · exact hg

/-- Every total after the onset tests of all groups (R83, R94). -/
theorem forGroups_testOnset_total (q : QueueId) : (forGroups v testOnset).total q = v.total q
    + Finset.univ.sum fun g => if onsetHolds v g = true ∧ v.groupQueue g = some q then (v.group g).count else 0 := by
  refine groupAction_testOnset.total (s := v) q fun g u hf hg => ?_
  have queue : u.groupQueue g = v.groupQueue g := groupQueue_congr (by rw [hg])
  rw [testOnset_eq hf hg]
  split_ifs with ho hb hb
  · rw [onset_total, queue, if_pos hb.2, hg]
  · rw [onset_total, queue, if_neg fun hq => hb ⟨ho, hq⟩]
  · exact absurd hb.1 ho
  · rfl

/-- The ONSET entry of a group whose condition holds; none of any other (R92, R93). -/
def State.onsetEntries (v : State) (g : GroupId) : List LogEntry :=
  if onsetHolds v g = true then
    v.groupEntries g fun key => [v.moveEntry g key .onset (v.queue key.queue).estimate]
  else []

/-- The onset tests of all groups report the ONSET entries in ascending group index (R92, R96). -/
theorem forGroups_testOnset_report : SameButOnset (forGroups v testOnset)
    (offerAll ((List.finRange 128).flatMap v.onsetEntries) v) := by
  refine groupAction_testOnset.induct (s := v)
    (P := fun l u => SameButOnset u (offerAll (l.flatMap v.onsetEntries) v))
    (SameReport.refl v).sameButOnset fun l g u _ hf hg ih => ?_
  have same := SameEntries.of_groupFrame hf hg
  have mode : u.mode = (offerAll (l.flatMap v.onsetEntries) v).mode := by rw [offerAll_mode, groupFrame_mode hf]
  have own : SameButOnset (testOnset g u) (offerAll (v.onsetEntries g) u) := by
    rw [testOnset_eq hf hg, State.onsetEntries]
    split_ifs
    · simpa only [same.groupEntries, same.moveEntry, same.queue] using onset_report g u
    · exact (SameReport.refl u).sameButOnset
  have appended : offerAll ((l ++ [g]).flatMap v.onsetEntries) v
      = offerAll (v.onsetEntries g) (offerAll (l.flatMap v.onsetEntries) v) := by simp
  rw [appended]
  exact own.trans (ih.offerAll (by rw [mode]) _)

theorem testOnset_opens (g : GroupId) (u : State) (hf : u.groupFrame = v.groupFrame) (hg : u.group g = v.group g) :
    testOnset g u = if onsetHolds v g = true then onset g u else if False then resume g u else u := by
  rw [testOnset_eq hf hg, if_neg not_false]

theorem forGroups_testOnset_flag : (forGroups v testOnset).alerts.onset
    = (v.alerts.onset || decide (∃ g, onsetHolds v g = true)) :=
  openings_onset groupAction_testOnset (O := fun g => onsetHolds v g = true) (R := fun _ => False) testOnset_opens

theorem forGroups_testOnset_onsets (hm : v.counter Counter.onsets ≤ 4294967295) :
    (forGroups v testOnset).counter Counter.onsets = min (v.counter Counter.onsets
      + ((List.finRange 128).filter fun g => decide (onsetHolds v g = true)).length) 4294967295 :=
  openings_onsets groupAction_testOnset (O := fun g => onsetHolds v g = true) (R := fun _ => False) testOnset_opens hm

end

end Sys2Proof.Machine

namespace Sys2Proof.Machine

/-! ### Episodes that end, and the return to OBSERVE (R83, R92, R94, R96, R100, R104, R158) -/

theorem offerAll_alerts_onset (es : List LogEntry) (s : State) : (offerAll es s).alerts.onset = s.alerts.onset := by
  induction es generalizing s with
  | nil => rfl
  | cons e es ih => rw [offerAll_cons, ih, offer_alerts_onset]

theorem offerAll_onsets (es : List LogEntry) (s : State) :
    (offerAll es s).counter Counter.onsets = s.counter Counter.onsets := by
  induction es generalizing s with
  | nil => rfl
  | cons e es ih => rw [offerAll_cons, ih, offer_counter_ne (by decide)]

/-- From `s` to `u` the episodes `ends` have ended, with the entries `first` offered and their members out of the
totals; no group's key or count has changed (R83, R92, R100). -/
structure EpisodesEnded (s u : State) (first : List LogEntry) (ends : GroupId → Prop) [DecidablePred ends] : Prop where
  depths : u.depths = s.depths
  now : u.now = s.now
  key : ∀ g, (u.group g).key = (s.group g).key
  count : ∀ g, (u.group g).count = (s.group g).count
  total : ∀ q, u.total q = s.total q - Finset.univ.sum fun g =>
    if ends g ∧ (s.group g).key.map GroupKey.queue = some q then (s.group g).count else 0
  report : SameReport u (offerAll first s)

section
variable {s u : State} {first : List LogEntry} {ends opens : GroupId → Prop} [DecidablePred ends] [DecidablePred opens]

/-- The episodes that ended, where no group opens one: the mode is another or an episode is left. -/
theorem EpisodesEnded.endsAndOpens (E : EpisodesEnded s u first ends) (none_opens : ∀ g, ¬ opens g) :
    s.endsAndOpens u first ends opens := by
  have no_entry : s.entriesOf (fun g key =>
      if opens g then [s.moveEntry g key .onset (s.queue key.queue).estimate] else []) = [] := by
    simp [entriesOf_eq, none_opens]
  obtain ⟨log, counters, alerts⟩ := E.report
  refine ⟨fun q => ?_, ?_, ?_, fun c _ => ?_, fun hm => ?_⟩
  · simpa [none_opens] using E.total q
  · rw [no_entry, List.append_nil]
    exact log
  · have flag := offerAll_alerts_onset first s
    rw [no_entry, List.append_nil]
    simp only [none_opens, exists_false, decide_false, Bool.or_false, ← flag]
    exact alerts
  · rw [no_entry, List.append_nil, State.counter, counters, State.counter]
  · rw [State.counter, counters, ← State.counter, offerAll_onsets]
    simpa [none_opens] using hm

/-- The return to OBSERVE after the episodes have ended: the onset tests of all groups follow (R104, R158). -/
theorem EpisodesEnded.endsAndOpens_return (E : EpisodesEnded s u first ends) (hm : s.mode ≠ .transparent)
    (opened : ∀ g, onsetHolds { u with mode := .observe } g = true ↔ opens g) :
    s.endsAndOpens (forGroups { u with mode := .observe } testOnset) first ends opens := by
  let v : State := { u with mode := .observe }
  have entries : (List.finRange 128).flatMap v.onsetEntries = s.entriesOf (fun g key =>
      if opens g then [s.moveEntry g key .onset (s.queue key.queue).estimate] else []) := by
    rw [entriesOf_eq]
    refine List.flatMap_congr fun g _ => ?_
    have key : (v.group g).key = (s.group g).key := E.key g
    have count : (v.group g).count = (s.group g).count := E.count g
    have tick : v.time.tick = s.time.tick := E.now
    have queue (q : QueueId) : v.queue q = s.queue q := queue_of_depths E.depths q
    unfold State.onsetEntries State.groupEntries State.moveEntry
    by_cases ho : opens g
    · have holds : onsetHolds v g = true := (opened g).mpr ho
      simp only [if_pos holds, if_pos ho, key, count, tick, queue]
    · rw [if_neg (mt (opened g).mp ho)]
      simp only [if_neg ho]
      cases (s.group g).key <;> rfl
  have ended : SameReport v (offerAll first s) := ⟨E.report.log, E.report.counters, E.report.alerts⟩
  have offered := ended.sameButOnset.offerAll
    (by rw [offerAll_mode]; exact iff_of_false (by simp [v]) hm) ((List.finRange 128).flatMap v.onsetEntries)
  have report := (forGroups_testOnset_report (v := v)).trans offered
  rw [entries, ← offerAll_append] at report
  have flag : v.alerts.onset = s.alerts.onset := by rw [ended.alerts, offerAll_alerts_onset]
  have onsets : v.counter Counter.onsets = s.counter Counter.onsets := by
    rw [State.counter, ended.counters, ← State.counter, offerAll_onsets]
  refine ⟨fun q => ?_, report.log, ?_, report.counter, fun hc => ?_⟩
  · rw [forGroups_testOnset_total, show v.total q = u.total q from rfl, E.total q]
    refine congrArg _ (Finset.sum_congr rfl fun g _ => ?_)
    have queue : v.groupQueue g = (s.group g).key.map GroupKey.queue := congrArg _ (E.key g)
    rw [queue, show (v.group g).count = (s.group g).count from E.count g]
    exact if_congr (and_congr_left' (opened g)) rfl rfl
  · have flagged := forGroups_testOnset_flag (v := v)
    rw [flag, decide_eq_decide.mpr (exists_congr opened)] at flagged
    rw [← report.alerts, ← flagged]
  · have counted := forGroups_testOnset_onsets (v := v) (onsets.symm ▸ hc)
    rw [onsets, funext fun g => decide_eq_decide.mpr (opened g)] at counted
    exact counted

end

/-! ### The drain-end report (R104, R158) -/

section
variable {s t : State} {g : GroupId}

theorem anyEpisode_iff : s.anyEpisode = true ↔ ∃ g, (s.group g).state.isEpisode = true := by
  simp [State.anyEpisode]

theorem drainEnd_of_drained (hm : s.mode = .draining) (he : s.anyEpisode = false) :
    drainEnd s = forGroups { s with mode := .observe } testOnset := if_pos ⟨hm, he⟩

/-- The onset condition's other half does not read the group's state, nor the log, counters and flags. -/
theorem onsetFails_congr (key : (t.group g).key = (s.group g).key) (count : (t.group g).count = (s.group g).count)
    (depths : t.depths = s.depths)
    (mode : (t.mode = .transparent ∨ t.mode = .draining) ↔ (s.mode = .transparent ∨ s.mode = .draining)) :
    t.onsetFails g ↔ s.onsetFails g := by
  unfold State.onsetFails State.classRecord State.classNumber State.queue
  simp only [key, count, depths, mode]

/-- With nothing ended, all is as it was. -/
theorem EpisodesEnded.refl (s : State) : EpisodesEnded s s [] fun _ => False where
  depths := rfl
  now := rfl
  key _ := rfl
  count _ := rfl
  total q := by simp
  report := .refl s

theorem forGroups_testOnset_frame (s : State) :
    (forGroups { s with mode := .observe } testOnset).groupFrame = ({ s with mode := .observe } : State).groupFrame :=
  forGroups_groupFrame testOnset testOnset_groupFrame

end

/-- Settles O59: in DRAINING without an episode the command is the onset tests of all groups in OBSERVE. -/
theorem drainEndReturnsToObserve : Obligations.DrainEndReturnsToObserve := by
  intro s hr
  have made : exec .drainEndReport s = .next (drainEnd s) := congrArg Host.Outcome.next (whenRunning_released hr _)
  refine ⟨made, fun h => ?_, fun hm he => ⟨_, made, ?_⟩⟩
  · rw [made, drainEnd_of_episode fun hm => h.resolve_left (not_not.mpr hm)]
  · have frame := forGroups_testOnset_frame s
    have control := sameControl_of_dataFrame (drainEnd_dataFrame s)
    have reopens (g : GroupId) : onsetHolds { s with mode := .observe } g = true ↔ s.reopens (fun _ => False) g := by
      rw [onsetHolds_iff_not_fails]
      exact and_congr_left' (or_false _).symm.to_iff
    have report := (EpisodesEnded.refl s).endsAndOpens_return (by simp [hm]) reopens
    have group := forGroups_testOnset_group (v := { s with mode := .observe })
    rw [drainEnd_of_drained hm he] at control ⊢
    generalize forGroups { s with mode := .observe } testOnset = t at frame control report group ⊢
    refine ⟨(groupFrame_mode frame :), fun g hk => ?_, fun g key hk => ?_, report, (groupFrame_depths frame :),
      (groupFrame_ft frame :), (groupFrame_time frame :), (groupFrame_link frame :), (groupFrame_port frame :), control⟩
    · rw [group, if_neg]
      · rfl
      · rw [onsetHolds_iff]
        rintro ⟨key, some_key, -⟩
        cases hk.symm.trans some_key
    · have holds := onsetHolds_of_key (s := { s with mode := .observe }) hk
      rw [group, onset_group_self (s := { s with mode := .observe }) hk]
      refine if_congr (holds.trans ?_) rfl rfl
      exact ⟨fun ⟨watch, on, enough, deep, _⟩ => ⟨watch, on, enough, deep⟩,
        fun ⟨watch, on, enough, deep⟩ => ⟨watch, on, enough, deep, .inl rfl⟩⟩

end Sys2Proof.Machine

namespace Sys2Proof.Machine

/-! ### The ramp sequence of a group and its position (R42, R102, R145, R146) -/

section
variable {s t : State} {g : GroupId} {key : GroupKey}

theorem groupClass_of_key (hk : (s.group g).key = some key) : groupClass s g = s.queueClass key.queue := by
  rw [groupClass, hk]
  rfl

theorem groupRamp_of_key (hk : (s.group g).key = some key) :
    groupRamp s g = s.ramp (s.queueClass key.queue).ramp := by
  rw [groupRamp, groupClass_of_key hk]

/-- A group's class is read by its key (R42). -/
theorem groupClass_congr (hkey : (t.group g).key = (s.group g).key) (hf : t.groupFrame = s.groupFrame) :
    groupClass t g = groupClass s g := by
  unfold groupClass
  simp only [hkey, groupFrame_queueClass hf]

theorem groupRamp_congr (hkey : (t.group g).key = (s.group g).key) (hf : t.groupFrame = s.groupFrame) :
    groupRamp t g = groupRamp s g := by
  rw [groupRamp, groupRamp, groupClass_congr hkey hf, State.ramp, State.ramp, groupFrame_time hf]

/-- The position of group `g` has come to the end of its sequence: it lies beyond the last entry, or the duration
of the last entry has passed (R146, R147). -/
def State.sequencePassed (s : State) (g : GroupId) : Prop :=
  ∃ start, (s.group g).rampStart = some start
    ∧ ((groupRamp s g).length ≤ (s.group g).rampEntry.getD 0
      ∨ ((s.group g).rampEntry.getD 0 + 1 = (groupRamp s g).length
        ∧ ∀ e, (groupRamp s g).getLast? = some e → e.duration ≤ (s.now - start).toNat))

theorem entryDue_of_sequencePassed (hr : (s.group g).state = .ramp) (h : s.sequencePassed g) :
    entryDue s g = true := by
  obtain ⟨start, hs, past⟩ := h
  refine (entryDue_iff s g).mpr ⟨hr, start, hs, past.imp_right fun ⟨last, passed⟩ => ?_⟩
  have here : (groupRamp s g).getLast? = (groupRamp s g)[(s.group g).rampEntry.getD 0]? := by
    rw [List.getLast?_eq_getElem?, ← last, Nat.add_sub_cancel]
  have inside : (s.group g).rampEntry.getD 0 < (groupRamp s g).length := by omega
  rw [List.getElem?_eq_getElem inside] at here ⊢
  exact ⟨_, rfl, passed _ here⟩

theorem advanceEntry_of_sequencePassed (h : s.sequencePassed g) : advanceEntry g s = reachEnd g s := by
  obtain ⟨start, -, past⟩ := h
  have last : ¬ (s.group g).rampEntry.getD 0 + 1 < (groupRamp s g).length := by omega
  exact if_neg last

theorem advanceEntry_of_inside (h : (s.group g).rampEntry.getD 0 + 1 < (groupRamp s g).length) :
    advanceEntry g s = s.setGroup g
      { s.group g with rampEntry := some ((s.group g).rampEntry.getD 0 + 1), rampStart := some s.now } := if_pos h

theorem reachEnd_of_ends (h : (groupClass s g).endMode = .ends ∨ s.mode = .draining) :
    reachEnd g s = sequenceEnd g s := if_pos h

theorem reachEnd_of_holds (holds : (groupClass s g).endMode = .holds) (hm : s.mode ≠ .draining) :
    reachEnd g s = s.setGroup g
      { s.group g with rampEntry := some ((groupRamp s g).length - 1), rampStart := none } :=
  if_neg (by simp [holds, hm])

/-! ### The end of a sequence (R100, R104) -/

theorem onsetFails_of_draining (hm : s.mode = .draining) : s.onsetFails g := fun _ _ => .inr (.inr (.inr (.inr hm)))

theorem endEpisode_group_self (g : GroupId) (cause : LogCause) (s : State) :
    (endEpisode g cause s).group g = (s.group g).toWatch := by
  rw [endEpisode_group, if_pos rfl]

/-- After the end of its episode a group meets the onset condition as it would have in WATCH (R93, R100). -/
theorem onsetHolds_endEpisode : onsetHolds (endEpisode g .sequence s) g = true ↔ ¬ s.onsetFails g := by
  have frame := endEpisode_groupFrame g .sequence s
  have fails : (endEpisode g .sequence s).onsetFails g ↔ s.onsetFails g :=
    onsetFails_congr (by rw [endEpisode_group_self]; rfl) (by rw [endEpisode_group_self]; rfl)
      (groupFrame_depths frame) (by rw [groupFrame_mode frame])
  rw [onsetHolds_iff_not_fails, fails, endEpisode_group_self]
  exact and_iff_right rfl

theorem sequenceEnd_of_fails (h : s.onsetFails g) : sequenceEnd g s = endEpisode g .sequence s :=
  testOnset_of_not fun holds => onsetHolds_endEpisode.mp holds h

theorem sequenceEnd_of_opens (h : ¬ s.onsetFails g) : sequenceEnd g s = onset g (endEpisode g .sequence s) :=
  testOnset_of_holds (onsetHolds_endEpisode.mpr h)

theorem endEpisode_log (hk : (s.group g).key = some key) :
    (endEpisode g .sequence s).log = (offer (s.endEntry g key) s).log := by
  rw [(endEpisode_report g .sequence s).log, groupEntries_of_key hk]
  rfl

theorem endEpisode_total_of_key (hk : (s.group g).key = some key) (cause : LogCause) (q : QueueId) :
    (endEpisode g cause s).total q = s.total q - if q = key.queue then (s.group g).count else 0 := by
  rw [endEpisode_total]
  simp only [groupQueue_eq_iff hk]

/-- The end of one episode (R83, R92, R100). -/
theorem episodesEnded_endEpisode (hk : (s.group g).key = some key) :
    EpisodesEnded s (endEpisode g .sequence s) [s.endEntry g key] (· = g) where
  depths := groupFrame_depths (endEpisode_groupFrame g .sequence s)
  now := groupFrame_now (endEpisode_groupFrame g .sequence s)
  key h := by
    rw [endEpisode_group]
    split_ifs with e
    · rw [e]; rfl
    · rfl
  count h := by
    rw [endEpisode_group]
    split_ifs with e
    · rw [e]; rfl
    · rfl
  total q := by
    rw [endEpisode_total, State.groupQueue]
    simp only [ite_and]
    rw [Finset.sum_ite_eq' Finset.univ g, if_pos (Finset.mem_univ g)]
  report := by
    have report := endEpisode_report g .sequence s
    rwa [groupEntries_of_key hk] at report

theorem EpisodesEnded.of_start {u : State} {first : List LogEntry} {ends : GroupId → Prop} [DecidablePred ends]
    (E : EpisodesEnded t u first ends) (gc : t.gc = s.gc) (depths : t.depths = s.depths) (now : t.now = s.now)
    (mode : t.mode = s.mode) (report : SameReport t s) : EpisodesEnded s u first ends where
  depths := E.depths.trans depths
  now := E.now.trans now
  key g := by rw [E.key, State.group, gc, State.group]
  count g := by rw [E.count, State.group, gc, State.group]
  total q := by
    rw [E.total, State.total, gc]
    simp only [State.group, gc]
    rfl
  report := E.report.trans (report.offerAll mode first)

end

end Sys2Proof.Machine

namespace Sys2Proof.Machine

/-! ### The end of a sequence within its event (R94, R100, R104, R158) -/

section
variable {s : State} {g : GroupId} {key : GroupKey}

theorem drainEnd_of_not_draining (hm : s.mode ≠ .draining) : drainEnd s = s := drainEnd_of_episode fun h => absurd h hm

/-- Where no onset test reopens the group and no drain ends, the episode ends and nothing follows (R100). -/
theorem sequenceEnd_alone (h : (s.mode ≠ .draining ∧ s.onsetFails g)
    ∨ (s.mode = .draining ∧ ∃ h, h ≠ g ∧ (s.group h).state.isEpisode = true)) :
    drainEnd (sequenceEnd g s) = endEpisode g .sequence s := by
  have fails : s.onsetFails g := h.elim (·.2) fun ⟨hm, _⟩ => onsetFails_of_draining hm
  rw [sequenceEnd_of_fails fails]
  refine drainEnd_of_episode fun hm => ?_
  rw [groupFrame_mode (endEpisode_groupFrame g .sequence s)] at hm
  obtain ⟨other, hne, he⟩ := (h.resolve_left fun h => h.1 hm).2
  refine anyEpisode_iff.mpr ⟨other, ?_⟩
  rwa [endEpisode_group, if_neg hne]

/-- In OBSERVE and ENFORCE a group that meets the onset condition opens a new episode at once (R94, R100). -/
theorem sequenceEnd_reopens (hm : s.mode = .observe ∨ s.mode = .enforce) (h : ¬ s.onsetFails g) :
    drainEnd (sequenceEnd g s) = onset g (endEpisode g .sequence s) := by
  rw [sequenceEnd_of_opens h]
  refine drainEnd_of_not_draining ?_
  rw [groupFrame_mode (onset_groupFrame g _), groupFrame_mode (endEpisode_groupFrame g .sequence s)]
  obtain hm | hm := hm <;> simp [hm]

/-- The end of the last episode of a drain is followed by the onset tests of all groups (R104, R158). -/
theorem sequenceEnd_drained (hm : s.mode = .draining) (idle : ∀ h, h ≠ g → (s.group h).state.isEpisode = false) :
    drainEnd (sequenceEnd g s)
      = forGroups { endEpisode g .sequence s with mode := .observe } testOnset := by
  rw [sequenceEnd_of_fails (onsetFails_of_draining hm)]
  refine drainEnd_of_drained ((groupFrame_mode (endEpisode_groupFrame g .sequence s)).trans hm) ?_
  rw [Bool.eq_false_iff, ne_eq, anyEpisode_iff]
  rintro ⟨h, he⟩
  rw [endEpisode_group] at he
  split_ifs at he with hg
  · cases he
  · exact Bool.eq_false_iff.mp (idle h hg) he

theorem drainEnd_sequenceEnd_rest (g : GroupId) (s : State) :
    (drainEnd (sequenceEnd g s)).depths = s.depths ∧ (drainEnd (sequenceEnd g s)).ft = s.ft
      ∧ (drainEnd (sequenceEnd g s)).time = s.time ∧ (drainEnd (sequenceEnd g s)).link = s.link := by
  have frame := sequenceEnd_groupFrame g s
  have data := (drainEnd_dataFrame _).trans (dataFrame_of_groupFrame frame)
  exact ⟨(drainEnd_depths _).trans (groupFrame_depths frame), (drainEnd_ft _).trans (groupFrame_ft frame),
    dataFrame_time data, dataFrame_link data⟩

/-- The ONSET entry of a group that reopens, after its END entry (R92, R94, R100). -/
theorem onset_endEpisode_log (hk : (s.group g).key = some key) : (onset g (endEpisode g .sequence s)).log
    = (offer (s.moveEntry g key .onset (s.queue key.queue).estimate) (offer (s.endEntry g key) s)).log := by
  have frame := endEpisode_groupFrame g .sequence s
  have same : (endEpisode g .sequence s).moveEntry g key .onset ((endEpisode g .sequence s).queue key.queue).estimate
      = s.moveEntry g key .onset (s.queue key.queue).estimate := by
    unfold State.moveEntry
    rw [endEpisode_group_self, groupFrame_queue frame, groupFrame_time frame]
    rfl
  have hk' : ((endEpisode g .sequence s).group g).key = some key := by rw [endEpisode_group_self]; exact hk
  rw [(onset_report g _).log, groupEntries_of_key hk', same]
  exact offer_log_congr _ ((groupFrame_mode frame).trans (offer_mode _ s).symm) (endEpisode_log hk)

theorem onset_endEpisode_group (hk : (s.group g).key = some key) (h : GroupId) :
    (onset g (endEpisode g .sequence s)).group h = if h = g then
      { s.group g with
        state := .active, onsetAt := some s.now, peak := some (s.queue key.queue).estimate
        deadline := none, rampEntry := none, rampStart := none }
    else s.group h := by
  have frame := endEpisode_groupFrame g .sequence s
  rw [onset_group, endEpisode_group_self, groupFrame_now frame, endEpisode_group]
  split_ifs with e
  · simp only [GroupRecord.toWatch, hk, Option.map_some, groupFrame_queue frame]
    rfl
  · rfl

theorem onset_endEpisode_total (hk : (s.group g).key = some key) (counted : (s.group g).count ≤ s.total key.queue)
    (q : QueueId) : (onset g (endEpisode g .sequence s)).total q = s.total q := by
  have queue : (endEpisode g .sequence s).groupQueue g = s.groupQueue g :=
    groupQueue_congr (by rw [endEpisode_group_self]; rfl)
  have count : ((endEpisode g .sequence s).group g).count = (s.group g).count := by rw [endEpisode_group_self]; rfl
  rw [onset_total, queue, count, endEpisode_total_of_key hk]
  simp only [groupQueue_eq_iff hk]
  split_ifs with hq
  · rw [hq]
    exact Nat.sub_add_cancel counted
  · rfl

/-- After the end of the last episode of a drain a group opens one where the return to OBSERVE finds it in WATCH,
or back in WATCH, and meeting the onset condition (R93, R104, R158). -/
theorem onsetHolds_drained (h : GroupId) :
    onsetHolds { endEpisode g .sequence s with mode := .observe } h = true ↔ s.reopens (· = g) h := by
  have record : ({ endEpisode g .sequence s with mode := .observe } : State).group h
      = if h = g then (s.group g).toWatch else s.group h := endEpisode_group s g h .sequence
  have fails : ({ endEpisode g .sequence s with mode := .observe } : State).onsetFails h
      ↔ ({ s with mode := .observe } : State).onsetFails h := by
    refine onsetFails_congr ?_ ?_ (groupFrame_depths (endEpisode_groupFrame g .sequence s) :) Iff.rfl
    all_goals
      rw [record]
      split_ifs with e
      · rw [e]; rfl
      · rfl
  rw [onsetHolds_iff_not_fails, fails, record]
  refine and_congr_left' ?_
  split_ifs with e
  · exact iff_of_true rfl (.inr e)
  · exact (or_iff_left e).symm

end

/-! ### The expiries that end a sequence (R141, R146, R147, R148) -/

section
variable {s : State} {g : GroupId} {key : GroupKey} {e : TimedEvent}

/-- An expiry that falls on this tick and whose condition holds has its effect (R141). -/
theorem exec_expiry_due (hr : s.running = true) (due : e ∈ s.time.due) (holds : timedHolds s e = true) :
    exec (expiryCommand e) s = .next (timedEffect e (s.dropDue e)) := by
  rw [exec_expiry hr, (takeTimed_spec e s).1 due holds]

/-- Any other stops falling on this tick and changes nothing else (R141). -/
theorem exec_expiry_not_due (hr : s.running = true) (h : e ∉ s.time.due ∨ timedHolds s e = false) :
    exec (expiryCommand e) s = .next (s.dropDue e) := by
  rw [exec_expiry hr, (takeTimed_spec e s).2 h]

/-- An expired position at the end of a sequence, under END or in DRAINING, ends the sequence (R146, R147). -/
theorem entryExpiry_ends (hr : (s.group g).state = .ramp) (passed : s.sequencePassed g)
    (h : (groupClass s g).endMode = .ends ∨ s.mode = .draining) : entryExpiry g s = drainEnd (sequenceEnd g s) := by
  rw [entryExpiry, if_pos (entryDue_of_sequencePassed hr passed), advanceEntry_of_sequencePassed passed,
    reachEnd_of_ends h]

/-- An expired position at the end of a sequence, under HOLD outside DRAINING, holds (R146, R147). -/
theorem entryExpiry_holds (hr : (s.group g).state = .ramp) (passed : s.sequencePassed g)
    (holds : (groupClass s g).endMode = .holds) (hm : s.mode ≠ .draining) : entryExpiry g s = s.setGroup g
      { s.group g with rampEntry := some ((groupRamp s g).length - 1), rampStart := none } := by
  rw [entryExpiry, if_pos (entryDue_of_sequencePassed hr passed), advanceEntry_of_sequencePassed passed,
    reachEnd_of_holds holds hm]
  exact drainEnd_of_not_draining hm

end

/-- Settles O58: each of the two expiries is `sequenceEnd` with the drain-end report, which the three modes of its end
take apart. -/
theorem sequencesEnd : Obligations.SequencesEnd := by
  intro s g key running hk ramp r c entries estimate expired
  have class_eq : groupClass s g = c := groupClass_of_key hk
  have passed (h : expired) : s.sequencePassed g := by
    obtain ⟨-, start, hs, past⟩ := h
    refine ⟨start, hs, ?_⟩
    rw [groupRamp_of_key hk]
    exact past
  refine ⟨fun h holds hm => ?_, fun e he => ?_, fun h => ?_⟩
  · have due := entryDue_of_sequencePassed ramp (passed h)
    have effect := entryExpiry_holds (s := s.dropDue (.entry g)) ramp (passed h)
      (class_eq.symm ▸ holds : (groupClass s g).endMode = .holds) hm
    have length : (groupRamp (s.dropDue (.entry g)) g).length = entries.length :=
      congrArg List.length (groupRamp_of_key hk)
    rw [length] at effect
    exact ⟨_, fun h' => tableGet_set freeGroup _ g h' _,
      (exec_expiry_due running h.1 due).trans (congrArg Host.Outcome.next effect)⟩
  · have taken : exec (expiryCommand e) s = .next (drainEnd (sequenceEnd g (s.dropDue e))) := by
      obtain ⟨rfl, h, ends⟩ | ⟨rfl, due, held, ends⟩ := he
      · rw [exec_expiry_due running h.1 (entryDue_of_sequencePassed ramp (passed h))]
        exact congrArg Host.Outcome.next
          (entryExpiry_ends (s := s.dropDue (.entry g)) ramp (passed h) (class_eq.symm ▸ ends))
      · have holds : holdEndDue s g = true := (holdEndDue_iff s g).mpr ⟨ramp, held, class_eq.symm ▸ ends⟩
        rw [exec_expiry_due running due holds]
        exact congrArg Host.Outcome.next (if_pos holds)
    obtain ⟨depths, ft, time, link⟩ := drainEnd_sequenceEnd_rest g (s.dropDue e)
    refine ⟨fun alone => ⟨_, taken, ?_⟩, fun hm opens => ⟨_, taken, ?_⟩, fun hm idle => ⟨_, taken, ?_⟩⟩
    · have effect := sequenceEnd_alone (s := s.dropDue e) alone
      rw [effect] at depths ft time link ⊢
      refine ⟨fun h => endEpisode_group (s.dropDue e) g h .sequence, fun q =>
        endEpisode_total_of_key (s := s.dropDue e) hk .sequence q, ?_,
        (groupFrame_mode (endEpisode_groupFrame g .sequence _)).trans rfl, depths, ft, time, link⟩
      exact (endEpisode_log (s := s.dropDue e) hk).trans (offer_log_congr _ rfl rfl)
    · have effect := sequenceEnd_reopens (s := s.dropDue e) hm opens
      rw [effect] at depths ft time link ⊢
      refine ⟨fun h => onset_endEpisode_group (s := s.dropDue e) hk h,
        fun counted q => onset_endEpisode_total (s := s.dropDue e) hk counted q, ?_, onset_alerts_onset g _,
        ?_, depths, ft, time, link⟩
      · refine (onset_endEpisode_log (s := s.dropDue e) hk).trans ?_
        exact offer_log_congr _ (by simp only [offer_mode]; rfl) (offer_log_congr _ rfl rfl)
      · have mode := groupFrame_mode (endEpisode_groupFrame g .sequence (s.dropDue e))
        exact (groupFrame_mode (onset_groupFrame g _)).trans (mode.trans rfl)
    · have effect := sequenceEnd_drained (s := s.dropDue e) hm idle
      have control := sameControl_of_dataFrame
        ((drainEnd_dataFrame _).trans (dataFrame_of_groupFrame (sequenceEnd_groupFrame g (s.dropDue e))))
      have ended : EpisodesEnded s (endEpisode g .sequence (s.dropDue e)) [s.endEntry g key] (· = g) :=
        (episodesEnded_endEpisode (s := s.dropDue e) hk).of_start rfl rfl rfl rfl ⟨rfl, rfl, rfl⟩
      have opened (h : GroupId) := onsetHolds_drained (s := s.dropDue e) (g := g) h
      have report := ended.endsAndOpens_return (by simp [hm]) opened
      have frame := forGroups_testOnset_frame (endEpisode g .sequence (s.dropDue e))
      have group (h : GroupId) :=
        forGroups_testOnset_group (v := { endEpisode g .sequence (s.dropDue e) with mode := .observe }) h
      rw [effect] at depths ft time link control ⊢
      generalize forGroups { endEpisode g .sequence (s.dropDue e) with mode := .observe } testOnset = t at *
      refine ⟨groupFrame_mode frame, fun h => ?_, report, depths, ft, time, link, control⟩
      intro r'
      have record : ({ endEpisode g .sequence (s.dropDue e) with mode := .observe } : State).group h = r' :=
        endEpisode_group (s.dropDue e) g h .sequence
      have now : ({ endEpisode g .sequence (s.dropDue e) with mode := .observe } : State).now = s.time.tick := ended.now
      have queue (q : QueueId) : ({ endEpisode g .sequence (s.dropDue e) with mode := .observe } : State).queue q
          = s.queue q := queue_of_depths ended.depths q
      refine ⟨fun closed => ?_, fun key' hk' opens => ?_⟩
      · rw [group, if_neg (mt (opened h).mp closed), record]
      · rw [group, if_pos ((opened h).mpr opens), onset_group_self (record.symm ▸ hk'), record, now, queue]
  · refine exec_expiry_not_due running (h.imp_right fun h => ?_)
    refine Bool.eq_false_iff.mpr fun holds => ?_
    obtain ⟨-, held, ends⟩ := (holdEndDue_iff s g).mp holds
    rw [class_eq] at ends
    obtain h | h := h
    · exact h held
    · cases h.symm.trans ends

end Sys2Proof.Machine

namespace Sys2Proof.Machine

/-! ### The entry into RAMP (R99, R103, R145) -/

/-- The group in RAMP at entry 0, its RAMP entry offered, before its position is tested (R99, R103). -/
def rampEntered (g : GroupId) (s : State) : State :=
  offerFor g .ramp .none false (s.setGroup g
    { s.group g with state := .ramp, deadline := none, rampEntry := some 0, rampStart := some s.now })

section
variable {s : State} {g : GroupId} {key : GroupKey}

theorem enterRamp_eq (g : GroupId) (s : State) : enterRamp g s = testEntry g (rampEntered g s) := rfl

@[simp] theorem rampEntered_groupFrame (g : GroupId) (s : State) : (rampEntered g s).groupFrame = s.groupFrame := by
  simp [rampEntered]

theorem rampEntered_group (g h : GroupId) (s : State) : (rampEntered g s).group h = if h = g then
    { s.group g with state := .ramp, deadline := none, rampEntry := some 0, rampStart := some s.now }
    else s.group h := by
  simp [rampEntered, State.setGroup_group]

theorem rampEntered_group_self (g : GroupId) (s : State) : (rampEntered g s).group g =
    { s.group g with state := .ramp, deadline := none, rampEntry := some 0, rampStart := some s.now } := by
  rw [rampEntered_group, if_pos rfl]

@[simp] theorem rampEntered_total (g : GroupId) (s : State) (q : QueueId) : (rampEntered g s).total q = s.total q := by
  simp [rampEntered]

theorem rampEntered_key (g h : GroupId) (s : State) : ((rampEntered g s).group h).key = (s.group h).key := by
  rw [rampEntered_group]
  split_ifs with e
  · rw [e]
  · rfl

theorem rampEntered_count (g h : GroupId) (s : State) : ((rampEntered g s).group h).count = (s.group h).count := by
  rw [rampEntered_group]
  split_ifs with e
  · rw [e]
  · rfl

/-- The entry into RAMP reports its RAMP entry and nothing else (R92, R99). -/
theorem rampEntered_report (g : GroupId) (s : State) : SameReport (rampEntered g s)
    (offerAll (s.groupEntries g fun key => [s.moveEntry g key .ramp (s.queue key.queue).estimate]) s) := by
  have written : SameReport (s.setGroup g
    { s.group g with state := .ramp, deadline := none, rampEntry := some 0, rampStart := some s.now }) s :=
    ⟨rfl, rfl, rfl⟩
  have offered := written.offerAll rfl
    (s.groupEntries g fun key => [s.moveEntry g key .ramp (s.queue key.queue).estimate])
  rw [rampEntered, offerFor_eq_offerAll]
  unfold State.groupEntries State.moveEntry at offered ⊢
  simpa using offered

theorem rampEntered_endEntry (g : GroupId) (key : GroupKey) (s : State) :
    (rampEntered g s).endEntry g key = s.endEntry g key := by
  have frame := rampEntered_groupFrame g s
  unfold State.endEntry
  rw [rampEntered_group_self, groupFrame_queue frame, groupFrame_time frame]

/-- A sequence with an entry: the group stays at entry 0, whose duration is 1 or more (R142, R145). -/
theorem enterRamp_of_entry {e : RampEntry} {rest : List RampEntry} (h : groupRamp s g = e :: rest)
    (long : 1 ≤ e.duration) : enterRamp g s = rampEntered g s := by
  have frame := rampEntered_groupFrame g s
  rw [enterRamp_eq, testEntry, if_neg]
  rw [entryDue_iff, rampEntered_group_self, groupRamp_congr (rampEntered_key g g s) frame, groupFrame_now frame, h]
  rintro ⟨-, start, hs, past⟩
  cases hs
  obtain none_left | ⟨e', he, passed⟩ := past
  · exact Nat.not_succ_le_zero _ none_left
  · cases he
    simp only [BitVec.sub_self, BitVec.toNat_zero] at passed
    omega

/-- A sequence with no entry: the group is at the end of it at once (R99, R147). -/
theorem enterRamp_of_empty (h : groupRamp s g = []) : enterRamp g s = reachEnd g (rampEntered g s) := by
  have frame := rampEntered_groupFrame g s
  have passed : (rampEntered g s).sequencePassed g := by
    refine ⟨s.now, by rw [rampEntered_group_self], .inl ?_⟩
    rw [groupRamp_congr (rampEntered_key g g s) frame, h]
    exact Nat.zero_le _
  have ramp : ((rampEntered g s).group g).state = .ramp := by rw [rampEntered_group_self]
  rw [enterRamp_eq, testEntry, if_pos (entryDue_of_sequencePassed ramp passed),
    advanceEntry_of_sequencePassed passed]

theorem rampEntered_log (hk : (s.group g).key = some key) :
    (rampEntered g s).log = (offer (s.moveEntry g key .ramp (s.queue key.queue).estimate) s).log := by
  rw [(rampEntered_report g s).log, groupEntries_of_key hk]
  rfl

theorem rampEntered_class (g : GroupId) (s : State) : groupClass (rampEntered g s) g = groupClass s g :=
  groupClass_congr (rampEntered_key g g s) (rampEntered_groupFrame g s)

/-- Under HOLD outside DRAINING a group with an empty sequence holds at once (R99, R147). -/
theorem enterRamp_holds (h : groupRamp s g = []) (holds : (groupClass s g).endMode = .holds)
    (hm : s.mode ≠ .draining) : enterRamp g s = (rampEntered g s).setGroup g
      { (rampEntered g s).group g with rampEntry := some 0, rampStart := none } := by
  have frame := rampEntered_groupFrame g s
  have empty : groupRamp (rampEntered g s) g = [] := by rw [groupRamp_congr (rampEntered_key g g s) frame, h]
  rw [enterRamp_of_empty h, reachEnd_of_holds (by rw [rampEntered_class, holds]) (by rwa [groupFrame_mode frame]),
    empty]
  rfl

/-- Under END, or in DRAINING, a group with an empty sequence comes to the end of it at once (R99, R147). -/
theorem enterRamp_ends (h : groupRamp s g = []) (ends : (groupClass s g).endMode = .ends ∨ s.mode = .draining) :
    enterRamp g s = sequenceEnd g (rampEntered g s) := by
  rw [enterRamp_of_empty h, reachEnd_of_ends]
  rwa [rampEntered_class, groupFrame_mode (rampEntered_groupFrame g s)]

/-- And the episode ends there, where no onset test can reopen it (R100). -/
theorem enterRamp_ended (h : groupRamp s g = []) (ends : (groupClass s g).endMode = .ends ∨ s.mode = .draining)
    (fails : s.onsetFails g) : enterRamp g s = endEpisode g .sequence (rampEntered g s) := by
  have frame := rampEntered_groupFrame g s
  rw [enterRamp_ends h ends, sequenceEnd_of_fails]
  exact (onsetFails_congr (rampEntered_key g g s) (rampEntered_count g g s) (groupFrame_depths frame)
    (by rw [groupFrame_mode frame])).mpr fails

/-! An episode that ends in the event that took it into RAMP (R99, R100, R103). -/

theorem endEpisode_rampEntered_group (g h : GroupId) (s : State) :
    (endEpisode g .sequence (rampEntered g s)).group h = if h = g then (s.group g).toWatch else s.group h := by
  rw [endEpisode_group, rampEntered_group_self, rampEntered_group]
  split_ifs <;> rfl

theorem endEpisode_rampEntered_total (g : GroupId) (s : State) (q : QueueId) :
    (endEpisode g .sequence (rampEntered g s)).total q = (endEpisode g .sequence s).total q := by
  have queue : (rampEntered g s).groupQueue g = s.groupQueue g := groupQueue_congr (rampEntered_key g g s)
  rw [endEpisode_total, endEpisode_total, queue, rampEntered_total, rampEntered_count]

/-- It reports its RAMP entry and its END entry, and nothing else (R92, R100). -/
theorem endEpisode_rampEntered_report (g : GroupId) (s : State) :
    SameReport (endEpisode g .sequence (rampEntered g s)) (offerAll (s.groupEntries g fun key =>
      [s.moveEntry g key .ramp (s.queue key.queue).estimate, s.endEntry g key]) s) := by
  have ended := endEpisode_report g .sequence (rampEntered g s)
  have entered := rampEntered_report g s
  have mode : (rampEntered g s).mode = s.mode := groupFrame_mode (rampEntered_groupFrame g s)
  cases hk : (s.group g).key with
  | none =>
    rw [groupEntries_of_no_key ((rampEntered_key g g s).trans hk)] at ended
    rw [groupEntries_of_no_key hk] at entered ⊢
    exact ended.trans entered
  | some key =>
    rw [groupEntries_of_key ((rampEntered_key g g s).trans hk), rampEntered_endEntry] at ended
    rw [groupEntries_of_key hk] at entered ⊢
    exact ended.trans (entered.offerAll (mode.trans (offerAll_mode _ s).symm) [s.endEntry g key])

/-! ### The hold expiry and the entry expiry (R99, R141, R146) -/

/-- An episode that is left keeps the drain going (R104). -/
theorem drainEnd_of_ramp (h : (s.group g).state = .ramp) : drainEnd s = s :=
  drainEnd_of_episode fun _ => anyEpisode_iff.mpr ⟨g, by rw [h]; rfl⟩

/-- A due hold expiry is the entry into RAMP, where that does not end a drain (R99). -/
theorem holdExpiry_eq (due : holdDue s g = true)
    (goes_on : (enterRamp g s).mode = .draining → (enterRamp g s).anyEpisode = true) :
    holdExpiry g s = enterRamp g s := by
  rw [holdExpiry, if_pos due, drainEnd_of_episode goes_on]

theorem enterRamp_rest (g : GroupId) (s : State) : (enterRamp g s).mode = s.mode
    ∧ (enterRamp g s).depths = s.depths ∧ (enterRamp g s).ft = s.ft ∧ (enterRamp g s).time = s.time
    ∧ (enterRamp g s).link = s.link ∧ (enterRamp g s).port = s.port := by
  have frame := enterRamp_groupFrame g s
  exact ⟨groupFrame_mode frame, groupFrame_depths frame, groupFrame_ft frame, groupFrame_time frame,
    groupFrame_link frame, groupFrame_port frame⟩

/-- A position at an entry of the sequence has expired when the duration of the entry has passed (R146). -/
theorem entryDue_iff_of_entry {i : Nat} {start : Tick} {e : RampEntry} (hr : (s.group g).state = .ramp)
    (hi : (s.group g).rampEntry = some i) (hs : (s.group g).rampStart = some start)
    (he : (groupRamp s g)[i]? = some e) : entryDue s g = true ↔ e.duration ≤ (s.now - start).toNat := by
  have inside : i < (groupRamp s g).length := (List.getElem?_eq_some_iff.mp he).1
  rw [entryDue_iff, hi, hs]
  simp [hr, he, Nat.not_le.mpr inside]

/-- An expired position before the last entry steps to the next one (R146). -/
theorem entryExpiry_steps (due : entryDue s g = true)
    (inside : (s.group g).rampEntry.getD 0 + 1 < (groupRamp s g).length) : entryExpiry g s = s.setGroup g
      { s.group g with rampEntry := some ((s.group g).rampEntry.getD 0 + 1), rampStart := some s.now } := by
  rw [entryExpiry, if_pos due, advanceEntry_of_inside inside]
  refine drainEnd_of_ramp (g := g) ?_
  rw [State.setGroup_group_self]
  exact entryDue_ramp due

end

/-- Settles O57: a due hold expiry is `enterRamp`, taken apart by the sequence and its end mode; a due entry expiry
steps. -/
theorem rampsEnterAndStep : Obligations.RampsEnterAndStep := by
  intro s g key running hk r c entries ramps falls
  have sequence : groupRamp (s.dropDue (.hold g)) g = entries := groupRamp_of_key hk
  have class_eq : groupClass (s.dropDue (.hold g)) g = c := groupClass_of_key hk
  have taken (h : falls) (goes_on : (enterRamp g (s.dropDue (.hold g))).mode = .draining →
      (enterRamp g (s.dropDue (.hold g))).anyEpisode = true) :
      exec (.holdExpiry g) s = .next (enterRamp g (s.dropDue (.hold g))) := by
    have due : holdDue s g = true := (holdDue_iff s g).mpr h.2
    exact (exec_expiry_due running h.1 due).trans
      (congrArg Host.Outcome.next (holdExpiry_eq (s := s.dropDue (.hold g)) due goes_on))
  have entered_log : (rampEntered g (s.dropDue (.hold g))).log = (offer ramps s).log :=
    (rampEntered_log (s := s.dropDue (.hold g)) hk).trans (offer_log_congr _ rfl rfl)
  obtain ⟨mode, depths, ft, time, link, port⟩ := enterRamp_rest g (s.dropDue (.hold g))
  refine ⟨fun h ⟨e, rest, he, long⟩ => ⟨_, taken h fun _ => ?_, ?_⟩,
    fun h empty holds hm => ⟨_, taken h fun hd => ?_, ?_⟩, fun h empty ends hm fails => ⟨_, taken h fun hd => ?_, ?_⟩,
    fun h => ?_, fun i start e hr hi hs he => ⟨fun h => ?_, fun due passed inside => ?_⟩, fun h => ?_⟩
  · rw [enterRamp_of_entry (sequence.trans he) long]
    exact anyEpisode_iff.mpr ⟨g, by rw [rampEntered_group_self]; rfl⟩
  · rw [enterRamp_of_entry (sequence.trans he) long] at mode depths ft time link port ⊢
    exact ⟨fun h => rampEntered_group g h _, entered_log, fun q => rampEntered_total g _ q, mode, depths, ft, time,
      link, port⟩
  · exact absurd (mode.symm.trans hd) hm
  · rw [enterRamp_holds (sequence.trans empty) (class_eq.symm ▸ holds) hm] at mode depths ft time link port ⊢
    refine ⟨fun h => ?_, entered_log, fun q => rampEntered_total g _ q, mode, depths, ft, time, link, port⟩
    rw [State.setGroup_group, rampEntered_group_self, rampEntered_group]
    split_ifs <;> rfl
  · exact absurd (mode.symm.trans hd) hm
  · have report := endEpisode_rampEntered_report g (s.dropDue (.hold g))
    rw [groupEntries_of_key (s := s.dropDue (.hold g)) hk] at report
    have dropped : SameReport (s.dropDue (.hold g)) s := ⟨rfl, rfl, rfl⟩
    have offered := report.log.trans (dropped.offerAll rfl _).log
    rw [enterRamp_ended (sequence.trans empty) (.inl (class_eq.symm ▸ ends)) fails] at mode depths ft time link port ⊢
    refine ⟨fun h => endEpisode_rampEntered_group g h _, offered, fun q => ?_, mode, depths, ft, time, link, port⟩
    rw [endEpisode_rampEntered_total]
    exact endEpisode_total_of_key (s := s.dropDue (.hold g)) hk .sequence q
  · refine exec_expiry_not_due running (not_and_or.mp h |>.imp_right fun h => ?_)
    exact Bool.eq_false_iff.mpr fun due => h ((holdDue_iff s g).mp due)
  · refine exec_expiry_not_due running (h.imp_right fun early => Bool.eq_false_iff.mpr fun due => ?_)
    have reached : (groupRamp s g)[i]? = some e := groupRamp_of_key hk ▸ he
    exact absurd early (Nat.not_lt.mpr ((entryDue_iff_of_entry hr hi hs reached).mp due))
  · have reached : (groupRamp s g)[i]? = some e := groupRamp_of_key hk ▸ he
    have ready := (entryDue_iff_of_entry hr hi hs reached).mpr passed
    have position : (s.group g).rampEntry.getD 0 = i := by rw [hi]; rfl
    have before_last : ((s.dropDue (.entry g)).group g).rampEntry.getD 0 + 1
        < (groupRamp (s.dropDue (.entry g)) g).length := by
      rw [show groupRamp (s.dropDue (.entry g)) g = entries from groupRamp_of_key hk]
      exact position.symm ▸ inside
    have effect := entryExpiry_steps (s := s.dropDue (.entry g)) ready before_last
    refine ⟨_, fun h => tableGet_set freeGroup _ g h _, ?_⟩
    rw [show some (i + 1) = some ((s.group g).rampEntry.getD 0 + 1) by rw [position]]
    exact (exec_expiry_due running due ready).trans (congrArg Host.Outcome.next effect)
  · refine exec_expiry_not_due (e := .entry g) running (.inr (Bool.eq_false_iff.mpr fun due => ?_))
    obtain ⟨hr, start, hs, -⟩ := (entryDue_iff s g).mp due
    exact h.elim (fun h => h hr) fun h => by cases h.symm.trans hs

end Sys2Proof.Machine

namespace Sys2Proof.Machine

/-! ### The drain request touches one group at a time (R96, R103) -/

section
variable {g h : GroupId}

theorem sequenceEnd_group_ne (hne : h ≠ g) (u : State) : (sequenceEnd g u).group h = u.group h := by
  rw [sequenceEnd, testOnset_group_ne hne, endEpisode_group, if_neg hne]

theorem reachEnd_group_ne (hne : h ≠ g) (u : State) : (reachEnd g u).group h = u.group h := by
  unfold reachEnd
  split_ifs
  · exact sequenceEnd_group_ne hne u
  · rw [State.setGroup_group, if_neg hne]

theorem advanceEntry_group_ne (hne : h ≠ g) (u : State) : (advanceEntry g u).group h = u.group h := by
  unfold advanceEntry
  dsimp only
  split_ifs
  · rw [State.setGroup_group, if_neg hne]
  · exact reachEnd_group_ne hne u

theorem enterRamp_group_ne (hne : h ≠ g) (u : State) : (enterRamp g u).group h = u.group h := by
  have entered : (rampEntered g u).group h = u.group h := by rw [rampEntered_group, if_neg hne]
  rw [enterRamp_eq, testEntry]
  split_ifs
  · exact (advanceEntry_group_ne hne _).trans entered
  · exact entered

theorem groupAction_drainOn : GroupAction drainOn where
  frame := drainOn_groupFrame
  other hne u := by
    unfold drainOn
    split
    · exact enterRamp_group_ne hne u
    · exact enterRamp_group_ne hne u
    · split_ifs
      · exact sequenceEnd_group_ne hne u
      · rfl
    · rfl
    · rfl

/-- Every active member total after an event over the groups, from what each action takes out of it (R83). -/
theorem GroupAction.total_sub {f : GroupId → State → State} (A : GroupAction f) {s : State} (q : QueueId)
    {n : GroupId → Nat} (own : ∀ g u, u.groupFrame = s.groupFrame → u.group g = s.group g →
      (f g u).total q = u.total q - n g) :
    (forGroups s f).total q = s.total q - Finset.univ.sum n := by
  rw [Fin.sum_univ_def]
  exact A.induct (P := fun l u => u.total q = s.total q - (l.map n).sum) rfl
    fun l g u _ hf hu ih => by rw [own g u hf hu, ih, List.map_append, List.sum_append, Nat.sub_sub]; simp

end

/-! ### The drain request at one group (R99, R100, R103) -/

section
variable {s u : State} {g : GroupId}

/-- No entry of a ramp sequence is of duration 0 (R142). -/
def State.rampsLast (s : State) : Prop := ∀ r, ∀ e ∈ s.ramp r, 1 ≤ e.duration

theorem rampsLast_of_settingsLegal (h : s.settingsLegal) : s.rampsLast := by
  obtain ⟨-, -, -, -, -, -, -, -, ramps, -⟩ := h
  exact fun r e he => ((ramps r).2 e he).1.1

/-- The group is in an episode state that a graceful release takes into RAMP (R103). -/
abbrev State.rampsAtRelease (s : State) (g : GroupId) : Prop :=
  (s.group g).state = .active ∨ (s.group g).state = .settle

theorem endsAtRelease_congr (hg : u.group g = s.group g) (hf : u.groupFrame = s.groupFrame) :
    u.endsAtRelease g ↔ s.endsAtRelease g := by
  have ramp : u.ramp (groupClass u g).ramp = s.ramp (groupClass s g).ramp := groupRamp_congr (by rw [hg]) hf
  unfold State.endsAtRelease
  rw [hg, ramp]

theorem enterRamp_draining (hm : u.mode = .draining) (last : u.rampsLast) : enterRamp g u
    = if groupRamp u g = [] then endEpisode g .sequence (rampEntered g u) else rampEntered g u := by
  split_ifs with empty
  · exact enterRamp_ended empty (.inr hm) (onsetFails_of_draining hm)
  · obtain ⟨e, rest, he⟩ := List.exists_cons_of_ne_nil empty
    exact enterRamp_of_entry he (last _ e (by rw [← groupRamp, he]; exact List.mem_cons_self))

/-- What the drain request makes of one group, by whether it ramps and whether its episode ends (R103). -/
theorem drainOn_draining (hm : u.mode = .draining) (last : u.rampsLast) : drainOn g u =
    if u.rampsAtRelease g then
      if u.endsAtRelease g then endEpisode g .sequence (rampEntered g u) else rampEntered g u
    else if u.endsAtRelease g then endEpisode g .sequence u else u := by
  unfold drainOn State.rampsAtRelease State.endsAtRelease
  cases hs : (u.group g).state with
  | active | settle => by_cases empty : u.ramp (groupClass u g).ramp = [] <;>
      simp [empty, enterRamp_draining hm last, groupRamp]
  | ramp => simp [sequenceEnd_draining hm]
  | watch | free => simp

/-- The record that the drain request leaves a group (R103). -/
def State.drainedGroup (s : State) (g : GroupId) : GroupRecord :=
  if s.endsAtRelease g then (s.group g).toWatch
  else if s.rampsAtRelease g then
    { s.group g with state := .ramp, deadline := none, rampEntry := some 0, rampStart := some s.now }
  else s.group g

/-- The entries of the drain request at one group: RAMP, then END (R92, R103). -/
def State.drainEntries (s : State) (g : GroupId) : List LogEntry := s.groupEntries g fun key =>
  (if s.rampsAtRelease g then [s.moveEntry g key .ramp (s.queue key.queue).estimate] else [])
  ++ if s.endsAtRelease g then [s.endEntry g key] else []

theorem drainOn_group_self (hm : u.mode = .draining) (last : u.rampsLast) :
    (drainOn g u).group g = u.drainedGroup g := by
  rw [drainOn_draining hm last, State.drainedGroup]
  split_ifs
  · rw [endEpisode_rampEntered_group, if_pos rfl]
  · exact rampEntered_group_self g u
  · exact endEpisode_group_self g .sequence u
  · rfl

theorem drainOn_total (hm : u.mode = .draining) (last : u.rampsLast) (q : QueueId) : (drainOn g u).total q
    = u.total q - if u.endsAtRelease g ∧ u.groupQueue g = some q then (u.group g).count else 0 := by
  rw [drainOn_draining hm last]
  by_cases ends : u.endsAtRelease g
  · simp only [ends, if_true, true_and, ← endEpisode_total u g .sequence q]
    split_ifs
    · exact endEpisode_rampEntered_total g u q
    · rfl
  · simp only [ends, if_false, false_and, Nat.sub_zero]
    split_ifs
    · exact rampEntered_total g u q
    · rfl

theorem drainOn_report (hm : u.mode = .draining) (last : u.rampsLast) :
    SameReport (drainOn g u) (offerAll (u.drainEntries g) u) := by
  rw [drainOn_draining hm last, State.drainEntries]
  split_ifs with ramps ends ends
  · exact endEpisode_rampEntered_report g u
  · simpa using rampEntered_report g u
  · exact endEpisode_report g .sequence u
  · simpa using SameReport.refl u

end

end Sys2Proof.Machine

namespace Sys2Proof.Machine

/-! ### The drain request over all groups (R96, R103) -/

/-- DRAINING, every group taken to its ramp or its end, before the drain-end report (R103). -/
@[irreducible] def drainRequested (s : State) : State := forGroups { s with mode := .draining } drainOn

section
variable {s : State} {g : GroupId}

theorem drain_eq (s : State) : drain s = drainEnd (drainRequested s) := by
  unfold drainRequested
  rfl

theorem drainRequested_frame (s : State) :
    (drainRequested s).groupFrame = ({ s with mode := .draining } : State).groupFrame := by
  unfold drainRequested
  exact forGroups_groupFrame drainOn drainOn_groupFrame

theorem drainRequested_mode (s : State) : (drainRequested s).mode = .draining :=
  groupFrame_mode (drainRequested_frame s)

theorem drainRequested_drains (s : State) (g : GroupId) : ((drainRequested s).group g).state.drains := by
  unfold drainRequested
  exact drainOn_all rfl g

/-- What one group of the drain request meets: DRAINING, legal sequences, and its own record as it was. -/
theorem met_by_drainOn (last : s.rampsLast) {u : State}
    (hf : u.groupFrame = ({ s with mode := .draining } : State).groupFrame) : u.mode = .draining ∧ u.rampsLast := by
  refine ⟨groupFrame_mode hf, fun r e he => last r e ?_⟩
  rwa [State.ramp, groupFrame_time hf] at he

theorem drainedGroup_congr {u : State} (hf : u.groupFrame = s.groupFrame) (hg : u.group g = s.group g) :
    u.drainedGroup g = s.drainedGroup g := by
  unfold State.drainedGroup State.rampsAtRelease
  simp only [endsAtRelease_congr hg hf, hg, groupFrame_now hf]

theorem drainRequested_group (last : s.rampsLast) (g : GroupId) : (drainRequested s).group g = s.drainedGroup g := by
  unfold drainRequested
  refine groupAction_drainOn.group (s := { s with mode := .draining }) (G := s.drainedGroup) (fun g u hf hg => ?_) g
  obtain ⟨mode, last'⟩ := met_by_drainOn last hf
  rw [drainOn_group_self mode last']
  exact drainedGroup_congr (s := { s with mode := .draining }) hf hg

theorem drainRequested_total (last : s.rampsLast) (q : QueueId) : (drainRequested s).total q
    = s.total q - Finset.univ.sum fun g =>
      if s.endsAtRelease g ∧ (s.group g).key.map GroupKey.queue = some q then (s.group g).count else 0 := by
  unfold drainRequested
  refine groupAction_drainOn.total_sub (s := { s with mode := .draining }) q fun g u hf hg => ?_
  obtain ⟨mode, last'⟩ := met_by_drainOn last hf
  have ends : u.endsAtRelease g ↔ s.endsAtRelease g := endsAtRelease_congr (s := { s with mode := .draining }) hg hf
  rw [drainOn_total mode last']
  simp only [ends, State.groupQueue, hg]
  rfl

theorem drainEntries_congr {u : State} (hf : u.groupFrame = s.groupFrame) (hg : u.group g = s.group g) :
    u.drainEntries g = s.drainEntries g := by
  have same := SameEntries.of_groupFrame hf hg
  unfold State.drainEntries
  simp only [same.groupEntries, same.moveEntry, same.endEntry, same.queue, State.rampsAtRelease, hg,
    endsAtRelease_congr hg hf]

/-- The entries of a graceful release, as its statement gives them (R92, R96, R103). -/
def State.releaseEntries (s : State) : List LogEntry := s.entriesOf fun g key =>
  (if (s.group g).state = .active ∨ (s.group g).state = .settle then
    [s.moveEntry g key .ramp (s.queue key.queue).estimate] else [])
  ++ if s.endsAtRelease g then [s.endEntry g key] else []

theorem drainRequested_report (last : s.rampsLast) :
    SameReport (drainRequested s) (offerAll s.releaseEntries { s with mode := .draining }) := by
  unfold drainRequested
  rw [State.releaseEntries, entriesOf_eq]
  refine groupAction_drainOn.offers (s := { s with mode := .draining }) (entries := s.drainEntries) fun g u hf hg => ?_
  obtain ⟨mode, last'⟩ := met_by_drainOn last hf
  have report := drainOn_report (g := g) mode last'
  rwa [drainEntries_congr hf hg] at report

theorem drainedGroup_key (s : State) (g : GroupId) : (s.drainedGroup g).key = (s.group g).key := by
  unfold State.drainedGroup
  split_ifs <;> rfl

theorem drainedGroup_count (s : State) (g : GroupId) : (s.drainedGroup g).count = (s.group g).count := by
  unfold State.drainedGroup
  split_ifs <;> rfl

theorem endsAtRelease_isEpisode (h : s.endsAtRelease g) : (s.group g).state.isEpisode = true := by
  obtain ⟨hs | hs, -⟩ | ⟨hs, -⟩ := h <;> rw [hs] <;> rfl

/-- A group is in an episode after the drain request exactly when its own goes on (R103). -/
theorem drainedGroup_isEpisode : (s.drainedGroup g).state.isEpisode = true
    ↔ (s.group g).state.isEpisode = true ∧ ¬ s.endsAtRelease g := by
  unfold State.drainedGroup
  split_ifs with ends ramps
  · exact iff_of_false (by simp [GroupRecord.toWatch, GroupState.isEpisode]) fun h => h.2 ends
  · refine iff_of_true rfl ⟨?_, ends⟩
    obtain hs | hs := ramps <;> rw [hs] <;> rfl
  · exact (and_iff_left ends).symm

/-- Outside TRANSPARENT the drain request ends the episodes that the release ends at
once (R83, R92, R103). -/
theorem episodesEnded_drainRequested (last : s.rampsLast) (hm : s.mode ≠ .transparent) :
    EpisodesEnded s (drainRequested s) s.releaseEntries s.endsAtRelease where
  depths := (groupFrame_depths (drainRequested_frame s) :)
  now := (groupFrame_now (drainRequested_frame s) :)
  key g := by rw [drainRequested_group last, drainedGroup_key]
  count g := by rw [drainRequested_group last, drainedGroup_count]
  total := drainRequested_total last
  report := by
    obtain ⟨log, counters, alerts⟩ := offerAll_report_congr s.releaseEntries
      (s := { s with mode := .draining }) (t := s) (iff_of_false (by simp) hm) rfl rfl rfl
    exact (drainRequested_report last).trans ⟨log, counters, alerts⟩

/-! ### The graceful release (R103, R104, R156, R158) -/

/-- An episode goes on after a graceful release: it steps in its sequence, or enters one with an entry (R103). -/
abbrev State.drainGoesOn (s : State) : Prop := ∃ g, (s.group g).state.isEpisode = true ∧ ¬ s.endsAtRelease g

theorem drainRequested_anyEpisode (last : s.rampsLast) : (drainRequested s).anyEpisode = true ↔ s.drainGoesOn := by
  simp only [anyEpisode_iff, drainRequested_group last, drainedGroup_isEpisode]

theorem drain_of_goesOn (last : s.rampsLast) (h : s.drainGoesOn) : drain s = drainRequested s := by
  rw [drain_eq]
  exact drainEnd_of_episode fun _ => (drainRequested_anyEpisode last).mpr h

theorem drain_of_over (last : s.rampsLast) (h : ¬ s.drainGoesOn) :
    drain s = forGroups { drainRequested s with mode := .observe } testOnset := by
  rw [drain_eq]
  exact drainEnd_of_drained (drainRequested_mode s) (Bool.eq_false_iff.mpr (mt (drainRequested_anyEpisode last).mp h))

theorem drain_mode_of_over (last : s.rampsLast) (h : ¬ s.drainGoesOn) : (drain s).mode = .observe := by
  rw [drain_of_over last h, groupFrame_mode (forGroups_testOnset_frame (drainRequested s))]

theorem drain_mode (last : s.rampsLast) : (drain s).mode = .draining ↔ s.drainGoesOn := by
  by_cases h : s.drainGoesOn
  · exact iff_of_true (by rw [drain_of_goesOn last h, drainRequested_mode]) h
  · exact iff_of_false (by simp [drain_mode_of_over last h]) h

theorem not_opensAtReturn_of_goesOn (h : s.drainGoesOn) (g : GroupId) : ¬ s.opensAtReturn g := by
  rintro ⟨all_end, -⟩
  obtain ⟨h, he, goes_on⟩ := h
  exact goes_on (all_end h he)

/-- At the return to OBSERVE the onset test opens the groups that the release's statement says (R93, R104). -/
theorem onsetHolds_at_return (last : s.rampsLast) (hm : s.mode = .enforce) (h : ¬ s.drainGoesOn) (g : GroupId) :
    onsetHolds { drainRequested s with mode := .observe } g = true ↔ s.opensAtReturn g := by
  have all_end (h' : GroupId) (he : (s.group h').state.isEpisode = true) : s.endsAtRelease h' :=
    not_not.mp fun goes_on => h ⟨h', he, goes_on⟩
  have record : ({ drainRequested s with mode := .observe } : State).group g = s.drainedGroup g :=
    drainRequested_group last g
  have fails : ({ drainRequested s with mode := .observe } : State).onsetFails g ↔ s.onsetFails g :=
    onsetFails_congr (by rw [record, drainedGroup_key]) (by rw [record, drainedGroup_count])
      (groupFrame_depths (drainRequested_frame s) :) (by simp [hm])
  have watch : (s.drainedGroup g).state = .watch ↔ (s.group g).state = .watch ∨ s.endsAtRelease g := by
    unfold State.drainedGroup
    split_ifs with ends ramps
    · exact iff_of_true rfl (.inr ends)
    · exact absurd (all_end g (by obtain hs | hs := ramps <;> rw [hs] <;> rfl)) ends
    · exact (or_iff_left ends).symm
  rw [onsetHolds_iff_not_fails, fails, record, watch]
  exact (and_iff_right all_end).symm

theorem drain_group_of_closed (last : s.rampsLast) (hm : s.mode = .enforce) (closed : ¬ s.opensAtReturn g) :
    (drain s).group g = s.drainedGroup g := by
  by_cases h : s.drainGoesOn
  · rw [drain_of_goesOn last h, drainRequested_group last]
  · rw [drain_of_over last h, forGroups_testOnset_group, if_neg (mt (onsetHolds_at_return last hm h g).mp closed)]
    exact drainRequested_group last g

theorem drain_group_of_opens (last : s.rampsLast) (hm : s.mode = .enforce) {key : GroupKey}
    (hk : (s.group g).key = some key) (opens : s.opensAtReturn g) : (drain s).group g = { s.drainedGroup g with
      state := .active, onsetAt := some s.now, peak := some (s.queue key.queue).estimate } := by
  have h : ¬ s.drainGoesOn := fun h => not_opensAtReturn_of_goesOn h g opens
  have record : ({ drainRequested s with mode := .observe } : State).group g = s.drainedGroup g :=
    drainRequested_group last g
  have now : ({ drainRequested s with mode := .observe } : State).now = s.now :=
    (groupFrame_now (drainRequested_frame s) :)
  have queue : ({ drainRequested s with mode := .observe } : State).queue key.queue = s.queue key.queue :=
    queue_of_depths (groupFrame_depths (drainRequested_frame s) :) key.queue
  rw [drain_of_over last h, forGroups_testOnset_group, if_pos ((onsetHolds_at_return last hm h g).mpr opens),
    onset_group_self (by rw [record, drainedGroup_key, hk]), record, now, queue]

theorem drain_endsAndOpens (last : s.rampsLast) (hm : s.mode = .enforce) :
    s.endsAndOpens (drain s) s.releaseEntries s.endsAtRelease s.opensAtReturn := by
  have has_log : s.mode ≠ .transparent := by simp [hm]
  have ended := episodesEnded_drainRequested last has_log
  by_cases h : s.drainGoesOn
  · rw [drain_of_goesOn last h]
    exact ended.endsAndOpens (not_opensAtReturn_of_goesOn h)
  · rw [drain_of_over last h]
    exact ended.endsAndOpens_return has_log (onsetHolds_at_return last hm h)

theorem drain_rest (s : State) : (drain s).link = s.link ∧ (drain s).profile = s.profile
    ∧ (drain s).depths = s.depths ∧ (drain s).ft = s.ft ∧ (drain s).time = s.time ∧ (drain s).port = s.port := by
  have requested := drainRequested_frame s
  have frame := (drainEnd_dataFrame _).trans (dataFrame_of_groupFrame requested)
  rw [drain_eq]
  exact ⟨(dataFrame_link frame :), (dataFrame_profile frame :),
    (drainEnd_depths _).trans (groupFrame_depths requested :), (drainEnd_ft _).trans (groupFrame_ft requested :), (dataFrame_time frame :), (dataFrame_port frame :)⟩

end

/-- The refusals of RELEASE (R155, R176). -/
theorem release_refused {s : State} (hs : s.takesRequests) :
    (∀ b : Byte, b &&& 0xFE ≠ 0 →
      exec (.releaseGraceful [1, b]) s = .next (s.refusing 0x22 .reservedSet 0)
      ∧ exec (.releaseAbrupt [1, b]) s = .next (s.refusing 0x22 .reservedSet 0))
    ∧ (s.mode = .transparent ∨ s.mode = .observe →
      exec (.releaseGraceful [1, 0]) s = .next (s.refusing 0x22 .wrongMode 0)
      ∧ exec (.releaseAbrupt [1, 1]) s = .next (s.refusing 0x22 .wrongMode 0))
    ∧ (s.mode = .draining → exec (.releaseGraceful [1, 0]) s = .next (s.answering .busy 0x22 [])) := by
  refine ⟨fun b hb => ?_, fun hm => ?_, fun hm => ?_⟩
  · have lowest : lowestReserved bitZeroReserved [b] 0 := ⟨⟨0xFE, List.mem_singleton_self _, hb⟩,
      fun o m _ ho => absurd ho (Nat.not_lt_zero o)⟩
    have refused (abrupt : Bool) : releaseAnswer abrupt [1, b] s = .check .reservedSet 0 :=
      (withParams_framed (by decide) (oneParam_framed b) _).trans
        (unlessReserved_some (List.pairwise_singleton _ _) lowest _)
    rw [exec_releaseGraceful hs, exec_releaseAbrupt hs, refused, refused]
    exact ⟨rfl, rfl⟩
  · rw [exec_releaseGraceful hs, exec_releaseAbrupt hs, releaseAnswer_framed (by decide),
      releaseAnswer_framed (by decide)]
    obtain hm | hm := hm <;> rw [hm] <;> exact ⟨rfl, rfl⟩
  · rw [exec_releaseGraceful hs, releaseAnswer_framed (by decide), hm]
    rfl

/-- Settles O35: an accepted graceful release is `drain`, in which an episode goes on or none is left. -/
theorem gracefulReleaseDrains : Obligations.GracefulReleaseDrains := by
  refine ⟨fun s hs => release_refused hs, fun s hs legal hm => ⟨drain s, ?_, ?_⟩⟩
  · rw [exec_releaseGraceful hs, releaseAnswer_framed (by decide), hm]
    rfl
  have last := rampsLast_of_settingsLegal legal
  have kept {g : GroupId} (h : s.drainGoesOn) : (drain s).group g = s.drainedGroup g :=
    drain_group_of_closed last hm (not_opensAtReturn_of_goesOn h g)
  obtain ⟨link, profile, depths, ft, time, port⟩ := drain_rest s
  refine ⟨?_, fun idle => ?_, fun g ramps entry => ?_, fun g start ramp stepping => ?_, fun hd g => ?_, link, profile,
    depths, ft, time, port, drain_mode last, fun g ends closed => ?_, fun g key hk opens => ?_,
    fun g rests closed => ?_, drain_endsAndOpens last hm⟩
  · by_cases h : s.drainGoesOn
    · refine .inl ⟨(drain_mode last).mpr h, ?_⟩
      rw [drain_of_goesOn last h]
      exact (drainRequested_anyEpisode last).mpr h
    · exact .inr (drain_mode_of_over last h)
  · refine drain_mode_of_over last fun ⟨g, he, _⟩ => ?_
    exact Bool.eq_false_iff.mp idle (anyEpisode_iff.mpr ⟨g, he⟩)
  · have goes_on : ¬ s.endsAtRelease g := by
      rintro (⟨-, empty⟩ | ⟨ramp, -⟩)
      · exact entry empty
      · rw [ramp] at ramps
        obtain hs | hs := ramps <;> cases hs
    have h : s.drainGoesOn := ⟨g, by obtain hs | hs := ramps <;> rw [hs] <;> rfl, goes_on⟩
    refine ⟨(drain_mode last).mpr h, ?_⟩
    rw [kept h, State.drainedGroup, if_neg goes_on, if_pos ramps]
  · have goes_on : ¬ s.endsAtRelease g := by
      rintro (⟨hs | hs, -⟩ | ⟨-, holding⟩)
      · cases ramp.symm.trans hs
      · cases ramp.symm.trans hs
      · cases stepping.symm.trans holding
    have h : s.drainGoesOn := ⟨g, by rw [ramp]; rfl, goes_on⟩
    refine ⟨(drain_mode last).mpr h, ?_⟩
    rw [kept h, State.drainedGroup, if_neg goes_on, if_neg]
    rw [State.rampsAtRelease, ramp]
    rintro (hs | hs) <;> cases hs
  · rw [drain_of_goesOn last ((drain_mode last).mp hd)]
    exact drainRequested_drains s g
  · rw [drain_group_of_closed last hm closed, State.drainedGroup, if_pos ends]
    rfl
  · rw [drain_group_of_opens last hm hk opens, State.drainedGroup]
    split_ifs with ends ramps
    · rfl
    · rw [State.rampsAtRelease, opens.2.1.resolve_right ends] at ramps
      obtain hs | hs := ramps <;> cases hs
    · rfl
  · have resting : ¬ s.endsAtRelease g := fun ends => by
      rw [endsAtRelease_isEpisode ends] at rests
      cases rests
    rw [drain_group_of_closed last hm closed, State.drainedGroup, if_neg resting, if_neg]
    rintro (hs | hs) <;> rw [hs] at rests <;> cases rests

end Sys2Proof.Machine

namespace Sys2Proof.Machine

/-! ### What a leave does to the group, its list, its total and the log (R82, R83, R88, R89, R90) -/

section
variable {s : State} {f : FlowId} {g : GroupId} {key : GroupKey}

theorem leave_of_group (h : (s.flow f).group = some g) : leave f s = afterRemoval g (removeMember f g s) := by
  rw [leave, h]

/-- The steps after a removal leave what ties a group to its members (R88, R89, R90). -/
theorem afterRemoval_ties (g h : GroupId) (s : State) :
    ((afterRemoval g s).group h).count = (s.group h).count ∧ ((afterRemoval g s).group h).key = (s.group h).key
      ∧ ((afterRemoval g s).group h).head = (s.group h).head
      ∧ ((afterRemoval g s).group h).tail = (s.group h).tail := by
  rw [afterRemoval_group]
  split_ifs with collapses lingers
  · rw [collapses.1]
    exact ⟨rfl, rfl, rfl, rfl⟩
  · rw [lingers.1]
    exact ⟨rfl, rfl, rfl, rfl⟩
  · exact ⟨rfl, rfl, rfl, rfl⟩

theorem removeMember_group_self (f : FlowId) (g : GroupId) (s : State) :
    ((removeMember f g s).group g).count = (s.group g).count - 1
      ∧ ((removeMember f g s).group g).key = (s.group g).key
      ∧ ((removeMember f g s).group g).state = (s.group g).state
      ∧ ((removeMember f g s).group g).peak = (s.group g).peak
      ∧ ((removeMember f g s).group g).onsetAt = (s.group g).onsetAt := by
  rw [removeMember_group, if_pos rfl]
  exact ⟨rfl, rfl, rfl, rfl, rfl⟩

theorem leave_group_other (hf : (s.flow f).group = some g) (h : GroupId) (hne : h ≠ g) :
    (leave f s).group h = s.group h := by
  rw [leave_of_group hf, afterRemoval_group, if_neg fun e => hne e.1, if_neg fun e => hne e.1, removeMember_group,
    if_neg hne]

theorem leave_group_count (hf : (s.flow f).group = some g) :
    ((leave f s).group g).count = (s.group g).count - 1 := by
  obtain ⟨count, -, -, -⟩ := afterRemoval_ties g g (removeMember f g s)
  rw [leave_of_group hf, count, (removeMember_group_self f g s).1]

theorem leave_group_key (hf : (s.flow f).group = some g) : ((leave f s).group g).key = (s.group g).key := by
  obtain ⟨-, key, -, -⟩ := afterRemoval_ties g g (removeMember f g s)
  rw [leave_of_group hf, key, (removeMember_group_self f g s).2.1]

/-- The last leave takes an episode to WATCH and starts the linger (R89, R90). -/
theorem leave_group_collapsed (hf : (s.flow f).group = some g) (last : (s.group g).count = 1)
    (he : (s.group g).state.isEpisode = true) :
    ((leave f s).group g).state = .watch ∧ ((leave f s).group g).onsetAt = none
      ∧ ((leave f s).group g).peak = none ∧ ((leave f s).group g).lingerStart = some s.time.tick := by
  obtain ⟨count, -, state, -, -⟩ := removeMember_group_self f g s
  have now : (removeMember f g s).now = s.now := flowFrame_now (removeMember_flowFrame f g s)
  rw [leave_of_group hf, afterRemoval_group, if_pos ⟨rfl, by rw [count, last], by rw [state, he]⟩, now]
  exact ⟨rfl, rfl, rfl, rfl⟩

/-- The last leave of a WATCH group starts the linger (R90). -/
theorem leave_group_lingers (hf : (s.flow f).group = some g) (last : (s.group g).count = 1)
    (hw : (s.group g).state = .watch) :
    ((leave f s).group g).state = .watch ∧ ((leave f s).group g).lingerStart = some s.time.tick := by
  obtain ⟨count, -, state, -, -⟩ := removeMember_group_self f g s
  have now : (removeMember f g s).now = s.now := flowFrame_now (removeMember_flowFrame f g s)
  have no_episode : ¬ ((removeMember f g s).group g).state.isEpisode = true := by
    rw [state, hw]
    decide
  rw [leave_of_group hf, afterRemoval_group, if_neg fun e => no_episode e.2.2,
    if_pos ⟨rfl, by rw [count, last], by rw [state, hw]⟩, now]
  exact ⟨state.trans hw, rfl⟩

theorem leave_group_stays (hf : (s.flow f).group = some g) (many : 2 ≤ (s.group g).count) :
    ((leave f s).group g).state = (s.group g).state ∧ ((leave f s).group g).peak = (s.group g).peak := by
  obtain ⟨count, -, state, peak, -⟩ := removeMember_group_self f g s
  have left : ((removeMember f g s).group g).count ≠ 0 := by omega
  rw [leave_of_group hf, afterRemoval_group, if_neg fun e => left e.2.1, if_neg fun e => left e.2.1]
  exact ⟨state, peak⟩

theorem leave_total (hf : (s.flow f).group = some g) (hk : (s.group g).key = some key) (q : QueueId) :
    (leave f s).total q
      = s.total q - if (s.group g).state.isEpisode = true ∧ q = key.queue then 1 else 0 := by
  obtain ⟨-, removed_key, state, -, -⟩ := removeMember_group_self f g s
  rw [leave_of_group hf, afterRemoval_total, removeMember_total, state]
  simp only [groupQueue_eq_iff (removed_key.trans hk), and_comm]

/-- A leave takes its record out of the member list, and the others keep their order (R82, R88). -/
theorem leave_isMemberList {before after : List FlowId} (h : s.isMemberList g (before ++ f :: after)) :
    (leave f s).isMemberList g (before ++ after) := by
  have hf : (s.flow f).group = some g := (h.2.1 f).mp (by simp)
  have removed := isMemberList_remove h before.length (by simp)
  have own : (before ++ f :: after)[before.length]'(by simp) = f := by simp
  have rest : (before ++ f :: after).eraseIdx before.length = before ++ after := by
    simp [List.eraseIdx_append_of_length_le]
  rw [own, rest] at removed
  obtain ⟨count, -, head, tail⟩ := afterRemoval_ties g g (removeMember f g s)
  have flow := groupFrame_flow (afterRemoval_groupFrame g (removeMember f g s))
  rw [leave_of_group hf]
  generalize removeMember f g s = u at removed count head tail flow ⊢
  exact isMemberList_congr removed count head tail (fun i => by rw [flow]) fun i _ => by rw [flow]; exact ⟨rfl, rfl⟩

theorem removeMember_log (f : FlowId) (g : GroupId) (s : State) : (removeMember f g s).log = s.log := by
  unfold removeMember
  dsimp only
  split <;> split <;> simp only [State.setGroup_log, State.setFlow_log]

/-- The steps after a removal offer a COLLAPSE entry where an episode has lost its last member, and nothing
else (R89, R92). -/
theorem afterRemoval_log (hk : (s.group g).key = some key) : (afterRemoval g s).log =
    if (s.group g).count = 0 ∧ (s.group g).state.isEpisode = true then
      (offer { s.endEntry g key with kind := .collapse, cause := .none } s).log
    else s.log := by
  have frame := subTotal_groupFrame g 1 s
  have same : SameEntries s (subTotal g 1 s) g := .of_groupFrame frame (by rw [subTotal_group])
  have log := (subTotal_report g 1 s).log
  unfold afterRemoval
  dsimp only
  by_cases he : (s.group g).state.isEpisode = true
  · rw [if_pos he]
    split_ifs with hc hb hb
    · have hk' : ((subTotal g 1 s).group g).key = some key := by rw [subTotal_group, hk]
      rw [collapse, offerFor_eq_endEntry hk', same.endEntry]
      exact offer_log_congr _ (groupFrame_mode frame) log
    · exact absurd ⟨hc, he⟩ hb
    · exact absurd hb.1 hc
    · exact log
  · have none_ends : ¬ ((s.group g).count = 0 ∧ (s.group g).state.isEpisode = true) := fun hb => he hb.2
    rw [if_neg he, if_neg none_ends]
    split_ifs <;> rfl

theorem leave_log (hf : (s.flow f).group = some g) (hk : (s.group g).key = some key) : (leave f s).log =
    if (s.group g).count ≤ 1 ∧ (s.group g).state.isEpisode = true then
      (offer { s.endEntry g key with kind := .collapse, cause := .none, count := 0 } s).log
    else s.log := by
  obtain ⟨count, removed_key, state, peak, onsetAt⟩ := removeMember_group_self f g s
  have frame := removeMember_flowFrame f g s
  have log := removeMember_log f g s
  have empty : ((removeMember f g s).group g).count = 0 ↔ (s.group g).count ≤ 1 := by omega
  rw [leave_of_group hf, afterRemoval_log (removed_key.trans hk), state]
  simp only [empty]
  split_ifs with last
  · have entry : { (removeMember f g s).endEntry g key with kind := .collapse, cause := .none }
        = { s.endEntry g key with kind := .collapse, cause := .none, count := 0 } := by
      unfold State.endEntry
      rw [peak, onsetAt, empty.mpr last.1, queue_of_depths (flowFrame_depths frame),
        show (removeMember f g s).time.tick = s.time.tick from flowFrame_now frame]
    rw [entry]
    exact offer_log_congr _ (flowFrame_mode frame) log
  · exact log

end

/-- Under the laws of the group table the search finds the one group with that key (R81). -/
theorem findGroup_iff {s : State} (A : s.groupsAccounted) (key : GroupKey) (g : GroupId) :
    findGroup s key = some g ↔ (s.group g).state ≠ .free ∧ (s.group g).key = some key := by
  obtain ⟨-, unique, -⟩ := A
  refine ⟨findGroup_spec, fun ⟨standing, hk⟩ => ?_⟩
  cases found : findGroup s key with
  | none => exact absurd hk (findGroup_none found g standing)
  | some h => exact congrArg some (unique h g key (findGroup_spec found).2 hk)

end Sys2Proof.Machine

namespace Sys2Proof.Machine

/-! ### What a join does to a group that stands (R82, R85, R87) -/

/-- A state in which flow record `f` asks to join: its responder and queue as the request gives them (R85
step 2). -/
def asking (f : FlowId) (sender : Side) (key : GroupKey) (s : State) : State :=
  s.setFlow f { s.flow f with responder := some sender, joinedQueue := some key.queue }

/-- Flow record `f` at the tail of the list of group `g`, and counted (R85 steps 5 to 7). -/
def entered (f : FlowId) (g : GroupId) (s : State) : State := (appendMember f g s).bump Counter.joins

/-- The record of a WATCH group with flow record `f` as a new last member; a linger ends (R82, R85, R90). -/
def GroupRecord.withMember (r : GroupRecord) (f : FlowId) : GroupRecord :=
  { r with count := r.count + 1, head := some (r.head.getD f), tail := some f
           lingerStart := if r.count = 0 then none else r.lingerStart }

section
variable {s : State} {f : FlowId} {g : GroupId} {key : GroupKey} {sender : Side}

theorem asking_flow_self : (asking f sender key s).flow f =
    { s.flow f with responder := some sender, joinedQueue := some key.queue } := by
  rw [asking, State.setFlow_flow, if_pos rfl]

theorem join_of_standing (h : findGroup s key = some g) :
    join f sender key s = joinGroup f g (asking f sender key s) := by
  have found : findGroup (asking f sender key s) key = some g := h
  unfold asking at found ⊢
  simp only [join, found]

theorem asking_chained (C : s.membersChained) (hs : (s.flow f).state ≠ .free) :
    (asking f sender key s).membersChained := chained_setFlow C f _ rfl rfl rfl fun h => absurd h hs

theorem asking_isMemberList {l : List FlowId} (L : s.isMemberList g l) : (asking f sender key s).isMemberList g l := by
  have ties : ∀ i, ((asking f sender key s).flow i).group = (s.flow i).group
      ∧ ((asking f sender key s).flow i).next = (s.flow i).next
      ∧ ((asking f sender key s).flow i).prev = (s.flow i).prev := by
    intro i
    rw [asking, State.setFlow_flow]
    split_ifs with hi
    · rw [hi]
      exact ⟨rfl, rfl, rfl⟩
    · exact ⟨rfl, rfl, rfl⟩
  exact isMemberList_congr L rfl rfl rfl (fun i => by rw [(ties i).1]) fun i _ => (ties i).2

/-! The steps 4 to 8, case by case. -/

theorem joinGroup_of_full (full : 255 ≤ (s.group g).count) : joinGroup f g s =
    (s.bump Counter.memberOverflow).setGroup g { s.group g with overflow := true } := if_pos full

theorem joinGroup_of_room (room : (s.group g).count < 255) : joinGroup f g s =
    if (s.group g).state.isEpisode then addTotal g 1 (entered f g s)
    else if (s.group g).state = .watch then testOnset g (entered f g s)
    else entered f g s := if_neg (Nat.not_le.mpr room)

theorem joinGroup_of_episode (room : (s.group g).count < 255) (he : (s.group g).state.isEpisode = true) :
    joinGroup f g s = addTotal g 1 (entered f g s) := by
  rw [joinGroup_of_room room, if_pos he]

theorem joinGroup_of_watch (room : (s.group g).count < 255) (hw : (s.group g).state = .watch) :
    joinGroup f g s = testOnset g (entered f g s) := by
  rw [joinGroup_of_room room, hw]
  rfl

/-! What the entry of a member does to the group and its list. -/

theorem entered_frame (f : FlowId) (g : GroupId) (s : State) : (entered f g s).flowFrame = s.flowFrame := by
  rw [entered, bump_flowFrame, appendMember_flowFrame]

theorem entered_total (q : QueueId) : (entered f g s).total q = s.total q := by
  rw [entered, State.bump_total, appendMember_total]

theorem entered_group_other (h : GroupId) (hne : h ≠ g) : (entered f g s).group h = s.group h := by
  rw [entered, State.bump_group, appendMember_group, if_neg hne]

theorem entered_group_self : (entered f g s).group g = { s.group g with
    count := (s.group g).count + 1
    head := if (s.group g).head.isNone then some f else (s.group g).head
    tail := some f
    lingerStart := if (s.group g).state = .watch ∧ (s.group g).count = 0 then none
                   else (s.group g).lingerStart } := by
  rw [entered, State.bump_group, appendMember_group, if_pos rfl]

theorem entered_group_of_watch (hw : (s.group g).state = .watch) :
    (entered f g s).group g = (s.group g).withMember f := by
  have head : (if (s.group g).head.isNone then some f else (s.group g).head) = some ((s.group g).head.getD f) := by
    cases (s.group g).head <;> rfl
  rw [entered_group_self, head, GroupRecord.withMember]
  simp only [hw, true_and]

theorem entered_log (f : FlowId) (g : GroupId) (s : State) : (entered f g s).log = s.log := by
  unfold entered appendMember
  dsimp only [State.bump_log, State.setGroup_log]
  split <;> rfl

theorem entered_alerts (f : FlowId) (g : GroupId) (s : State) : (entered f g s).alerts = s.alerts := by
  unfold entered appendMember
  dsimp only [State.bump_alerts, State.setGroup_alerts]
  split <;> rfl

theorem entered_counter (c : CounterId) : (entered f g s).counter c =
    if c = Counter.joins then saturate (s.counter c + 1) else s.counter c := by
  rw [entered, State.bump_counter, appendMember_counter, appendMember_counter]
  split_ifs with hc
  · rw [hc]
  · rfl

/-- From one member of a list its link leads to the next (R82). -/
theorem isMemberList_next {l : List FlowId} (L : s.isMemberList g l) {k : Nat} {i : FlowId} (h : l[k]? = some i) :
    (s.flow i).next = l[k + 1]? := by
  obtain ⟨-, -, -, -, -, links⟩ := L
  obtain ⟨hk, rfl⟩ := List.getElem?_eq_some_iff.mp h
  exact (links k hk).1

/-- Two lists of one length that start alike and go on alike are the same. -/
theorem list_eq_of_walk {α : Type} {a b : List α} (length : a.length = b.length) (start : a[0]? = b[0]?)
    (next : ∀ (k : Nat) (x : α), a[k]? = some x → b[k]? = some x → a[k + 1]? = b[k + 1]?) : a = b := by
  refine List.ext_getElem? fun k => ?_
  induction k with
  | zero => exact start
  | succ k ih =>
    cases ha : a[k]? with
    | none =>
      have short : a.length ≤ k := List.getElem?_eq_none_iff.mp ha
      rw [List.getElem?_eq_none_iff.mpr (by omega), List.getElem?_eq_none_iff.mpr (by omega)]
    | some x => exact next k x ha (ih ▸ ha)

/-- An append puts its flow record at the tail of the member list (R82). -/
theorem appendMember_isMemberList {l : List FlowId} (C : s.membersChained) (hf : (s.flow f).group = none)
    (hs : (s.flow f).state ≠ .free) (hg : (s.group g).state ≠ .free) (L : s.isMemberList g l) :
    (appendMember f g s).isMemberList g (l ++ [f]) := by
  obtain ⟨l', L'⟩ := (appendMember_chained C f g hf hs hg).1 g
  obtain ⟨nodup, members, count, head, tail, -⟩ := id L
  obtain ⟨-, -, count', head', -, -⟩ := id L'
  rw [appendMember_group, if_pos rfl] at count' head'
  suffices same : l' = l ++ [f] from same ▸ L'
  refine list_eq_of_walk ?_ ?_ fun k i hl' hl => ?_
  · rw [← count', List.length_append, ← count]
    rfl
  · rw [← List.head?_eq_getElem?, ← List.head?_eq_getElem?, ← head', head]
    cases l <;> rfl
  rw [← isMemberList_next L' hl', appendMember_flow]
  by_cases hk : k < l.length
  · rw [List.getElem?_append_left hk] at hl
    have other : i ≠ f := by
      rintro rfl
      exact absurd (hf.symm.trans ((members i).mp (List.mem_of_getElem? hl))) (by simp)
    have last : (s.group g).tail = some i ↔ k + 1 = l.length := by
      rw [tail, List.getLast?_eq_getElem?, ← hl, List.getElem?_inj (by omega) nodup]
      omega
    simp only [other, if_false, last, isMemberList_next L hl]
    split_ifs with hlast
    · simp [hlast]
    · rw [List.getElem?_append_left (by omega)]
  · have own : i = f := by
      rw [List.getElem?_append_right (by omega)] at hl
      exact List.mem_singleton.mp (List.mem_of_getElem? hl)
    rw [if_pos own]
    exact (List.getElem?_eq_none_iff.mpr (by simp; omega)).symm

end

end Sys2Proof.Machine

namespace Sys2Proof.Machine

/-! ### What follows the entry of a member: the total, or the onset test (R85, R87) -/

/-- A state with the flow records, the other groups, the list of group `g` and the joins counter of `u`. -/
structure SameMembers (g : GroupId) (u v : State) : Prop where
  flow : ∀ i, v.flow i = u.flow i
  other : ∀ h, h ≠ g → v.group h = u.group h
  count : (v.group g).count = (u.group g).count
  head : (v.group g).head = (u.group g).head
  tail : (v.group g).tail = (u.group g).tail
  joins : v.counter Counter.joins = u.counter Counter.joins

section
variable {s u v : State} {f : FlowId} {g : GroupId} {key : GroupKey} {sender : Side}

theorem SameMembers.isMemberList {l : List FlowId} (h : SameMembers g u v) (L : u.isMemberList g l) :
    v.isMemberList g l :=
  isMemberList_congr L h.count h.head h.tail (fun i => by rw [h.flow]) fun i _ => by rw [h.flow]; exact ⟨rfl, rfl⟩

theorem addTotal_sameMembers (g : GroupId) (n : Nat) (u : State) : SameMembers g u (addTotal g n u) where
  flow := groupFrame_flow (addTotal_groupFrame g n u)
  other _ _ := by rw [addTotal_group]
  count := by rw [addTotal_group]
  head := by rw [addTotal_group]
  tail := by rw [addTotal_group]
  joins := addTotal_counter g n u

theorem onset_sameMembers (g : GroupId) (u : State) : SameMembers g u (onset g u) where
  flow := groupFrame_flow (onset_groupFrame g u)
  other _ hne := by rw [onset_group, if_neg hne]
  count := by rw [onset_group, if_pos rfl]
  head := by rw [onset_group, if_pos rfl]
  tail := by rw [onset_group, if_pos rfl]
  joins := by
    rw [onset_eq, State.flagOnset_counter, State.bump_counter, if_neg (by decide), offerFor_counter_ne (by decide),
      onsetOpened, addTotal_counter, State.setGroup_counter]

theorem SameMembers.refl (g : GroupId) (u : State) : SameMembers g u u :=
  ⟨fun _ => rfl, fun _ _ => rfl, rfl, rfl, rfl, rfl⟩

theorem joinGroup_sameMembers (room : (s.group g).count < 255) :
    SameMembers g (entered f g s) (joinGroup f g s) := by
  rw [joinGroup_of_room room]
  split_ifs
  · exact addTotal_sameMembers g 1 _
  · unfold testOnset
    split_ifs
    · exact onset_sameMembers g _
    · exact .refl g _
  · exact .refl g _

theorem joinGroup_group_other (h : GroupId) (hne : h ≠ g) : (joinGroup f g s).group h = s.group h := by
  by_cases room : (s.group g).count < 255
  · rw [(joinGroup_sameMembers room).other h hne, entered_group_other h hne]
  · rw [joinGroup_of_full (Nat.not_lt.mp room), State.setGroup_group, if_neg hne, State.bump_group]

theorem joinGroup_request : ((joinGroup f g s).flow f).responder = (s.flow f).responder
    ∧ ((joinGroup f g s).flow f).joinedQueue = (s.flow f).joinedQueue := by
  by_cases room : (s.group g).count < 255
  · rw [(joinGroup_sameMembers room).flow, entered, State.bump_flow, appendMember_flow, if_pos rfl]
    exact ⟨rfl, rfl⟩
  · rw [joinGroup_of_full (Nat.not_lt.mp room), State.setGroup_flow, State.bump_flow]
    exact ⟨rfl, rfl⟩

/-! ### A join to a group that stands -/

/-- The member joins at the tail of the list, and is counted (R82, R85). -/
theorem join_standing_list {l : List FlowId} (C : s.membersChained) (hf : (s.flow f).group = none)
    (hs : (s.flow f).state ≠ .free) (hg : findGroup s key = some g) (room : (s.group g).count < 255)
    (L : s.isMemberList g l) : (join f sender key s).isMemberList g (l ++ [f])
      ∧ (join f sender key s).counter Counter.joins = min (s.counter Counter.joins + 1) 4294967295 := by
  have same := joinGroup_sameMembers (f := f) (s := asking f sender key s) room
  have list : (appendMember f g (asking f sender key s)).isMemberList g (l ++ [f]) :=
    appendMember_isMemberList (asking_chained C hs) (by rw [asking_flow_self]; exact hf)
      (by rw [asking_flow_self]; exact hs) (findGroup_spec hg).1 (asking_isMemberList L)
  rw [join_of_standing hg]
  refine ⟨same.isMemberList list, ?_⟩
  rw [same.joins, entered_counter, if_pos rfl]
  rfl

/-- A join to an episode raises the total and leaves the episode as it is (R87). -/
theorem join_episode (hg : findGroup s key = some g) (room : (s.group g).count < 255)
    (he : (s.group g).state.isEpisode = true) :
    (∀ q, (join f sender key s).total q = s.total q + if q = key.queue then 1 else 0)
      ∧ ((join f sender key s).group g).state = (s.group g).state
      ∧ ((join f sender key s).group g).deadline = (s.group g).deadline
      ∧ ((join f sender key s).group g).rampEntry = (s.group g).rampEntry
      ∧ ((join f sender key s).group g).rampStart = (s.group g).rampStart
      ∧ ((join f sender key s).group g).onsetAt = (s.group g).onsetAt
      ∧ ((join f sender key s).group g).peak = (s.group g).peak := by
  have record := entered_group_self (f := f) (g := g) (s := asking f sender key s)
  have hk : ((entered f g (asking f sender key s)).group g).key = some key := by
    rw [record]
    exact (findGroup_spec hg).2
  rw [join_of_standing hg, joinGroup_of_episode (s := asking f sender key s) room he, addTotal_group, record]
  refine ⟨fun q => ?_, rfl, rfl, rfl, rfl, rfl, rfl⟩
  rw [addTotal_total, entered_total]
  simp only [groupQueue_eq_iff hk]
  rfl

theorem join_watch (hg : findGroup s key = some g) (room : (s.group g).count < 255)
    (hw : (s.group g).state = .watch) :
    join f sender key s = testOnset g (entered f g (asking f sender key s)) := by
  rw [join_of_standing hg, joinGroup_of_watch (s := asking f sender key s) room hw]

theorem entered_asking_group (hw : (s.group g).state = .watch) :
    (entered f g (asking f sender key s)).group g = (s.group g).withMember f := entered_group_of_watch hw

theorem entered_asking_depths : (entered f g (asking f sender key s)).depths = s.depths :=
  (flowFrame_depths (entered_frame f g _) :)

/-- The onset condition with the new member (R93). -/
theorem entered_opens (hk : (s.group g).key = some key) (hw : (s.group g).state = .watch) :
    onsetHolds (entered f g (asking f sender key s)) g = true ↔
      (s.queueClass key.queue).fanIn ≠ 0 ∧ (s.queueClass key.queue).fanIn ≤ (s.group g).count + 1
        ∧ (s.queueClass key.queue).onsetDepth ≤ (s.queue key.queue).estimate
        ∧ (s.mode = .observe ∨ s.mode = .enforce) := by
  have record := entered_asking_group (f := f) (sender := sender) (key := key) hw
  have depths := entered_asking_depths (f := f) (g := g) (sender := sender) (key := key) (s := s)
  have mode : (entered f g (asking f sender key s)).mode = s.mode := flowFrame_mode (entered_frame f g _)
  have keyed : ((entered f g (asking f sender key s)).group g).key = some key := by rw [record]; exact hk
  have watches : ((s.group g).withMember f).state = .watch := hw
  rw [onsetHolds_of_key keyed, record, mode]
  unfold State.queueClass State.classRecord State.classNumber
  simp only [depths, queue_of_depths depths, watches, true_and]
  rfl

/-- An onset made with the new member (R92, R93, R94). -/
theorem join_watch_opens (hg : findGroup s key = some g) (room : (s.group g).count < 255)
    (hw : (s.group g).state = .watch) (opens : onsetHolds (entered f g (asking f sender key s)) g = true) :
    (join f sender key s).group g = { (s.group g).withMember f with
        state := .active, onsetAt := some s.time.tick, peak := some (s.queue key.queue).estimate }
      ∧ (∀ q, (join f sender key s).total q = s.total q + if q = key.queue then (s.group g).count + 1 else 0)
      ∧ (join f sender key s).log = (offer { s.moveEntry g key .onset (s.queue key.queue).estimate with
          count := (s.group g).count + 1 } s).log
      ∧ (join f sender key s).alerts.onset = true
      ∧ (join f sender key s).counter Counter.onsets = min (s.counter Counter.onsets + 1) 4294967295 := by
  have record := entered_asking_group (f := f) (sender := sender) (key := key) hw
  have frame := entered_frame f g (asking f sender key s)
  have total := entered_total (f := f) (g := g) (s := asking f sender key s)
  have log := entered_log f g (asking f sender key s)
  have counter := entered_counter (f := f) (g := g) (s := asking f sender key s) Counter.onsets
  rw [join_watch hg room hw, testOnset_of_holds opens]
  generalize entered f g (asking f sender key s) = u at record frame total log counter ⊢
  have hk : (u.group g).key = some key := by rw [record]; exact (findGroup_spec hg).2
  have now : u.now = s.now := (flowFrame_now frame :)
  have queue : u.queue key.queue = s.queue key.queue := queue_of_depths (flowFrame_depths frame :) _
  have entry : u.moveEntry g key .onset (s.queue key.queue).estimate
      = { s.moveEntry g key .onset (s.queue key.queue).estimate with count := (s.group g).count + 1 } := by
    unfold State.moveEntry
    rw [record, show u.time.tick = s.time.tick from now]
    rfl
  refine ⟨?_, fun q => ?_, ?_, rfl, ?_⟩
  · rw [onset_group_self hk, record, now, queue]
  · rw [onset_total, total, record]
    simp only [groupQueue_eq_iff hk]
    rfl
  · rw [(onset_report g u).log, groupEntries_of_key hk, queue, entry]
    exact offer_log_congr _ (flowFrame_mode frame) log
  · rw [onset_onsets, counter, if_neg (by decide)]
    rfl

/-- A join to a full group (R85 step 4). -/
theorem join_full (hf : (s.flow f).group = none) (hg : findGroup s key = some g) (full : 255 ≤ (s.group g).count) :
    ((join f sender key s).flow f).group = none
      ∧ (join f sender key s).group g = { s.group g with overflow := true }
      ∧ (join f sender key s).counter Counter.memberOverflow
        = min (s.counter Counter.memberOverflow + 1) 4294967295 := by
  rw [join_of_standing hg, joinGroup_of_full (s := asking f sender key s) full]
  refine ⟨?_, ?_, ?_⟩
  · rw [State.setGroup_flow, State.bump_flow, asking_flow_self]
    exact hf
  · rw [State.setGroup_group, if_pos rfl]
    rfl
  · rw [State.setGroup_counter, State.bump_counter, if_pos rfl]
    rfl

end

end Sys2Proof.Machine

namespace Sys2Proof.Machine

/-! ### A join whose key no group holds (R86) -/

section
variable {s : State} {f : FlowId} {g : GroupId} {key : GroupKey} {sender : Side}

theorem join_of_no_slot (none_holds : findGroup s key = none) (slot : groupSlot s = none) : join f sender key s =
    ((asking f sender key s).bump Counter.groupAllocFail).flagGroupFull := by
  have found : findGroup (asking f sender key s) key = none := none_holds
  have taken : groupSlot (asking f sender key s) = none := slot
  unfold asking at found taken ⊢
  simp only [join, found, taken]

theorem join_of_slot (none_holds : findGroup s key = none) (slot : groupSlot s = some g) : join f sender key s =
    joinGroup f g ((asking f sender key s).setGroup g (newGroup key)) := by
  have found : findGroup (asking f sender key s) key = none := none_holds
  have taken : groupSlot (asking f sender key s) = some g := slot
  unfold asking at found taken ⊢
  simp only [join, found, taken]

/-- The one member of a new group: on a list of its own. -/
theorem entered_newGroup (u : State) : entered f g (u.setGroup g (newGroup key)) =
    (((u.setGroup g (newGroup key)).setFlow f { u.flow f with group := some g, prev := none, next := none }).setGroup g
      ((newGroup key).withMember f)).bump Counter.joins := by
  have record : (u.setGroup g (newGroup key)).group g = newGroup key := by rw [State.setGroup_group, if_pos rfl]
  unfold entered appendMember
  rw [record]
  rfl

/-- One member meets no fan-in threshold but 1 (R93). -/
theorem newGroup_no_onset {u : State} (record : u.group g = (newGroup key).withMember f)
    (fanIn : (u.queueClass key.queue).fanIn ≠ 1) : ¬ onsetHolds u g = true := by
  have hk : (u.group g).key = some key := by rw [record]; rfl
  have one : (u.group g).count = 1 := by rw [record]; rfl
  rw [onsetHolds_of_key hk, one]
  rintro ⟨-, on, enough, -, -⟩
  omega

/-- Flow record `f` as the one member of a new group in slot `g` (R86). -/
def founding (f : FlowId) (sender : Side) (key : GroupKey) (g : GroupId) (s : State) : State :=
  entered f g ((asking f sender key s).setGroup g (newGroup key))

theorem founding_eq : founding f sender key g s =
    ((((asking f sender key s).setGroup g (newGroup key)).setFlow f { (asking f sender key s).flow f with
      group := some g, prev := none, next := none }).setGroup g ((newGroup key).withMember f)).bump Counter.joins :=
  entered_newGroup _

theorem founding_flow (i : FlowId) : (founding f sender key g s).flow i = if i = f then { s.flow f with
      responder := some sender, joinedQueue := some key.queue, group := some g, prev := none, next := none }
    else s.flow i := by
  rw [founding_eq, State.bump_flow, State.setGroup_flow, State.setFlow_flow, State.setGroup_flow, asking_flow_self]
  split_ifs with hi
  · rfl
  · rw [asking, State.setFlow_flow, if_neg hi]

theorem founding_group (h : GroupId) : (founding f sender key g s).group h =
    if h = g then (newGroup key).withMember f else s.group h := by
  rw [founding_eq, State.bump_group, State.setGroup_group]
  split_ifs with hh
  · rfl
  · rw [State.setFlow_group, State.setGroup_group, if_neg hh]
    rfl

theorem founding_counter (c : CounterId) : (founding f sender key g s).counter c =
    if c = Counter.joins then min (s.counter c + 1) 4294967295 else s.counter c := entered_counter c

theorem join_new (none_holds : findGroup s key = none) (slot : groupSlot s = some g)
    (fanIn : (s.queueClass key.queue).fanIn ≠ 1) : join f sender key s = founding f sender key g s := by
  have record : ((asking f sender key s).setGroup g (newGroup key)).group g = newGroup key := by
    rw [State.setGroup_group, if_pos rfl]
  have room : (newGroup key).count < 255 := Nat.zero_lt_succ 254
  have watches : (newGroup key).state = .watch := rfl
  have depths : (founding f sender key g s).depths = s.depths := (flowFrame_depths (entered_frame f g _) :)
  have no_onset : ¬ onsetHolds (founding f sender key g s) g = true := by
    refine newGroup_no_onset (by rw [founding_group, if_pos rfl]) ?_
    unfold State.queueClass State.classRecord State.classNumber
    rw [depths]
    exact fanIn
  rw [join_of_slot none_holds slot, joinGroup_of_watch (by rw [record]; exact room) (by rw [record]; exact watches)]
  exact testOnset_of_not no_onset

theorem refused_counter (c : CounterId) : ((asking f sender key s).bump Counter.groupAllocFail).counter c =
    if c = Counter.groupAllocFail then min (s.counter c + 1) 4294967295 else s.counter c := by
  rw [State.bump_counter]
  split_ifs with hc
  · rw [hc]
    rfl
  · rfl

end

/-- Settles O41: a leave is a removal and what follows it; a join enters a group that stands, or a new one. -/
theorem membersJoinAndLeave : Obligations.MembersJoinAndLeave := by
  refine ⟨fun s f h => leave_of_no_group h, fun s f g hf => ?_, fun s key g A => findGroup_iff A key g,
    fun s f sender key g hf hs hg => ?_, fun s f sender key hf hs none_holds => ?_⟩
  · refine ⟨?_, leave_group_other hf, leave_group_count hf, leave_group_key hf, leave_group_collapsed hf,
      leave_group_lingers hf, leave_group_stays hf, fun key q hk => leave_total hf hk q,
      fun before after L => leave_isMemberList L, fun key hk => leave_log hf hk⟩
    rw [leave_flow_self, if_neg (by rw [hf]; simp)]
  · have hk : (s.group g).key = some key := (findGroup_spec hg).2
    obtain ⟨responder, joinedQueue⟩ := joinGroup_request (f := f) (g := g) (s := asking f sender key s)
    rw [asking_flow_self, ← join_of_standing hg] at responder joinedQueue
    refine ⟨responder, joinedQueue, ?_, fun C room l L => join_standing_list C hf hs hg room L,
      fun room he => join_episode hg room he, fun room hw => ?_, join_full hf hg⟩
    · intro h hne
      rw [join_of_standing hg]
      exact joinGroup_group_other h hne
    · intro c estimate opens joined
      have holds : onsetHolds (entered f g (asking f sender key s)) g = true ↔ opens := entered_opens hk hw
      refine ⟨fun stays => ?_, fun meets => join_watch_opens hg room hw (holds.mpr meets)⟩
      rw [join_watch hg room hw, testOnset_of_not (mt holds.mp stays)]
      exact ⟨entered_asking_group hw, fun q => entered_total q, entered_log f g _, entered_alerts f g _⟩
  · intro asked counts
    refine ⟨fun slot => ?_, fun g slot fanIn => ?_⟩
    · refine ⟨(asking f sender key s).ft.flows, ((asking f sender key s).bump Counter.groupAllocFail).counters,
        fun i => s.setFlow_flow f i asked, refused_counter, ?_⟩
      rw [join_of_no_slot none_holds slot]
      rfl
    · refine ⟨(founding f sender key g s).ft.flows, (founding f sender key g s).gc.groups,
        (founding f sender key g s).counters, founding_flow, founding_group, founding_counter, ?_⟩
      rw [join_new none_holds slot fanIn, founding_eq]
      rfl

end Sys2Proof.Machine

namespace Sys2Proof.Machine

/-! ### The stages of the share in exact integers (R111 to R116) -/

theorem excess_cast (d t : Nat) : (excess d t : Int) = max 0 ((d : Int) - t) := by
  rw [excess]
  omega

theorem headroom_cast (d t p : Nat) :
    (headroom d t p : Int) = max 0 ((t : Int) + p - max 0 ((d : Int) - t)) := by
  rw [← excess_cast, headroom]
  omega

theorem baseShare_of_pos {n : Nat} (hn : 1 ≤ n) (h : Nat) : baseShare h n = h / n :=
  if_neg (Nat.one_le_iff_ne_zero.mp hn)

theorem boundedShare_eq_max_min {floor ceiling : Nat} (h : floor ≤ ceiling) (r : Nat) :
    boundedShare r floor ceiling = max floor (min ceiling r) := by
  unfold boundedShare
  split_ifs <;> omega

theorem fieldValue_eq_max_min (share scale : Nat) :
    fieldValue share scale = max 1 (min 65535 (share / 2 ^ scale)) := by
  unfold fieldValue
  generalize share / 2 ^ scale = v
  split_ifs <;> omega

/-! ### The multiplier of a ramp position (R110, R149) -/

section
variable {seq : List RampEntry}

/-- At an entry that the sequence holds, its own multiplier. -/
theorem rampMultiplierOf_getElem? {i : Nat} {start : Tick} {e : RampEntry} (he : seq[i]? = some e) :
    rampMultiplierOf seq (some i) (some start) = e.multiplier := by
  have nonempty : seq ≠ [] := fun h => by simp [h] at he
  simp [rampMultiplierOf, List.getLast?_eq_some_getLast nonempty, he]

/-- After the end of the sequence, held or passed over, the last entry's (R147). -/
theorem rampMultiplierOf_past {entry : Option Nat} {start : Option Tick} {last : RampEntry}
    (hl : seq.getLast? = some last)
    (past : start = none ∨ ∃ i, entry = some i ∧ seq.length ≤ i) :
    rampMultiplierOf seq entry start = last.multiplier := by
  obtain rfl | ⟨i, rfl, beyond⟩ := past
  · simp [rampMultiplierOf, hl]
  · cases start <;> simp [rampMultiplierOf, hl, List.getElem?_eq_none beyond]

end

/-! ### The share of a group (R109, R114, R117, R119) -/

section
variable {s : State} {g : GroupId} {key : GroupKey}

theorem groupMultiplier_of_ramp (hk : (s.group g).key = some key) (hr : (s.group g).state = .ramp) :
    groupMultiplier s g
      = rampMultiplierOf (s.ramp (s.queueClass key.queue).ramp) (s.group g).rampEntry (s.group g).rampStart := by
  simp only [groupMultiplier, hr, groupRamp_of_key hk]

theorem shareOf_of_no_episode (hk : (s.group g).key = some key) (outside : (s.group g).state.isEpisode = false) :
    shareOf s g = none := by
  simp only [shareOf, hk, outside, Bool.false_eq_true, if_false]

theorem shareOf_of_episode (hk : (s.group g).key = some key) (episode : (s.group g).state.isEpisode = true) :
    shareOf s g = some (boundedShare
      (rampedShare (baseShare (headroom (s.queue key.queue).estimate (s.queueClass key.queue).targetDepth
        (s.queueClass key.queue).pathAllowance) (s.total key.queue)) (groupMultiplier s g))
      (s.queueClass key.queue).windowFloor (s.queueClass key.queue).windowCeiling) := by
  simp only [shareOf, hk, episode, if_true]

/-- With a total of 1 or more and the class's bounds in order, the share is the base share times the multiplier,
held between the bounds (R112 to R114). -/
theorem shareOf_of_counted (hk : (s.group g).key = some key) (episode : (s.group g).state.isEpisode = true)
    (counted : 1 ≤ s.total key.queue)
    (bounds : (s.queueClass key.queue).windowFloor ≤ (s.queueClass key.queue).windowCeiling) :
    shareOf s g = some (max (s.queueClass key.queue).windowFloor (min (s.queueClass key.queue).windowCeiling
      (headroom (s.queue key.queue).estimate (s.queueClass key.queue).targetDepth
        (s.queueClass key.queue).pathAllowance / s.total key.queue * groupMultiplier s g / 256))) := by
  rw [shareOf_of_episode hk episode, baseShare_of_pos counted, boundedShare_eq_max_min bounds, rampedShare]

theorem reportRequest_of_share {share : Nat} (h : shareOf s g = some share) : reportRequest s g = share := by
  rw [reportRequest, h, Option.getD_some]

theorem rewriteRequest_of_share {share : Nat} (h : shareOf s g = some share) (scale original : Nat) :
    rewriteRequest s g scale original =
      if fieldValue share scale < original then .rewrite (fieldValue share scale)
      else .pass (fieldValue share scale) := by
  simp only [rewriteRequest, h]

end

/-- Settles O60: the two divisions of naturals are those of the integers, and the bounds are a `max` of a `min`. -/
theorem shareFollowsItsStages : Obligations.ShareFollowsItsStages := by
  intro s g key hk c entries depth target allowance excess head
  refine ⟨fun outside => ?_, fun steady => ?_, fun ramps => ?_, fun episode some_total bounds => ?_⟩
  · have none_there : shareOf s g = none := shareOf_of_no_episode hk outside
    exact ⟨none_there, by rw [reportRequest, none_there, Option.getD_none]⟩
  · obtain active | settle := steady
    · simp only [groupMultiplier, active]
    · simp only [groupMultiplier, settle]
  · rw [groupMultiplier_of_ramp hk ramps]
    refine ⟨fun empty => ?_, fun i start e hi hs he => ?_, fun last hl past => rampMultiplierOf_past hl past⟩
    · exact congrArg (rampMultiplierOf · _ _) empty
    · rw [hi, hs]
      exact rampMultiplierOf_getElem? he
  · have share := shareOf_of_counted hk episode some_total bounds
    have head_cast := headroom_cast (s.queue key.queue).estimate c.targetDepth c.pathAllowance
    refine ⟨_, share, reportRequest_of_share share, ?_, le_max_left _ _,
      max_le bounds (min_le_left _ _), fun scale original => ?_⟩
    · push_cast
      rw [show head = _ from head_cast.symm]
      rfl
    · rw [rewriteRequest_of_share share, fieldValue_eq_max_min]

end Sys2Proof.Machine

namespace Sys2Proof.Machine

/-! ### The gates of the window decision (R117, R124 to R128) -/

section
variable {s : State} {r : FrameRecord} {a : Option FlowAnswer}

/-- Every gate before the scale gate passes for a record's TCP part and a group, and `known` is the scale that
the scale gate finds, if any (R124 to R127). -/
def windowGates (s : State) (r : FrameRecord) (a : Option FlowAnswer) (tcp : TcpPart) (g : GroupId)
    (known : Option Nat) : Prop :=
  ∃ ip key answer, r.ip = some ip ∧ r.tcp = some tcp ∧ a = some answer
    ∧ tcp.ack = true ∧ tcp.syn = false ∧ tcp.rst = false
    ∧ answer.group = some g ∧ answer.responder ≠ some answer.sender
    ∧ (s.group g).key = some key ∧ key.version = ip.version ∧ key.address = ip.source
    ∧ (s.group g).state.isEpisode = true
    ∧ (s.queueClass key.queue).rewriteEnable = true
    ∧ known = answer.scale.or (s.queueClass key.queue).assumedScale

/-- What the scale gate and the rewrite request make of a window behind the other gates (R117, R127). -/
def gatedOutcome (s : State) (g : GroupId) (original : Nat) : Option Nat → WindowOutcome
  | none => .skipScale
  | some scale =>
    match rewriteRequest s g scale original with
    | .rewrite field => .rewrite field
    | .pass _ | .notApplicable => .unaltered

theorem gatedOutcome_eq_skipScale_iff {g : GroupId} {original : Nat} {known : Option Nat} :
    gatedOutcome s g original known = .skipScale ↔ known = none := by
  cases known with
  | none => simp [gatedOutcome]
  | some scale => cases h : rewriteRequest s g scale original <;> simp [gatedOutcome, h]

theorem gatedOutcome_eq_rewrite_iff {g : GroupId} {original field : Nat} {known : Option Nat} :
    gatedOutcome s g original known = .rewrite field ↔
      ∃ scale, known = some scale ∧ rewriteRequest s g scale original = .rewrite field := by
  cases known with
  | none => simp [gatedOutcome]
  | some scale => cases h : rewriteRequest s g scale original <;> simp [gatedOutcome, h]

theorem isWindowCandidate_iff (tcp : TcpPart) :
    isWindowCandidate tcp = true ↔ tcp.ack = true ∧ tcp.syn = false ∧ tcp.rst = false := by
  simp [isWindowCandidate, and_assoc]

/-- Behind every other gate, the scale gate and the rewrite request decide. -/
theorem windowDecision_of_gates {tcp : TcpPart} {g : GroupId} {known : Option Nat}
    (h : windowGates s r a tcp g known) : windowDecision s r a = gatedOutcome s g tcp.window known := by
  obtain ⟨ip, key, answer, hip, htcp, rfl, ack, syn, rst, group, responder, hk, version, address, episode,
    enabled, rfl⟩ := h
  have candidate := (isWindowCandidate_iff tcp).mpr ⟨ack, syn, rst⟩
  simp only [windowDecision, hip, htcp, candidate, group, responder, groupDecision, hk, version, address, episode,
    enabled, ne_eq, not_true_eq_false, or_self, Bool.true_eq_false, if_false]
  cases answer.scale.or (s.queueClass key.queue).assumedScale <;> rfl

/-- Where the group's decision is not to leave the window unaltered, the gates on the group and its class have
passed (R126, R127). -/
theorem groupDecision_passes {ip : IpPart} {tcp : TcpPart} {answer : FlowAnswer} {g : GroupId}
    (h : groupDecision s ip tcp answer g ≠ .unaltered) :
    ∃ key, (s.group g).key = some key ∧ key.version = ip.version ∧ key.address = ip.source
      ∧ (s.group g).state.isEpisode = true ∧ (s.queueClass key.queue).rewriteEnable = true := by
  unfold groupDecision at h
  split at h
  · exact absurd rfl h
  · next key hk =>
    dsimp only at h
    split_ifs at h with other outside disabled
    iterate 3 exact absurd rfl h
    obtain ⟨version, address⟩ := not_or.mp other
    exact ⟨key, hk, not_not.mp version, not_not.mp address, by simpa using outside, by simpa using disabled⟩

/-- Where the window decision is not to leave the window unaltered, every gate before the scale gate has passed. -/
theorem windowGates_of_decision (h : windowDecision s r a ≠ .unaltered) :
    ∃ tcp g known, windowGates s r a tcp g known := by
  unfold windowDecision at h
  split at h
  · next ip tcp answer hip htcp =>
    split at h
    · exact absurd rfl h
    · next candidate =>
      obtain ⟨ack, syn, rst⟩ := (isWindowCandidate_iff tcp).mp (Bool.not_eq_false _ ▸ candidate)
      split at h
      · exact absurd rfl h
      · next g group =>
        split at h
        · exact absurd rfl h
        · next responder =>
          obtain ⟨key, hk, version, address, episode, enabled⟩ := groupDecision_passes h
          exact ⟨tcp, g, _, ip, key, answer, hip, htcp, rfl, ack, syn, rst, group, responder, hk, version, address,
            episode, enabled, rfl⟩
  · exact absurd rfl h

/-- The window decision has an outcome other than to leave the window exactly when the gates pass and the scale gate
and the rewrite request give it. -/
theorem windowDecision_eq_iff {o : WindowOutcome} (ho : o ≠ .unaltered) : windowDecision s r a = o ↔
    ∃ tcp g known, windowGates s r a tcp g known ∧ gatedOutcome s g tcp.window known = o := by
  refine ⟨fun h => ?_, fun ⟨tcp, g, known, gates, outcome⟩ => (windowDecision_of_gates gates).trans outcome⟩
  obtain ⟨tcp, g, known, gates⟩ := windowGates_of_decision (h.trans_ne ho)
  exact ⟨tcp, g, known, gates, (windowDecision_of_gates gates).symm.trans h⟩

theorem windowDecision_eq_skipScale_iff :
    windowDecision s r a = .skipScale ↔ ∃ tcp g, windowGates s r a tcp g none := by
  simp [windowDecision_eq_iff, gatedOutcome_eq_skipScale_iff]

theorem windowDecision_eq_rewrite_iff {field : Nat} : windowDecision s r a = .rewrite field ↔
    ∃ tcp g scale, windowGates s r a tcp g (some scale) ∧ rewriteRequest s g scale tcp.window = .rewrite field := by
  simp only [windowDecision_eq_iff (o := .rewrite field) (by simp), gatedOutcome_eq_rewrite_iff]
  constructor
  · rintro ⟨tcp, g, _, gates, scale, rfl, lowers⟩
    exact ⟨tcp, g, scale, gates, lowers⟩
  · rintro ⟨tcp, g, scale, gates, lowers⟩
    exact ⟨tcp, g, some scale, gates, scale, rfl, lowers⟩

end

/-! ### The gates of the mark decision (R130 to R132) -/

section
variable {s : State} {r : FrameRecord} {departed : Option (QueueId × Nat)}

/-- A cell with this IP part departed from a queue with an active member, at the mark depth or more (R130, R131). -/
def markGates (s : State) (r : FrameRecord) (departed : Option (QueueId × Nat)) (ip : IpPart) : Prop :=
  ∃ q depth, r.ip = some ip ∧ departed = some (q, depth) ∧ 1 ≤ s.total q
    ∧ (s.queueClass q).markDepth ≠ 0 ∧ (s.queueClass q).markDepth ≤ depth

/-- What the ECN field makes of a mark (R132). -/
def ecnOutcome (ecn : Nat) : MarkOutcome :=
  if ecn = 0 then .unmarkable else if ecn = 3 then .unaltered else .setCe

theorem ecnOutcome_eq_unmarkable_iff {ecn : Nat} : ecnOutcome ecn = .unmarkable ↔ ecn = 0 := by
  unfold ecnOutcome
  split_ifs <;> simp_all

theorem ecnOutcome_eq_setCe_iff {ecn : Nat} : ecnOutcome ecn = .setCe ↔ ecn ≠ 0 ∧ ecn ≠ 3 := by
  unfold ecnOutcome
  split_ifs <;> simp_all

theorem markCondition_iff {q : QueueId} {depth : Nat} : markCondition s q depth = true ↔
    1 ≤ s.total q ∧ (s.queueClass q).markDepth ≠ 0 ∧ (s.queueClass q).markDepth ≤ depth := by
  simp [markCondition, and_assoc]

theorem markDecision_of_gates {ip : IpPart} (h : markGates s r departed ip) :
    markDecision s r departed = ecnOutcome ip.ecn := by
  obtain ⟨q, depth, hip, rfl, condition⟩ := h
  simp only [markDecision, hip, markCondition_iff.mpr condition, if_true, ecnOutcome]

theorem markGates_of_decision (h : markDecision s r departed ≠ .unaltered) : ∃ ip, markGates s r departed ip := by
  unfold markDecision at h
  split at h
  · next ip q depth hip =>
    by_cases condition : markCondition s q depth = true
    · exact ⟨ip, q, depth, hip, rfl, markCondition_iff.mp condition⟩
    · exact absurd (if_neg condition) h
  · exact absurd rfl h

/-- The mark decision has an outcome other than to leave the ECN field exactly when the mark condition holds and the
ECN field gives it. -/
theorem markDecision_eq_iff {o : MarkOutcome} (ho : o ≠ .unaltered) : markDecision s r departed = o ↔
    ∃ ip, markGates s r departed ip ∧ ecnOutcome ip.ecn = o := by
  refine ⟨fun h => ?_, fun ⟨ip, gates, outcome⟩ => (markDecision_of_gates gates).trans outcome⟩
  obtain ⟨ip, gates⟩ := markGates_of_decision (h.trans_ne ho)
  exact ⟨ip, gates, (markDecision_of_gates gates).symm.trans h⟩

theorem markDecision_eq_setCe_iff : markDecision s r departed = .setCe ↔
    ∃ ip, markGates s r departed ip ∧ ip.ecn ≠ 0 ∧ ip.ecn ≠ 3 := by
  simp only [markDecision_eq_iff (o := .setCe) (by simp), ecnOutcome_eq_setCe_iff]

theorem markDecision_eq_unmarkable_iff : markDecision s r departed = .unmarkable ↔
    ∃ ip, markGates s r departed ip ∧ ip.ecn = 0 := by
  simp only [markDecision_eq_iff (o := .unmarkable) (by simp), ecnOutcome_eq_unmarkable_iff]

/-- Only a cell that departed from a queue is marked (R130). -/
theorem departed_of_setCe (h : markDecision s r departed = .setCe) : ∃ q n, departed = some (q, n) := by
  obtain ⟨_, ⟨q, n, _, hd, _⟩, _⟩ := markDecision_eq_setCe_iff.mp h
  exact ⟨q, n, hd⟩

end

/-! ### What the decisions count (R50, R127, R128, R132, R137) -/

section
variable {s : State} {w : WindowOutcome} {m : MarkOutcome} {q : Option QueueId}

/-- The counter that a window outcome moves. -/
def windowCounter : WindowOutcome → Option CounterId
  | .unaltered => none
  | .skipScale => some Counter.rewriteSkipScale
  | .rewrite _ => some Counter.windowsRewritten

/-- The counter that a mark outcome moves. -/
def markCounter : MarkOutcome → Option CounterId
  | .unaltered => none
  | .unmarkable => some Counter.unmarkable
  | .setCe => some Counter.marksSet

theorem windowCounter_eq_some_iff {c : CounterId} : windowCounter w = some c ↔
    (c = Counter.windowsRewritten ∧ ∃ field, w = .rewrite field)
      ∨ (c = Counter.rewriteSkipScale ∧ w = .skipScale) := by
  cases w <;> simp [windowCounter, eq_comm]

theorem markCounter_eq_some_iff {c : CounterId} : markCounter m = some c ↔
    (c = Counter.unmarkable ∧ m = .unmarkable) ∨ (c = Counter.marksSet ∧ m = .setCe) := by
  cases m <;> simp [markCounter, eq_comm]

/-- The two decisions count in different counters. -/
theorem windowCounter_ne_markCounter {c : CounterId} (hw : windowCounter w = some c) : markCounter m ≠ some c := by
  cases w <;> cases hw <;> cases m <;> decide

theorem elim_bump_counter (b : Option CounterId) (c : CounterId) : (b.elim s s.bump).counter c =
    if b = some c then min (s.counter c + 1) 4294967295 else s.counter c := by
  cases b with
  | none => rfl
  | some b =>
    by_cases h : b = c
    · rw [Option.elim_some, State.bump_counter, if_pos h.symm, if_pos (congrArg some h), h]
      rfl
    · rw [Option.elim_some, State.bump_counter, if_neg (Ne.symm h), if_neg (mt Option.some.inj h)]

theorem countMark_counter (q : QueueId) (c : CounterId) : (countMark q s).counter c = s.counter c := by
  unfold countMark
  split_ifs <;> rfl

theorem countWindow_eq (w : WindowOutcome) (s : State) : countWindow w s = (windowCounter w).elim s s.bump := by
  cases w <;> rfl

/-- A mark counts in its counter, and a mark that is set counts at its queue as well. -/
theorem countMarks_counter (hq : m = .setCe → q.isSome = true) (c : CounterId) :
    (countMarks m q s).counter c = ((markCounter m).elim s s.bump).counter c := by
  cases m with
  | unaltered => rfl
  | unmarkable => rfl
  | setCe =>
    obtain ⟨q, rfl⟩ := Option.isSome_iff_exists.mp (hq rfl)
    exact countMark_counter q c

/-- The two decisions move each its own counter, and no other (R137). -/
theorem countDecisions_counter (hq : m = .setCe → q.isSome = true) (c : CounterId) :
    (countDecisions w m q s).counter c =
      if windowCounter w = some c ∨ markCounter m = some c then min (s.counter c + 1) 4294967295
      else s.counter c := by
  rw [countDecisions, countMarks_counter hq, elim_bump_counter, countWindow_eq, elim_bump_counter]
  by_cases hw : windowCounter w = some c
  · simp only [hw, windowCounter_ne_markCounter hw, true_or, if_true, if_false]
  · simp only [hw, false_or, if_false]

theorem countMark_alerts (q : QueueId) (s : State) : (countMark q s).alerts = s.alerts := by
  unfold countMark
  split_ifs <;> rfl

/-- The two decisions set no alert flag. -/
theorem countDecisions_alerts (w : WindowOutcome) (m : MarkOutcome) (q : Option QueueId) (s : State) :
    (countDecisions w m q s).alerts = s.alerts := by
  have window : (countWindow w s).alerts = s.alerts := by cases w <;> rfl
  refine Eq.trans ?_ window
  cases m with
  | unaltered => rfl
  | unmarkable => rfl
  | setCe =>
    cases q with
    | none => rfl
    | some q => exact countMark_alerts q _

/-- Only a mark that is set reaches the queue records (R50). -/
theorem countDecisions_depths (hm : m ≠ .setCe) : (countDecisions w m q s).depths = s.depths := by
  have window : (countWindow w s).depths = s.depths := by cases w <;> rfl
  refine Eq.trans ?_ window
  cases m with
  | unaltered => rfl
  | unmarkable => rfl
  | setCe => exact absurd rfl hm

theorem countMark_queue_self (q : QueueId) (s : State) : (countMark q s).queue q =
    if s.mode = .transparent then s.queue q
    else { s.queue q with marks := min ((s.queue q).marks + 1) 4294967295 } := by
  unfold countMark
  split_ifs
  · rfl
  · rw [State.setQueue_queue_self]
    rfl

/-- A mark that is set is counted at the queue of the departure, but in TRANSPARENT (R50, R52). -/
theorem countDecisions_queue_self (w : WindowOutcome) (q : QueueId) (s : State) :
    (countDecisions w .setCe (some q) s).queue q = if s.mode = .transparent then s.queue q
      else { s.queue q with marks := min ((s.queue q).marks + 1) 4294967295 } := by
  rw [countDecisions, countWindow_eq]
  cases windowCounter w <;> exact countMark_queue_self q _

end

/-! ### The cell after two decisions that leave it (R14, R135) -/

theorem withData_self (c : Cell) : withData c c.data = c := by
  simp [withData]

theorem rewriteCell_unaltered (c : Cell) (r : FrameRecord) : rewriteCell c r .unaltered .unaltered = c :=
  withData_self c

/-! ### The decision stage (R122, R123, R129, R137) -/

section
variable {s : State} {r : FrameRecord} {m : Mode} {departed : Option (QueueId × Nat)} {a : Option FlowAnswer}
  {c : Cell}

theorem rewrites_eq_true (h : m = .enforce ∨ m = .draining) : m.rewrites = true := by
  obtain rfl | rfl := h <;> rfl

theorem rewrites_eq_false (h : m = .observe ∨ m = .transparent) : m.rewrites = false := by
  obtain rfl | rfl := h <;> rfl

theorem decideRead_of_rewrites (h : m.rewrites = true) : decideRead r m departed a c s
    = (countDecisions (windowDecision s r a) (markDecision s r departed) (departed.map Prod.fst) s,
      rewriteCell c r (windowDecision s r a) (markDecision s r departed)) := if_pos h

theorem decideRead_of_not_rewrites (h : m.rewrites = false) : decideRead r m departed a c s = (s, c) :=
  if_neg (by simp [h])

/-- Two decisions that leave the window and the ECN field leave the state and the cell (R137). -/
theorem decideRead_unaltered (hw : windowDecision s r a = .unaltered) (hm : markDecision s r departed = .unaltered) :
    decideRead r m departed a c s = (s, c) := by
  cases h : m.rewrites with
  | false => exact decideRead_of_not_rewrites h
  | true =>
    rw [decideRead_of_rewrites h, hw, hm, rewriteCell_unaltered]
    rfl

/-- A decision that changes nothing leaves the state but for the stream, and the cell. -/
theorem decided_unchanged (hd : decideRead r m departed a c s = (s, c)) (ts : List Transit) :
    (decideRead r m departed a c s).1.setStream .mToS ts
      = { s with link := ((decideRead r m departed a c s).1.setStream .mToS ts).link }
    ∧ (decideRead r m departed a c s).2 = c := by
  rw [hd]
  exact ⟨rfl, rfl⟩

theorem decideRead_counter (h : m.rewrites = true) (k : CounterId) : (decideRead r m departed a c s).1.counter k =
    if windowCounter (windowDecision s r a) = some k ∨ markCounter (markDecision s r departed) = some k then
      min (s.counter k + 1) 4294967295 else s.counter k := by
  rw [decideRead_of_rewrites h]
  refine countDecisions_counter (fun hset => ?_) k
  obtain ⟨q, n, rfl⟩ := departed_of_setCe hset
  rfl

theorem decideRead_alerts : (decideRead r m departed a c s).1.alerts = s.alerts := by
  unfold decideRead
  split_ifs
  · exact countDecisions_alerts _ _ _ _
  · rfl

theorem decideRead_depths (hm : markDecision s r departed ≠ .setCe) :
    (decideRead r m departed a c s).1.depths = s.depths := by
  unfold decideRead
  split_ifs
  · exact countDecisions_depths hm
  · rfl

theorem decideRead_queue_self {q : QueueId} {n : Nat} (h : m.rewrites = true)
    (hm : markDecision s r (some (q, n)) = .setCe) : (decideRead r m (some (q, n)) a c s).1.queue q =
      if s.mode = .transparent then s.queue q
      else { s.queue q with marks := min ((s.queue q).marks + 1) 4294967295 } := by
  rw [decideRead_of_rewrites h, hm]
  exact countDecisions_queue_self _ q s

end

/-- The counters that the two decisions move, one by one (R137). -/
theorem decisionCounter_iff {w : WindowOutcome} {m : MarkOutcome} {c : CounterId} :
    (windowCounter w = some c ∨ markCounter m = some c) ↔
      (c = Counter.windowsRewritten ∧ ∃ field, w = .rewrite field) ∨ (c = Counter.rewriteSkipScale ∧ w = .skipScale)
        ∨ (c = Counter.unmarkable ∧ m = .unmarkable) ∨ (c = Counter.marksSet ∧ m = .setCe) := by
  rw [windowCounter_eq_some_iff, markCounter_eq_some_iff, or_assoc]

/-- Settles O51: the decisions by their gates, the decision stage by what its two decisions move and leave. -/
theorem decisionsFollowTheirGates : Obligations.DecisionsFollowTheirGates := by
  refine ⟨fun s r a => ⟨windowDecision_eq_skipScale_iff, fun field => windowDecision_eq_rewrite_iff⟩,
    fun s r departed => ⟨markDecision_eq_setCe_iff, markDecision_eq_unmarkable_iff⟩, ?_⟩
  intro s before after x h tag cell e departed answer hr hs hb hx hp ht r window mark
  have frame := decideRead_dataFrame r h.mode departed answer cell s
  have tables := decideRead_tables (s := s) r h.mode departed answer cell
  have marks := marksOnly_decideRead (s := s) r h.mode departed answer cell
  refine ⟨_, _, exec_response_answered hr hs hb hx ht hp,
    congrArg State.link (setStream_mToS _ (dataFrame_link frame)),
    fun idle => decided_unchanged (decideRead_of_not_rewrites (rewrites_eq_false idle)) _, fun acts => ?_⟩
  have rewrites := rewrites_eq_true acts
  refine ⟨congrArg Prod.snd (decideRead_of_rewrites rewrites), tables.1, tables.2, marks.mode, marks.log,
    sameControl_setStream _ _ (sameControl_of_dataFrame frame), decideRead_alerts, fun c => ?_,
    fun hw hm => decided_unchanged (decideRead_unaltered hw hm) _, fun hset q n hd => ?_, decideRead_depths⟩
  · have counter := decideRead_counter (s := s) (r := r) (departed := departed) (a := answer) (c := cell) rewrites c
    exact ⟨fun moved => counter.trans (if_pos (decisionCounter_iff.mpr moved)),
      fun unmoved => counter.trans (if_neg (mt decisionCounter_iff.mp unmoved))⟩
  · subst hd
    exact ⟨fun q' hq' => marks.otherQueue q' fun hq => hq' (Option.some.inj hq).symm,
      decideRead_queue_self rewrites hset⟩

end Sys2Proof.Machine

namespace Sys2Proof.Machine

/-! ### The bytes of a ramp sequence and the fields they spell (11.6) -/

/-- Every multiplier of a packed list is the 12 bits of its place, in the two bytes that hold them. -/
theorem packedMultipliers_spell (ms : List Nat) (fits : ∀ m ∈ ms, m ≤ 4095) (i : Nat) (hi : i < ms.length) :
    (if i % 2 = 0 then paramNat (packedMultipliers ms) (3 * i / 2) 2 / 16
      else paramNat (packedMultipliers ms) (3 * i / 2) 2 % 4096) = ms[i] := by
  induction ms using packedMultipliers.induct generalizing i with
  | case1 => exact absurd hi (Nat.not_lt_zero i)
  | case2 m =>
    have small := fits m List.mem_cons_self
    obtain rfl : i = 0 := Nat.lt_one_iff.mp hi
    rw [if_pos rfl, packedMultipliers, paramNat_whole]
    simp only [List.getElem_cons_zero]
    omega
  | case3 m n rest ih =>
    simp only [List.forall_mem_cons] at fits
    obtain ⟨hm, hn, tail⟩ := fits
    match i with
    | 0 =>
      have first : packedMultipliers (m :: n :: rest)
          = toBytes 2 ((4096 * m + n) / 256) ++ (toBytes 1 (4096 * m + n) ++ packedMultipliers rest) := rfl
      rw [if_pos rfl, first, paramNat_first]
      simp only [List.getElem_cons_zero]
      omega
    | 1 =>
      have second : packedMultipliers (m :: n :: rest)
          = toBytes 1 ((4096 * m + n) / 256 / 256) ++ (toBytes 2 (4096 * m + n) ++ packedMultipliers rest) := rfl
      rw [if_neg (by decide), second, paramNat_past (by decide), paramNat_first]
      simp only [List.getElem_cons_succ, List.getElem_cons_zero]
      omega
    | i + 2 =>
      rw [packedMultipliers, paramNat_past (by omega), show 3 * (i + 2) / 2 - 3 = 3 * i / 2 by omega, Nat.add_mod_right]
      exact ih tail i (Nat.lt_of_add_lt_add_right hi)

@[simp] theorem packedMultipliers_length (ms : List Nat) : (packedMultipliers ms).length = (3 * ms.length + 1) / 2 := by
  induction ms using packedMultipliers.induct with
  | case1 => rfl
  | case2 m => simp [packedMultipliers]
  | case3 m n rest ih =>
    simp only [packedMultipliers, List.length_append, toBytes_length, ih, List.length_cons]
    omega

/-- The four bits after an odd number of multipliers are clear. -/
theorem packedMultipliers_spare (ms : List Nat) (odd : ms.length % 2 = 1) :
    paramByte (packedMultipliers ms) (3 * ms.length / 2) &&& 0x0F = 0 := by
  induction ms using packedMultipliers.induct with
  | case1 => cases odd
  | case2 m =>
    have clear : ∀ b : Byte, 16 * b &&& (0x0F : Byte) = 0 := by decide
    have last : paramByte (packedMultipliers [m]) 1 = 16 * BitVec.ofNat 8 m := BitVec.ofNat_mul 16 m
    rw [show 3 * [m].length / 2 = 1 by simp, last]
    exact clear _
  | case3 m n rest ih =>
    have length : (m :: n :: rest).length = rest.length + 2 := rfl
    rw [length] at odd ⊢
    rw [packedMultipliers, paramByte_past (by omega),
      show 3 * (rest.length + 2) / 2 - 3 = 3 * rest.length / 2 by omega]
    exact ih (by omega)

/-- A byte past a block that stands first. -/
theorem paramByte_block {l r : List Byte} {m o : Nat} (length : l.length = m) (ho : m ≤ o) :
    paramByte (l ++ r) o = paramByte r (o - m) := by
  rw [paramByte, List.getD_append_right _ _ _ _ (length ▸ ho), length, paramByte]

/-- The durations of a sequence, one after another (11.6). -/
def durationBytes (entries : List RampEntry) : List Byte := entries.flatMap fun e => toBytes 2 e.duration

@[simp] theorem durationBytes_length (entries : List RampEntry) :
    (durationBytes entries).length = 2 * entries.length := by
  simp [durationBytes, List.length_flatMap, Nat.mul_comm]

theorem paramNat_durationBytes (entries : List RampEntry) (r : List Byte) (i : Nat) (hi : i < entries.length) :
    paramNat (durationBytes entries ++ r) (2 * i) 2 = entries[i].duration % 65536 := by
  induction entries generalizing i with
  | nil => exact absurd hi (Nat.not_lt_zero i)
  | cons e rest ih =>
    have split : durationBytes (e :: rest) ++ r = toBytes 2 e.duration ++ (durationBytes rest ++ r) := by
      simp [durationBytes]
    rw [split]
    cases i with
    | zero => exact paramNat_first
    | succ i =>
      rw [paramNat_past (by omega)]
      exact ih i (Nat.lt_of_succ_lt_succ hi)

/-- The entries fit the bits that SET_RAMP gives them (11.6). -/
def rampEncodable (entries : List RampEntry) : Prop :=
  entries.length ≤ 16 ∧ ∀ e ∈ entries, e.duration ≤ 65535 ∧ e.multiplier ≤ 4095

section
variable {s : State} {r : RampId} {entries : List RampEntry} {i k n : Nat}

/-- The fields of SET_RAMP, in their order. -/
theorem sequenceBytes_eq (r : RampId) (entries : List RampEntry) : sequenceBytes r entries =
    toBytes 1 r.val ++ (toBytes 1 entries.length ++ (durationBytes entries
      ++ packedMultipliers (entries.map RampEntry.multiplier))) := by
  simp [sequenceBytes, durationBytes]

theorem sequenceBytes_length (r : RampId) (entries : List RampEntry) :
    (sequenceBytes r entries).length = rampLength entries.length := by
  simp only [sequenceBytes_eq, List.length_append, toBytes_length, durationBytes_length, packedMultipliers_length,
    List.length_map, rampLength]
  omega

theorem rampLength_le (hk : k ≤ 16) : rampLength k ≤ 60 := by
  unfold rampLength
  omega

/-- The bytes of a sequence are the parameters of a well-framed request (R173). -/
theorem framed_sequenceBytes (r : RampId) (hk : entries.length ≤ 16) :
    framed (BitVec.ofNat 8 (rampLength entries.length) :: sequenceBytes r entries) = some (sequenceBytes r entries) :=
  framed_of_framesExactly (rampLength_le hk) ⟨rfl, sequenceBytes_length r entries⟩

theorem rampDuration_sequenceBytes (r : RampId) (h : rampEncodable entries) (hi : i < entries.length) :
    rampDuration (sequenceBytes r entries) i = entries[i].duration := by
  have small := (h.2 _ (List.getElem_mem hi)).1
  rw [rampDuration, sequenceBytes_eq, paramNat_past (by omega), paramNat_past (by omega),
    show 2 + 2 * i - 1 - 1 = 2 * i by omega, paramNat_durationBytes _ _ _ hi]
  exact Nat.mod_eq_of_lt (Nat.lt_succ_of_le small)

theorem rampMultiplier_sequenceBytes (r : RampId) (h : rampEncodable entries) (hi : i < entries.length) :
    rampMultiplier (sequenceBytes r entries) entries.length i = entries[i].multiplier := by
  have spelt := packedMultipliers_spell (entries.map RampEntry.multiplier)
    (List.forall_mem_map.mpr fun e he => (h.2 e he).2) i (by simpa using hi)
  have offset : 2 + 2 * entries.length + 3 * i / 2 - 1 - 1 - 2 * entries.length = 3 * i / 2 := by omega
  rw [List.getElem_map] at spelt
  rwa [rampMultiplier, multiplierOffset, sequenceBytes_eq, paramNat_past (by omega), paramNat_past (by omega),
    paramNat_block (durationBytes_length entries) (by omega), offset]

/-- The bytes of a sequence whose entries fit them spell that sequence. -/
theorem rampField_sequenceBytes (r : RampId) (h : rampEncodable entries) :
    rampField (sequenceBytes r entries) entries.length = entries := by
  refine List.ext_getElem (by simp [rampField]) fun i _ hi => ?_
  simp only [rampField, List.getElem_map, List.getElem_range]
  rw [rampDuration_sequenceBytes r h hi, rampMultiplier_sequenceBytes r h hi]

/-- The spare bits stand in the last byte, when the count is odd (11.6). -/
theorem rampReserved_odd (odd : k % 2 = 1) : rampReserved k = [(rampLength k - 1, 0x0F)] := by
  rw [rampReserved, if_pos odd, rampLength, show 2 + 2 * k + (3 * k + 1) / 2 - 1 = 2 + 2 * k + 3 * k / 2 by omega]

/-- The bytes of a sequence set no reserved bit. -/
theorem sequenceBytes_reserved (r : RampId) (entries : List RampEntry) :
    noneReserved (rampReserved entries.length) (sequenceBytes r entries) := by
  intro o m hm
  unfold rampReserved at hm
  split_ifs at hm with odd
  · obtain ⟨rfl, rfl⟩ := Prod.mk.inj (List.mem_singleton.mp hm)
    have offset : 2 + 2 * entries.length + 3 * entries.length / 2 - 1 - 1 - 2 * entries.length
        = 3 * (entries.map RampEntry.multiplier).length / 2 := by
      rw [List.length_map]
      omega
    rw [sequenceBytes_eq, paramByte_past (by omega), paramByte_past (by omega),
      paramByte_block (durationBytes_length entries) (by omega), offset]
    exact packedMultipliers_spare _ (by simpa using odd)
  · exact absurd hm List.not_mem_nil

/-! ### The limits of a ramp sequence (R143, R176) -/

/-- The offset that test 7 of SET_RAMP reports: that of the first duration of 0, else of the first multiplier. -/
theorem brokenAt_rampLimits (ps : List Byte) (k : Nat) : brokenAt (rampLimits ps k) =
    (((List.range k).find? fun i => rampDuration ps i == 0).map fun i => 2 + 2 * i).or
      (((List.range k).find? fun i => rampMultiplier ps k i == 0).map (multiplierOffset k)) := by
  simp only [brokenAt, rampLimits, List.find?_append, List.find?_map, Option.map_or, Option.map_map]
  rfl

/-- The first duration of 0 of a sequence is what its bytes break. -/
theorem brokenAt_firstDuration (r : RampId) (h : rampEncodable entries) (hi : i < entries.length)
    (zero : entries[i].duration = 0) (first : ∀ j (_ : j < i), 0 < entries[j].duration) :
    brokenAt (rampLimits (sequenceBytes r entries) entries.length) = some (2 + 2 * i) := by
  have found : (List.range entries.length).find? (fun i => rampDuration (sequenceBytes r entries) i == 0) = some i :=
    List.find?_range_eq_some.mpr ⟨by rw [rampDuration_sequenceBytes r h hi, zero]; rfl, List.mem_range.mpr hi,
      fun j hj => by
        rw [rampDuration_sequenceBytes r h (hj.trans hi)]
        simpa using Nat.ne_of_gt (first j hj)⟩
  rw [brokenAt_rampLimits, found]
  rfl

/-- Where every duration is at least 1, the first multiplier of 0 of a sequence is what its bytes break. -/
theorem brokenAt_firstMultiplier (r : RampId) (h : rampEncodable entries) (hi : i < entries.length)
    (durations : ∀ e ∈ entries, 0 < e.duration) (zero : entries[i].multiplier = 0)
    (first : ∀ j (_ : j < i), 0 < entries[j].multiplier) :
    brokenAt (rampLimits (sequenceBytes r entries) entries.length) = some (2 + 2 * entries.length + 3 * i / 2) := by
  have none_zero : (List.range entries.length).find? (fun i => rampDuration (sequenceBytes r entries) i == 0) = none :=
    List.find?_eq_none.mpr fun j hj => by
      have hj := List.mem_range.mp hj
      rw [rampDuration_sequenceBytes r h hj]
      simpa using Nat.ne_of_gt (durations _ (List.getElem_mem hj))
  have found : (List.range entries.length).find?
      (fun i => rampMultiplier (sequenceBytes r entries) entries.length i == 0) = some i :=
    List.find?_range_eq_some.mpr ⟨by rw [rampMultiplier_sequenceBytes r h hi, zero]; rfl, List.mem_range.mpr hi,
      fun j hj => by
        rw [rampMultiplier_sequenceBytes r h (hj.trans hi)]
        simpa using Nat.ne_of_gt (first j hj)⟩
  rw [brokenAt_rampLimits, none_zero, found]
  rfl

theorem rampLimits_of_legal (r : RampId) (h : rampLegal entries) (encodable : rampEncodable entries) :
    ∀ e ∈ rampLimits (sequenceBytes r entries) entries.length, e.2 = false := by
  simp only [rampLimits, List.forall_mem_append, List.forall_mem_map, List.mem_range]
  refine ⟨fun i hi => ?_, fun i hi => ?_⟩
  · rw [rampDuration_sequenceBytes r encodable hi]
    simpa using Nat.ne_of_gt (h.2 _ (List.getElem_mem hi)).1.1
  · rw [rampMultiplier_sequenceBytes r encodable hi]
    simpa using Nat.ne_of_gt (h.2 _ (List.getElem_mem hi)).2.1

/-! ### SET_RAMP (R143, R144) -/

/-- A sequence is in use while a group in RAMP is keyed to a queue whose class names it (R144). -/
theorem rampInUse_of_group {g : GroupId} {key : GroupKey} (state : (s.group g).state = .ramp)
    (hk : (s.group g).key = some key) (names : (s.classRecord (s.classNumber key.queue)).ramp = r) :
    rampInUse s r = true := by
  have sequence : (groupClass s g).ramp = r := (congrArg ClassRecord.ramp (groupClass_of_key hk)).trans names
  exact List.any_eq_true.mpr ⟨g, List.mem_finRange g, by rw [decide_eq_true state, decide_eq_true sequence]; rfl⟩

section
variable {body ps : List Byte}

/-- A frame of 2 to 60 parameters is the only one that passes the first test. -/
theorem setRampAnswer_misframed (h : ∀ n, 2 ≤ n → n ≤ 60 → misframed n body) :
    setRampAnswer body s = .check .badLength 255 := by
  cases hf : framed body with
  | none =>
    rw [setRampAnswer, hf]
    rfl
  | some ps =>
    obtain ⟨high, frames⟩ := framesExactly_of_framed hf
    have low : ps.length < 2 := not_le.mp fun two => h _ two high ps frames
    rw [setRampAnswer, hf]
    exact if_pos low

theorem setRampAnswer_noSequence (hf : framed body = some ps) (two : 2 ≤ ps.length)
    (high : 4 ≤ (paramByte ps 0).toNat) : setRampAnswer body s = .check .indexRange 0 := by
  rw [setRampAnswer, hf]
  dsimp only
  rw [if_neg (not_lt.mpr two), dif_neg (not_lt.mpr high)]

/-- With the sequence named, SET_RAMP asks whether it is in use. -/
theorem setRampAnswer_framed (hf : framed body = some ps) (two : 2 ≤ ps.length)
    (number : (paramByte ps 0).toNat = r.val) :
    setRampAnswer body s = if rampInUse s r then .busy else rampAnswer ps r s := by
  have named : (⟨(paramByte ps 0).toNat, number ▸ r.isLt⟩ : RampId) = r := Fin.ext number
  rw [setRampAnswer, hf]
  dsimp only
  rw [if_neg (not_lt.mpr two), dif_pos (number ▸ r.isLt), named]

/-- What SET_RAMP answers to the bytes of a sequence that is not in use: the test of its limits. -/
theorem setRampAnswer_sequenceBytes (free : rampInUse s r = false) (h : rampEncodable entries) :
    setRampAnswer (BitVec.ofNat 8 (rampLength entries.length) :: sequenceBytes r entries) s =
      unlessBroken (rampLimits (sequenceBytes r entries) entries.length) (.good [] (s.setRampSequence r entries)) := by
  have few := h.1
  have number : (paramByte (sequenceBytes r entries) 0).toNat = r.val := by
    rw [sequenceBytes_eq, paramByte_first (by decide), BitVec.toNat_ofNat]
    omega
  have count : (paramByte (sequenceBytes r entries) 1).toNat = entries.length := by
    rw [sequenceBytes_eq, paramByte_past (by decide), paramByte_first (by decide), BitVec.toNat_ofNat]
    omega
  have two : 2 ≤ (sequenceBytes r entries).length := by
    rw [sequenceBytes_length, rampLength]
    omega
  rw [setRampAnswer_framed (framed_sequenceBytes r few) two number, free, if_neg Bool.false_ne_true, rampAnswer,
    count, if_neg (not_lt.mpr few), if_neg (not_not.mpr (sequenceBytes_length r entries)),
    unlessReserved_none (sequenceBytes_reserved r entries), rampField_sequenceBytes r h]

end

/-- The last of two bytes and more. -/
theorem paramByte_last (a b : Byte) {rest : List Byte} (h : rest ≠ []) :
    paramByte (a :: b :: rest) (rest.length + 1) = rest.getLast?.getD 0 := by
  obtain ⟨n, hn⟩ := Nat.exists_eq_add_one.mpr (List.length_pos_iff.mpr h)
  rw [paramByte, List.getD_cons_succ, hn, List.getD_cons_succ, List.getD_eq_getElem?_getD,
    List.getLast?_eq_getElem?, hn, Nat.add_sub_cancel]

theorem lowestReserved_rampReserved {ps : List Byte} (odd : k % 2 = 1)
    (set : paramByte ps (rampLength k - 1) &&& 0x0F ≠ 0) :
    lowestReserved (rampReserved k) ps (rampLength k - 1) := by
  rw [rampReserved_odd odd]
  refine ⟨⟨0x0F, List.mem_singleton_self _, set⟩, fun o m hm ho => ?_⟩
  obtain ⟨rfl, -⟩ := Prod.mk.inj (List.mem_singleton.mp hm)
  exact absurd ho (lt_irrefl _)

end

/-- Settles O30: the tests in their order, then the sequence that its own bytes spell. -/
theorem setRampWritesWhatBytesSpell : Obligations.SetRampWritesWhatBytesSpell := by
  intro s hs
  have answered : ∀ body, exec (.setRamp body) s = .next (applyAnswer 0x14 s (setRampAnswer body s)) :=
    fun body => congrArg Host.Outcome.next ((takeRequest_spec 0x14 (setRampAnswer body) s).2.2 hs)
  have refused {body : List Byte} {sense : SenseCode} {o : Nat} (h : setRampAnswer body s = .check sense o) :
      exec (.setRamp body) s = .next (s.refusing 0x14 sense o) := by
    rw [answered, h]
    rfl
  refine ⟨fun body hf => refused (setRampAnswer_misframed hf), fun n body number count rest hn hf => ?_,
    fun r entries free few fits => ?_⟩
  · have framing := framed_of_framesExactly hn hf
    have length : rest.length + 2 = n := hf.2
    have two : 2 ≤ (number :: count :: rest).length := Nat.le_add_left 2 rest.length
    refine ⟨fun high => refused (setRampAnswer_noSequence framing two high), fun r hr => ⟨?_, fun free => ?_⟩⟩
    · rintro ⟨g, key, state, hk, names⟩
      rw [answered, setRampAnswer_framed framing two hr.symm, if_pos (rampInUse_of_group state hk names)]
      rfl
    · have tests : setRampAnswer body s = rampAnswer (number :: count :: rest) r s := by
        rw [setRampAnswer_framed framing two hr.symm, free, if_neg Bool.false_ne_true]
      refine ⟨fun many => refused (tests.trans (if_pos many)), fun few other => refused (tests.trans ?_),
        fun few goes odd spare => refused (tests.trans ?_)⟩
      · exact (if_neg (not_lt.mpr few)).trans (if_pos (hf.2 ▸ other))
      · have goes : n = rampLength count.toNat := goes
        have filled : rest ≠ [] := by
          rintro rfl
          rw [rampLength] at goes
          simp only [List.length_nil] at length
          omega
        rw [← paramByte_last number count filled, show rest.length + 1 = n - 1 by omega, goes] at spare
        rw [rampAnswer]
        refine (if_neg (not_lt.mpr few)).trans ((if_neg (not_not.mpr (hf.2.trans goes))).trans ?_)
        rw [goes]
        exact unlessReserved_some (by rw [rampReserved_odd odd]; exact List.pairwise_singleton _ _)
          (lowestReserved_rampReserved odd spare) _
  · have encodable : rampEncodable entries := ⟨few, fits⟩
    have spelt := setRampAnswer_sequenceBytes free encodable
    have broken {o : Nat} (h : brokenAt (rampLimits (sequenceBytes r entries) entries.length) = some o) :=
      refused (spelt.trans (by rw [unlessBroken, h]))
    refine ⟨fun legal => ⟨tableSet [] s.time.ramps r entries, ?_, (s.setRampSequence_ramp r · entries)⟩,
      fun i hi zero first => broken (brokenAt_firstDuration r encodable hi zero first),
      fun i hi zero durations first => broken (brokenAt_firstMultiplier r encodable hi durations zero first)⟩
    rw [answered, spelt, unlessBroken_none (rampLimits_of_legal r legal encodable)]
    rfl

end Sys2Proof.Machine

namespace Sys2Proof.Machine

/-! ### A tick ends one prescaler of REFCLK periods (R138) -/

section
variable {P : State → Prop} {s t : State}

/-- What comes before the next tick keeps a law that every expiry, visit, end of a pass and walk step keeps. -/
theorem finishTick_keeps (ht : ∀ e s, P s → P (takeTimed e s)) (hv : ∀ i s, P s → P (sweepVisit i s))
    (hp : ∀ s, P s → P (sweepPassEnd s)) (hw : ∀ s, P s → P (walkStep s)) (h : P s) : P (finishTick s) :=
  walkRest_keeps hw _ (sweepVisits_keeps hv _ (hp _ (sweepVisits_keeps hv _ (timedRest_keeps ht h))))

/-- `t` stands before the same tick as `s`: the REFCLK periods that passed between them are those that the count
toward that tick went up by (R76, R138). -/
def State.sameTick (s t : State) : Prop :=
  t.time.tick = s.time.tick ∧ t.time.prescaler = s.time.prescaler ∧ t.time.refclkCount ≤ t.time.prescaler
  ∧ t.time.refclk + s.time.refclkCount = s.time.refclk + t.time.refclkCount

theorem sameTick_of_time {u : State} (h : s.sameTick t) (ht : u.time = t.time) : s.sameTick u := by
  rw [State.sameTick, ht]
  exact h

theorem walkStep_sameTick (h : s.sameTick t) : s.sameTick (walkStep t) := by
  by_cases moves : t.walkMoves
  · obtain ⟨⟨i, hc⟩, room⟩ := moves
    obtain ⟨tick, prescaler, -, periods⟩ := h
    rw [State.sameTick, walkStep_time hc room]
    exact ⟨tick, prescaler, room, by simp only [refclkPeriod]; omega⟩
  · have still : walkStep t = t := by
      by_cases room : t.time.refclkCount < t.time.prescaler
      · exact walkStep_not_due fun i hi => moves ⟨⟨i, hi⟩, room⟩
      · exact walkStep_of_no_room (not_lt.mp room)
    rwa [still]

theorem finishTick_sameTick (h : s.time.refclkCount ≤ s.time.prescaler) : s.sameTick (finishTick s) :=
  finishTick_keeps (P := s.sameTick)
    (fun e t ht => by
      rw [State.sameTick, takeTimed_time]
      exact ht)
    (fun i t ht => sameTick_of_time ht (sweepVisit_time i t)) (fun t ht => sameTick_of_time ht (sweepPassEnd_time t))
    (fun _ ht => walkStep_sameTick ht) ⟨rfl, rfl, h, rfl⟩

/-- The next tick counts once, one prescaler of REFCLK periods after the last. -/
theorem exec_tick_clock (h : exec .tick s = .next t) (running : s.running = true)
    (within : s.time.refclkCount ≤ s.time.prescaler) :
    t.time.tick = s.time.tick + 1 ∧ t.time.refclk + s.time.refclkCount = s.time.refclk + s.time.prescaler := by
  obtain rfl := Host.Outcome.next.inj ((exec_tick running).symm.trans h)
  obtain ⟨tick, prescaler, finished, periods⟩ := finishTick_sameTick within
  refine ⟨congrArg (· + 1) tick, ?_⟩
  change (finishTick s).time.refclk + missingPeriods (finishTick s) + _ = _
  rw [missingPeriods]
  omega

end

/-! ### SET_TICK (R139) -/

section
variable {s : State} {a b : Byte}

/-- What SET_TICK answers to two bytes: its mode test, its range, then the write. -/
theorem setTickAnswer_framed (s : State) (a b : Byte) : setTickAnswer [2, a, b] s =
    if s.mode ≠ .transparent then .busy
    else if a.toNat * 256 + b.toNat = 0 then .check .outOfRange 0
    else .good [] { s with time := { s.time with prescaler := a.toNat * 256 + b.toNat, refclkCount := 0 } } := by
  rw [setTickAnswer, withParams_framed (by decide) (show framesExactly 2 [2, a, b] [a, b] from ⟨rfl, rfl⟩)]
  simp only [paramNat_pair]

theorem twoBytes_eq_zero_iff : a.toNat * 256 + b.toNat = 0 ↔ a = 0 ∧ b = 0 := by
  rw [Nat.add_eq_zero_iff, Nat.mul_eq_zero, or_iff_left (by decide), ← BitVec.toNat_inj, ← BitVec.toNat_inj]
  rfl

end

/-- Settles O31: the rows of R139 from the top down; the tick after an accepted one ends its first prescaler. -/
theorem setTickRestartsTheCount : Obligations.SetTickRestartsTheCount := by
  intro s a b hs
  have answered : exec (.setTick [2, a, b]) s = .next (applyAnswer 0x15 s (setTickAnswer [2, a, b] s)) :=
    congrArg Host.Outcome.next ((takeRequest_spec 0x15 (setTickAnswer [2, a, b]) s).2.2 hs)
  rw [setTickAnswer_framed] at answered
  refine ⟨fun hm => ?_, fun hm ha hb => ?_, fun hm nonzero => ?_⟩
  · rw [answered, if_pos hm]
    rfl
  · rw [answered, if_neg (not_not.mpr hm), if_pos (twoBytes_eq_zero_iff.mpr ⟨ha, hb⟩)]
    rfl
  · rw [if_neg (not_not.mpr hm), if_neg (mt twoBytes_eq_zero_iff.mp nonzero), applyAnswer_good] at answered
    refine ⟨answered, fun t u ht hu => ?_⟩
    obtain rfl := Host.Outcome.next.inj (answered.symm.trans ht)
    exact exec_tick_clock hu hs.1 (Nat.zero_le _)

end Sys2Proof.Machine

namespace Sys2Proof.Machine

/-! ### STOP and SOFT_RESET at their receipt (R160, R175, R180) -/

section
variable {s : State}

theorem stopAnswer_framed (s : State) : stopAnswer [0] s = .started (.clears false false false) (beginStop s) :=
  withParams_framed (n := 0) (by decide) noParams_framed _

theorem softResetAnswer_framed (s : State) :
    softResetAnswer [0] s = .started (.clears true false false) (beginSoftReset s) :=
  withParams_framed (n := 0) (by decide) noParams_framed _

theorem exec_stop (hs : s.takesRequests) (body : List Byte) :
    exec (.stop body) s = .next (applyAnswer 0x23 s (stopAnswer body s)) :=
  congrArg Host.Outcome.next ((takeRequest_spec 0x23 (stopAnswer body) s).2.2 hs)

theorem exec_softReset (hs : s.takesRequests) (body : List Byte) :
    exec (.softReset body) s = .next (applyAnswer 0x03 s (softResetAnswer body s)) :=
  congrArg Host.Outcome.next ((takeRequest_spec 0x03 (softResetAnswer body) s).2.2 hs)

end

/-- Settles O37: each answer starts its clears on the state that the receipt leaves. -/
theorem stopAndSoftResetBegin : Obligations.StopAndSoftResetBegin := by
  intro s hs
  rw [exec_stop hs, stopAnswer_framed, exec_softReset hs, softResetAnswer_framed]
  exact ⟨rfl, rfl⟩

end Sys2Proof.Machine

namespace Sys2Proof.Machine

/-! ### Which episodes began at a tick (R94, R158) -/

/-- The tick is `k`, and every episode began at it. -/
def State.begunAt (k : Tick) (s : State) : Prop :=
  s.now = k ∧ ∀ g, (s.group g).state.isEpisode = true → (s.group g).onsetAt = some k

section
variable {k : Tick} {s t : State}

theorem begunAt_of_group (h : s.begunAt k) (now : t.now = s.now) (group : ∀ g, t.group g = s.group g) :
    t.begunAt k := by
  refine ⟨now.trans h.1, fun g => ?_⟩
  rw [group g]
  exact h.2 g

theorem begunAt_of_gc (h : s.begunAt k) (now : t.now = s.now) (gc : t.gc = s.gc) : t.begunAt k :=
  begunAt_of_group h now fun g => by rw [State.group, State.group, gc]

/-- One group is written, and an episode that it is in then began at the tick. -/
theorem begunAt_of_write {g : GroupId} {r : GroupRecord} (h : s.begunAt k) (now : t.now = s.now)
    (group : ∀ h, t.group h = if h = g then r else s.group h)
    (own : r.state.isEpisode = true → r.onsetAt = some k) : t.begunAt k := by
  refine ⟨now.trans h.1, fun h' => ?_⟩
  rw [group h']
  split_ifs
  · exact own
  · exact h.2 h'

theorem begunAt_setGroup {g : GroupId} {r : GroupRecord} (h : s.begunAt k)
    (own : r.state.isEpisode = true → r.onsetAt = some k) : (s.setGroup g r).begunAt k :=
  begunAt_of_write h rfl (fun h => s.setGroup_group g h r) own

/-- An onset begins its episode at the tick (R94). -/
theorem testOnset_begunAt (h : s.begunAt k) (g : GroupId) : (testOnset g s).begunAt k := by
  unfold testOnset
  split_ifs
  · exact begunAt_of_write h (groupFrame_now (onset_groupFrame g s)) (fun h => onset_group s g h)
      fun _ => congrArg some h.1
  · exact h

theorem endEpisode_begunAt (h : s.begunAt k) (g : GroupId) (c : LogCause) : (endEpisode g c s).begunAt k :=
  begunAt_of_write h (groupFrame_now (endEpisode_groupFrame g c s)) (fun h => endEpisode_group s g h c)
    fun episode => (by cases episode)

theorem sequenceEnd_begunAt (h : s.begunAt k) (g : GroupId) : (sequenceEnd g s).begunAt k :=
  testOnset_begunAt (endEpisode_begunAt h g .sequence) g

/-- A group that moves within its episode keeps its onset timestamp. -/
theorem advanceEntry_begunAt (h : s.begunAt k) {g : GroupId} (episode : (s.group g).state.isEpisode = true) :
    (advanceEntry g s).begunAt k := by
  unfold advanceEntry reachEnd
  dsimp only
  split_ifs
  · exact begunAt_setGroup h fun _ => h.2 g episode
  · exact sequenceEnd_begunAt h g
  · exact begunAt_setGroup h fun _ => h.2 g episode

theorem isEpisode_of_entryDue {g : GroupId} (due : entryDue s g = true) : (s.group g).state.isEpisode = true := by
  rw [((entryDue_iff s g).mp due).1]
  rfl

theorem enterRamp_begunAt (h : s.begunAt k) {g : GroupId} (episode : (s.group g).state.isEpisode = true) :
    (enterRamp g s).begunAt k := by
  have entered : (rampEntered g s).begunAt k :=
    begunAt_of_write h (groupFrame_now (rampEntered_groupFrame g s)) (fun h => rampEntered_group g h s)
      fun _ => h.2 g episode
  rw [enterRamp_eq, testEntry]
  split_ifs with due
  · exact advanceEntry_begunAt entered (isEpisode_of_entryDue due)
  · exact entered

theorem settle_begunAt (h : s.begunAt k) (hold : Nat) (g : GroupId) : (settle hold g s).begunAt k := by
  refine ⟨(groupFrame_now (settle_groupFrame hold g s)).trans h.1, fun h' => ?_⟩
  rw [settle_group]
  split_ifs with active
  · exact fun _ => h.2 g (by rw [active.2]; rfl)
  · exact h.2 h'

/-- The onset tests of a return to OBSERVE begin their episodes at the tick (R104, R158). -/
theorem drainEnd_begunAt (h : s.begunAt k) : (drainEnd s).begunAt k := by
  unfold drainEnd
  split_ifs
  · exact forGroups_keeps (State.begunAt k) testOnset (fun g _ h => testOnset_begunAt h g)
      (begunAt_of_gc h rfl rfl)
  · exact h

theorem quietExpiry_begunAt (h : s.begunAt k) (q : QueueId) : (quietExpiry q s).begunAt k := by
  unfold quietExpiry signalFall
  dsimp only
  split_ifs
  · exact forGroupsOn_keeps (State.begunAt k) q _ (fun g _ h => settle_begunAt h _ g) (begunAt_of_gc h rfl rfl)
  · exact begunAt_of_gc h rfl rfl
  · exact h

theorem timedEffect_begunAt (h : s.begunAt k) (e : TimedEvent) : (timedEffect e s).begunAt k := by
  cases holds : timedHolds s e with
  | false => rwa [timedEffect_of_not s e holds]
  | true =>
    have condition := (timedHolds_iff s e).mp holds
    cases e with
    | quiet q => exact quietExpiry_begunAt h q
    | linger g =>
      have made : timedEffect (.linger g) s = s.setGroup g freeGroup := if_pos holds
      rw [made]
      exact begunAt_setGroup h fun episode => (by cases episode)
    | hold g =>
      have made : timedEffect (.hold g) s = drainEnd (enterRamp g s) := if_pos holds
      rw [made]
      exact drainEnd_begunAt (enterRamp_begunAt h (by rw [condition.1]; rfl))
    | entry g =>
      have made : timedEffect (.entry g) s = drainEnd (advanceEntry g s) := if_pos holds
      rw [made]
      exact drainEnd_begunAt (advanceEntry_begunAt h (isEpisode_of_entryDue holds))
    | holdEnd g =>
      have made : timedEffect (.holdEnd g) s = drainEnd (sequenceEnd g s) := if_pos holds
      rw [made]
      exact drainEnd_begunAt (sequenceEnd_begunAt h g)

theorem takeTimed_begunAt (h : s.begunAt k) (e : TimedEvent) : (takeTimed e s).begunAt k :=
  takeTimed_keeps (P := State.begunAt k) (fun e _ h => timedEffect_begunAt h e)
    (fun _ _ h => begunAt_of_gc h rfl rfl) e h

theorem afterRemoval_begunAt (h : s.begunAt k) (g : GroupId) : (afterRemoval g s).begunAt k := by
  refine ⟨(groupFrame_now (afterRemoval_groupFrame g s)).trans h.1, fun h' => ?_⟩
  rw [afterRemoval_group]
  split_ifs
  · exact fun episode => (by cases episode)
  · exact fun episode => h.2 g episode
  · exact h.2 h'

theorem leave_begunAt (h : s.begunAt k) (f : FlowId) : (leave f s).begunAt k := by
  unfold leave
  split
  · exact h
  · rename_i g _
    exact afterRemoval_begunAt (begunAt_of_write h (flowFrame_now (removeMember_flowFrame f g s))
      (removeMember_group s f g) fun episode => h.2 g episode) g

theorem freeRecord_begunAt (h : s.begunAt k) (i : FlowId) : (freeRecord i s).begunAt k :=
  begunAt_of_gc (leave_begunAt h i) rfl rfl

theorem visitRecord_begunAt (h : s.begunAt k) (i : FlowId) : (visitRecord i s).begunAt k := by
  unfold visitRecord
  split
  · exact h
  · split_ifs
    · exact freeRecord_begunAt h i
    · exact h
  all_goals
    split_ifs
    · exact leave_begunAt h i
    · exact h

theorem sweepVisit_begunAt (h : s.begunAt k) (i : FlowId) : (sweepVisit i s).begunAt k := by
  unfold sweepVisit
  split_ifs
  · exact drainEnd_begunAt (begunAt_of_gc (visitRecord_begunAt h i) rfl rfl)
  · exact h

theorem sweepPassEnd_begunAt (h : s.begunAt k) : (sweepPassEnd s).begunAt k := by
  unfold sweepPassEnd
  split_ifs
  · exact begunAt_of_gc h rfl rfl
  · exact h

theorem walkPast_gc (i : FlowId) (s : State) : (walkPast i s).gc = s.gc := by
  unfold walkPast
  split_ifs <;> rfl

theorem walkStep_begunAt (h : s.begunAt k) : (walkStep s).begunAt k := by
  unfold walkStep
  split
  · rename_i i _
    split_ifs
    · have passed : (refclkPeriod s).begunAt k := begunAt_of_gc h rfl rfl
      have freed := freeRecord_begunAt passed i
      exact begunAt_of_gc freed (congrArg TimeBase.tick (walkPast_time i _)) (walkPast_gc i _)
    · exact h
  · exact h

end

end Sys2Proof.Machine

namespace Sys2Proof.Machine

/-! ### The end of a drain (R104, R158) -/

/-- The mode stands, or a drain ends, and then every episode has begun in it. -/
def DrainMayEnd (s t : State) : Prop :=
  t.mode = s.mode ∨ (s.mode = .draining ∧ t.mode = .observe ∧ ∀ g, (t.group g).state.isEpisode = true →
    (t.group g).onsetAt = some s.now ∧ (t.group g).state = .active)

section
variable {s t u : State} {c : Instr}

/-- With no episode left, those that the onset tests of all groups open are the only ones. -/
theorem forGroups_testOnset_began (idle : ∀ g, (s.group g).state.isEpisode = false) {g : GroupId}
    (episode : ((forGroups s testOnset).group g).state.isEpisode = true) :
    ((forGroups s testOnset).group g).onsetAt = some s.now ∧ ((forGroups s testOnset).group g).state = .active := by
  rw [forGroups_testOnset_group] at episode ⊢
  split_ifs at episode ⊢
  · rw [onset_group, if_pos rfl]
    exact ⟨rfl, rfl⟩
  · cases (idle g).symm.trans episode

/-- The drain-end report at the end of an event that leaves the mode (R104, R158). -/
theorem drainEnd_mayEnd (mode : t.mode = s.mode) (now : t.now = s.now) : DrainMayEnd s (drainEnd t) := by
  by_cases ended : t.mode = .draining ∧ t.anyEpisode = false
  · obtain ⟨hm, none_left⟩ := ended
    have idle : ∀ g, (t.group g).state.isEpisode = false := fun g =>
      Bool.eq_false_iff.mpr fun he => Bool.eq_false_iff.mp none_left (anyEpisode_iff.mpr ⟨g, he⟩)
    have began {g : GroupId} := forGroups_testOnset_began (s := { t with mode := .observe }) idle (g := g)
    rw [drainEnd_of_drained hm none_left]
    refine .inr ⟨mode.symm.trans hm, groupFrame_mode (forGroups_testOnset_frame t), fun g episode => ?_⟩
    rw [← now]
    exact began episode
  · exact .inl ((congrArg State.mode (if_neg ended)).trans mode)

theorem DrainMayEnd.congr_left (h : DrainMayEnd u t) (mode : u.mode = s.mode) (now : u.now = s.now) :
    DrainMayEnd s t := by
  rwa [DrainMayEnd, mode, now] at h

theorem DrainMayEnd.congr_right {v : State} (h : DrainMayEnd s t) (same : SameTables t v) : DrainMayEnd s v := by
  have group (g : GroupId) : v.group g = t.group g := by rw [State.group, State.group, same.gc]
  unfold DrainMayEnd
  simp only [group, same.mode]
  exact h

theorem SameTables.mayEnd (h : SameTables s t) : DrainMayEnd s t := .inl h.mode

/-! The part's own events. -/

theorem timedEffect_mayEnd (e : TimedEvent) (s : State) : DrainMayEnd s (timedEffect e s) := by
  cases holds : timedHolds s e with
  | false => exact .inl (by rw [timedEffect_of_not s e holds])
  | true =>
    cases e with
    | quiet q => exact .inl ((groupFrame_mode (quietExpiry_groupFrame holds)).trans rfl)
    | linger g =>
      have made : timedEffect (.linger g) s = s.setGroup g freeGroup := if_pos holds
      rw [made]
      exact .inl rfl
    | hold g =>
      have made : timedEffect (.hold g) s = drainEnd (enterRamp g s) := if_pos holds
      have frame := enterRamp_groupFrame g s
      exact made ▸ drainEnd_mayEnd (groupFrame_mode frame) (groupFrame_now frame)
    | entry g =>
      have made : timedEffect (.entry g) s = drainEnd (advanceEntry g s) := if_pos holds
      have frame := advanceEntry_groupFrame g s
      exact made ▸ drainEnd_mayEnd (groupFrame_mode frame) (groupFrame_now frame)
    | holdEnd g =>
      have made : timedEffect (.holdEnd g) s = drainEnd (sequenceEnd g s) := if_pos holds
      have frame := sequenceEnd_groupFrame g s
      exact made ▸ drainEnd_mayEnd (groupFrame_mode frame) (groupFrame_now frame)

theorem takeTimed_mayEnd (e : TimedEvent) (s : State) : DrainMayEnd s (takeTimed e s) := by
  unfold takeTimed
  split_ifs
  · exact timedEffect_mayEnd e (s.dropDue e)
  · exact .inl rfl

theorem sweepVisit_mayEnd (i : FlowId) (s : State) : DrainMayEnd s (sweepVisit i s) := by
  have frame := visitRecord_flowFrame i s
  unfold sweepVisit
  split_ifs
  · exact drainEnd_mayEnd (t := passVisited i (visitRecord i s)) (flowFrame_mode frame :) (flowFrame_now frame :)
  · exact .inl rfl

theorem sweepPassEnd_mode (s : State) : (sweepPassEnd s).mode = s.mode := by
  unfold sweepPassEnd
  split_ifs <;> rfl

theorem walkStep_mode (s : State) : (walkStep s).mode = s.mode := by
  unfold walkStep
  split
  · rename_i i _
    split_ifs
    · exact (walkPast_mode i _).trans ((flowFrame_mode (freeRecord_flowFrame i _)).trans rfl)
    · rfl
  · rfl

theorem finishClears_mode (s : State) : (finishClears s).mode = s.mode := by
  unfold finishClears
  split <;> rfl

theorem queueTableClear_mode (s : State) : (queueTableClear s).mode = s.mode := by
  unfold queueTableClear
  split
  · exact finishClears_mode _
  · rfl

theorem flowGroupClear_mode (s : State) : (flowGroupClear s).mode = s.mode := by
  unfold flowGroupClear
  split
  · exact finishClears_mode _
  · rfl

/-! The tick. -/

/-- So far in this tick the mode has stood, or a drain has ended and every episode began at the tick. -/
def DrainEndsInTick (s t : State) : Prop :=
  t.now = s.now ∧ (t.mode = s.mode ∨ (s.mode = .draining ∧ t.mode = .observe ∧ t.begunAt s.now))

/-- One more event of the tick: once the drain has ended, no second one does. -/
theorem DrainEndsInTick.next (h : DrainEndsInTick s t) (now : u.now = t.now) (event : DrainMayEnd t u)
    (begun : t.begunAt s.now → u.begunAt s.now) : DrainEndsInTick s u := by
  obtain ⟨now_t, before⟩ := h
  have now_u := now.trans now_t
  refine ⟨now_u, ?_⟩
  obtain same | ⟨draining, observe, began⟩ := event
  · rw [same]
    exact before.imp_right fun ⟨hm, observe, begun_t⟩ => ⟨hm, observe, begun begun_t⟩
  · obtain same | ⟨-, observe', -⟩ := before
    · exact .inr ⟨same.symm.trans draining, observe, now_u, fun g episode => now_t ▸ (began g episode).1⟩
    · cases observe'.symm.trans draining

theorem finishTick_drainEndsInTick (s : State) : DrainEndsInTick s (finishTick s) :=
  finishTick_keeps (P := DrainEndsInTick s)
    (fun e t h => h.next ((congrArg TimeBase.tick (takeTimed_time e t)).trans rfl) (takeTimed_mayEnd e t)
      fun begun => takeTimed_begunAt begun e)
    (fun i t h => h.next (congrArg TimeBase.tick (sweepVisit_time i t)) (sweepVisit_mayEnd i t)
      fun begun => sweepVisit_begunAt begun i)
    (fun t h => h.next (congrArg TimeBase.tick (sweepPassEnd_time t)) (.inl (sweepPassEnd_mode t)) sweepPassEnd_begunAt)
    (fun t h => h.next (walkStep_now t) (.inl (walkStep_mode t)) walkStep_begunAt)
    ⟨rfl, .inl rfl⟩

/-- A tick may end a drain, and then every episode began at the tick that it ends (log 20). -/
theorem tickOnce_mode (s : State) : (tickOnce s).mode = s.mode ∨ (s.mode = .draining ∧ (tickOnce s).mode = .observe
    ∧ ∀ g, ((tickOnce s).group g).state.isEpisode = true → ((tickOnce s).group g).onsetAt = some s.now) :=
  (finishTick_drainEndsInTick s).2.imp_right fun ⟨hm, observe, begun⟩ => ⟨hm, observe, begun.2⟩

end

end Sys2Proof.Machine

namespace Sys2Proof.Machine

/-! ### A command of the link parses at most one cell (R14, R58) -/

/-- The tables are as they were, or as the parse of one cell leaves them. -/
def ParsesOne (s t : State) : Prop :=
  SameTables s t ∨ ∃ u k x, SameTables s u ∧ SameTables (parseTransit k x u).2 t

section
variable {s t u : State}

theorem ParsesOne.congr_left (h : ParsesOne u t) (before : SameTables s u) : ParsesOne s t := by
  obtain same | ⟨v, k, x, same, parsed⟩ := h
  · exact .inl (before.trans same)
  · exact .inr ⟨v, k, x, before.trans same, parsed⟩

theorem sameTables_arrive (d : Direction) (time : Nat) (x : LinkTransaction) (awaiting : Option Handed) (s : State) :
    SameTables s (arrive d time x awaiting s) := sameTables_setStream s d _

theorem sameTables_setEntry (s : State) (tag : Tag) (e : EntryState) : SameTables s (s.setEntry tag e) :=
  ⟨rfl, rfl, rfl, rfl, rfl, rfl⟩

theorem sameTables_checkFailure (p : Profile) (cell : Cell) (s : State) : SameTables s (checkFailure p cell s) := by
  unfold checkFailure
  split_ifs
  · exact ⟨rfl, rfl, rfl, rfl, rfl, rfl⟩
  · exact .refl s

/-- A stage that some cell of the list waits for parses the oldest such cell alone. -/
theorem parseFirst_parsesOne (k : ParseStage) (ts : List Transit) (s : State) :
    (parseFirst k ts s).2 = s ∨ ∃ x, (parseFirst k ts s).2 = (parseTransit k x s).2 := by
  induction ts with
  | nil => exact .inl rfl
  | cons x rest ih =>
    unfold parseFirst
    split_ifs
    · exact .inr ⟨x, rfl⟩
    · exact ih

theorem parseWaiting_parsesOne (d : Direction) (k : ParseStage) (s : State) : ParsesOne s (parseWaiting d k s) := by
  have streamed (v : State) := sameTables_setStream v d (parseFirst k (s.stream d) s).1
  unfold parseWaiting
  obtain still | ⟨x, parsed⟩ := parseFirst_parsesOne k (s.stream d) s
  · rw [still]
    exact .inl (streamed s)
  · rw [parsed]
    exact .inr ⟨s, k, x, .refl s, streamed _⟩

theorem handOff_parsesOne (d : Direction) (time : Nat) (x : LinkTransaction) (cell : Cell) (p : Profile)
    (parse : ParseTime) (s : State) : ParsesOne s (handOff d time x cell p parse s) := by
  unfold handOff arriveHanded
  split_ifs
  · exact (parseWaiting_parsesOne d .decision _).congr_left (sameTables_arrive d time x _ s)
  · exact .inl (sameTables_arrive d time x _ s)
  · exact .inl ((sameTables_checkFailure p cell s).trans (sameTables_arrive d time x none _))

theorem arriveWrite_parsesOne (time : Nat) (index : CellIndex) (cell : Cell) (parse : ParseTime) (s : State) :
    ParsesOne s (arriveWrite time index cell parse s) := by
  unfold arriveWrite
  split
  · exact .inl (sameTables_arrive _ time _ none s)
  · split_ifs
    · exact handOff_parsesOne _ time _ cell _ parse s
    · exact .inl (sameTables_arrive _ time _ none s)

theorem arriveMasked_sameTables (time : Nat) (index : CellIndex) (mask : BitVec 32) (cell : Cell) (s : State) :
    SameTables s (arriveMasked time index mask cell s) := by
  unfold arriveMasked
  split_ifs
  · exact (sameTables_bump s _).trans (sameTables_arrive _ time _ none _)
  · exact sameTables_arrive _ time _ none s

theorem arriveRequest_sameTables (time : Nat) (index : CellIndex) (tag : Tag) (s : State) :
    SameTables s (arriveRequest time index tag s) := by
  have entered (u : State) (e : EntryState) :
      SameTables u (arrive .sToM time (.readRequest index tag) none (u.setEntry tag e)) :=
    (sameTables_setEntry u tag e).trans (sameTables_arrive _ time _ none _)
  unfold arriveRequest
  dsimp only
  split_ifs
  · exact entered s _
  · exact (sameTables_bump s _).trans (entered _ _)

theorem arriveResponse_parsesOne (time : Nat) (tag : Tag) (cell : Cell) (memError : Bool) (parse : ParseTime)
    (s : State) : ParsesOne s (arriveResponse time tag cell memError parse s) := by
  have taken := sameTables_setEntry s tag .empty
  unfold arriveResponse
  dsimp only
  split
  · exact .inl ((sameTables_bump s _).trans (sameTables_arrive _ time _ none _))
  · split_ifs
    · exact (handOff_parsesOne _ time _ cell _ parse _).congr_left taken
    · exact .inl (taken.trans (sameTables_arrive _ time _ none _))
  · exact .inl (taken.trans (sameTables_arrive _ time _ none _))
  · exact .inl (taken.trans (sameTables_arrive _ time _ none _))

theorem leaveStream_parsesOne (d : Direction) (s : State) : ParsesOne s (leaveStream d s) := by
  unfold leaveStream
  split
  · exact .inl (.refl s)
  · rename_i x rest _
    exact .inr ⟨s, .decision, x, .refl s, (sameTables_setStream _ d rest).trans (sameTables_setPins _ d _)⟩

/-! The parse of one cell. -/

/-- So far in the parse of a cell the mode has stood, or a drain has ended with the parse. -/
def ParseMayEnd (s : State) (r : Transit × State) : Prop :=
  (r.2.mode = s.mode ∧ r.2.now = s.now) ∨ (DrainMayEnd s r.2 ∧ r.1.awaiting = none)

theorem ParseMayEnd.mayEnd {r : Transit × State} (h : ParseMayEnd s r) : DrainMayEnd s r.2 := by
  obtain ⟨mode, -⟩ | ⟨ended, -⟩ := h
  · exact .inl mode
  · exact ended

theorem enqueue_mode (q : QueueId) (n : Nat) (s : State) : (enqueue q n s).mode = s.mode := by
  by_cases hm : s.mode = .transparent
  · rw [enqueue_transparent hm]
  · exact (groupFrame_mode (enqueue_groupFrame q n hm)).trans rfl

theorem accountWrite_mode (p : Profile) (cell : Cell) (s : State) : (accountWrite p cell s).2.mode = s.mode := by
  unfold accountWrite
  split
  · rfl
  · rfl
  · rfl
  · rfl
  · exact enqueue_mode _ _ s

theorem accountTransit_mode (x : Transit) (h : Handed) (s : State) : (accountTransit x h s).2.mode = s.mode := by
  unfold accountTransit
  dsimp only
  split
  · exact accountWrite_mode h.profile _ s
  · exact accountRead_rest.2.2
  · rfl
  · rfl

theorem decideTransit_mode (x : Transit) (h : Handed) (departed : Option (QueueId × Nat)) (a : Option FlowAnswer)
    (s : State) : (decideTransit x h departed a s).2.mode = s.mode := by
  unfold decideTransit
  split
  · exact (marksOnly_decideRead _ h.mode departed a _).mode
  all_goals rfl

/-- The segment of a write may be the leave that ends a drain (R88, R104). -/
theorem takeWriteRecord_mayEnd (r : FrameRecord) (q : Option QueueId) (s : State) :
    DrainMayEnd s (takeWriteRecord r q s) := by
  unfold takeWriteRecord writeSegment
  dsimp only
  split
  · split_ifs
    · exact .inl rfl
    · have frame := takeSegment_flowFrame ‹IpPart› ‹TcpPart› q (s.bump (categoryCounter r.category))
      exact drainEnd_mayEnd (flowFrame_mode frame :) (flowFrame_now frame :)
  · exact .inl rfl

/-- The record stage of a write ends its parse (R36); that of a read response leaves the mode. -/
theorem recordTransit_parseMayEnd (x : Transit) (h : Handed) (start : Option (QueueId × Nat)) (s : State) :
    (recordTransit x h start s).2.mode = s.mode
    ∨ (DrainMayEnd s (recordTransit x h start s).2 ∧ (recordTransit x h start s).1.awaiting = none) := by
  unfold recordTransit
  split
  · exact .inr ⟨takeWriteRecord_mayEnd _ _ s, rfl⟩
  · exact .inl (marksOnly_takeReadRecord (q := none) _).mode
  all_goals exact .inl rfl

theorem nextStage_parseMayEnd (x : Transit) (s : State) : ParseMayEnd s (nextStage x s) := by
  have now : (nextStage x s).2.now = s.now := congrArg TimeBase.tick (dataFrame_time (nextStage_dataFrame x s))
  unfold ParseMayEnd
  rw [and_iff_left now]
  unfold nextStage
  split
  · exact .inl rfl
  · split
    · exact .inl (accountTransit_mode x _ s)
    · exact recordTransit_parseMayEnd x _ _ s
    · exact .inl (decideTransit_mode x _ _ _ s)

theorem ParseMayEnd.stageUpTo {r : Transit × State} (h : ParseMayEnd s r) (k : ParseStage) :
    ParseMayEnd s (stageUpTo k r) := by
  obtain ⟨mode, now⟩ | ⟨-, ended⟩ := id h
  · unfold Machine.stageUpTo
    split_ifs
    · obtain ⟨mode', now'⟩ | ⟨event, ended⟩ := nextStage_parseMayEnd r.1 r.2
      · exact .inl ⟨mode'.trans mode, now'.trans now⟩
      · exact .inr ⟨event.congr_left mode now, ended⟩
    · exact h
  · rwa [Machine.stageUpTo, isBefore_of_ended k ended, if_neg Bool.false_ne_true]

theorem parseTransit_mayEnd (k : ParseStage) (x : Transit) (s : State) : DrainMayEnd s (parseTransit k x s).2 := by
  have start : ParseMayEnd s (x, s) := .inl ⟨rfl, rfl⟩
  exact (((start.stageUpTo k).stageUpTo k).stageUpTo k).mayEnd

theorem ParsesOne.mayEnd (h : ParsesOne s t) : DrainMayEnd s t := by
  obtain same | ⟨u, k, x, before, after⟩ := h
  · exact same.mayEnd
  · exact ((parseTransit_mayEnd k x u).congr_left before.mode before.tick).congr_right after

end

end Sys2Proof.Machine

namespace Sys2Proof.Machine

/-! ### The events of the mode (R152, R158, R160) -/

/-- The commands that name a mode, RST_N, and the tick, which is many events: all other commands only end drains. -/
def movesMode : Instr → Bool
  | .startObserve _ | .enforce _ | .releaseGraceful _ | .releaseAbrupt _ | .stop _ | .softReset _
  | .hardwareReset | .tick => true
  | _ => false

section
variable {s t : State} {c : Instr}

theorem whenRunning_mayEnd {f : State → State} (h : DrainMayEnd s (f s)) : DrainMayEnd s (whenRunning s f) :=
  whenRunning_keeps (P := DrainMayEnd s) (.inl rfl) h

/-- A request whose answer leaves the mode leaves it. -/
theorem takeRequest_mayEnd {code : Byte} {answer : State → Answer}
    (leaves : (answer s).Leaves fun t => t.mode = s.mode) : DrainMayEnd s (takeRequest code answer s) :=
  .inl (takeRequest_leaves (P := fun t => t.mode = s.mode) rfl leaves fun _ _ h => h)

/-- Every command but those of `movesMode` leaves the mode, or ends a drain. -/
theorem exec_mayEnd (hc : movesMode c = false) (he : exec c s = .next t) : DrainMayEnd s t := by
  cases c with
  | startObserve | enforce | releaseGraceful | releaseAbrupt | stop | softReset | hardwareReset | tick => cases hc
  | fullCellWrite time index cell parse =>
    cases he; exact whenRunning_mayEnd (arriveWrite_parsesOne time index cell parse s).mayEnd
  | maskedWrite time index mask cell =>
    cases he; exact whenRunning_mayEnd (arriveMasked_sameTables time index mask cell s).mayEnd
  | readRequest time index tag =>
    cases he; exact whenRunning_mayEnd (arriveRequest_sameTables time index tag s).mayEnd
  | readResponse time tag cell memError parse =>
    cases he; exact whenRunning_mayEnd (arriveResponse_parsesOne time tag cell memError parse s).mayEnd
  | handedCellParse d k => cases he; exact whenRunning_mayEnd (parseWaiting_parsesOne d k s).mayEnd
  | transactionLeaves d => cases he; exact whenRunning_mayEnd (leaveStream_parsesOne d s).mayEnd
  | resetRelease =>
    cases he
    unfold releaseReset
    split_ifs <;> exact .inl rfl
  | quietExpiry | lingerExpiry | holdExpiry | entryExpiry | holdEnd =>
    cases he; exact whenRunning_mayEnd (takeTimed_mayEnd _ s)
  | sweepVisit i => cases he; exact whenRunning_mayEnd (sweepVisit_mayEnd i s)
  | sweepPassEnd => cases he; exact whenRunning_mayEnd (.inl (sweepPassEnd_mode s))
  | drainEndReport => cases he; exact whenRunning_mayEnd (drainEnd_mayEnd rfl rfl)
  | queueTableClear => cases he; exact whenRunning_mayEnd (.inl (queueTableClear_mode s))
  | flowGroupClear => cases he; exact whenRunning_mayEnd (.inl (flowGroupClear_mode s))
  | clearFlowsWalkStep => cases he; exact whenRunning_mayEnd (.inl (walkStep_mode s))
  | identify body | sense body => cases he; exact takeRequest_mayEnd (withParams_leaves fun _ => rfl)
  | clearAlert body =>
    cases he; exact takeRequest_mayEnd (withParams_leaves fun _ => unlessReserved_leaves rfl)
  | setLatency body => cases he; exact takeRequest_mayEnd (setLatencyAnswer_leaves body fun _ => rfl)
  | loadProfile body => cases he; exact takeRequest_mayEnd (loadProfileAnswer_leaves body fun _ _ => rfl)
  | setClass body => cases he; exact takeRequest_mayEnd (setClassAnswer_leaves body fun _ _ _ => rfl)
  | setQueueClass body => cases he; exact takeRequest_mayEnd (setQueueClassAnswer_leaves body fun _ _ => rfl)
  | setRamp body => cases he; exact takeRequest_mayEnd (setRampAnswer_leaves body fun _ _ _ => rfl)
  | setTick body => cases he; exact takeRequest_mayEnd (setTickAnswer_leaves body fun _ _ _ => rfl)
  | setTimers body => cases he; exact takeRequest_mayEnd (setTimersAnswer_leaves body fun _ _ => rfl)
  | setAlert body => cases he; exact takeRequest_mayEnd (setAlertAnswer_leaves body fun _ _ _ _ _ => rfl)
  | readQueue body => cases he; exact takeRequest_mayEnd (readQueueAnswer_leaves body rfl fun _ _ => rfl)
  | readGroup body => cases he; exact takeRequest_mayEnd (readGroupAnswer_leaves body rfl rfl)
  | readFlow body => cases he; exact takeRequest_mayEnd (readFlowAnswer_leaves body rfl)
  | findFlow body => cases he; exact takeRequest_mayEnd (findFlowAnswer_leaves body rfl)
  | clearFlows body => cases he; exact takeRequest_mayEnd (clearFlowsAnswer_leaves body rfl)
  | logPeek body => cases he; exact takeRequest_mayEnd (logPeekAnswer_leaves body rfl)
  | logPop body => cases he; exact takeRequest_mayEnd (logPopAnswer_leaves body fun _ => rfl)
  | countersRead body => cases he; exact takeRequest_mayEnd (countersReadAnswer_leaves body rfl fun _ _ => rfl)
  | invalidCommand code body => cases he; exact takeRequest_mayEnd trivial

/-! The commands that name a mode, and the tick. -/

/-- The mode stands, or goes along an arrow from one of `origin` to one of `target`. -/
def ModeArrow (origin target : Mode → Prop) (s t : State) : Prop :=
  t.mode = s.mode ∨ (origin s.mode ∧ target t.mode)

theorem takeRequest_arrow {code : Byte} {answer : State → Answer} {origin target : Mode → Prop}
    (leaves : (answer s).Leaves (ModeArrow origin target s)) :
    ModeArrow origin target s (takeRequest code answer s) :=
  takeRequest_leaves (P := ModeArrow origin target s) (.inl rfl) leaves fun _ _ h => h

/-- START_OBSERVE (R153). -/
theorem exec_startObserve_arrow {body : List Byte} (he : exec (.startObserve body) s = .next t) :
    ModeArrow (· = .transparent) (· = .observe) s t := by
  cases he
  refine takeRequest_arrow (withParams_leaves fun ps => ?_)
  split
  · trivial
  · trivial
  · trivial
  · split_ifs
    · exact .inr ⟨‹_›, rfl⟩
    · trivial

/-- ENFORCE (R154). -/
theorem exec_enforce_arrow {body : List Byte} (he : exec (.enforce body) s = .next t) :
    ModeArrow (· = .observe) (· = .enforce) s t := by
  cases he
  refine takeRequest_arrow (withParams_leaves fun ps => ?_)
  split
  · trivial
  · trivial
  · exact .inr ⟨‹_›, rfl⟩
  · exact .inl (Eq.symm ‹_›)

/-- A drain request that leaves no episode ends its drain at once (R103, R104, R156). -/
theorem drain_target (s : State) : (drain s).mode = .draining ∨ (drain s).mode = .observe := by
  have requested : (drainRequested s).mode = ({ s with mode := .draining } : State).mode := drainRequested_mode s
  rw [drain_eq]
  exact (drainEnd_modeStep requested).imp_right And.right

/-- RELEASE of kind GRACEFUL (R155, R156). -/
theorem exec_releaseGraceful_arrow {body : List Byte} (he : exec (.releaseGraceful body) s = .next t) :
    ModeArrow (· = .enforce) (fun m => m = .draining ∨ m = .observe) s t := by
  cases he
  refine takeRequest_arrow (withParams_leaves fun ps => unlessReserved_leaves ?_)
  cases hm : s.mode with
  | transparent | observe | draining => trivial
  | enforce => exact .inr ⟨hm, drain_target s⟩

/-- RELEASE of kind ABRUPT (R155, R159). -/
theorem exec_releaseAbrupt_arrow {body : List Byte} (he : exec (.releaseAbrupt body) s = .next t) :
    ModeArrow (fun m => m = .enforce ∨ m = .draining) (· = .observe) s t := by
  cases he
  refine takeRequest_arrow (withParams_leaves fun ps => unlessReserved_leaves ?_)
  cases hm : s.mode with
  | transparent | observe => trivial
  | enforce => exact .inr ⟨.inl hm, releaseAll_mode s⟩
  | draining => exact .inr ⟨.inr hm, releaseAll_mode s⟩

/-- STOP and SOFT_RESET, from every mode (R160, R180). -/
theorem exec_stop_arrow {body : List Byte} (he : exec (.stop body) s = .next t ∨ exec (.softReset body) s = .next t) :
    ModeArrow (fun _ => True) (· = .transparent) s t := by
  obtain he | he := he <;> cases he
  all_goals exact takeRequest_arrow (withParams_leaves fun _ => .inr ⟨trivial, rfl⟩)

/-- TICK, which makes what is left of its tick (log 20). -/
theorem exec_tick_mode (he : exec .tick s = .next t) : t.mode = s.mode ∨ (s.mode = .draining ∧ t.mode = .observe
    ∧ ∀ g, (t.group g).state.isEpisode = true → (t.group g).onsetAt = some s.now) := by
  cases he
  rw [whenRunning]
  split_ifs
  · exact tickOnce_mode s
  · exact .inl rfl

end

/-- Settles O13, command by command: those of `movesMode` along their own arrows, all others by ending a drain. -/
theorem modeChangesOnlyAtItsEvents : Obligations.ModeChangesOnlyAtItsEvents := by
  intro s t c hp hs moved
  obtain ⟨hp', rfl⟩ | ⟨c', rest, hp', he⟩ := step_eq hs
  · exact absurd rfl moved
  rw [hp'] at hp
  obtain rfl := Option.some.inj hp
  cases hc : movesMode c' with
  | false =>
    obtain ⟨hm, observe, began⟩ := (exec_mayEnd hc he).resolve_left moved
    exact .inr (.inr (.inr (.inr (.inr ⟨hm, observe, fun g episode =>
      (began g episode).imp_right fun active _ => active⟩))))
  | true =>
    cases c' with
    | startObserve body =>
      obtain ⟨hm, observe⟩ := (exec_startObserve_arrow he).resolve_left moved
      exact .inl ⟨hm, observe, body, rfl⟩
    | enforce body =>
      obtain ⟨hm, enforce⟩ := (exec_enforce_arrow he).resolve_left moved
      exact .inr (.inl ⟨hm, enforce, body, rfl⟩)
    | releaseGraceful body =>
      obtain ⟨hm, target⟩ := (exec_releaseGraceful_arrow he).resolve_left moved
      exact .inr (.inr (.inl ⟨hm, target, body, rfl⟩))
    | releaseAbrupt body =>
      obtain ⟨hm, observe⟩ := (exec_releaseAbrupt_arrow he).resolve_left moved
      exact .inr (.inr (.inr (.inl ⟨hm, observe, body, rfl⟩)))
    | stop body =>
      obtain ⟨-, transparent⟩ := (exec_stop_arrow (.inl he)).resolve_left moved
      exact .inr (.inr (.inr (.inr (.inl ⟨transparent, .inr ⟨body, .inl rfl⟩⟩))))
    | softReset body =>
      obtain ⟨-, transparent⟩ := (exec_stop_arrow (.inr he)).resolve_left moved
      exact .inr (.inr (.inr (.inr (.inl ⟨transparent, .inr ⟨body, .inr rfl⟩⟩))))
    | hardwareReset =>
      cases he
      exact .inr (.inr (.inr (.inr (.inl ⟨rfl, .inl rfl⟩))))
    | tick =>
      obtain ⟨hm, observe, began⟩ := (exec_tick_mode he).resolve_left moved
      exact .inr (.inr (.inr (.inr (.inr ⟨hm, observe, fun g episode =>
        ⟨began g episode, fun not_tick => absurd rfl not_tick⟩⟩))))
    | _ => cases hc

end Sys2Proof.Machine

namespace Sys2Proof.Machine

/-! ### The four steps of an offer (R164) -/

section
variable {e : LogEntry} {s : State}

theorem offer_of_transparent (h : s.mode = .transparent) : offer e s = s := if_pos h

theorem offer_of_masked (hk : s.log.kindMask.getLsbD (kindNumber e.kind - 1) = false) : offer e s = s :=
  ite_eq_left_iff.mpr fun _ => if_pos hk

theorem offer_of_full (hm : s.mode ≠ .transparent) (hk : s.log.kindMask.getLsbD (kindNumber e.kind - 1) ≠ false)
    (full : 256 ≤ s.log.entries.length) : offer e s = (s.bump Counter.logDiscard).flagLogOverflow :=
  (if_neg hm).trans ((if_neg hk).trans (if_pos full))

theorem offer_of_room (hm : s.mode ≠ .transparent) (hk : s.log.kindMask.getLsbD (kindNumber e.kind - 1) ≠ false)
    (room : s.log.entries.length < 256) :
    offer e s = { s with log := { s.log with entries := s.log.entries ++ [e] } } :=
  (if_neg hm).trans ((if_neg hk).trans (if_neg (not_le.mpr room)))

/-- One counter goes up by one, and holds at its greatest value (R171). -/
theorem bump_counters (s : State) (c c' : CounterId) : tableGet 0 (s.bump c).counters c' =
    if c' = c then min (s.counter c' + 1) 4294967295 else s.counter c' := by
  refine (s.bump_counter c c').trans ?_
  split_ifs with h
  · rw [h]
    rfl
  · rfl

end

/-! ### LOG_PEEK and LOG_POP (R166, 10.2) -/

section
variable {s : State}

/-- The fields of a log entry, in their order. -/
theorem logEntryBytes_eq (e : LogEntry) : logEntryBytes e =
    toBytes 1 (kindNumber e.kind) ++ (toBytes 1 (causeNumber e.cause) ++ (toBytes 1 (versionNumber e.key.version)
      ++ (toBytes 1 e.group.val ++ (toBytes 2 e.key.queue.val ++ (toBytes 1 0 ++ (toBytes 1 e.count
      ++ (toBytes 4 e.timestamp.toNat ++ (toBytes 4 e.depth ++ (toBytes 4 e.peak ++ (toBytes 4 e.duration
      ++ toBytes 16 e.key.address.toNat)))))))))) := by
  simp only [logEntryBytes, List.append_assoc]

/-- The kind, the cause and the version, each by its number. -/
theorem logEntryBytes_head (e : LogEntry) :
    paramNat (logEntryBytes e) 0 1 = kindNumber e.kind ∧ paramNat (logEntryBytes e) 1 1 = causeNumber e.cause
    ∧ paramNat (logEntryBytes e) 2 1 = versionNumber e.key.version := by
  have kind : kindNumber e.kind ≤ 6 := by cases e.kind <;> decide
  have cause : causeNumber e.cause ≤ 2 := by cases e.cause <;> decide
  have version : versionNumber e.key.version ≤ 6 := by cases e.key.version <;> decide
  simp only [logEntryBytes_eq, paramNat_past, paramNat_first, Nat.reduceLeDiff, Nat.reduceSub]
  omega

/-- The fields past the version. -/
theorem logEntryBytes_tail (e : LogEntry) :
    paramNat (logEntryBytes e) 3 1 = e.group.val ∧ paramNat (logEntryBytes e) 4 2 = e.key.queue.val
    ∧ paramNat (logEntryBytes e) 6 1 = 0 ∧ holdsAt (logEntryBytes e) 7 1 e.count
    ∧ paramNat (logEntryBytes e) 8 4 = e.timestamp.toNat ∧ holdsAt (logEntryBytes e) 12 4 e.depth
    ∧ holdsAt (logEntryBytes e) 16 4 e.peak ∧ holdsAt (logEntryBytes e) 20 4 e.duration
    ∧ paramNat (logEntryBytes e) 24 16 = e.key.address.toNat := by
  have group := e.group.isLt
  have queue := e.key.queue.isLt
  have timestamp := e.timestamp.isLt
  have address := e.key.address.isLt
  simp only [holdsAt, logEntryBytes_eq, paramNat_past, paramNat_first, paramNat_whole, Nat.reduceLeDiff,
    Nat.reduceSub, true_and]
  omega

/-- The 40 bytes of an entry show it. -/
theorem logEntryBytes_shows (e : LogEntry) : showsEntry (logEntryBytes e) e := by
  obtain ⟨kind, cause, version⟩ := logEntryBytes_head e
  refine ⟨logEntryBytes_length e, kind.trans ?_, cause.trans ?_, version.trans ?_, logEntryBytes_tail e⟩
  · cases e.kind <;> rfl
  · cases e.cause <;> rfl
  · cases e.key.version <;> rfl

theorem exec_logPeek (hs : s.takesRequests) (body : List Byte) :
    exec (.logPeek body) s = .next (applyAnswer 0x40 s (logPeekAnswer body s)) :=
  congrArg Host.Outcome.next ((takeRequest_spec 0x40 (logPeekAnswer body) s).2.2 hs)

theorem exec_logPop (hs : s.takesRequests) (body : List Byte) :
    exec (.logPop body) s = .next (applyAnswer 0x41 s (logPopAnswer body s)) :=
  congrArg Host.Outcome.next ((takeRequest_spec 0x41 (logPopAnswer body) s).2.2 hs)

/-- Both commands refuse an empty log. -/
theorem logAnswers_of_empty (h : s.log.entries = []) :
    logPeekAnswer [0] s = .check .logEmpty 0 ∧ logPopAnswer [0] s = .check .logEmpty 0 := by
  rw [logPeekAnswer, logPopAnswer, withParams_framed (by decide) noParams_framed,
    withParams_framed (by decide) noParams_framed, h]
  exact ⟨rfl, rfl⟩

/-- Both commands answer the oldest entry, and LOG_POP alone removes it. -/
theorem logAnswers_of_oldest {oldest : LogEntry} {rest : List LogEntry} (h : s.log.entries = oldest :: rest) :
    logPeekAnswer [0] s = .good (logEntryBytes oldest) s
    ∧ logPopAnswer [0] s = .good (logEntryBytes oldest) { s with log := { s.log with entries := rest } } := by
  rw [logPeekAnswer, logPopAnswer, withParams_framed (by decide) noParams_framed,
    withParams_framed (by decide) noParams_framed, h]
  exact ⟨rfl, rfl⟩

end

/-- Settles O23: the four outcomes of an offer, then the two reads on an empty log and on one that holds entries. -/
theorem logKeepsItsOrder : Obligations.LogKeepsItsOrder := by
  refine ⟨fun s e => ?_, fun s hs => ⟨fun empty => ?_, fun oldest rest held => ?_⟩⟩
  · intro disabled
    have masked : disabled ↔ s.log.kindMask.getLsbD (kindNumber e.kind - 1) = false := by
      unfold disabled
      cases e.kind <;> exact Iff.rfl
    exact ⟨fun h => h.elim offer_of_transparent (offer_of_masked ∘ masked.mp),
      fun hm hk full => ⟨(s.bump Counter.logDiscard).counters, bump_counters s _,
        offer_of_full hm (mt masked.mpr hk) full⟩,
      fun hm hk room => offer_of_room hm (mt masked.mpr hk) room⟩
  · obtain ⟨peek, pop⟩ := logAnswers_of_empty empty
    rw [exec_logPeek hs, exec_logPop hs, peek, pop]
    exact ⟨rfl, rfl⟩
  · obtain ⟨peek, pop⟩ := logAnswers_of_oldest held
    rw [exec_logPeek hs, exec_logPop hs, peek, pop]
    exact ⟨_, logEntryBytes_shows oldest, rfl, rfl⟩

end Sys2Proof.Machine

namespace Sys2Proof.Machine

/-! ### Reserved bits in one byte alone (R170, R172) -/

section
variable {ps : List Byte} {o : Nat} {m : Byte}

theorem noneReserved_single : noneReserved [(o, m)] ps ↔ paramByte ps o &&& m = 0 := by
  simp [noneReserved]

theorem lowestReserved_single (h : paramByte ps o &&& m ≠ 0) : lowestReserved [(o, m)] ps o :=
  ⟨⟨m, List.mem_singleton_self _, h⟩, fun o' _ hm ho => by
    obtain ⟨rfl, -⟩ := Prod.mk.inj (List.mem_singleton.mp hm)
    exact absurd ho (lt_irrefl o')⟩

end

/-! ### The counters of a span (R172) -/

section
variable {s : State} {first count k : Nat}

theorem inSpan_iff {c : CounterId} : inSpan first count c = true ↔ first ≤ c.val ∧ c.val < first + count := by
  simp [inSpan]

/-- A span that ends at counter 24 or below holds its numbers one after another. -/
theorem spanNumbers (h : first + count ≤ 25) :
    ((List.finRange 25).filter (inSpan first count)).map Fin.val = List.range' first count := by
  have rising : ((List.finRange 25).filter (inSpan first count)).Pairwise (fun a b => a.val < b.val) :=
    (List.pairwise_lt_finRange 25).filter _
  refine (List.pairwise_map.mpr rising).eq_of_mem_iff List.pairwise_lt_range' fun n => ?_
  simp only [List.mem_map, List.mem_filter, List.mem_finRange, true_and, inSpan_iff, List.mem_range'_1]
  exact ⟨fun ⟨c, span, hc⟩ => hc ▸ span, fun span => ⟨⟨n, by omega⟩, span, rfl⟩⟩

theorem counterBytes_length (s : State) (h : first + count ≤ 25) :
    (counterBytes s first count).length = 4 * count := by
  have size := congrArg List.length (spanNumbers h)
  rw [List.length_map, List.length_range'] at size
  simp [counterBytes, List.length_flatMap, size, Nat.mul_comm]

/-- A list of four-byte values from its value `k` on. -/
theorem flatMap_toBytes_drop {α : Type} (f : α → Nat) (l : List α) (k : Nat) :
    (l.flatMap fun a => toBytes 4 (f a)).drop (4 * k) = (l.drop k).flatMap fun a => toBytes 4 (f a) := by
  induction k generalizing l with
  | zero => rfl
  | succ k ih =>
    cases l with
    | nil => rfl
    | cons a l =>
      rw [List.flatMap_cons, show 4 * (k + 1) = 4 + 4 * k by omega, ← List.drop_drop,
        List.drop_left' (toBytes_length 4 _), ih, List.drop_succ_cons]

/-- Value `k` of such a list. -/
theorem paramNat_flatMap_toBytes {α : Type} {f : α → Nat} {l : List α} {a : α} (h : l[k]? = some a) :
    paramNat (l.flatMap fun a => toBytes 4 (f a)) (4 * k) 4 = f a % 256 ^ 4 := by
  obtain ⟨hk, rfl⟩ := List.getElem?_eq_some_iff.mp h
  refine paramNat_of_drop (r := (l.drop (k + 1)).flatMap fun a => toBytes 4 (f a)) ?_
  rw [flatMap_toBytes_drop, List.drop_eq_getElem_cons hk, List.flatMap_cons]

/-- Value `k` of the result is counter `first + k`. -/
theorem counterBytes_value (hs : s.countsInRange) (h : first + count ≤ 25) (hk : k < count) {c : CounterId}
    (hc : c.val = first + k) : paramNat (counterBytes s first count) (4 * k) 4 = s.counter c := by
  have listed : ((List.finRange 25).filter (inSpan first count))[k]? = some c := by
    have number : (((List.finRange 25).filter (inSpan first count))[k]?).map Fin.val = some c.val := by
      rw [← List.getElem?_map, spanNumbers h, List.getElem?_range' hk, Nat.one_mul, hc]
    exact Option.map_injective Fin.val_injective number
  obtain ⟨-, counters, -⟩ := hs
  have fits : s.counter c < 256 ^ 4 := Nat.lt_succ_of_le (counters c)
  rw [counterBytes, paramNat_flatMap_toBytes listed, Nat.mod_eq_of_lt fits]

/-- The clear sets the counters of its span to 0 and no other. -/
theorem clearCounters_counter (s : State) (first count : Nat) (c : CounterId) :
    (clearCounters first count s).counter c =
      if first ≤ c.val ∧ c.val < first + count then 0 else s.counter c := by
  refine (tableGet_filter_keys 0 s.counters (fun c => !inSpan first count c) c).trans ?_
  by_cases span : first ≤ c.val ∧ c.val < first + count
  · rw [if_pos span, inSpan_iff.mpr span]
    rfl
  · rw [if_neg span, Bool.eq_false_iff.mpr (mt inSpan_iff.mp span)]
    rfl

end

/-! ### COUNTERS_READ (R172) -/

section
variable {s : State} {first count option : Byte}

/-- What COUNTERS_READ answers when no reserved bit is set: its count, its span, then the counters. -/
theorem countersReadAnswer_framed (hr : option &&& 0xFE = 0) : countersReadAnswer [3, first, count, option] s =
    if count.toNat = 0 ∨ 16 < count.toNat then .check .outOfRange 1
    else if 25 < first.toNat + count.toNat then .check .indexRange 0
    else .good (counterBytes s first.toNat count.toNat)
      (if option.getLsbD 0 then clearCounters first.toNat count.toNat s else s) :=
  (withParams_framed (by decide) (threeParams_framed first count option) _).trans
    (unlessReserved_none (noneReserved_single.mpr hr) _)

theorem countersReadAnswer_reserved (hr : option &&& 0xFE ≠ 0) :
    countersReadAnswer [3, first, count, option] s = .check .reservedSet 2 :=
  (withParams_framed (by decide) (threeParams_framed first count option) _).trans
    (unlessReserved_some (by decide) (lowestReserved_single hr) _)

theorem exec_countersRead (hs : s.takesRequests) (body : List Byte) :
    exec (.countersRead body) s = .next (applyAnswer 0x42 s (countersReadAnswer body s)) :=
  congrArg Host.Outcome.next ((takeRequest_spec 0x42 (countersReadAnswer body) s).2.2 hs)

/-- The counters that the read leaves: with the clear option those of the span are 0. -/
theorem clearOption_counter (hr : option &&& 0xFE = 0) (c : CounterId) :
    (if option.getLsbD 0 then clearCounters first.toNat count.toNat s else s).counter c =
      if option = 1 ∧ first.toNat ≤ c.val ∧ c.val < first.toNat + count.toNat then 0 else s.counter c := by
  have clears : ∀ b : Byte, b &&& 0xFE = 0 → (b.getLsbD 0 = true ↔ b = 1) := by decide
  by_cases one : option = 1
  · rw [if_pos ((clears option hr).mpr one), clearCounters_counter]
    simp only [one, true_and]
  · rw [if_neg (mt (clears option hr).mp one), if_neg (mt And.left one)]

/-- The read writes nothing but the counters. -/
theorem clearOption_eq (b : Prop) [Decidable b] (n m : Nat) : (if b then clearCounters n m s else s) =
    { s with counters := (if b then clearCounters n m s else s).counters } := by
  split_ifs <;> rfl

end

/-- Settles O24: the tests in their order, then the values of the span and what the clear option leaves. -/
theorem countersReadAndClear : Obligations.CountersReadAndClear := by
  intro s first count option hs counts
  rw [exec_countersRead hs]
  refine ⟨fun hr => ?_, fun hr bad => ?_, fun hr low high past => ?_, fun hr low high within =>
    ⟨counterBytes s first.toNat count.toNat,
      (if option.getLsbD 0 then clearCounters first.toNat count.toNat s else s).counters,
      counterBytes_length s within, ?_, fun k c hk hc => counterBytes_value counts within hk hc,
      clearOption_counter hr⟩⟩
  · rw [countersReadAnswer_reserved hr]
    rfl
  · have outside : count.toNat = 0 ∨ 16 < count.toNat := bad.imp_left (congrArg BitVec.toNat)
    rw [countersReadAnswer_framed hr, if_pos outside]
    rfl
  · rw [countersReadAnswer_framed hr, if_neg (by omega), if_pos past]
    rfl
  · rw [countersReadAnswer_framed hr, if_neg (by omega), if_neg (not_lt.mpr within), applyAnswer_good,
      ← clearOption_eq]

end Sys2Proof.Machine

namespace Sys2Proof.Machine

/-! ### The alert flags and ALERT_N (R168, R169) -/

/-- Six flags stand in the six low bits, and the two bits above them are clear. -/
theorem sixFlags_bits (a b c d e f : Bool) (i : Fin 8) :
    (BitVec.ofNat 6 (a.toNat + 2 * b.toNat + 4 * c.toNat + 8 * d.toNat + 16 * e.toNat + 32 * f.toNat)).getLsbD i =
      [a, b, c, d, e, f].getD i.val false := by
  revert a b c d e f i
  decide

theorem flags_getLsbD (s : State) (i : Fin 8) : s.flags.getLsbD i =
    [s.logLevelFlag, s.alerts.logOverflow, s.alerts.onset, s.alerts.flowFull, s.alerts.groupFull,
      s.alerts.linkCheck].getD i.val false :=
  sixFlags_bits _ _ _ _ _ _ i

/-- The six flags as a byte of a result shows them, with bits 7 and 6 clear (R170). -/
def State.flagByte (s : State) : Byte := BitVec.ofNat 8 s.flags.toNat

theorem flagByte_getLsbD (s : State) {i : Nat} (hi : i < 8) : s.flagByte.getLsbD i = s.flags.getLsbD i := by
  rw [State.flagByte, BitVec.getLsbD_ofNat, decide_eq_true hi, Bool.true_and, BitVec.testBit_toNat]

theorem and_ne_zero_iff {n : Nat} (x y : BitVec n) :
    x &&& y ≠ 0 ↔ ∃ i : Fin n, x.getLsbD i = true ∧ y.getLsbD i = true := by
  rw [← not_iff_not, not_not, BitVec.eq_of_getLsbD_eq_iff]
  simp only [BitVec.getLsbD_and, BitVec.ofNat_eq_ofNat, BitVec.getLsbD_zero, Bool.and_eq_false_iff, not_exists,
    not_and, Bool.not_eq_true]
  constructor
  · intro h i hx
    exact (h i i.isLt).resolve_left (by simp [hx])
  · intro h i hi
    exact or_iff_not_imp_left.mpr fun hx => h ⟨i, hi⟩ (by simpa using hx)

/-- ALERT_N is low exactly while a flag that is set has its enable on (R169). -/
theorem alertLow_iff {s : State} (running : s.running = true) :
    s.alertLow = true ↔ ∃ i : Fin 6, s.flagByte.getLsbD i = true ∧ s.alerts.mask.getLsbD i = true := by
  rw [State.alertLow, running, Bool.true_and, decide_eq_true_iff, and_ne_zero_iff]
  exact exists_congr fun i => and_congr_left' (by rw [flagByte_getLsbD s (i.isLt.trans (by decide))])

/-! ### CLEAR_ALERT (R170) -/

section
variable {s : State} {named : Byte}

/-- The state after an accepted CLEAR_ALERT. -/
def State.alertsCleared (s : State) (named : Byte) : State := { s with alerts := s.alerts.clear named }

/-- With its reserved bits clear, a clear mask clears exactly the flags it names; LOG_LEVEL, whose bit is reserved,
stays (R168, R170). -/
theorem alertsCleared_flagByte (hr : named &&& 0xC1 = 0) (s : State) (i : Fin 8) :
    (s.alertsCleared named).flagByte.getLsbD i = (s.flagByte.getLsbD i && !named.getLsbD i) := by
  have level : ∀ b : Byte, b &&& 0xC1 = 0 → b.getLsbD 0 = false := by decide
  rw [flagByte_getLsbD _ i.isLt, flagByte_getLsbD _ i.isLt, flags_getLsbD, flags_getLsbD]
  fin_cases i
  · show s.logLevelFlag = (s.logLevelFlag && !named.getLsbD 0)
    rw [level named hr, Bool.not_false, Bool.and_true]
  all_goals rfl

theorem clearAlertAnswer_reserved (hr : named &&& 0xC1 ≠ 0) :
    clearAlertAnswer [1, named] s = .check .reservedSet 0 :=
  (withParams_framed (by decide) (oneParam_framed named) _).trans
    (unlessReserved_some (by decide) (lowestReserved_single hr) _)

/-- What CLEAR_ALERT answers when no reserved bit is set: the flags before and after, and the log count. -/
theorem clearAlertAnswer_framed (hr : named &&& 0xC1 = 0) : clearAlertAnswer [1, named] s =
    .good ([s.flagByte, (s.alertsCleared named).flagByte] ++ toBytes 2 s.log.entries.length)
      (s.alertsCleared named) :=
  (withParams_framed (by decide) (oneParam_framed named) _).trans
    (unlessReserved_none (noneReserved_single.mpr hr) _)

theorem exec_clearAlert (hs : s.takesRequests) (body : List Byte) :
    exec (.clearAlert body) s = .next (applyAnswer 0x43 s (clearAlertAnswer body s)) :=
  congrArg Host.Outcome.next ((takeRequest_spec 0x43 (clearAlertAnswer body) s).2.2 hs)

end

/-- Settles O25: the reserved bits, then the flag bytes bit by bit; ALERT_N by `alertLow_iff` of the state after. -/
theorem clearAlertClearsNamedFlags : Obligations.ClearAlertClearsNamedFlags := by
  intro s named hs _
  rw [exec_clearAlert hs]
  refine ⟨fun hr => ?_, fun hr => ⟨s.flagByte, (s.alertsCleared named).flagByte, s.alertsCleared named, ?_, rfl,
    fun b => ?_, alertsCleared_flagByte hr s, alertLow_iff hs.1⟩⟩
  · rw [clearAlertAnswer_reserved hr]
    rfl
  · rw [clearAlertAnswer_framed hr]
    rfl
  · rw [flagByte_getLsbD s b.isLt, flags_getLsbD]
    fin_cases b <;> rfl

end Sys2Proof.Machine

namespace Sys2Proof.Machine

/-! ### SET_ALERT (R167) -/

section
variable {s : State} {m a b k : Byte}

theorem fourParams_framed (m a b k : Byte) : framesExactly 4 [4, m, a, b, k] [m, a, b, k] := ⟨rfl, rfl⟩

theorem setAlertAnswer_reserved {o : Nat} (h : lowestReserved alertReserved [m, a, b, k] o) :
    setAlertAnswer [4, m, a, b, k] s = .check .reservedSet o :=
  (withParams_framed (by decide) (fourParams_framed m a b k) _).trans (unlessReserved_some (by decide) h _)

/-- What SET_ALERT answers when no reserved bit is set: the test of the log level, then the three settings. -/
theorem setAlertAnswer_framed (hr : noneReserved alertReserved [m, a, b, k]) : setAlertAnswer [4, m, a, b, k] s =
    if a.toNat * 256 + b.toNat = 0 ∨ 256 < a.toNat * 256 + b.toNat then .check .outOfRange 1
    else .good [] (s.setAlerts (m.setWidth 6) (a.toNat * 256 + b.toNat) (k.setWidth 6)) := by
  have level : paramNat [m, a, b, k] 1 2 = a.toNat * 256 + b.toNat := paramNat_pair a b [k]
  rw [setAlertAnswer, withParams_framed (by decide) (fourParams_framed m a b k), unlessReserved_none hr, level]
  rfl

theorem exec_setAlert (hs : s.takesRequests) (body : List Byte) :
    exec (.setAlert body) s = .next (applyAnswer 0x17 s (setAlertAnswer body s)) :=
  congrArg Host.Outcome.next ((takeRequest_spec 0x17 (setAlertAnswer body) s).2.2 hs)

/-- A mask of six bits is what the low six bits of its byte spell. -/
theorem lowBits_getLsbD (b : Byte) (i : Fin 6) : (b.setWidth 6).getLsbD i = b.getLsbD i := by
  rw [BitVec.getLsbD_setWidth, decide_eq_true i.isLt, Bool.true_and]

end

/-- Settles O33: the reserved bits, the log level, then the three settings. -/
theorem setAlertReplacesAllThree : Obligations.SetAlertReplacesAllThree := by
  intro s m a b k hs
  rw [exec_setAlert hs]
  refine ⟨fun o h => ?_, fun hr bad => ?_, fun hr low high =>
    ⟨m.setWidth 6, k.setWidth 6, fun i => ⟨lowBits_getLsbD m i, lowBits_getLsbD k i⟩, ?_⟩⟩
  · rw [setAlertAnswer_reserved h]
    rfl
  · rw [setAlertAnswer_framed hr, if_pos bad]
    rfl
  · rw [setAlertAnswer_framed hr, if_neg (by omega)]
    rfl

end Sys2Proof.Machine

namespace Sys2Proof

/-! ### Bits, whole bytes and bytes (R173, 11.1) -/

/-- The lowest `n` bits of a number, most significant first, spell it as far as they hold it. -/
theorem foldl_testBit (n v : Nat) :
    ((List.range n).map (fun i => v.testBit (n - 1 - i))).foldl (fun acc b => 2 * acc + b.toNat) 0 = v % 2 ^ n := by
  induction n generalizing v with
  | zero => simp [Nat.mod_one]
  | succ n ih =>
    have higher : (List.range n).map (fun i => v.testBit (n + 1 - 1 - i)) =
        (List.range n).map (fun i => (v / 2).testBit (n - 1 - i)) :=
      List.map_congr_left fun i hi => by
        have := List.mem_range.mp hi
        rw [← Nat.testBit_succ, show (n - 1 - i).succ = n + 1 - 1 - i by omega]
    have lowest : (v.testBit (n + 1 - 1 - n)).toNat = v % 2 := by
      rw [show n + 1 - 1 - n = 0 by omega, Nat.testBit_zero]
      obtain h | h := Nat.mod_two_eq_zero_or_one v <;> simp [h]
    rw [List.range_succ, List.map_append, List.foldl_append, higher, ih]
    simp only [List.map_cons, List.map_nil, List.foldl_cons, List.foldl_nil]
    rw [lowest, Nat.pow_succ', Nat.mod_mul, Nat.add_comm]

open Machine (bitsOfByte)

theorem byteOfBits_bitsOfByte (b : Byte) : byteOfBits (bitsOfByte b) = b := by
  have value := foldl_testBit 8 b.toNat
  rw [Nat.mod_eq_of_lt b.isLt] at value
  refine (congrArg (BitVec.ofNat 8) value).trans ?_
  rw [BitVec.ofNat_toNat, BitVec.setWidth_eq]

theorem bitsOfByte_length (b : Byte) : (bitsOfByte b).length = 8 := by
  simp [bitsOfByte]

theorem bits_length (bytes : List Byte) : (bytes.flatMap bitsOfByte).length = 8 * bytes.length := by
  induction bytes with
  | nil => rfl
  | cons b bytes ih =>
    rw [List.flatMap_cons, List.length_append, bitsOfByte_length, ih, List.length_cons]
    omega

theorem wholeBytesAux_bits (bytes : List Byte) (tail : List Bool) :
    wholeBytesAux bytes.length (bytes.flatMap bitsOfByte ++ tail) = bytes := by
  induction bytes with
  | nil => rfl
  | cons b bytes ih =>
    have eight := bitsOfByte_length b
    rw [List.flatMap_cons, List.append_assoc, List.length_cons, wholeBytesAux,
      if_neg (by rw [List.length_append]; omega), List.take_left' eight, List.drop_left' eight, ih,
      byteOfBits_bitsOfByte]

/-- A trailing part of under 8 bits is dropped. -/
theorem wholeBytes_bits (bytes : List Byte) {tail : List Bool} (short : tail.length < 8) :
    wholeBytes (bytes.flatMap bitsOfByte ++ tail) = bytes := by
  have count : (bytes.flatMap bitsOfByte ++ tail).length / 8 = bytes.length := by
    rw [List.length_append, bits_length]
    omega
  rw [wholeBytes, count, wholeBytesAux_bits]

/-! ### Codes and commands (11.5, R155, R176) -/

section
variable {code : Byte} {body : List Byte} {i : Instr}

theorem byte_of_toNat {n : Nat} (h : code.toNat = n) : code = BitVec.ofNat 8 n := by
  rw [← h, BitVec.ofNat_toNat, BitVec.setWidth_eq]

/-- A request is the command whose frame it is. -/
theorem frameOf_requestOf (code : Byte) (body : List Byte) : frameOf (requestOf code body) = some (code :: body) := by
  unfold requestOf
  split
  case h_14 h => -- RELEASE: both kinds have the code 0x22
    rw [byte_of_toNat h]
    split_ifs <;> rfl
  case h_25 => rfl
  all_goals
    rename_i h
    rw [byte_of_toNat h]
    rfl

/-- A code of no command in 11.5 is read as INVALID_COMMAND (R176). -/
theorem requestOf_unknown (h : code ∉ knownCodes) : requestOf code body = .invalidCommand code body := by
  unfold requestOf
  split
  case h_25 => rfl
  all_goals
    rename_i known
    rw [byte_of_toNat known] at h
    exact absurd (by decide) h

/-- A RELEASE is of the kind that its row names (R155). -/
theorem releaseRequest_wellFormed (body : List Byte) : (requestOf 0x22 body).wellFormed = true := by
  show (if releaseIsAbrupt body then Instr.releaseAbrupt body else .releaseGraceful body).wellFormed = true
  split_ifs with kind
  · exact kind
  · simpa [Instr.wellFormed] using kind

/-- A request with a code of 11.5 is well-formed, whatever its parameters are. -/
theorem knownRequest_wellFormed (body : List Byte) : ∀ c ∈ knownCodes, (requestOf c body).wellFormed = true := by
  simp only [knownCodes, List.forall_mem_cons]
  exact ⟨rfl, rfl, rfl, rfl, rfl, rfl, rfl, rfl, rfl, rfl, rfl, rfl, rfl, releaseRequest_wellFormed body, rfl, rfl,
    rfl, rfl, rfl, rfl, rfl, rfl, rfl, rfl, List.forall_mem_nil _⟩

/-- A request is well-formed unless its code marks a result frame (R173). -/
theorem requestOf_wellFormed (h : code ≠ resultFrameCode) : (requestOf code body).wellFormed = true := by
  by_cases known : code ∈ knownCodes
  · exact knownRequest_wellFormed body code known
  · rw [requestOf_unknown known]
    simp [Instr.wellFormed, known, h]

/-- The frame of a well-formed command decodes to it. -/
theorem decodeFrame_frameOf {frame : List Byte} (hi : i.wellFormed = true) (h : frameOf i = some frame) :
    decodeFrame frame = some i := by
  cases i with
  | invalidCommand code body =>
    cases h
    simp only [Instr.wellFormed, Bool.and_eq_true, Bool.not_eq_true', List.contains_eq_mem, decide_eq_false_iff_not,
      bne_iff_ne] at hi
    obtain ⟨unknown, notResult⟩ := hi
    rw [decodeFrame, if_neg notResult, requestOf_unknown unknown]
  | releaseGraceful body =>
    cases h
    exact congrArg some (if_neg (by simpa [Instr.wellFormed] using hi))
  | releaseAbrupt body =>
    cases h
    exact congrArg some (if_pos hi)
  | _ => cases h <;> rfl

/-- A frame that decodes is the frame of a well-formed command. -/
theorem frameOf_decodeFrame {frame : List Byte} (h : decodeFrame frame = some i) :
    frameOf i = some frame ∧ i.wellFormed = true := by
  cases frame with
  | nil => cases h
  | cons code body =>
    rw [decodeFrame] at h
    split_ifs at h with notResult
    cases h
    exact ⟨frameOf_requestOf code body, requestOf_wellFormed notResult⟩

end

/-- Settles O2: the codes of 11.5 one by one, and eight bits at a time. -/
theorem framesSpellCommands : Obligations.FramesSpellCommands :=
  ⟨⟨fun _ _ => decodeFrame_frameOf, fun _ _ => frameOf_decodeFrame⟩, fun bytes _ => wholeBytes_bits bytes⟩

end Sys2Proof

namespace Sys2Proof.Machine

/-! ### What a request comes to (R174 to R177) -/

/-- Every CHECK carries a sense code other than NONE (R177). -/
def Answer.namesFault : Answer → Bool
  | .check code _ => code != .none
  | .good _ _ | .started _ _ | .busy => true

section
variable {n : Nat} {body ps : List Byte} {k : Answer} {s : State} {code : Byte}

theorem withParams_namesFault {k : List Byte → Answer} (h : ∀ ps, (k ps).namesFault) :
    (withParams n body k).namesFault := by
  unfold withParams
  split
  · rfl
  · exact h _

theorem unlessReserved_namesFault {layout : List (Nat × Byte)} (h : k.namesFault) :
    (unlessReserved layout ps k).namesFault := by
  unfold unlessReserved
  split
  · rfl
  · exact h

theorem unlessBroken_namesFault {limits : List (Nat × Bool)} (h : k.namesFault) :
    (unlessBroken limits k).namesFault := by
  unfold unlessBroken
  split
  · rfl
  · exact h

theorem rampAnswer_namesFault (r : RampId) : (rampAnswer ps r s).namesFault := by
  unfold rampAnswer
  dsimp only
  split_ifs
  · rfl
  · rfl
  · exact unlessReserved_namesFault (unlessBroken_namesFault rfl)

theorem findFlowAnswer_namesFault : (findFlowAnswer body s).namesFault := by
  unfold findFlowAnswer
  split
  · rfl
  · split_ifs
    · rfl
    · refine unlessReserved_namesFault ?_
      split
      · rfl
      · split_ifs <;> rfl

theorem setRampAnswer_namesFault : (setRampAnswer body s).namesFault := by
  unfold setRampAnswer
  split
  · rfl
  · split_ifs
    · rfl
    · rfl
    · exact rampAnswer_namesFault _
    · rfl

theorem loadProfileAnswer_namesFault : (loadProfileAnswer body s).namesFault := by
  unfold loadProfileAnswer
  split_ifs
  · rfl
  · exact withParams_namesFault fun _ => unlessReserved_namesFault (unlessBroken_namesFault rfl)

theorem setClassAnswer_namesFault : (setClassAnswer body s).namesFault := by
  unfold setClassAnswer
  split_ifs
  · rfl
  · refine withParams_namesFault fun _ => unlessReserved_namesFault ?_
    split_ifs
    · exact unlessBroken_namesFault rfl
    · rfl

theorem setQueueClassAnswer_namesFault : (setQueueClassAnswer body s).namesFault := by
  unfold setQueueClassAnswer
  split_ifs
  · rfl
  · exact withParams_namesFault fun _ => unlessReserved_namesFault (by split_ifs <;> rfl)

theorem setTimersAnswer_namesFault : (setTimersAnswer body s).namesFault := by
  unfold setTimersAnswer
  split_ifs
  · rfl
  · exact withParams_namesFault fun _ => unlessReserved_namesFault (unlessBroken_namesFault (by split_ifs <;> rfl))

theorem startObserveAnswer_namesFault : (startObserveAnswer body s).namesFault := by
  refine withParams_namesFault fun _ => ?_
  split
  · rfl
  · rfl
  · rfl
  · split_ifs <;> rfl

/-- Each command that has a frame is a request under that frame's code, whose answer names its fault. -/
theorem exec_request {i : Instr} (h : frameOf i = some (code :: body)) :
    ∃ answer : State → Answer, (∀ s, (answer s).namesFault)
      ∧ ∀ s, exec i s = .next (takeRequest code answer s) := by
  cases i with
  | identify | sense | softReset | stop =>
    cases h
    exact ⟨_, fun _ => withParams_namesFault fun _ => rfl, fun _ => rfl⟩
  | startObserve =>
    cases h
    exact ⟨_, fun _ => startObserveAnswer_namesFault, fun _ => rfl⟩
  | enforce | clearFlows | logPeek | logPop =>
    cases h
    exact ⟨_, fun _ => withParams_namesFault fun _ => by split <;> rfl, fun _ => rfl⟩
  | readGroup | readFlow | setTick =>
    cases h
    exact ⟨_, fun _ => withParams_namesFault fun _ => by split_ifs <;> rfl, fun _ => rfl⟩
  | releaseGraceful | releaseAbrupt =>
    cases h
    exact ⟨_, fun _ => withParams_namesFault fun _ => unlessReserved_namesFault (by split <;> rfl), fun _ => rfl⟩
  | setLatency | setAlert | readQueue | countersRead =>
    cases h
    exact ⟨_, fun _ => withParams_namesFault fun _ => unlessReserved_namesFault (by split_ifs <;> rfl),
      fun _ => rfl⟩
  | clearAlert =>
    cases h
    exact ⟨_, fun _ => withParams_namesFault fun _ => unlessReserved_namesFault rfl, fun _ => rfl⟩
  | setRamp =>
    cases h
    exact ⟨_, fun _ => setRampAnswer_namesFault, fun _ => rfl⟩
  | findFlow =>
    cases h
    exact ⟨_, fun _ => findFlowAnswer_namesFault, fun _ => rfl⟩
  | invalidCommand =>
    cases h
    exact ⟨_, fun _ => rfl, fun _ => rfl⟩
  | loadProfile =>
    cases h
    exact ⟨_, fun _ => loadProfileAnswer_namesFault, fun _ => rfl⟩
  | setClass =>
    cases h
    exact ⟨_, fun _ => setClassAnswer_namesFault, fun _ => rfl⟩
  | setQueueClass =>
    cases h
    exact ⟨_, fun _ => setQueueClassAnswer_namesFault, fun _ => rfl⟩
  | setTimers =>
    cases h
    exact ⟨_, fun _ => setTimersAnswer_namesFault, fun _ => rfl⟩
  | _ => cases h

/-- How the part `t` stands after a request with this code to the part `s`: its result record tells what
changed (R174 to R177). -/
def RecordTellsOutcome (s : State) (code : Byte) (t : State) : Prop :=
  t.port.result.code = code
  ∧ (t.port.result.status = .busy → t = s.answering .busy code [])
  ∧ (t.port.result.status = .check → ∃ sense offset, t = s.refusing code sense offset ∧ sense ≠ .none)
  ∧ (t.port.result.status = .pending → ∃ waiting, t.port.command = some waiting)

theorem answering_busy_tells (s : State) (code : Byte) : RecordTellsOutcome s code (s.answering .busy code []) :=
  ⟨rfl, fun _ => rfl, nofun, nofun⟩

theorem applyAnswer_tells {answer : Answer} (h : answer.namesFault) :
    RecordTellsOutcome s code (applyAnswer code s answer) := by
  cases answer with
  | good bytes t => exact ⟨rfl, nofun, nofun, nofun⟩
  | started command t => exact ⟨rfl, nofun, nofun, fun _ => ⟨command, rfl⟩⟩
  | busy => exact answering_busy_tells s code
  | check sense offset =>
    exact ⟨rfl, nofun, fun _ => ⟨sense, offset, rfl, by simpa [Answer.namesFault] using h⟩, nofun⟩

theorem takeRequest_tells {answer : State → Answer} (running : s.running = true) (h : (answer s).namesFault) :
    RecordTellsOutcome s code (takeRequest code answer s) := by
  obtain ⟨-, pending, taken⟩ := takeRequest_spec code answer s
  cases command : s.port.command with
  | none =>
    rw [taken ⟨running, command⟩]
    exact applyAnswer_tells h
  | some waiting =>
    rw [pending waiting running command]
    exact answering_busy_tells s code

end

/-- Settles O16: each command with a frame is a request, whose record tells what it changed. -/
theorem refusedRequestChangesNothingElse : Obligations.RefusedRequestChangesNothingElse := by
  intro s i code body h
  obtain ⟨answer, named, taken⟩ := exec_request h
  obtain ⟨held, pending, -⟩ := takeRequest_spec code answer s
  rw [taken s]
  refine ⟨fun stopped => congrArg _ (held stopped), fun running =>
    ⟨fun waiting command => congrArg _ (pending waiting running command), ?_⟩⟩
  rintro t ⟨⟩
  exact takeRequest_tells running (named s)

end Sys2Proof.Machine

namespace Sys2Proof.Machine

/-! ### The commands whose first test is the length (R173, R176, 11.5) -/

/-- The command is a request with this code, whose answer begins with the test for `n` parameters. -/
def LengthFirst (command : List Byte → Instr) (code : Byte) (n : Nat) : Prop :=
  n ≤ 60 ∧ ∀ body, ∃ k : State → List Byte → Answer, ∀ s,
    exec (command body) s = .next (takeRequest code (fun s => withParams n body (k s)) s)

section
variable {s : State} {body : List Byte} {command : List Byte → Instr} {code : Byte} {n : Nat}

theorem LengthFirst.refuses (h : LengthFirst command code n) (hs : s.takesRequests) (hb : misframed n body) :
    exec (command body) s = .next (s.refusing code .badLength 255) := by
  obtain ⟨short, request⟩ := h
  obtain ⟨k, request⟩ := request body
  rw [request s, (takeRequest_spec _ _ s).2.2 hs, withParams_misframed short hb]
  rfl

end

/-- Settles O17: each of the nineteen tests its length first, and an unknown code has no other test. -/
theorem misframedAndUnknownRefused : Obligations.MisframedAndUnknownRefused := by
  refine ⟨fun s body hs => ?_, fun s code body hs =>
    congrArg Host.Outcome.next ((takeRequest_spec code invalidCommandAnswer s).2.2 hs)⟩
  refine fun e listed hb => LengthFirst.refuses ?_ hs hb
  clear hb
  revert e
  simp only [List.forall_mem_cons]
  refine ⟨?_, ?_, ?_, ?_, ?_, ?_, ?_, ?_, ?_, ?_, ?_, ?_, ?_, ?_, ?_, ?_, ?_, ?_, ?_, List.forall_mem_nil _⟩
  all_goals exact ⟨by decide, fun _ => ⟨_, fun _ => rfl⟩⟩

end Sys2Proof.Machine

namespace Sys2Proof.Machine

/-! ### The bytes of a result frame (R174) -/

theorem misoByte_status (s : State) :
    misoByte s 1 = BitVec.ofNat 8 (statusNumber s.port.result.status) := rfl

theorem misoByte_length (s : State) (fits : s.port.result.bytes.length ≤ 64) :
    (misoByte s 3).toNat = s.port.result.bytes.length :=
  Nat.mod_eq_of_lt (show _ < 256 by omega)

theorem clockedReleased_of {s : State} {cutAt : Option Nat} {i : Nat} (running : s.running = true)
    (before : ∀ n, cutAt = some n → i < n) : clockedReleased s cutAt i = true := by
  rw [clockedReleased, running, Bool.true_and]
  cases cutAt with
  | none => rfl
  | some n => exact decide_eq_true (before n rfl)

/-- Settles O18: a byte clocked before RST_N is driven, and a result frame shows the record field by field. -/
theorem resultFrameShowsTheRecord : Obligations.ResultFrameShowsTheRecord := by
  intro s i
  refine ⟨rfl, fun cutAt running before => ?_, rfl, ?_, rfl, fun counts => ?_, ?_⟩
  · have driven := clockedReleased_of running before
    exact ⟨if_pos driven, if_pos driven⟩
  · rw [misoByte_status]
    cases s.port.result.status <;> rfl
  · obtain ⟨-, -, -, bytes, -⟩ := counts
    exact misoByte_length s bytes
  · rw [misoByte, Nat.add_comm]
    rfl

end Sys2Proof.Machine

namespace Sys2Proof.Machine

/-! ### IDENTIFY (R178) -/

section
variable {s : State}

theorem exec_identify (hs : s.takesRequests) :
    exec (.identify [0]) s = .next (s.answering .good 0x01 (identifyBytes s)) := by
  refine congrArg Host.Outcome.next (((takeRequest_spec 0x01 (identifyAnswer [0]) s).2.2 hs).trans ?_)
  rw [identifyAnswer, withParams_framed (by decide) noParams_framed, applyAnswer_good]

/-- The latency setting, the lock flag and whether a profile is loaded, as IDENTIFY shows them. -/
def State.settingFlags (s : State) : Nat :=
  (decide (s.link.latency = .long)).toNat + 2 * s.link.locked.toNat + 4 * s.profile.isSome.toNat

/-- The fields of IDENTIFY, in their order. -/
theorem identifyBytes_eq (s : State) : identifyBytes s =
    toBytes 2 0x2150 ++ (toBytes 1 1 ++ (toBytes 1 (modeNumber s.mode) ++ (toBytes 1 s.settingFlags
      ++ (toBytes 2 s.time.prescaler ++ toBytes 4 s.time.tick.toNat)))) := by
  simp only [identifyBytes, tickBytes, List.append_assoc]
  rfl

theorem threeFlags_bits (a b c : Bool) (i : Fin 8) :
    (BitVec.ofNat 8 (a.toNat + 2 * b.toNat + 4 * c.toNat)).getLsbD i = [a, b, c].getD i.val false := by
  revert a b c i
  decide

theorem identifyBytes_flags (s : State) : paramByte (identifyBytes s) 4 = BitVec.ofNat 8 s.settingFlags := by
  simp only [identifyBytes_eq, paramByte_past, paramByte_first, Nat.reduceLeDiff, Nat.reduceSub, Nat.reduceLT,
    Nat.pow_zero, Nat.div_one]

theorem identifyBytes_numbers (s : State) (prescaler : s.time.prescaler ≤ 65535) :
    paramNat (identifyBytes s) 0 2 = 0x2150 ∧ paramNat (identifyBytes s) 2 1 = 1
    ∧ paramNat (identifyBytes s) 3 1 = modeNumber s.mode
    ∧ paramNat (identifyBytes s) 5 2 = s.time.prescaler ∧ paramNat (identifyBytes s) 7 4 = s.time.tick.toNat := by
  have mode : modeNumber s.mode ≤ 3 := by cases s.mode <;> decide
  have tick := s.time.tick.isLt
  simp only [identifyBytes_eq, paramNat_past, paramNat_first, paramNat_whole, Nat.reduceLeDiff, Nat.reduceSub]
  omega

end

/-! ### SENSE (R177) -/

section
variable {s : State}

theorem exec_sense (hs : s.takesRequests) : exec (.sense [0]) s = .next
    ((s.setSense .none 0).answering .good 0x02
      [BitVec.ofNat 8 (senseNumber s.port.sense.code), BitVec.ofNat 8 s.port.sense.offset]) := by
  refine congrArg Host.Outcome.next (((takeRequest_spec 0x02 (senseAnswer [0]) s).2.2 hs).trans ?_)
  rw [senseAnswer, withParams_framed (by decide) noParams_framed, applyAnswer_good]
  rfl

end

/-- Settles O19: the fields of the two results, each within its bytes. -/
theorem identifyAndSenseReport : Obligations.IdentifyAndSenseReport := by
  constructor
  · intro s hs settings
    obtain ⟨-, -, -, -, -, -, -, ⟨-, prescaler⟩, -, -⟩ := settings
    obtain ⟨device, revision, mode, period, tick⟩ := identifyBytes_numbers s prescaler
    refine ⟨identifyBytes s, exec_identify hs, identifyBytes_length s, device, revision, mode.trans ?_, fun b => ?_,
      period, tick⟩
    · cases s.mode <;> rfl
    · rw [identifyBytes_flags]
      refine (threeFlags_bits _ _ _ b).trans ?_
      fin_cases b <;> rfl
  · intro s hs counts
    obtain ⟨-, -, -, -, offset, -⟩ := counts
    refine ⟨_, _, exec_sense hs, Nat.mod_eq_of_lt (show _ < 256 by omega), ?_⟩
    cases s.port.sense.code <;> rfl

end Sys2Proof.Machine

namespace Sys2Proof.Machine

/-! ### The two answers of a step -/

section
variable {s : State}

/-- The command leaves the queue before it runs: `exec` sees the queue's rest only. -/
theorem step_of_pending_cons {c : Instr} {rest : List Instr} (front : s.pending = c :: rest) :
    step s = exec c { s with pending := rest } := by
  rw [step, front]

theorem step_of_pending_nil (empty : s.pending = []) : step s = .next s := by
  rw [step, empty]

end

/-- Settles O1: the equation of a step for a queue with a front, and the one for the empty queue (log 2). -/
theorem stepRunsFrontCommand : Obligations.StepRunsFrontCommand :=
  ⟨fun _ _ _ => step_of_pending_cons, fun _ => step_of_pending_nil⟩

end Sys2Proof.Machine
